-- ==== Sys2Proof/Word.lean ====
section
/-! DEFINITION. The word types of the block and the plainest arithmetic on them (00_scope.md R5, R6). -/

namespace Sys2Proof

/-- One byte, the smallest addressable unit of host memory. -/
abbrev Byte := BitVec 8

/-- A 16-bit quantity: an EEPROM word, a descriptor's length (R50, R111). -/
abbrev Half := BitVec 16

/-- A register (`REG_BITS` = 32, R5). -/
abbrev Word := BitVec 32

/-- A physical address (`ADDR_BITS` = 64, R5). -/
abbrev Addr := BitVec 64

/-- A frame or payload: a byte string in increasing address order (R6). -/
abbrev Frame := List Byte

/-- The size of the host address space in bytes: addresses have 64 bits (R70). -/
def addrSpace : Nat := 2 ^ 64

/-- The ring's whole index arithmetic: `(i + 1) mod N` (R6, R121, R215). -/
def nextIndex (i n : Nat) : Nat := (i + 1) % n

end Sys2Proof
end

