-- ==== Sys2Proof/Config.lean ====
section
/-! DEFINITION. The parameters of the block (00_scope.md R5), the constraints they meet, the reference
configuration, and the free values of `draw(T)` (R7). -/

namespace Sys2Proof

/-- The eighteen registers (10_state.md R22 to R40, 90_conflicts.md C4). -/
inductive Reg where
  | ctrl | status | eerd | rctl | tctl | tipg
  | rdbal | rdbah | rdlen | rdh | rdt
  | tdbal | tdbah | tdlen | tdh | tdt
  | ral | rah
  deriving DecidableEq, Repr

/-- What lets the transmit engine take a slot (`TX_ARM_RULE`, 42_transmit.md R207). -/
inductive TxArmRule where
  | tailGated | flagGated
  deriving DecidableEq, Repr

/-- What lets the receive engine fill a slot (`RX_OFFER_RULE`, 43_receive.md R237). -/
inductive RxOfferRule where
  | flagGated | tailGated
  deriving DecidableEq, Repr

/-- A contiguous range: its first address and its size in bytes, or the lowest bit of a field and its width. -/
abbrev Region := Nat × Nat

/-- Two ranges share no element. -/
abbrev Region.Disjoint (r q : Region) : Prop := r.1 + r.2 ≤ q.1 ∨ q.1 + q.2 ≤ r.1

/-- The offset of each register inside the window (30_encoding.md R102; 93 G2). -/
structure RegMap where
  ctrl : Nat
  status : Nat
  eerd : Nat
  rctl : Nat
  tctl : Nat
  tipg : Nat
  rdbal : Nat
  rdbah : Nat
  rdlen : Nat
  rdh : Nat
  rdt : Nat
  tdbal : Nat
  tdbah : Nat
  tdlen : Nat
  tdh : Nat
  tdt : Nat
  ral : Nat
  rah : Nat
  deriving DecidableEq, Repr

/-- The lowest bit of every field of a register (R104 to R106, R108 to R110; 93 G3 to G7) and the bit of every flag of
a descriptor byte (R113 to R115; 93 G9). The fields' widths are those of the same rules. -/
structure Layout where
  /-- EERD: `START`, `DONE`, `ADDR` (8 bits), `DATA` (16 bits). -/
  eerdStart : Nat
  eerdDone : Nat
  eerdAddr : Nat
  eerdData : Nat
  /-- TCTL: `EN`, `PSP`, `CT` (8 bits), `COLD` (10 bits). -/
  tctlEn : Nat
  tctlPsp : Nat
  tctlCt : Nat
  tctlCold : Nat
  /-- TIPG: `IPGT`, `IPGR1`, `IPGR2` (10 bits each). -/
  tipgIpgt : Nat
  tipgIpgr1 : Nat
  tipgIpgr2 : Nat
  /-- RCTL: `EN`, `BSIZE` (2 bits), `SECRC`. -/
  rctlEn : Nat
  rctlBsize : Nat
  rctlSecrc : Nat
  /-- RAL and RAH: the bytes `mac[0]` to `mac[5]`, and `AV`. -/
  ralMac0 : Nat
  ralMac1 : Nat
  ralMac2 : Nat
  ralMac3 : Nat
  rahMac4 : Nat
  rahMac5 : Nat
  rahAv : Nat
  /-- The completion flag in the status byte of a transmit and of a receive descriptor. -/
  txDone : Nat
  rxDone : Nat
  /-- `EOP` and `RS` in the command byte of a transmit descriptor. -/
  cmdEop : Nat
  cmdRs : Nat
  deriving DecidableEq, Repr

namespace Layout

/-- The fields of each register, with their widths. Every other bit is reserved or not modelled. -/
def eerdFields (l : Layout) : List Region := [(l.eerdStart, 1), (l.eerdDone, 1), (l.eerdAddr, 8), (l.eerdData, 16)]
def tctlFields (l : Layout) : List Region := [(l.tctlEn, 1), (l.tctlPsp, 1), (l.tctlCt, 8), (l.tctlCold, 10)]
def tipgFields (l : Layout) : List Region := [(l.tipgIpgt, 10), (l.tipgIpgr1, 10), (l.tipgIpgr2, 10)]
def rctlFields (l : Layout) : List Region := [(l.rctlEn, 1), (l.rctlBsize, 2), (l.rctlSecrc, 1)]
def ralFields (l : Layout) : List Region := [(l.ralMac0, 8), (l.ralMac1, 8), (l.ralMac2, 8), (l.ralMac3, 8)]
def rahFields (l : Layout) : List Region := [(l.rahMac4, 8), (l.rahMac5, 8), (l.rahAv, 1)]

/-- The fields of one register lie inside its 32 bits and are distinct. -/
abbrev FieldsFit (fs : List Region) : Prop := (∀ f ∈ fs, f.1 + f.2 ≤ 32) ∧ fs.Pairwise Region.Disjoint

/-- What the rules need of the positions: "only ... the fields being distinct" (30_encoding.md, its head); that each
lies inside its register or byte, and RS apart from EOP, is DEDUCED (assumption 1). -/
structure WF (l : Layout) : Prop where
  eerd : FieldsFit l.eerdFields
  tctl : FieldsFit l.tctlFields
  tipg : FieldsFit l.tipgFields
  rctl : FieldsFit l.rctlFields
  ral : FieldsFit l.ralFields
  rah : FieldsFit l.rahFields
  txDone : l.txDone < 8
  rxDone : l.rxDone < 8
  commands : l.cmdEop < 8 ∧ l.cmdRs < 8 ∧ l.cmdRs ≠ l.cmdEop

/-- The positions of R104 to R106, R108 to R110 and R113 to R115. -/
def reference : Layout where
  eerdStart := 0
  eerdDone := 4
  eerdAddr := 8
  eerdData := 16
  tctlEn := 1
  tctlPsp := 3
  tctlCt := 4
  tctlCold := 12
  tipgIpgt := 0
  tipgIpgr1 := 10
  tipgIpgr2 := 20
  rctlEn := 1
  rctlBsize := 16
  rctlSecrc := 26
  ralMac0 := 0
  ralMac1 := 8
  ralMac2 := 16
  ralMac3 := 24
  rahMac4 := 0
  rahMac5 := 8
  rahAv := 31
  txDone := 0
  rxDone := 0
  cmdEop := 0
  cmdRs := 3

end Layout

/-- The parameters of R5, every row a field, and those that 93 G1 to G16 add to them. -/
structure Config where
  /-- `N_TX`, transmit ring slots. -/
  nTx : Nat
  /-- `N_RX`, receive ring slots. -/
  nRx : Nat
  /-- `TX_BUF_SIZE`, bytes per transmit packet buffer. -/
  txBufSize : Nat
  /-- `RX_BUF_SIZE`, bytes per receive packet buffer. -/
  rxBufSize : Nat
  /-- `DESC_SIZE`, bytes per descriptor of either ring (R111, R112). -/
  descSize : Nat
  /-- `MAX_FRAME_LEN`, the largest payload TRANSMIT accepts. -/
  maxFrameLen : Nat
  /-- `RX_MIN_LEN`, the smallest frame the receive engine deposits. -/
  rxMinLen : Nat
  /-- `ADDR_BITS`, width of a physical address. -/
  addrBits : Nat
  /-- `REG_BITS`, width of every register. -/
  regBits : Nat
  /-- `EEPROM_MAC_WORDS`, the three word addresses ATTACH reads, in order. -/
  macWord0 : BitVec 8
  macWord1 : BitVec 8
  macWord2 : BitVec 8
  /-- `eeprom`, word address to 16 bits (R50); read-only. -/
  eeprom : Vector Half 256
  /-- The register offsets. -/
  regMap : RegMap
  /-- The register bit positions and the descriptor flag bit positions. -/
  layout : Layout
  /-- `TCTL_CT`, `TCTL_COLD`, `TIPG_VALUE`: what ATTACH programs (R105, R106). -/
  tctlCt : BitVec 8
  tctlCold : BitVec 10
  tipgValue : Word
  /-- The code of RCTL's `BSIZE` that means `RX_BUF_SIZE` (R108; 93 G6). -/
  bsizeCode : BitVec 2
  /-- `REG_BASE`, physical base of the register window. -/
  regBase : Addr
  /-- `REG_WINDOW_SIZE`, bytes of the register window. -/
  regWindowSize : Nat
  /-- `TX_DESC_BASE` and `RX_DESC_BASE`, physical base of each descriptor array. -/
  txDescBase : Addr
  rxDescBase : Addr
  /-- The alignment of a descriptor array in bytes (R75, R107; 93 G8). -/
  ringAlign : Nat
  /-- Bytes per unit of a ring length register (R107; 93 G8). -/
  ringUnit : Nat
  /-- `TX_BUF_BASE(i)` and `RX_BUF_BASE(i)`, listed by slot. -/
  txBufBases : List Addr
  rxBufBases : List Addr
  /-- `PAGE_SIZE`, bytes of a message buffer. -/
  pageSize : Nat
  /-- Bytes of a message's `len`, which begins the page; `data` follows it (R117; 93 G14). -/
  msgLenBytes : Nat
  /-- The pages message buffers are taken from in host memory (R70, R262): the address of the first, and how many a
  64-bit address reaches. -/
  poolBase : Addr
  poolPages : Nat
  txArmRule : TxArmRule
  rxOfferRule : RxOfferRule
  deriving DecidableEq, Repr

namespace Config

/-- `TX_BUF_BASE(i)`. -/
def txBufBase (c : Config) (i : Nat) : Addr := c.txBufBases.getD i 0

/-- `RX_BUF_BASE(i)`. -/
def rxBufBase (c : Config) (i : Nat) : Addr := c.rxBufBases.getD i 0

/-- The register window (R70). -/
def windowRegion (c : Config) : Region := (c.regBase.toNat, c.regWindowSize)

/-- The regions of 20_memory.md R71. -/
def txDescRegion (c : Config) : Region := (c.txDescBase.toNat, c.nTx * c.descSize)
def rxDescRegion (c : Config) : Region := (c.rxDescBase.toNat, c.nRx * c.descSize)
def txBufRegion (c : Config) (i : Nat) : Region := ((c.txBufBase i).toNat, c.txBufSize)
def rxBufRegion (c : Config) (i : Nat) : Region := ((c.rxBufBase i).toNat, c.rxBufSize)

/-- What R71 lists: the two descriptor arrays and every packet buffer. -/
def ringRegions (c : Config) : List Region :=
  c.txDescRegion :: c.rxDescRegion :: ((List.range c.nTx).map c.txBufRegion ++ (List.range c.nRx).map c.rxBufRegion)

/-- With the register window, which R5 keeps apart from them. -/
def regions (c : Config) : List Region := c.windowRegion :: c.ringRegions

/-- The pages of the message buffers that host memory holds (R70). -/
def poolRegion (c : Config) : Region := (c.poolBase.toNat, c.poolPages * c.pageSize)

/-- The offsets of R102, in its order. -/
def offsets (c : Config) : List Nat :=
  let m := c.regMap
  [m.ctrl, m.status, m.eerd, m.rctl, m.tctl, m.tipg, m.rdbal, m.rdbah, m.rdlen, m.rdh, m.rdt,
   m.tdbal, m.tdbah, m.tdlen, m.tdh, m.tdt, m.ral, m.rah]

/-- The constraints R5 itself lists on the sizes and regions. -/
abbrev SizesFit (c : Config) : Prop :=
  1 ≤ c.nTx ∧ 1 ≤ c.nRx ∧ c.maxFrameLen ≤ c.txBufSize ∧ c.txBufSize < 2 ^ 16 ∧ c.rxBufSize < 2 ^ 16 ∧
  c.nTx * c.descSize < 2 ^ 32 ∧ c.nRx * c.descSize < 2 ^ 32 ∧ c.regions.Pairwise Region.Disjoint

/-- The constraints other rules put on the parameters, and those the model adds. Stated: a frame fits a page (R117),
the descriptor bases are aligned (R75, R107), there is one buffer per slot (R48). DEDUCED (assumption 1): a slot index
fits 16 bits (R107), `RX_MIN_LEN` admits a frame (R53), a message's length field holds `RX_BUF_SIZE` (R266), TIPG's
reserved bits are 0 (R106, R122), a descriptor holds its fields (R111, R112), every region ends inside the address
space (R71). DESIGN CHOICE (assumptions 1, 27): the alignment divides a register's range, the widths are those of the
types. -/
abbrev RowsFit (c : Config) : Prop :=
  c.nTx ≤ 2 ^ 16 ∧ c.nRx ≤ 2 ^ 16 ∧ c.rxMinLen ≤ c.rxBufSize ∧ c.msgLenBytes + c.rxBufSize ≤ c.pageSize ∧
  c.rxBufSize < 256 ^ c.msgLenBytes ∧
  c.txDescBase.toNat % c.ringAlign = 0 ∧ c.rxDescBase.toNat % c.ringAlign = 0 ∧ c.ringAlign ∣ 2 ^ 32 ∧
  (∀ i < 32, c.tipgValue.getLsbD i = true → ∃ f ∈ c.layout.tipgFields, f.1 ≤ i ∧ i < f.1 + f.2) ∧
  16 ≤ c.descSize ∧ c.txBufBases.length = c.nTx ∧ c.rxBufBases.length = c.nRx ∧
  (∀ r ∈ c.regions, r.1 + r.2 ≤ 2 ^ c.addrBits) ∧ c.addrBits = 64 ∧ c.regBits = 32

/-- The offsets are distinct, word-aligned (R75) and inside the window, which an 18-bit selector can name (R101;
DEDUCED, assumption 1). -/
abbrev OffsetsFit (c : Config) : Prop :=
  c.offsets.Nodup ∧ (∀ o ∈ c.offsets, o % 4 = 0 ∧ o < c.regWindowSize) ∧ c.regWindowSize ≤ 2 ^ 17

/-- A descriptor is a whole number of the ring length register's units, so that the register can hold `N × DESC_SIZE`
bytes (R107; DEDUCED, assumption 1). -/
abbrev UnitFits (c : Config) : Prop := 0 < c.ringUnit ∧ c.ringUnit ∣ c.descSize

/-- The pages of the message buffers lie in host memory apart from what the device and the registers occupy: "the
device never addresses them" (R70, R71; DEDUCED, assumption 16). -/
abbrev PoolFits (c : Config) : Prop :=
  (∀ r ∈ c.regions, Region.Disjoint c.poolRegion r) ∧ c.poolRegion.1 + c.poolRegion.2 ≤ 2 ^ c.addrBits

/-- A configuration the rules can be read with. -/
structure WF (c : Config) : Prop where
  sizes : c.SizesFit
  rows : c.RowsFit
  map : c.OffsetsFit
  unit : c.UnitFits
  pool : c.PoolFits
  fields : c.layout.WF

/-- The reference sizing of R5. The OPEN rows (`eeprom`, `REG_BASE`, ring and buffer addresses) and the pool's pages
have no value in the spec: the ones here are a DESIGN CHOICE (assumptions 1, 16), the ring and buffer addresses those
of 95_test_vectors.md V01. -/
def reference : Config where
  nTx := 64
  nRx := 128
  txBufSize := 1518
  rxBufSize := 2048
  descSize := 16
  maxFrameLen := 1518
  rxMinLen := 0
  addrBits := 64
  regBits := 32
  macWord0 := 0
  macWord1 := 1
  macWord2 := 2
  eeprom := Vector.replicate 256 0
  regMap := {
    ctrl := 0x00000, status := 0x00008, eerd := 0x00014, rctl := 0x00100, tctl := 0x00400, tipg := 0x00410
    rdbal := 0x02800, rdbah := 0x02804, rdlen := 0x02808, rdh := 0x02810, rdt := 0x02818
    tdbal := 0x03800, tdbah := 0x03804, tdlen := 0x03808, tdh := 0x03810, tdt := 0x03818
    ral := 0x05400, rah := 0x05404 }
  layout := Layout.reference
  tctlCt := 0x10
  tctlCold := 0x40
  tipgValue := 0x0060200A
  bsizeCode := 0
  regBase := 0xF0000000
  regWindowSize := 0x20000
  txDescBase := 0x00200000
  rxDescBase := 0x00201000
  ringAlign := 16
  ringUnit := 1
  txBufBases := (List.range 64).map fun i => BitVec.ofNat 64 (0x00300000 + 0x800 * i)
  rxBufBases := (List.range 128).map fun i => BitVec.ofNat 64 (0x00400000 + 0x800 * i)
  pageSize := 4096
  msgLenBytes := 4
  poolBase := 0x100000000
  poolPages := 2 ^ 52 - 2 ^ 20
  txArmRule := .tailGated
  rxOfferRule := .flagGated

/-- The free values of `draw(u8)`, `draw(u16)` and `draw(u32)` (R7): the k-th draw of a run is a value nothing
constrains (assumption 8). No body: nothing can evaluate one. -/
opaque draw8 : Nat → Byte
opaque draw16 : Nat → Half
opaque draw32 : Nat → Word

end Config

end Sys2Proof
end

