-- ==== Sys2Proof/Syntax.lean ====
section
/-! DEFINITION. The operations of the block: one constructor per row of spec/opcode_table.json, in the table's
order (30_encoding.md R102, R120, R125). -/

namespace Sys2Proof

/-- An operation with its operands. `v` is the 32 bits of write data of a register write (R101). -/
inductive Instr where
  | rdCtrl
  | wrCtrl (v : Word)
  | rdStatus
  | wrStatus (v : Word)
  | rdEerd
  | wrEerd (v : Word)
  | rdRctl
  | wrRctl (v : Word)
  | rdTctl
  | wrTctl (v : Word)
  | rdTipg
  | wrTipg (v : Word)
  | rdRdbal
  | wrRdbal (v : Word)
  | rdRdbah
  | wrRdbah (v : Word)
  | rdRdlen
  | wrRdlen (v : Word)
  | rdRdh
  | wrRdh (v : Word)
  | rdRdt
  | wrRdt (v : Word)
  | rdTdbal
  | wrTdbal (v : Word)
  | rdTdbah
  | wrTdbah (v : Word)
  | rdTdlen
  | wrTdlen (v : Word)
  | rdTdh
  | wrTdh (v : Word)
  | rdTdt
  | wrTdt (v : Word)
  | rdRal
  | wrRal (v : Word)
  | rdRah
  | wrRah (v : Word)
  /-- `attach(deviceHandle)`, R185; the handle is opaque (R57). -/
  | attach (deviceHandle : Addr)
  /-- `EERD_READ_WORD(a)`, R180. -/
  | eerdReadWord (a : BitVec 8)
  /-- `transmit(payload)`, R200. -/
  | transmit (payload : Frame)
  /-- `receive(outBuffer)`, R230: the caller's array as it is before the call; its length is its capacity. -/
  | receive (outBuffer : List Byte)
  | txFetch
  | txComplete
  | rxDeposit
  | rxDrop
  | eeComplete
  | inBridgeIter
  | outBridgeIter
  deriving DecidableEq, Repr

end Sys2Proof
end

