-- ==== Sys2Proof/WellFormed.lean ====
section
/-! DEFINITION. When an operation's operands are ones the machine can be given. -/

namespace Sys2Proof

/-- Every operand of fixed width is well formed by its type. A byte string lies in the 64-bit address space
(20_memory.md R70), so its length is below 2^64; R201 sets no smaller bound (an oversize payload is an ordinary
operand that TRANSMIT answers `PayloadTooLarge`). -/
def Instr.wellFormed : Instr → Bool
  | .transmit payload => payload.length < addrSpace
  | .receive outBuffer => outBuffer.length < addrSpace
  | .rdCtrl | .rdStatus | .rdEerd | .rdRctl | .rdTctl | .rdTipg
  | .rdRdbal | .rdRdbah | .rdRdlen | .rdRdh | .rdRdt
  | .rdTdbal | .rdTdbah | .rdTdlen | .rdTdh | .rdTdt | .rdRal | .rdRah => true
  | .wrCtrl _ | .wrStatus _ | .wrEerd _ | .wrRctl _ | .wrTctl _ | .wrTipg _
  | .wrRdbal _ | .wrRdbah _ | .wrRdlen _ | .wrRdh _ | .wrRdt _
  | .wrTdbal _ | .wrTdbah _ | .wrTdlen _ | .wrTdh _ | .wrTdt _ | .wrRal _ | .wrRah _ => true
  | .attach _ | .eerdReadWord _ => true
  | .txFetch | .txComplete | .rxDeposit | .rxDrop | .eeComplete | .inBridgeIter | .outBridgeIter => true

end Sys2Proof
end

