-- ==== Sys2Proof/Decode.lean ====
section
/-! DEFINITION. Decoding an operation record and encoding one (30_encoding.md R100 to R102, R120, R122, R175).
The block decodes no instruction words: a record is one bus transaction (`MMIO32`) or one operation id with its
operands (`OPID`). The selector's and ids' bits are the spec's; how operand bytes follow them is the model's
DESIGN CHOICE (assumption 5); where a register lies is the configuration's (`Config.regMap`). -/

namespace Sys2Proof

/-- The two formats that select an operation. A bus transaction has the width of its access in bytes, so that an
access of another width can be written down and refused (R175). -/
inductive Format where
  | mmio (width : Nat)
  | opid
  deriving DecidableEq, Repr

/-- An operation as the schedule holds it: its format and its bytes, the first at the lowest address. -/
structure Record where
  format : Format
  bytes : List Byte
  deriving DecidableEq, Repr

/-- Why a record is no operation. The first three are bus accesses outside the register map, which the spec refuses
(R175); the others are records the model's own layout does not have. -/
inductive DecodeError where
  /-- An offset that is no register's (R102, R175). -/
  | unlistedOffset (offset : Nat)
  /-- An offset that is no multiple of 4 (R75, R175). -/
  | misaligned (offset : Nat)
  /-- An access that is not `REG_BITS` = 32 bits wide (R76, R175). -/
  | accessWidth (width : Nat)
  /-- A selector of more than 18 bits (R101). -/
  | selectorRange
  /-- Fewer bytes than the header has. -/
  | truncated
  /-- The bytes after the header are not the operand's. -/
  | operandLength
  /-- An operation id that is not in R120. -/
  | undefinedOpid (id : Byte)
  deriving DecidableEq, Repr

/-- The eighteen registers in the order of R102. -/
def Reg.all : List Reg :=
  [.ctrl, .status, .eerd, .rctl, .tctl, .tipg, .rdbal, .rdbah, .rdlen, .rdh, .rdt,
   .tdbal, .tdbah, .tdlen, .tdh, .tdt, .ral, .rah]

/-- The offset of a register inside the window (R102). -/
def Reg.offset (c : Config) : Reg → Nat
  | .ctrl => c.regMap.ctrl
  | .status => c.regMap.status
  | .eerd => c.regMap.eerd
  | .rctl => c.regMap.rctl
  | .tctl => c.regMap.tctl
  | .tipg => c.regMap.tipg
  | .rdbal => c.regMap.rdbal
  | .rdbah => c.regMap.rdbah
  | .rdlen => c.regMap.rdlen
  | .rdh => c.regMap.rdh
  | .rdt => c.regMap.rdt
  | .tdbal => c.regMap.tdbal
  | .tdbah => c.regMap.tdbah
  | .tdlen => c.regMap.tdlen
  | .tdh => c.regMap.tdh
  | .tdt => c.regMap.tdt
  | .ral => c.regMap.ral
  | .rah => c.regMap.rah

/-- The register at an offset, if the map has one there. -/
def Reg.ofOffset (c : Config) (offset : Nat) : Option Reg := Reg.all.find? fun r => r.offset c == offset

/-- The read operation of a register. -/
def Reg.readOp : Reg → Instr
  | .ctrl => .rdCtrl
  | .status => .rdStatus
  | .eerd => .rdEerd
  | .rctl => .rdRctl
  | .tctl => .rdTctl
  | .tipg => .rdTipg
  | .rdbal => .rdRdbal
  | .rdbah => .rdRdbah
  | .rdlen => .rdRdlen
  | .rdh => .rdRdh
  | .rdt => .rdRdt
  | .tdbal => .rdTdbal
  | .tdbah => .rdTdbah
  | .tdlen => .rdTdlen
  | .tdh => .rdTdh
  | .tdt => .rdTdt
  | .ral => .rdRal
  | .rah => .rdRah

/-- The write operation of a register. -/
def Reg.writeOp : Reg → Word → Instr
  | .ctrl => .wrCtrl
  | .status => .wrStatus
  | .eerd => .wrEerd
  | .rctl => .wrRctl
  | .tctl => .wrTctl
  | .tipg => .wrTipg
  | .rdbal => .wrRdbal
  | .rdbah => .wrRdbah
  | .rdlen => .wrRdlen
  | .rdh => .wrRdh
  | .rdt => .wrRdt
  | .tdbal => .wrTdbal
  | .tdbah => .wrTdbah
  | .tdlen => .wrTdlen
  | .tdh => .wrTdh
  | .tdt => .wrTdt
  | .ral => .wrRal
  | .rah => .wrRah

/-- The `n` low bytes of `v`, least significant first (R74). -/
def leBytes : Nat → Nat → List Byte
  | 0, _ => []
  | n + 1, v => BitVec.ofNat 8 v :: leBytes n (v / 256)

/-- The unsigned integer of a byte string, least significant byte first (R7, R74). -/
def leValue : List Byte → Nat
  | [] => 0
  | b :: bs => b.toNat + 256 * leValue bs

/-- A bus transaction: an 18-bit selector in three bytes, then the write data (R101). -/
def decodeMmio (c : Config) (width : Nat) : List Byte → Except DecodeError Instr
  | b0 :: b1 :: b2 :: data =>
    let sel := leValue [b0, b1, b2]
    let offset := sel % 2 ^ 17
    if 2 ^ 18 ≤ sel then .error .selectorRange
    else if width * 8 ≠ c.regBits then .error (.accessWidth width)
    else if offset % 4 ≠ 0 then .error (.misaligned offset)
    else match Reg.ofOffset c offset with
      | none => .error (.unlistedOffset offset)
      | some r =>
        if sel / 2 ^ 17 = 0 then
          if data = [] then .ok r.readOp else .error .operandLength
        else
          if data.length = width then .ok (r.writeOp (BitVec.ofNat 32 (leValue data)))
          else .error .operandLength
  | _ => .error .truncated

/-- A byte-string operand: its length in eight bytes, then its bytes (assumption 5). -/
def decodeCounted (k : List Byte → Instr) (rest : List Byte) : Except DecodeError Instr :=
  if 8 ≤ rest.length ∧ leValue (rest.take 8) = (rest.drop 8).length then .ok (k (rest.drop 8))
  else .error .operandLength

/-- An operation with no operand bytes. -/
def decodeBare (i : Instr) (rest : List Byte) : Except DecodeError Instr :=
  if rest = [] then .ok i else .error .operandLength

/-- An operation selected by its id (R120). -/
def decodeOpid : List Byte → Except DecodeError Instr
  | [] => .error .truncated
  | op :: rest =>
    if op = 0x01 then
      if rest.length = 8 then .ok (.attach (BitVec.ofNat 64 (leValue rest))) else .error .operandLength
    else if op = 0x02 then
      if rest.length = 1 then .ok (.eerdReadWord (BitVec.ofNat 8 (leValue rest)))
      else .error .operandLength
    else if op = 0x03 then decodeCounted .transmit rest
    else if op = 0x04 then decodeCounted .receive rest
    else if op = 0x10 then decodeBare .txFetch rest
    else if op = 0x11 then decodeBare .txComplete rest
    else if op = 0x12 then decodeBare .rxDeposit rest
    else if op = 0x13 then decodeBare .rxDrop rest
    else if op = 0x14 then decodeBare .eeComplete rest
    else if op = 0x20 then decodeBare .inBridgeIter rest
    else if op = 0x21 then decodeBare .outBridgeIter rest
    else .error (.undefinedOpid op)

/-- The operation of a record under a configuration's register map. Total: any bytes give an operation or a named
reason. -/
def decode (c : Config) (r : Record) : Except DecodeError Instr :=
  match r.format with
  | .mmio width => decodeMmio c width r.bytes
  | .opid => decodeOpid r.bytes

/-- A bus read at an 18-bit selector, and a bus write with its 32 bits of data (R101). -/
def readRecord (selector : Nat) : Record := ⟨.mmio 4, leBytes 3 selector⟩
def writeRecord (selector : Nat) (v : Word) : Record := ⟨.mmio 4, leBytes 3 selector ++ leBytes 4 v.toNat⟩

/-- A read transaction: `rw` = 0 (R101). -/
def encodeRead (c : Config) (r : Reg) : Record := readRecord (r.offset c)

/-- A write transaction: `rw` = 1 (R101). -/
def encodeWrite (c : Config) (r : Reg) (v : Word) : Record := writeRecord (2 ^ 17 + r.offset c) v

/-- An id with its operand bytes (R120). -/
def encodeOpid (id : Byte) (operand : List Byte) : Record := ⟨.opid, id :: operand⟩

/-- A byte string with its length before it (assumption 5). -/
def encodeCounted (bs : List Byte) : List Byte := leBytes 8 bs.length ++ bs

/-- The record of an operation under a configuration's register map. -/
def encode (c : Config) : Instr → Record
  | .rdCtrl => encodeRead c .ctrl
  | .wrCtrl v => encodeWrite c .ctrl v
  | .rdStatus => encodeRead c .status
  | .wrStatus v => encodeWrite c .status v
  | .rdEerd => encodeRead c .eerd
  | .wrEerd v => encodeWrite c .eerd v
  | .rdRctl => encodeRead c .rctl
  | .wrRctl v => encodeWrite c .rctl v
  | .rdTctl => encodeRead c .tctl
  | .wrTctl v => encodeWrite c .tctl v
  | .rdTipg => encodeRead c .tipg
  | .wrTipg v => encodeWrite c .tipg v
  | .rdRdbal => encodeRead c .rdbal
  | .wrRdbal v => encodeWrite c .rdbal v
  | .rdRdbah => encodeRead c .rdbah
  | .wrRdbah v => encodeWrite c .rdbah v
  | .rdRdlen => encodeRead c .rdlen
  | .wrRdlen v => encodeWrite c .rdlen v
  | .rdRdh => encodeRead c .rdh
  | .wrRdh v => encodeWrite c .rdh v
  | .rdRdt => encodeRead c .rdt
  | .wrRdt v => encodeWrite c .rdt v
  | .rdTdbal => encodeRead c .tdbal
  | .wrTdbal v => encodeWrite c .tdbal v
  | .rdTdbah => encodeRead c .tdbah
  | .wrTdbah v => encodeWrite c .tdbah v
  | .rdTdlen => encodeRead c .tdlen
  | .wrTdlen v => encodeWrite c .tdlen v
  | .rdTdh => encodeRead c .tdh
  | .wrTdh v => encodeWrite c .tdh v
  | .rdTdt => encodeRead c .tdt
  | .wrTdt v => encodeWrite c .tdt v
  | .rdRal => encodeRead c .ral
  | .wrRal v => encodeWrite c .ral v
  | .rdRah => encodeRead c .rah
  | .wrRah v => encodeWrite c .rah v
  | .attach h => encodeOpid 0x01 (leBytes 8 h.toNat)
  | .eerdReadWord a => encodeOpid 0x02 [a]
  | .transmit payload => encodeOpid 0x03 (encodeCounted payload)
  | .receive outBuffer => encodeOpid 0x04 (encodeCounted outBuffer)
  | .txFetch => encodeOpid 0x10 []
  | .txComplete => encodeOpid 0x11 []
  | .rxDeposit => encodeOpid 0x12 []
  | .rxDrop => encodeOpid 0x13 []
  | .eeComplete => encodeOpid 0x14 []
  | .inBridgeIter => encodeOpid 0x20 []
  | .outBridgeIter => encodeOpid 0x21 []

/-- How many operand bytes follow an id when every operand bit is 0 (assumption 5). -/
def opidOperandBytes (id : Byte) : Nat :=
  if id = 0x01 ∨ id = 0x03 ∨ id = 0x04 then 8 else if id = 0x02 then 1 else 0

/-- The record of an operation whose bits, numbered as spec/opcode_table.json numbers them, are `w`: `nbits` is 8 for
an id and 24 for an 18-bit selector of the reference register map. All operand bits above `nbits` are 0. -/
def tableRecord (nbits w : Nat) : Record :=
  if nbits ≤ 8 then
    let id := BitVec.ofNat 8 w
    ⟨.opid, id :: List.replicate (opidOperandBytes id) 0⟩
  else if w / 2 ^ 17 % 2 = 1 then ⟨.mmio 4, leBytes 7 w⟩
  else ⟨.mmio 4, leBytes (max 3 ((nbits + 7) / 8)) w⟩

/-- What the decoder reads from the operation whose bits are `w`, under the register map of R102 that the table has.
-/
def decodeTableWord (nbits w : Nat) : Option Instr :=
  match decode Config.reference (tableRecord nbits w) with
  | .ok i => some i
  | .error _ => none

end Sys2Proof
end

