-- ==== Sys2Proof/Machine/State.lean ====
section
/-! DEFINITION. The state of the block (10_state.md R20 to R59) and of its host side (R54, R55), the reasons a step
can stop, and the state after reset (70_reset_and_hazards.md R320). Plain data throughout. -/

namespace Sys2Proof.Machine

/-- The situations to which the spec gives no meaning (`refuse`: R7, R56; listed in R122 and R311). Each sets the mark
`refused` of the state and changes nothing else; the step that sets it is an ordinary next state, and no step follows
it (assumption 4). -/
inductive Refuse where
  /-- An operation other than ATTACH, or an access that is not one inside ATTACH, with `attached` false (R58, R294,
  R320). -/
  | unattached
  /-- Any software operation after ATTACH returned `AttachFailure` (R188, R294, 93 U5). -/
  | afterAttachFailure
  /-- A second software context enters an operation while one is in progress (R307). -/
  | concurrentCaller
  /-- ATTACH on an attached device (R190). -/
  | secondAttach
  /-- An access to CTRL (R141). -/
  | controlAccess
  /-- An access to STATUS (R142). -/
  | statusAccess
  /-- A bus access outside the register map, of another width, or misaligned (R175). -/
  | busAccess (e : DecodeError)
  /-- A write of EERD with START = 0 or while a read is pending (R143). -/
  | eerdMisuse
  /-- A reserved or not-modelled register bit written as 1 (R122). -/
  | reservedBits
  /-- A BSIZE code that does not mean RX_BUF_SIZE: any but 00 (R108). -/
  | bufferSizeCode
  /-- A ring base, length or head written while its engine is enabled (R147 to R150, R160 to R163). -/
  | ringWhileEnabled
  /-- A ring base that is not aligned (R75, R147, R160). -/
  | ringBaseAlignment
  /-- A ring length other than N × DESC_SIZE (R149, R162). -/
  | ringLength
  /-- A head written with a value other than 0, or after ATTACH (R150, R163). -/
  | headWrite
  /-- A head, tail or software tail that is no slot index (R122, R152, R164). -/
  | slotIndex
  /-- An engine enabled before its registers are programmed (R145, R159, R187). -/
  | notProgrammed
  /-- An enable bit cleared after ATTACH (R145, R159). -/
  | enableCleared
  /-- RAL written a second time or after ATTACH, RAH written a second time, before RAL or after ATTACH (R171, R172,
  R49). -/
  | stationAddressWrite
  /-- ATTACH rewriting a slot that the hardware owns while its engine is enabled, or has fetched (R83, R84, R203). -/
  | hardwareSlot
  /-- A transmit descriptor at the engine's head whose `cmd` is not RS and EOP alone (R204, R211). -/
  | txDescriptor
  /-- A caller's buffer of fewer than RX_BUF_SIZE bytes (R240, D22). -/
  | outBufferTooSmall
  /-- A received length above RX_BUF_SIZE (R241). -/
  | rxLength
  /-- A frame at the head of `wire_in` whose length is out of range (R53, R234). -/
  | frameLength
  /-- A message whose `len` runs past its page (R117). -/
  | messageBeyondPage
  deriving DecidableEq, Repr

/-- Why the machine stops with a fault. -/
inductive Fault where
  /-- TX_FETCH, TX_COMPLETE or RX_DEPOSIT would divide by a ring size (`TDLEN` / DESC_SIZE, `RDLEN` / DESC_SIZE) of
  zero; R215 says no such value arises. Safe: the machine stops where the spec gives no meaning (assumption 20). -/
  | ringSizeZero
  deriving DecidableEq, Repr

/-- Why `step` has no meaning. No meaning of an operation answers one. -/
inductive Refusal where
  /-- An operation without a meaning (Machine/Dispatch). Safe. -/
  | notModelled (mnemonic : String)
  /-- `step`, from a state that bears the mark `refused` (R56). Safe: nothing is claimed of what follows. -/
  | markedRefused (why : Refuse)
  /-- `step`, for a record that is no operation and no bus access (assumption 5). Safe. -/
  | undecodable (e : DecodeError)
  /-- `step`, for a move the spec's ENV does not have: a frame of a length out of range, a message that is no page, a
  message before ATTACH (R53, R117, R322; assumption 18). Safe. -/
  | envNotAdmitted
  deriving DecidableEq, Repr

/-- The error kinds of 60_exceptions.md R290. -/
inductive ErrKind where
  | payloadTooLarge | queueFull | queueEmpty | attachFailure | protocolViolation | fatalIoError
  deriving DecidableEq, Repr

/-- The result of a driver operation (R119). -/
inductive Result where
  | ok
  | okCount (n : Nat)
  | okWord (w : Half)
  | err (e : ErrKind)
  deriving DecidableEq, Repr

/-- The driver operations (R9, layer L2). -/
inductive DriverOp where
  | attach | eerdReadWord | transmit | receive
  deriving DecidableEq, Repr

/-- A result with the operation that returned it. -/
structure OpResult where
  op : DriverOp
  result : Result
  deriving DecidableEq, Repr

/-- Message tags (30_encoding.md R118). -/
inductive Tag where
  | inputAvailable | outputRequest | other
  deriving DecidableEq, Repr

/-- A message buffer: the number of its page of the pool, which is unbounded (R54, R262). Its bytes are in host memory
(R70, R117); the number stands in the state where the buffer's one owner is, so handing the buffer over is moving the
number (assumption 16). -/
abbrev Buf := Nat

/-- A message on a channel (R54, R261). -/
structure Message where
  tag : Tag
  buf : Buf
  deriving DecidableEq, Repr

/-- What made a `FatalIoError` (R296). -/
inductive IoCause where
  | acquireFailed | sendFailed | recvFailed
  | transmitError (e : ErrKind)
  deriving DecidableEq, Repr

/-- What a fatal mark records: the kind and its info (R290, R298). -/
inductive Fatal where
  | protocolViolation (tag : Tag)
  | fatalIoError (cause : IoCause)
  deriving DecidableEq, Repr

/-- `ib_phase` (R55). -/
inductive IbPhase where
  | acquire
  | polling (buf : Buf)
  deriving DecidableEq, Repr

/-- `ob_phase` (R55). -/
inductive ObPhase where
  | waiting
  | sending (buf : Buf)
  deriving DecidableEq, Repr

/-- Where SW stands inside ATTACH: the access it makes next (R186; the number is the step of R186). -/
inductive AttachStage where
  | zeroTxDesc (i : Nat)                        -- 2: slot i's descriptor, its buffer
  | zeroTxBuf (i : Nat)
  | zeroRxDesc (i : Nat)
  | zeroRxBuf (i : Nat)
  | bindTxAddr (i : Nat)                        -- 3: slot i's addr, its flag
  | bindTxStatus (i : Nat)
  | bindRx (i : Nat)
  | wrTdbal | wrTdbah | wrTdlen | wrTdh | wrTdt -- 4
  | wrRdbal | wrRdbah | wrRdlen | wrRdh         -- 4
  | wrTctl                                      -- 5
  | wrTipg                                      -- 6
  | start0                                      -- 7: WR.EERD, then the polls
  | spin0
  | start1 (w0 : Half)
  | spin1 (w0 : Half)
  | start2 (w0 w1 : Half)
  | spin2 (w0 w1 : Half)
  | wrRal (w0 w1 w2 : Half)
  | wrRah (w2 : Half)
  | wrRctl                                      -- 8
  | wrRdt                                       -- 9
  | finish                                      -- 10
  deriving DecidableEq, Repr

/-- Where the one software context stands (R8, R307): outside every driver operation, or inside one that takes more
than one step. TRANSMIT and RECEIVE are one step each (R202, R232). -/
inductive SwPhase where
  | idle
  | attaching (handle : Addr) (next : AttachStage)
  | readingWord (a : BitVec 8)
  deriving DecidableEq, Repr

/-- ENV's standing choice whether each collaborator fails (R188, R262, R263, R296; assumption 13), and which page the
pool would hand out next (R262; assumption 16). -/
structure Collab where
  mapFails : Bool
  acquireFails : Bool
  sendFails : Bool
  recvFails : Bool
  nextPage : Nat
  deriving DecidableEq, Repr

/-- What ENV does between two steps (R8; assumption 18). -/
inductive EnvMove where
  /-- A frame arrives on the wire (R53). -/
  | offerFrame (f : Frame)
  /-- The network stack fills a buffer's page with these bytes and sends it (R261, R274). -/
  | stackSend (tag : Tag) (buf : Buf) (page : List Byte)
  /-- The network stack takes the oldest message of `to_stack`. -/
  | stackTake
  /-- The network stack returns a buffer it holds to the pool (R262, R274). -/
  | stackRelease (buf : Buf)
  /-- The collaborators' standing choice becomes `c`. -/
  | setCollab (c : Collab)
  deriving DecidableEq, Repr

/-- What the scheduler chose: one step of the agent that makes an operation, or a move of ENV (assumption 2). -/
inductive Event where
  | op (r : Record)
  | env (m : EnvMove)
  deriving DecidableEq, Repr

/-- How much of the station address has been written: RAL once, then RAH once (R171, R172; assumption 22). -/
inductive StationWrites where
  | none | ral | both
  deriving DecidableEq, Repr

/-- The register block: eighteen 32-bit registers (R22 to R40). -/
structure RegFile where
  ctrl : Word
  status : Word
  eerd : Word
  rctl : Word
  tctl : Word
  tipg : Word
  rdbal : Word
  rdbah : Word
  rdlen : Word
  rdh : Word
  rdt : Word
  tdbal : Word
  tdbah : Word
  tdlen : Word
  tdh : Word
  tdt : Word
  ral : Word
  rah : Word
  deriving DecidableEq, Repr

/-- The complete state (R20), and below it the model's own fields (INVENTORY.md, '## State'). -/
@[ext]
structure State where
  /-- The parameters (R5). No step changes them. -/
  cfg : Config
  /-- The register block (R22). -/
  regs : RegFile
  /-- Host physical memory (R70): the listed bytes, by strictly rising address, none of them 0. -/
  mem : List Host.Cell
  /-- The pages of the unbounded pool (R262) past the last one that a 64-bit address reaches, by number (assumption
  16). -/
  farPages : List (Buf × List Byte)
  /-- `tx_tail` (R45). -/
  txTail : Nat
  /-- `rx_tail` (R46). -/
  rxTail : Nat
  /-- `tx_pending` (R59). -/
  txPending : Nat
  /-- `ee_pending` (R51). -/
  eePending : Option (BitVec 8)
  /-- `wire_out`, oldest first (R52). -/
  wireOut : List Frame
  /-- `wire_in`, oldest first (R53). -/
  wireIn : List Frame
  /-- `to_stack`, oldest first (R54). -/
  toStack : List Message
  /-- `from_stack`, oldest first (R54). -/
  fromStack : List Message
  /-- The buffers of the messages that the network stack has taken from `to_stack` and still holds (R54). -/
  stackHeld : List Buf
  /-- The frames of the messages that the network stack has taken from `to_stack`, oldest first (R9). -/
  delivered : List Frame
  /-- `ib_phase` (R55). -/
  ibPhase : IbPhase
  /-- `ob_phase` (R55). -/
  obPhase : ObPhase
  /-- The mark `attached` (R56). -/
  attached : Bool
  /-- The mark `ib_fatal` with what it records (R56, R298). -/
  ibFatal : Option Fatal
  /-- The mark `ob_fatal` with what it records (R56, R298). -/
  obFatal : Option Fatal
  /-- The mark `refused` with the situation that set it (R56, R311). -/
  refused : Option Refuse
  /-- Where SW stands inside a driver operation (assumption 9). -/
  sw : SwPhase
  /-- ATTACH has returned `AttachFailure` (assumption 12). -/
  attachFailed : Bool
  /-- How much of the station address has been written (assumption 22). -/
  station : StationWrites
  /-- Which collaborators fail, and the pool's next page (assumptions 13, 16). -/
  collab : Collab
  /-- The read data the last register read returned (R101; assumption 15). -/
  busData : Word
  /-- The caller's array as the last successful RECEIVE of SW left it (assumption 14). -/
  outBuffer : List Byte
  /-- The results of the driver operations, oldest first (R9; assumption 15). -/
  results : List OpResult
  /-- How many free values have been drawn (assumption 8). -/
  draws : Nat
  /-- The events still to happen, the next first (assumption 2). -/
  schedule : List Event
  deriving DecidableEq, Repr

/-- The register block after reset: `TCTL.EN`, `RCTL.EN` and `EERD.DONE` are 0 (R320); every other bit is unspecified
and 0 here (DESIGN CHOICE, assumption 6). -/
def RegFile.reset : RegFile where
  ctrl := 0
  status := 0
  eerd := 0
  rctl := 0
  tctl := 0
  tipg := 0
  rdbal := 0
  rdbah := 0
  rdlen := 0
  rdh := 0
  rdt := 0
  tdbal := 0
  tdbah := 0
  tdlen := 0
  tdh := 0
  tdt := 0
  ral := 0
  rah := 0

/-- The state after a hardware reset (R320). -/
def State.reset : State where
  cfg := Config.reference
  regs := RegFile.reset
  mem := []
  farPages := []
  txTail := 0
  rxTail := 0
  txPending := 0
  eePending := none
  wireOut := []
  wireIn := []
  toStack := []
  fromStack := []
  stackHeld := []
  delivered := []
  ibPhase := .acquire
  obPhase := .waiting
  attached := false
  ibFatal := none
  obFatal := none
  refused := none
  sw := .idle
  attachFailed := false
  station := .none
  collab := ⟨false, false, false, false, 0⟩
  busData := 0
  outBuffer := []
  results := []
  draws := 0
  schedule := []

end Sys2Proof.Machine
end

