-- ==== Sys2Proof/Machine/Ops.lean ====
section
/-! DEFINITION. The named operations over host memory, the register block and the marks: memory access
(20_memory.md), register access (40_register_ops.md R140), `refuse` (R7), fatal entry and return
(60_exceptions.md R298, R299). -/

namespace Sys2Proof.Machine

/-- The outcome of an operation. -/
abbrev Out := Host.Outcome State Fault Refusal

/-! ### Host memory -/

/-- The byte listed for a key, 0 where none is (the reset contents, DESIGN CHOICE, assumption 7). -/
def Mem.lookup : List Host.Cell → Nat → Byte
  | [], _ => 0
  | c :: m, k => if c.1 = k then c.2 else Mem.lookup m k

/-- The list without any entry for a key. -/
def Mem.erase (m : List Host.Cell) (k : Nat) : List Host.Cell := m.filter fun c => c.1 ≠ k

/-- An entry put before the first entry of a larger key. -/
def Mem.insert : List Host.Cell → Nat → Byte → List Host.Cell
  | [], k, v => [(k, v)]
  | c :: m, k, v => if k < c.1 then (k, v) :: c :: m else c :: Mem.insert m k v

/-- One byte of host memory. Addresses are 64 bits and wrap (R6, R70; assumption 19). -/
def Mem.get (m : List Host.Cell) (a : Nat) : Byte := Mem.lookup m (a % addrSpace)

/-- Store one byte. A byte equal to what an unlisted address reads as leaves the list. -/
def Mem.put (m : List Host.Cell) (a : Nat) (v : Byte) : List Host.Cell :=
  if v = 0 then Mem.erase m (a % addrSpace) else Mem.insert (Mem.erase m (a % addrSpace)) (a % addrSpace) v

/-- The canonical form: keys strictly rising and inside the address space, no byte 0 listed. -/
abbrev Mem.wf (m : List Host.Cell) : Prop :=
  m.Pairwise (fun c d => c.1 < d.1) ∧ ∀ c ∈ m, c.1 < addrSpace ∧ c.2 ≠ 0

/-- `MemReadBytes(a, n)` (R7). -/
def Mem.readBytes (m : List Host.Cell) (a : Nat) : Nat → List Byte
  | 0 => []
  | n + 1 => Mem.get m a :: Mem.readBytes m (a + 1) n

/-- `MemWriteBytes(a, bytes)` (R7). -/
def Mem.writeBytes (m : List Host.Cell) (a : Nat) : List Byte → List Host.Cell
  | [] => m
  | b :: bs => Mem.writeBytes (Mem.put m a b) (a + 1) bs

/-- `MemRead(a, n)`: n bytes, little-endian (R7, R74). -/
def Mem.read (m : List Host.Cell) (a n : Nat) : Nat := leValue (Mem.readBytes m a n)

/-- `MemWrite(a, n, v)`: the low n bytes of v, little-endian (R7, R74). -/
def Mem.write (m : List Host.Cell) (a n v : Nat) : List Host.Cell := Mem.writeBytes m a (leBytes n v)

/-- Address `k` is one of the `n` bytes from `a` on, the address space being a circle (R6). -/
def Mem.inRange (a n k : Nat) : Bool := (k + (addrSpace - a % addrSpace)) % addrSpace < n

/-- `b` is none of the `n` bytes from `a` on. -/
abbrev Mem.Outside (a n b : Nat) : Prop := ∀ k < n, b % addrSpace ≠ (a + k) % addrSpace

/-- `n` bytes from `a` on become 0 (R186, step 2). -/
def Mem.zeroFill (m : List Host.Cell) (a n : Nat) : List Host.Cell := m.filter fun c => !Mem.inRange a n c.1

/-! ### The register block -/

/-- `REG[r]` (R7). -/
def RegFile.get (f : RegFile) : Reg → Word
  | .ctrl => f.ctrl
  | .status => f.status
  | .eerd => f.eerd
  | .rctl => f.rctl
  | .tctl => f.tctl
  | .tipg => f.tipg
  | .rdbal => f.rdbal
  | .rdbah => f.rdbah
  | .rdlen => f.rdlen
  | .rdh => f.rdh
  | .rdt => f.rdt
  | .tdbal => f.tdbal
  | .tdbah => f.tdbah
  | .tdlen => f.tdlen
  | .tdh => f.tdh
  | .tdt => f.tdt
  | .ral => f.ral
  | .rah => f.rah

/-- `REG[r] <- v` (R7). -/
def RegFile.set (f : RegFile) (r : Reg) (v : Word) : RegFile :=
  match r with
  | .ctrl => { f with ctrl := v }
  | .status => { f with status := v }
  | .eerd => { f with eerd := v }
  | .rctl => { f with rctl := v }
  | .tctl => { f with tctl := v }
  | .tipg => { f with tipg := v }
  | .rdbal => { f with rdbal := v }
  | .rdbah => { f with rdbah := v }
  | .rdlen => { f with rdlen := v }
  | .rdh => { f with rdh := v }
  | .rdt => { f with rdt := v }
  | .tdbal => { f with tdbal := v }
  | .tdbah => { f with tdbah := v }
  | .tdlen => { f with tdlen := v }
  | .tdh => { f with tdh := v }
  | .tdt => { f with tdt := v }
  | .ral => { f with ral := v }
  | .rah => { f with rah := v }

/-- `REG[r]` of a state. -/
def State.reg (s : State) (r : Reg) : Word := s.regs.get r

/-- `REG[r] <- v` on a state. -/
def State.setReg (s : State) (r : Reg) (v : Word) : State := { s with regs := s.regs.set r v }

/-- The state with other memory. -/
def State.setMem (s : State) (m : List Host.Cell) : State := { s with mem := m }

/-! ### Refusal, results, fatal entry -/

/-- `refuse` (R7, R56): the mark is set, nothing else changes; a mark once set stays. -/
def State.refuse (s : State) (r : Refuse) : State :=
  { s with refused := match s.refused with | some q => some q | none => some r }

/-- The end of an operation that either has an effect or is refused. -/
def settle (s : State) : Except Refuse State → Out
  | .ok t => .next t
  | .error r => .next (s.refuse r)

/-- The return of a driver operation to its caller, which is all the return the block has (R9, R297, R299): the result
is appended to what L2 operations have returned. -/
def State.returns (s : State) (op : DriverOp) (r : Result) : State :=
  { s with results := s.results ++ [⟨op, r⟩] }

/-- The two loops that can end (R298). -/
inductive Bridge where
  | ib | ob
  deriving DecidableEq, Repr

/-- Fatal entry, `raise K(info)` (R298): the loop's mark is set with what it records and nothing else changes: nothing
is saved, no slot is rolled back, no engine is stopped. A mark once set stays (R56). -/
def State.raise (s : State) (b : Bridge) (f : Fatal) : State :=
  match b with
  | .ib => { s with ibFatal := match s.ibFatal with | some g => some g | none => some f }
  | .ob => { s with obFatal := match s.obFatal with | some g => some g | none => some f }

/-! ### Message buffers -/

/-- The buffers a phase or a channel owns (R54). -/
def IbPhase.bufs : IbPhase → List Buf
  | .acquire => []
  | .polling b => [b]

def ObPhase.bufs : ObPhase → List Buf
  | .waiting => []
  | .sending b => [b]

def channelBufs (c : List Message) : List Buf := c.map Message.buf

/-- Every buffer in use, by owner: IB, OB, the two channels, the network stack (R54). The others are the free pool's.
-/
def State.bufs (s : State) : List Buf :=
  s.ibPhase.bufs ++ (s.obPhase.bufs ++ (channelBufs s.toStack ++ (channelBufs s.fromStack ++ s.stackHeld)))

/-- The first page from `k` on, `n` pages being a circle, that is none of `used`; `fuel` pages are tried. -/
def firstFree (used : List Buf) (n : Nat) : Nat → Nat → Option Buf
  | 0, _ => none
  | fuel + 1, k => if k % n < n ∧ k % n ∉ used then some (k % n) else firstFree used n fuel (k + 1)

/-- A free page among the `poolPages` that host memory holds, from ENV's choice on, if there is one: one of the first
`bufs.length + 1` tried is free, if any is. -/
def State.nearPage (s : State) : Option Buf :=
  firstFree s.bufs s.cfg.poolPages (s.bufs.length + 1) s.collab.nextPage

/-- A page past those of host memory that nobody has: one more than every page in use. -/
def State.farPage (s : State) : Buf := s.bufs.foldr (fun b k => max (b + 1) k) s.cfg.poolPages

/-- The page the pool hands out: one nobody has, in host memory (R70) unless all of these are in use; the pool itself
never runs out (R262; assumption 16). -/
def State.freePage (s : State) : Buf := s.nearPage.getD s.farPage

/-- A page that the pool may hand out (R262). -/
abbrev State.pageFree (s : State) (b : Buf) : Prop := b ∉ s.bufs ∧ (b < s.cfg.poolPages ∨ s.nearPage = none)

/-! ### Access of the one software context -/

/-- What keeps a driver operation other than ATTACH from entering: an earlier `AttachFailure` (R188, R294), an
operation in progress (R307), a block that is not attached (R58, R294, R320). TRANSMIT or RECEIVE by SW itself, beside
the bridges, is admitted on an attached block between their steps: R265, R268 and R274 name the bridges as the only
callers, and how another is treated 93 U8 leaves open (DESIGN CHOICE, assumption 31). -/
def State.swBlocked (s : State) : Option Refuse :=
  if s.attachFailed then some .afterAttachFailure
  else if s.sw ≠ .idle then some .concurrentCaller
  else if !s.attached then some .unattached
  else none

/-- What keeps a register access from entering. Before ATTACH only ATTACH is admitted (R58, R320), so an access is one
of the context inside ATTACH (R8, R140; assumption 11), or one of an attached block between two driver operations. -/
def State.busBlocked (s : State) : Option Refuse :=
  if s.attachFailed then some .afterAttachFailure
  else match s.sw with
    | .attaching _ _ => none
    | .readingWord _ => some .concurrentCaller
    | .idle => if s.attached then none else some .unattached

/-- A register read by SW (R140): returns the register's 32 bits and changes nothing of the block. -/
def busRead (r : Reg) (s : State) : Out :=
  match s.busBlocked with
  | some e => .next (s.refuse e)
  | none => .next { s with busData := s.reg r }

/-- A register write by SW (R140): the register's own rule `write` says what it does or why it is refused. -/
def busWrite (write : State → Except Refuse State) (s : State) : Out :=
  match s.busBlocked with
  | some e => .next (s.refuse e)
  | none => settle s (write s)

end Sys2Proof.Machine
end

