-- ==== Sys2Proof/Machine/Operands.lean ====
section
/-! DEFINITION. The fields of registers, descriptors and messages, and how multi-part values are assembled
(30_encoding.md R104 to R117, R121). Bit positions are the configuration's (`Config.layout`; assumption 27). -/

namespace Sys2Proof.Machine

/-! ### Register fields -/

/-- The bits of a field. -/
def fieldMask (f : Region) : Word := (BitVec.allOnes f.2).setWidth 32 <<< f.1

/-- A register with `x` in the field from bit `p` on and 0 elsewhere. -/
def place {w : Nat} (p : Nat) (x : BitVec w) : Word := x.setWidth 32 <<< p

/-- `REG[X].F <- x` (R7): the field takes the value, every other bit stays. -/
def setField {w : Nat} (v : Word) (p : Nat) (x : BitVec w) : Word := (v &&& ~~~fieldMask (p, w)) ||| place p x

/-- The reserved and not-modelled bits of a register with these fields: written as 1 they are refused (R122). -/
def reservedBits (fs : List Region) : Word := ~~~(fs.foldr (fun f m => fieldMask f ||| m) 0)

/-- `EN` of TCTL and of RCTL (R105, R108). -/
def txEnBit (l : Layout) (v : Word) : Bool := v.getLsbD l.tctlEn
def rxEnBit (l : Layout) (v : Word) : Bool := v.getLsbD l.rctlEn

def State.txEnabled (s : State) : Bool := txEnBit s.cfg.layout (s.reg .tctl)
def State.rxEnabled (s : State) : Bool := rxEnBit s.cfg.layout (s.reg .rctl)

/-- `BSIZE` of RCTL (R108). -/
def bsize (l : Layout) (v : Word) : BitVec 2 := v.extractLsb' l.rctlBsize 2

/-- `AV` of RAH (R110). -/
def avBit (l : Layout) (v : Word) : Bool := v.getLsbD l.rahAv

/-- The fields of EERD (R104). -/
def eerdStart (l : Layout) (v : Word) : BitVec 1 := v.extractLsb' l.eerdStart 1
def eerdDone (l : Layout) (v : Word) : BitVec 1 := v.extractLsb' l.eerdDone 1
def eerdAddr (l : Layout) (v : Word) : BitVec 8 := v.extractLsb' l.eerdAddr 8
def eerdData (l : Layout) (v : Word) : Half := v.extractLsb' l.eerdData 16

/-- `DONE` and `DATA` of the register. -/
def State.eeDone (s : State) : BitVec 1 := eerdDone s.cfg.layout (s.reg .eerd)
def State.eeData (s : State) : Half := eerdData s.cfg.layout (s.reg .eerd)

/-- The word that starts a read of EEPROM word `a`: ADDR and START, `(a << 8) | 1` (R104, R180). -/
def eerdStartWord (l : Layout) (a : BitVec 8) : Word := place l.eerdAddr a ||| place l.eerdStart 1#1

/-- The TCTL word of ATTACH: `EN | PSP | (TCTL_CT << 4) | (TCTL_COLD << 12)` (R105, R186). -/
def tctlAttachWord (c : Config) : Word :=
  place c.layout.tctlEn 1#1 ||| (place c.layout.tctlPsp 1#1 |||
    (place c.layout.tctlCt c.tctlCt ||| place c.layout.tctlCold c.tctlCold))

/-- The RCTL word of ATTACH: `EN | SECRC | (BSIZE = 00)` (R108, R186). -/
def rctlAttachWord (c : Config) : Word :=
  place c.layout.rctlEn 1#1 ||| (place c.layout.rctlSecrc 1#1 ||| place c.layout.rctlBsize c.bsizeCode)

/-- A ring base split into its register halves: `BAL = A[31:0]`, `BAH = A[63:32]` (R107, R121). -/
def baseLow (a : Addr) : Word := a.extractLsb' 0 32
def baseHigh (a : Addr) : Word := a.extractLsb' 32 32

/-- A low base half of an aligned ring: `v[3:0] = 0` for 16 bytes (R75, R147, R160). -/
def baseAligned (c : Config) (v : Word) : Bool := v.toNat % c.ringAlign == 0

/-- The ring length register of an N-slot ring: `N × DESC_SIZE`, counted in its units (R107, R121). -/
def ringLength (c : Config) (n : Nat) : Word := BitVec.ofNat 32 (n * c.descSize / c.ringUnit)

/-- The number of descriptors that a ring length register's value makes room for (R30, R36). -/
def ringSlots (c : Config) (v : Word) : Nat := v.toNat * c.ringUnit / c.descSize

/-- A slot index in a head or tail register, zero-extended (R215). -/
def indexWord (i : Nat) : Word := BitVec.ofNat 32 i

/-- The ring size the hardware works with: the length in the register / DESC_SIZE (R30, R36). -/
def State.txRingSize (s : State) : Nat := ringSlots s.cfg (s.reg .tdlen)
def State.rxRingSize (s : State) : Nat := ringSlots s.cfg (s.reg .rdlen)

/-- The heads and tails as slot indexes (R31, R32, R37, R38). -/
def State.tdh (s : State) : Nat := (s.reg .tdh).toNat
def State.tdt (s : State) : Nat := (s.reg .tdt).toNat
def State.rdh (s : State) : Nat := (s.reg .rdh).toNat
def State.rdt (s : State) : Nat := (s.reg .rdt).toNat

/-- RAL and RAH from the three EEPROM words, low byte of each first (R183, R184). -/
def ralWord (l : Layout) (w0 w1 : Half) : Word :=
  place l.ralMac0 (w0.extractLsb' 0 8) ||| (place l.ralMac1 (w0.extractLsb' 8 8) |||
    (place l.ralMac2 (w1.extractLsb' 0 8) ||| place l.ralMac3 (w1.extractLsb' 8 8)))
def rahWord (l : Layout) (w2 : Half) : Word :=
  place l.rahMac4 (w2.extractLsb' 0 8) ||| (place l.rahMac5 (w2.extractLsb' 8 8) ||| place l.rahAv 1#1)

/-- The station address, six bytes, as RAL and RAH hold it (R49, R109, R110). -/
def State.stationAddr (s : State) : List Byte :=
  let l := s.cfg.layout
  [(s.reg .ral).extractLsb' l.ralMac0 8, (s.reg .ral).extractLsb' l.ralMac1 8, (s.reg .ral).extractLsb' l.ralMac2 8,
   (s.reg .ral).extractLsb' l.ralMac3 8, (s.reg .rah).extractLsb' l.rahMac4 8, (s.reg .rah).extractLsb' l.rahMac5 8]

/-- Word `a` of the EEPROM (R50). -/
def State.eepromWord (s : State) (a : BitVec 8) : Half := s.cfg.eeprom[a.toNat]'a.isLt

/-! ### Descriptors -/

/-- The fields of a transmit descriptor (R111). -/
inductive TxField where
  | addr | length | cso | cmd | status | css | special
  deriving DecidableEq, Repr

/-- The fields of a receive descriptor (R112). -/
inductive RxField where
  | addr | length | checksum | status | errors | special
  deriving DecidableEq, Repr

/-- Byte offset and width of a transmit descriptor field (R111). -/
def TxField.offset : TxField → Nat
  | .addr => 0
  | .length => 8
  | .cso => 10
  | .cmd => 11
  | .status => 12
  | .css => 13
  | .special => 14

def TxField.width : TxField → Nat
  | .addr => 8
  | .length => 2
  | .cso => 1
  | .cmd => 1
  | .status => 1
  | .css => 1
  | .special => 2

/-- Byte offset and width of a receive descriptor field (R112). -/
def RxField.offset : RxField → Nat
  | .addr => 0
  | .length => 8
  | .checksum => 10
  | .status => 12
  | .errors => 13
  | .special => 14

def RxField.width : RxField → Nat
  | .addr => 8
  | .length => 2
  | .checksum => 2
  | .status => 1
  | .errors => 1
  | .special => 2

/-- Physical address of descriptor `i`: `base + DESC_SIZE × i` (R41, R42, R121). -/
def txdAt (c : Config) (i : Nat) : Nat := c.txDescBase.toNat + c.descSize * i
def rxdAt (c : Config) (i : Nat) : Nat := c.rxDescBase.toNat + c.descSize * i
def State.txdBase (s : State) (i : Nat) : Nat := txdAt s.cfg i
def State.rxdBase (s : State) (i : Nat) : Nat := rxdAt s.cfg i

/-- `TXD(i).f` and `TXD(i).f <- v` (R7). -/
def State.txd (s : State) (i : Nat) (f : TxField) : Nat := Mem.read s.mem (s.txdBase i + f.offset) f.width
def State.setTxd (s : State) (i : Nat) (f : TxField) (v : Nat) : State :=
  s.setMem (Mem.write s.mem (s.txdBase i + f.offset) f.width v)

/-- `RXD(i).f` and `RXD(i).f <- v` (R7). -/
def State.rxd (s : State) (i : Nat) (f : RxField) : Nat := Mem.read s.mem (s.rxdBase i + f.offset) f.width
def State.setRxd (s : State) (i : Nat) (f : RxField) (v : Nat) : State :=
  s.setMem (Mem.write s.mem (s.rxdBase i + f.offset) f.width v)

/-- The one-byte fields that are treated as bits. -/
def State.txStatus (s : State) (i : Nat) : Byte := BitVec.ofNat 8 (s.txd i .status)
def State.txCmd (s : State) (i : Nat) : Byte := BitVec.ofNat 8 (s.txd i .cmd)
def State.rxStatus (s : State) (i : Nat) : Byte := BitVec.ofNat 8 (s.rxd i .status)

/-! ### Messages -/

/-- `len` of a page: its first bytes, little-endian (R117). -/
def pageLen (c : Config) (page : List Byte) : Nat := leValue (page.take c.msgLenBytes)

/-- The bytes `data` starts at: from behind `len` to the end of the page (R117, R266). -/
def pageData (c : Config) (page : List Byte) : List Byte := page.drop c.msgLenBytes

/-- The frame a message carries: `data[0:len]` (R117, R269). -/
def pageFrame (c : Config) (page : List Byte) : Frame := (pageData c page).take (pageLen c page)

/-- Physical address of a message buffer's page, if it is one of the `poolPages` (R70, R262; assumption 16). -/
def pageAt (c : Config) (b : Buf) : Nat := c.poolBase.toNat + c.pageSize * b

/-- The page of a message buffer (R70, R117): its bytes in host memory; past the last page there, `farPages`, where an
unlisted page holds 0 as memory does. -/
def State.msgPage (s : State) (b : Buf) : List Byte :=
  if b < s.cfg.poolPages then Mem.readBytes s.mem (pageAt s.cfg b) s.cfg.pageSize
  else ((s.farPages.lookup b).getD []).takeD s.cfg.pageSize 0

/-- Software stores a whole page of a message buffer. -/
def State.setPage (s : State) (b : Buf) (page : List Byte) : State :=
  if b < s.cfg.poolPages then s.setMem (Mem.writeBytes s.mem (pageAt s.cfg b) page)
  else { s with farPages := (b, page) :: s.farPages.filter fun p => p.1 ≠ b }

/-- A message's `len` and its frame, as its page holds them (R117). -/
def State.msgLen (s : State) (b : Buf) : Nat := pageLen s.cfg (s.msgPage b)
def State.msgFrame (s : State) (b : Buf) : Frame := pageFrame s.cfg (s.msgPage b)

/-- What the input bridge makes of its page: the `n` received bytes as `data`, `len` stamped, the rest kept (R266). -/
def filledPage (c : Config) (page : List Byte) (n : Nat) (data : List Byte) : List Byte :=
  leBytes c.msgLenBytes n ++ data.take n ++ page.drop (c.msgLenBytes + n)

def State.fillMsg (s : State) (b : Buf) (n : Nat) (data : List Byte) : State :=
  s.setPage b (filledPage s.cfg (s.msgPage b) n data)

/-- Result codes (R119). -/
def ErrKind.code : ErrKind → Nat
  | .payloadTooLarge => 1
  | .queueFull => 2
  | .queueEmpty => 3
  | .attachFailure => 4
  | .protocolViolation => 5
  | .fatalIoError => 6

def Result.code : Result → Nat
  | .ok => 0
  | .okCount _ => 0
  | .okWord _ => 0
  | .err e => e.code

/-- The kind a fatal mark bears (R290). -/
def Fatal.kind : Fatal → ErrKind
  | .protocolViolation _ => .protocolViolation
  | .fatalIoError _ => .fatalIoError

end Sys2Proof.Machine
end

