-- ==== Sys2Proof/Machine/Flags.lean ====
section
/-! DEFINITION. The completion flag of a slot and the command bits: every flag computation of the block
(10_state.md R47, 30_encoding.md R113 to R115, R215). -/

namespace Sys2Proof.Machine

/-- The byte with bit `p` alone: the set flag of a fresh slot (R113 to R115, R186 step 3). -/
def bitByte (p : Nat) : Byte := 1#8 <<< p

/-- The completion flag: bit `p` of a status byte (R114, R115). -/
def flagBit (p : Nat) (status : Byte) : Bool := status.getLsbD p

/-- Clear the flag, leaving the other bits: `status & 0xFE` (R200, R230). -/
def clearFlag (p : Nat) (status : Byte) : Byte := status &&& ~~~bitByte p

/-- What an engine leaves in a status byte: the flag set, the other bits a free value, `(draw(u8) & 0xFE) | 0x01`
(R205, R234, D35). -/
def engineStatus (p : Nat) (draw : Byte) : Byte := clearFlag p draw ||| bitByte p

/-- Request completion report and end of packet: `cmd | RS | EOP` (R113, R200). -/
def armCmd (l : Layout) (cmd : Byte) : Byte := cmd ||| bitByte l.cmdRs ||| bitByte l.cmdEop

/-- The one command byte the engine accepts: RS and EOP alone, 0x09 (R113, R204). -/
def cmdReportEop (l : Layout) : Byte := bitByte l.cmdRs ||| bitByte l.cmdEop

/-- The flag of transmit slot `i`: set when software owns it (R47). -/
def State.txFlag (s : State) (i : Nat) : Bool := flagBit s.cfg.layout.txDone (s.txStatus i)

/-- The flag of receive slot `i`: set when software owns it (R47). -/
def State.rxFlag (s : State) (i : Nat) : Bool := flagBit s.cfg.layout.rxDone (s.rxStatus i)

/-- Who owns a slot (R47). -/
inductive Owner where
  | software | hardware
  deriving DecidableEq, Repr

/-- The ownership tag of a slot is its flag (R47). -/
def ownerOf (flag : Bool) : Owner := if flag then .software else .hardware

def State.txOwner (s : State) (i : Nat) : Owner := ownerOf (s.txFlag i)
def State.rxOwner (s : State) (i : Nat) : Owner := ownerOf (s.rxFlag i)

end Sys2Proof.Machine
end

