-- ==== Sys2Proof/Machine/DeviceRegs.lean ====
section
/-! DEFINITION. CTRL, STATUS and EERD: register accesses (40_register_ops.md R141 to R144) and the EEPROM unit
(41_attach_eeprom.md R182). -/

namespace Sys2Proof.Machine

/-- RD.CTRL (R141): `refuse`. -/
def execRdCtrl (s : State) : Out := .next (s.refuse .controlAccess)

/-- WR.CTRL (R141): `refuse`; no store, since a real write may reset the device (D40). -/
def execWrCtrl (_v : Word) (s : State) : Out := .next (s.refuse .controlAccess)

/-- RD.STATUS (R142): `refuse`. -/
def execRdStatus (s : State) : Out := .next (s.refuse .statusAccess)

/-- WR.STATUS (R142): `refuse`. -/
def execWrStatus (_v : Word) (s : State) : Out := .next (s.refuse .statusAccess)

/-- The bits of EERD a read leaves free (R144): the reserved ones, and DATA while DONE = 0. -/
def State.eerdFree (s : State) : Word :=
  let l := s.cfg.layout
  if s.eeDone = 1 then reservedBits l.eerdFields else reservedBits l.eerdFields ||| fieldMask (l.eerdData, 16)

/-- The value a read of EERD returns (R144): the stored bits, but for the free ones. -/
def State.eerdReadValue (s : State) : Word :=
  (s.reg .eerd &&& ~~~s.eerdFree) ||| (Config.draw32 s.draws &&& s.eerdFree)

/-- One read of EERD by SW (R144): no side effect on the block. -/
def State.pollEerd (s : State) : State :=
  { s with busData := s.eerdReadValue, draws := s.draws + 1 }

/-- RD.EERD (R144). -/
def execRdEerd (s : State) : Out :=
  match s.busBlocked with
  | some e => .next (s.refuse e)
  | none => .next s.pollEerd

/-- EERD once a read of word `a` has started: DONE and START 0, DATA free until DONE (R143; assumption 28). -/
def eerdReading (l : Layout) (a : BitVec 8) (free : Half) : Word := place l.eerdData free ||| place l.eerdAddr a

/-- The fields a write of EERD carries; "all other bits 0" (R143). -/
def eerdWriteFields (l : Layout) : List Region := [(l.eerdAddr, 8), (l.eerdStart, 1)]

/-- The effect of `WR.EERD v` (R143): starts a read of the word ADDR names. Any other bit written as 1, START = 0 or a
pending read is refused. -/
def writeEerd (v : Word) (s : State) : Except Refuse State :=
  let l := s.cfg.layout
  if v &&& reservedBits (eerdWriteFields l) ≠ 0 then .error .reservedBits
  else if eerdStart l v ≠ 1 ∨ s.eePending ≠ none then .error .eerdMisuse
  else .ok { s.setReg .eerd (eerdReading l (eerdAddr l v) (Config.draw16 s.draws)) with
    eePending := some (eerdAddr l v), draws := s.draws + 1 }

/-- WR.EERD (R143). -/
def execWrEerd (v : Word) (s : State) : Out := busWrite (writeEerd v) s

/-- EE_COMPLETE (R182): when a read is pending, DATA, DONE and `ee_pending` change in one step; otherwise the step is
not enabled and nothing happens. -/
def execEeComplete (s : State) : Out :=
  match s.eePending with
  | none => .next s
  | some a =>
    let l := s.cfg.layout
    .next { s.setReg .eerd (setField (setField (s.reg .eerd) l.eerdData (s.eepromWord a)) l.eerdDone 1#1) with
      eePending := none }

end Sys2Proof.Machine
end

