-- ==== Sys2Proof/Machine/RxRegs.lean ====
section
/-! DEFINITION. The receive registers: RCTL, the ring registers and the receive address (40_register_ops.md R159 to
R174). -/

namespace Sys2Proof.Machine

/-- The receive ring registers and the receive address hold what R186 steps 4 and 7 program, up to where the engine
has moved the head since (R159, R187; assumption 11): the bases, the length, and the three EEPROM words with AV. -/
def State.rxProgrammed (s : State) : Bool :=
  s.reg .rdbal = baseLow s.cfg.rxDescBase && s.reg .rdbah = baseHigh s.cfg.rxDescBase &&
  s.reg .rdlen = ringLength s.cfg s.cfg.nRx && decide (s.rdh < s.cfg.nRx) &&
  s.reg .ral = ralWord s.cfg.layout (s.eepromWord s.cfg.macWord0) (s.eepromWord s.cfg.macWord1) &&
  s.reg .rah = rahWord s.cfg.layout (s.eepromWord s.cfg.macWord2)

/-- The effect of `WR.RCTL v` (R159). -/
def writeRctl (v : Word) (s : State) : Except Refuse State :=
  if bsize s.cfg.layout v ≠ s.cfg.bsizeCode then .error .bufferSizeCode
  else if v &&& reservedBits s.cfg.layout.rctlFields ≠ 0 then .error .reservedBits
  else if rxEnBit s.cfg.layout v && !s.rxProgrammed then .error .notProgrammed
  else if s.attached && s.rxEnabled && !rxEnBit s.cfg.layout v then .error .enableCleared
  else .ok (s.setReg .rctl v)

/-- The effect of `WR.RDBAL v` (R160). -/
def writeRdbal (v : Word) (s : State) : Except Refuse State :=
  if s.rxEnabled then .error .ringWhileEnabled
  else if !baseAligned s.cfg v then .error .ringBaseAlignment
  else .ok (s.setReg .rdbal v)

/-- The effect of `WR.RDBAH v` (R161). -/
def writeRdbah (v : Word) (s : State) : Except Refuse State :=
  if s.rxEnabled then .error .ringWhileEnabled else .ok (s.setReg .rdbah v)

/-- The effect of `WR.RDLEN v` (R162). -/
def writeRdlen (v : Word) (s : State) : Except Refuse State :=
  if s.rxEnabled then .error .ringWhileEnabled
  else if v ≠ ringLength s.cfg s.cfg.nRx then .error .ringLength
  else .ok (s.setReg .rdlen v)

/-- The effect of `WR.RDH v` (R163). -/
def writeRdh (v : Word) (s : State) : Except Refuse State :=
  if s.rxEnabled then .error .ringWhileEnabled
  else if s.attached || v ≠ 0 then .error .headWrite
  else .ok (s.setReg .rdh v)

/-- The effect of `WR.RDT v` (R164). -/
def writeRdt (v : Word) (s : State) : Except Refuse State :=
  if s.cfg.nRx ≤ v.toNat then .error .slotIndex else .ok (s.setReg .rdt v)

/-- The effect of `WR.RAL v` (R171): written once, in ATTACH; a later write is refused. -/
def writeRal (v : Word) (s : State) : Except Refuse State :=
  if s.attached ∨ s.station ≠ .none then .error .stationAddressWrite
  else .ok { s.setReg .ral v with station := .ral }

/-- The effect of `WR.RAH v` (R172): written once, in ATTACH, after RAL. -/
def writeRah (v : Word) (s : State) : Except Refuse State :=
  if v &&& reservedBits s.cfg.layout.rahFields ≠ 0 then .error .reservedBits
  else if s.attached ∨ s.station ≠ .ral then .error .stationAddressWrite
  else .ok { s.setReg .rah v with station := .both }

/-- WR.RCTL (R159). -/
def execWrRctl (v : Word) (s : State) : Out := busWrite (writeRctl v) s

/-- WR.RDBAL (R160). -/
def execWrRdbal (v : Word) (s : State) : Out := busWrite (writeRdbal v) s

/-- WR.RDBAH (R161). -/
def execWrRdbah (v : Word) (s : State) : Out := busWrite (writeRdbah v) s

/-- WR.RDLEN (R162). -/
def execWrRdlen (v : Word) (s : State) : Out := busWrite (writeRdlen v) s

/-- WR.RDH (R163). -/
def execWrRdh (v : Word) (s : State) : Out := busWrite (writeRdh v) s

/-- WR.RDT (R164). -/
def execWrRdt (v : Word) (s : State) : Out := busWrite (writeRdt v) s

/-- WR.RAL (R171). -/
def execWrRal (v : Word) (s : State) : Out := busWrite (writeRal v) s

/-- WR.RAH (R172). -/
def execWrRah (v : Word) (s : State) : Out := busWrite (writeRah v) s

/-- RD.RCTL (R165): the last value written, reserved and not-modelled bits too, which 93 U11 would leave free (DESIGN
CHOICE, assumption 30). -/
def execRdRctl (s : State) : Out := busRead .rctl s

/-- RD.RDBAL (R166). -/
def execRdRdbal (s : State) : Out := busRead .rdbal s

/-- RD.RDBAH (R167). -/
def execRdRdbah (s : State) : Out := busRead .rdbah s

/-- RD.RDLEN (R168). -/
def execRdRdlen (s : State) : Out := busRead .rdlen s

/-- RD.RDH (R169). -/
def execRdRdh (s : State) : Out := busRead .rdh s

/-- RD.RDT (R170). -/
def execRdRdt (s : State) : Out := busRead .rdt s

/-- RD.RAL (R173). -/
def execRdRal (s : State) : Out := busRead .ral s

/-- RD.RAH (R174; reserved bits as for RD.RCTL, assumption 30). -/
def execRdRah (s : State) : Out := busRead .rah s

end Sys2Proof.Machine
end

