-- ==== Sys2Proof/Machine/Transmit.lean ====
section
/-! DEFINITION. The transmit ring: TRANSMIT, TX_FETCH, TX_COMPLETE (42_transmit.md R200 to R215). -/

namespace Sys2Proof.Machine

/-- The writes of a successful TRANSMIT to slot `tx_tail`, in order, the tail publish last (R200, R86, R324). -/
def State.armSlot (s : State) (len : Nat) (payload : Frame) : State :=
  let t := s.txTail
  let s := s.setMem (Mem.writeBytes s.mem (s.cfg.txBufBase t).toNat payload)
  let s := s.setTxd t .length len
  let s := s.setTxd t .status (clearFlag s.cfg.layout.txDone (s.txStatus t)).toNat
  let s := s.setTxd t .cmd (armCmd s.cfg.layout (s.txCmd t)).toNat
  let s := { s with txTail := nextIndex t s.cfg.nTx }
  s.setReg .tdt (indexWord s.txTail)

/-- The driver operation `transmit(payload)` (R200), one atomic step (R202): the error it returns, if any, and the
state after it. The length check comes first (R201); a failing call changes nothing (R291, R292). -/
def transmitOp (len : Nat) (payload : Frame) (s : State) : Except Refuse (Option ErrKind × State) :=
  match s.swBlocked with
  | some e => .error e
  | none =>
    if s.cfg.maxFrameLen < len then
      .ok (some .payloadTooLarge, s.returns .transmit (.err .payloadTooLarge))
    else if s.cfg.nTx ≤ s.txTail then .error .slotIndex
    else if !s.txFlag s.txTail then .ok (some .queueFull, s.returns .transmit (.err .queueFull))
    else .ok (none, (s.armSlot len payload).returns .transmit .ok)

/-- TRANSMIT(payload) (R200). -/
def execTransmit (payload : Frame) (s : State) : Out :=
  settle s ((transmitOp payload.length payload s).map (·.2))

/-- `armed(REG[TDH])` under the configured arming rule (R204, R207). -/
def State.txArmed (s : State) : Bool :=
  match s.cfg.txArmRule with
  | .tailGated => s.reg .tdh != s.reg .tdt
  | .flagGated => !s.txFlag s.tdh && decide (s.txPending < s.cfg.nTx)

/-- TX_FETCH (R204): when enabled, the head passes the slot and `tx_pending` rises; otherwise nothing happens. -/
def execTxFetch (s : State) : Out :=
  if !s.txEnabled then .next s
  else if s.cfg.nTx ≤ s.tdh ∨ s.cfg.nTx ≤ s.tdt then .next (s.refuse .slotIndex)
  else if !s.txArmed then .next s
  else if s.txRingSize = 0 then .fault .ringSizeZero
  else if s.txCmd s.tdh ≠ cmdReportEop s.cfg.layout then .next (s.refuse .txDescriptor)
  else .next { s.setReg .tdh (indexWord (nextIndex s.tdh s.txRingSize)) with txPending := s.txPending + 1 }

/-- The oldest fetched slot: `(REG[TDH] − tx_pending) mod (REG[TDLEN] / DESC_SIZE)`, the mathematical modulus (R205,
R215). -/
def State.txOldest (s : State) : Nat := (((s.tdh : Int) - s.txPending) % (s.txRingSize : Int)).toNat

/-- Slot `i` is in flight and fetched: one of the `tx_pending` slots from the oldest on (R59, R203). -/
def State.txFetched (s : State) (i : Nat) : Bool :=
  (List.range s.txPending).any fun k => (s.txOldest + k) % s.txRingSize == i

/-- The frame a transmit slot holds: `length` bytes at `addr` (R205). -/
def State.txFrame (s : State) (i : Nat) : Frame := Mem.readBytes s.mem (s.txd i .addr) (s.txd i .length)

/-- TX_COMPLETE (R205): when a fetched slot is pending, its frame is sent and its flag set; otherwise nothing happens.
-/
def execTxComplete (s : State) : Out :=
  if s.txPending = 0 then .next s
  else if s.cfg.nTx ≤ s.tdh then .next (s.refuse .slotIndex)
  else if s.txRingSize = 0 then .fault .ringSizeZero
  else
    let d := s.txOldest
    .next { s.setTxd d .status (engineStatus s.cfg.layout.txDone (Config.draw8 s.draws)).toNat with
      wireOut := s.wireOut ++ [s.txFrame d]
      txPending := s.txPending - 1
      draws := s.draws + 1 }

end Sys2Proof.Machine
end

