-- ==== Sys2Proof/Machine/TxRegs.lean ====
section
/-! DEFINITION. The transmit registers: TCTL, TIPG and the ring registers (40_register_ops.md R145 to R158). Each
write has its effect as a function of its own, which ATTACH uses too. -/

namespace Sys2Proof.Machine

/-- The transmit ring registers hold what R186 step 4 programs, up to where the engine and software have moved the
head and the tail since (R145, R187; assumption 11). -/
def State.txProgrammed (s : State) : Bool :=
  s.reg .tdbal = baseLow s.cfg.txDescBase && s.reg .tdbah = baseHigh s.cfg.txDescBase &&
  s.reg .tdlen = ringLength s.cfg s.cfg.nTx && decide (s.tdh < s.cfg.nTx) && decide (s.tdt < s.cfg.nTx)

/-- The effect of `WR.TCTL v` (R145). -/
def writeTctl (v : Word) (s : State) : Except Refuse State :=
  if v &&& reservedBits s.cfg.layout.tctlFields ≠ 0 then .error .reservedBits
  else if txEnBit s.cfg.layout v && !s.txProgrammed then .error .notProgrammed
  else if s.attached && s.txEnabled && !txEnBit s.cfg.layout v then .error .enableCleared
  else .ok (s.setReg .tctl v)

/-- The effect of `WR.TIPG v` (R146). -/
def writeTipg (v : Word) (s : State) : Except Refuse State :=
  if v &&& reservedBits s.cfg.layout.tipgFields ≠ 0 then .error .reservedBits else .ok (s.setReg .tipg v)

/-- The effect of `WR.TDBAL v` (R147). -/
def writeTdbal (v : Word) (s : State) : Except Refuse State :=
  if s.txEnabled then .error .ringWhileEnabled
  else if !baseAligned s.cfg v then .error .ringBaseAlignment
  else .ok (s.setReg .tdbal v)

/-- The effect of `WR.TDBAH v` (R148). -/
def writeTdbah (v : Word) (s : State) : Except Refuse State :=
  if s.txEnabled then .error .ringWhileEnabled else .ok (s.setReg .tdbah v)

/-- The effect of `WR.TDLEN v` (R149). -/
def writeTdlen (v : Word) (s : State) : Except Refuse State :=
  if s.txEnabled then .error .ringWhileEnabled
  else if v ≠ ringLength s.cfg s.cfg.nTx then .error .ringLength
  else .ok (s.setReg .tdlen v)

/-- The effect of `WR.TDH v` (R150). -/
def writeTdh (v : Word) (s : State) : Except Refuse State :=
  if s.txEnabled then .error .ringWhileEnabled
  else if s.attached || v ≠ 0 then .error .headWrite
  else .ok (s.setReg .tdh v)

/-- The effect of `WR.TDT v` (R152): the signal that arms slots. -/
def writeTdt (v : Word) (s : State) : Except Refuse State :=
  if s.cfg.nTx ≤ v.toNat then .error .slotIndex else .ok (s.setReg .tdt v)

/-- WR.TCTL (R145). -/
def execWrTctl (v : Word) (s : State) : Out := busWrite (writeTctl v) s

/-- WR.TIPG (R146). -/
def execWrTipg (v : Word) (s : State) : Out := busWrite (writeTipg v) s

/-- WR.TDBAL (R147). -/
def execWrTdbal (v : Word) (s : State) : Out := busWrite (writeTdbal v) s

/-- WR.TDBAH (R148). -/
def execWrTdbah (v : Word) (s : State) : Out := busWrite (writeTdbah v) s

/-- WR.TDLEN (R149). -/
def execWrTdlen (v : Word) (s : State) : Out := busWrite (writeTdlen v) s

/-- WR.TDH (R150). -/
def execWrTdh (v : Word) (s : State) : Out := busWrite (writeTdh v) s

/-- WR.TDT (R152). -/
def execWrTdt (v : Word) (s : State) : Out := busWrite (writeTdt v) s

/-- RD.TCTL (R154): the last value written, reserved and not-modelled bits too, which 93 U11 would leave free (DESIGN
CHOICE, assumption 30). -/
def execRdTctl (s : State) : Out := busRead .tctl s

/-- RD.TIPG (R155; reserved bits as for RD.TCTL, assumption 30). -/
def execRdTipg (s : State) : Out := busRead .tipg s

/-- RD.TDBAL (R156). -/
def execRdTdbal (s : State) : Out := busRead .tdbal s

/-- RD.TDBAH (R157). -/
def execRdTdbah (s : State) : Out := busRead .tdbah s

/-- RD.TDLEN (R158). -/
def execRdTdlen (s : State) : Out := busRead .tdlen s

/-- RD.TDH (R151). -/
def execRdTdh (s : State) : Out := busRead .tdh s

/-- RD.TDT (R153). -/
def execRdTdt (s : State) : Out := busRead .tdt s

end Sys2Proof.Machine
end

