-- ==== Sys2Proof/Machine/Attach.lean ====
section
/-! DEFINITION. EERD_READ_WORD and ATTACH (41_attach_eeprom.md R180 to R192). Both are sequences of accesses
between which other agents may step; each time the scheduler picks the operation, SW makes its next access
(assumption 9). -/

namespace Sys2Proof.Machine

/-- One poll of the spin of R180: a read of EERD; with DONE = 1 the operation returns DATA, the upper half, and SW
goes on as `k` says, else SW polls again at its next step. DONE and, once it is 1, DATA of the value read are those of
the register (R144; `eerdDone_readValue`, `eerdData_readValue`). -/
def State.spin (s : State) (k : Half → State → State) : State :=
  if s.eeDone = 1 then k s.eeData (s.pollEerd.returns .eerdReadWord (.okWord s.eeData)) else s.pollEerd

/-- EERD_READ_WORD(a) (R180): the write that starts the read, then one poll a step until DONE. Called on its own it
needs an attached block, as every operation but ATTACH does (R58, R320). -/
def execEerdReadWord (a : BitVec 8) (s : State) : Out :=
  if s.attachFailed then .next (s.refuse .afterAttachFailure)
  else match s.sw with
    | .idle =>
      if s.attached then
        settle s ((writeEerd (eerdStartWord s.cfg.layout a) s).map fun t => { t with sw := .readingWord a })
      else .next (s.refuse .unattached)
    | .readingWord b =>
      if a = b then .next (s.spin fun _ t => { t with sw := .idle })
      else .next (s.refuse .concurrentCaller)
    | .attaching _ _ => .next (s.refuse .concurrentCaller)

/-- The stage from slot `i` on of each loop of R186 steps 2 and 3, the next loop's where `i` ends it. -/
def bindRxFrom (c : Config) (i : Nat) : AttachStage := if i < c.nRx then .bindRx i else .wrTdbal
def bindTxFrom (c : Config) (i : Nat) : AttachStage := if i < c.nTx then .bindTxAddr i else bindRxFrom c 0
def zeroRxFrom (c : Config) (i : Nat) : AttachStage := if i < c.nRx then .zeroRxDesc i else bindTxFrom c 0
def zeroTxFrom (c : Config) (i : Nat) : AttachStage := if i < c.nTx then .zeroTxDesc i else zeroRxFrom c 0

/-- The bytes of host memory a stage of ATTACH stores, if it stores any (R186 steps 2 and 3): their address and
number. -/
def AttachStage.target (c : Config) : AttachStage → Option Region
  | .zeroTxDesc i => some (txdAt c i, c.descSize)
  | .zeroTxBuf i => some (c.txBufRegion i)
  | .zeroRxDesc i => some (rxdAt c i, c.descSize)
  | .zeroRxBuf i => some (c.rxBufRegion i)
  | .bindTxAddr i => some (txdAt c i + TxField.addr.offset, TxField.addr.width)
  | .bindTxStatus i => some (txdAt c i + TxField.status.offset, TxField.status.width)
  | .bindRx i => some (rxdAt c i + RxField.addr.offset, RxField.addr.width)
  | .wrTdbal | .wrTdbah | .wrTdlen | .wrTdh | .wrTdt | .wrRdbal | .wrRdbah | .wrRdlen | .wrRdh | .wrTctl | .wrTipg
  | .start0 | .spin0 | .start1 _ | .spin1 _ | .start2 _ _ | .spin2 _ _ | .wrRal _ _ _ | .wrRah _ | .wrRctl | .wrRdt
  | .finish => none

/-- A stage's bytes become 0 (R186 step 2). -/
def State.zeroTarget (s : State) (st : AttachStage) : State :=
  match st.target s.cfg with
  | some q => s.setMem (Mem.zeroFill s.mem q.1 q.2)
  | none => s

/-- A store of ATTACH into slot `i` of a ring: refused where `i` is no slot (R122), where the hardware owns the slot
and the ring's engine is enabled, and where the transmit engine has fetched it and will complete it, enabled or not
(R83, R84, R187 a, R203, R205). -/
def attachTx (s : State) (i : Nat) (t : State) : Except Refuse State :=
  if s.cfg.nTx ≤ i then .error .slotIndex
  else if (s.txEnabled && !s.txFlag i) || s.txFetched i then .error .hardwareSlot
  else .ok t
def attachRx (s : State) (i : Nat) (t : State) : Except Refuse State :=
  if s.cfg.nRx ≤ i then .error .slotIndex
  else if s.rxEnabled && !s.rxFlag i then .error .hardwareSlot
  else .ok t

/-- The state with SW at a stage of ATTACH. -/
def State.atStage (s : State) (h : Addr) (st : AttachStage) : State := { s with sw := .attaching h st }

/-- One access of ATTACH and the stage after it (R186). -/
def attachStep (h : Addr) (st : AttachStage) (s : State) : Except Refuse State :=
  let c := s.cfg
  let go (next : AttachStage) (e : Except Refuse State) : Except Refuse State := e.map (·.atStage h next)
  match st with
  | .zeroTxDesc i => go (.zeroTxBuf i) (attachTx s i (s.zeroTarget (.zeroTxDesc i)))
  | .zeroTxBuf i => go (zeroTxFrom c (i + 1)) (attachTx s i (s.zeroTarget (.zeroTxBuf i)))
  | .zeroRxDesc i => go (.zeroRxBuf i) (attachRx s i (s.zeroTarget (.zeroRxDesc i)))
  | .zeroRxBuf i => go (zeroRxFrom c (i + 1)) (attachRx s i (s.zeroTarget (.zeroRxBuf i)))
  | .bindTxAddr i => go (.bindTxStatus i) (attachTx s i (s.setTxd i .addr (c.txBufBase i).toNat))
  | .bindTxStatus i => go (bindTxFrom c (i + 1)) (attachTx s i (s.setTxd i .status (bitByte c.layout.txDone).toNat))
  | .bindRx i => go (bindRxFrom c (i + 1)) (attachRx s i (s.setRxd i .addr (c.rxBufBase i).toNat))
  | .wrTdbal => go .wrTdbah (writeTdbal (baseLow c.txDescBase) s)
  | .wrTdbah => go .wrTdlen (writeTdbah (baseHigh c.txDescBase) s)
  | .wrTdlen => go .wrTdh (writeTdlen (ringLength c c.nTx) s)
  | .wrTdh => go .wrTdt (writeTdh 0 s)
  | .wrTdt => go .wrRdbal ((writeTdt 0 s).map fun t => { t with txTail := 0 })
  | .wrRdbal => go .wrRdbah (writeRdbal (baseLow c.rxDescBase) s)
  | .wrRdbah => go .wrRdlen (writeRdbah (baseHigh c.rxDescBase) s)
  | .wrRdlen => go .wrRdh (writeRdlen (ringLength c c.nRx) s)
  | .wrRdh => go .wrTctl (writeRdh 0 s)
  | .wrTctl => go .wrTipg (writeTctl (tctlAttachWord c) s)
  | .wrTipg => go .start0 (writeTipg c.tipgValue s)
  | .start0 => go .spin0 (writeEerd (eerdStartWord c.layout c.macWord0) s)
  | .spin0 => .ok (s.spin fun w t => t.atStage h (.start1 w))
  | .start1 w0 => go (.spin1 w0) (writeEerd (eerdStartWord c.layout c.macWord1) s)
  | .spin1 w0 => .ok (s.spin fun w t => t.atStage h (.start2 w0 w))
  | .start2 w0 w1 => go (.spin2 w0 w1) (writeEerd (eerdStartWord c.layout c.macWord2) s)
  | .spin2 w0 w1 => .ok (s.spin fun w t => t.atStage h (.wrRal w0 w1 w))
  | .wrRal w0 w1 w2 => go (.wrRah w2) (writeRal (ralWord c.layout w0 w1) s)
  | .wrRah w2 => go .wrRctl (writeRah (rahWord c.layout w2) s)
  | .wrRctl => go .wrRdt (writeRctl (rctlAttachWord c) s)
  | .wrRdt =>
    go .finish ((writeRdt (indexWord (c.nRx - 1)) s).map fun t => { t with rxTail := c.nRx - 1 })
  | .finish => .ok ({ s with attached := true, sw := .idle }.returns .attach .ok)

/-- ATTACH(deviceHandle) (R185, R186): step 1 maps the register window, which ENV may make fail (R188); every later
step makes one access. ATTACH of an attached device is refused (R190). -/
def execAttach (h : Addr) (s : State) : Out :=
  if s.attachFailed then .next (s.refuse .afterAttachFailure)
  else if s.attached then .next (s.refuse .secondAttach)
  else match s.sw with
    | .idle =>
      if s.collab.mapFails then
        .next ({ s with attachFailed := true }.returns .attach (.err .attachFailure))
      else .next (s.atStage h (zeroTxFrom s.cfg 0))
    | .attaching h' st =>
      if h = h' then settle s (attachStep h st s) else .next (s.refuse .concurrentCaller)
    | .readingWord _ => .next (s.refuse .concurrentCaller)

end Sys2Proof.Machine
end

