-- ==== Sys2Proof/Machine/Receive.lean ====
section
/-! DEFINITION. The receive ring: RECEIVE, RX_DEPOSIT, RX_DROP (43_receive.md R230 to R244). -/

namespace Sys2Proof.Machine

/-- The candidate slot of RECEIVE: one past the receive tail (R230, R231). -/
def State.rxCandidate (s : State) : Nat := nextIndex s.rxTail s.cfg.nRx

/-- The writes of a successful RECEIVE from slot `c`: the flag clear, then the tail publish (R230, R325). -/
def State.drainSlot (s : State) (c : Nat) : State :=
  let s := s.setRxd c .status (clearFlag s.cfg.layout.rxDone (s.rxStatus c)).toNat
  let s := { s with rxTail := c }
  s.setReg .rdt (indexWord c)

/-- The driver operation `receive(outBuffer)` (R230), one atomic step (R232): the byte count and the caller's array
after the call, or none for `QueueEmpty`; and the state after it. A failing call changes nothing (R293), a caller's
array below RX_BUF_SIZE is refused (R240, D22). -/
def receiveOp (out : List Byte) (s : State) : Except Refuse (Option (Nat × List Byte) × State) :=
  match s.swBlocked with
  | some e => .error e
  | none =>
    if out.length < s.cfg.rxBufSize then .error .outBufferTooSmall
    else if s.cfg.nRx ≤ s.rxTail then .error .slotIndex
    else
      let c := s.rxCandidate
      if !s.rxFlag c then .ok (none, s.returns .receive (.err .queueEmpty))
      else
        let n := s.rxd c .length
        if s.cfg.rxBufSize < n then .error .rxLength
        else
          let frame := Mem.readBytes s.mem (s.cfg.rxBufBase c).toNat n
          .ok (some (n, frame ++ out.drop n), (s.drainSlot c).returns .receive (.okCount n))

/-- RECEIVE(outBuffer) (R230) by SW: on success the caller's array is kept in `outBuffer`. -/
def execReceive (outBuffer : List Byte) (s : State) : Out :=
  settle s ((receiveOp outBuffer s).map fun r =>
    match r.1 with
    | none => r.2
    | some (_, out) => { r.2 with outBuffer := out })

/-- ATTACH has published the receive tail: between its steps 8 and 9 it has not (R187 c; assumption 21). -/
def State.rxTailPublished (s : State) : Bool :=
  match s.sw with
  | .attaching _ .wrRdt => false
  | _ => true

/-- `offered(REG[RDH])` under the configured offering rule (R234, R237). -/
def State.rxOffered (s : State) : Bool :=
  match s.cfg.rxOfferRule with
  | .flagGated => !s.rxFlag s.rdh
  | .tailGated => !s.rxFlag s.rdh && s.rxTailPublished && s.reg .rdh != s.reg .rdt

/-- What the engine writes for frame `f` into slot `h`, the flag last (R234, R87); checksum, errors, special and the
other status bits are free values. -/
def State.depositInto (s : State) (h : Nat) (f : Frame) : State :=
  let k := s.draws
  let s := s.setMem (Mem.writeBytes s.mem (s.rxd h .addr) f)
  let s := s.setRxd h .length f.length
  let s := s.setRxd h .checksum (Config.draw16 k).toNat
  let s := s.setRxd h .errors (Config.draw8 (k + 1)).toNat
  let s := s.setRxd h .special (Config.draw16 (k + 2)).toNat
  let s := s.setRxd h .status (engineStatus s.cfg.layout.rxDone (Config.draw8 (k + 3))).toNat
  { s with draws := k + 4 }

/-- RX_DEPOSIT (R234): when enabled, the first frame of `wire_in` goes into slot `RDH`; otherwise nothing happens. -/
def execRxDeposit (s : State) : Out :=
  if !s.rxEnabled then .next s
  else match s.wireIn with
    | [] => .next s
    | f :: rest =>
      if s.cfg.nRx ≤ s.rdh ∨ (s.cfg.rxOfferRule = .tailGated ∧ s.rxTailPublished ∧ s.cfg.nRx ≤ s.rdt) then
        .next (s.refuse .slotIndex)
      else if !s.rxOffered then .next s
      else if f.length < s.cfg.rxMinLen ∨ s.cfg.rxBufSize < f.length then .next (s.refuse .frameLength)
      else if s.rxRingSize = 0 then .fault .ringSizeZero
      else .next ({ s with wireIn := rest }.depositInto s.rdh f |>.setReg .rdh
        (indexWord (nextIndex s.rdh s.rxRingSize)))

/-- RX_DROP (R235): the first frame of `wire_in`, if there is one, is lost; nothing else changes. -/
def execRxDrop (s : State) : Out := .next { s with wireIn := s.wireIn.tail }

end Sys2Proof.Machine
end

