-- ==== Sys2Proof/Machine/Bridges.lean ====
section
/-! DEFINITION. The host side: messages and the two bridge loops (44_bridges.md R260 to R275). -/

namespace Sys2Proof.Machine

/-- `acquire()` (R262): a page no other agent has. It fails where ENV makes it fail, the pool being unbounded. -/
def State.acquire (s : State) : Option Buf := if s.collab.acquireFails then none else some s.freePage

/-- `send(to_stack, input-available, buf)` when it succeeds: the buffer goes to the stack (R263). -/
def State.sendToStack (s : State) (b : Buf) : State :=
  { s with toStack := s.toStack ++ [⟨.inputAvailable, b⟩] }

/-- IN_BRIDGE_ITER (R266). A loop ended by a fatal condition has no further step (R298). -/
def execInBridgeIter (s : State) : Out :=
  if !s.attached then .next (s.refuse .unattached)
  else if s.ibFatal.isSome then .next s
  else match s.ibPhase with
    | .acquire =>
      match s.acquire with
      | none => .next (s.raise .ib (.fatalIoError .acquireFailed))
      | some buf => .next { s with ibPhase := .polling buf }
    | .polling buf =>
      match receiveOp (pageData s.cfg (s.msgPage buf)) s with
      | .error r => .next (s.refuse r)
      | .ok (none, t) => .next t
      | .ok (some (n, data), t) =>
        let t := t.fillMsg buf n data
        if t.collab.sendFails then .next (t.raise .ib (.fatalIoError .sendFailed))
        else .next { t.sendToStack buf with ibPhase := .acquire }

/-- OUT_BRIDGE_ITER (R269). Waiting on an empty channel it is blocked and nothing happens; a failed `recv` is met
before the tag, the tag before TRANSMIT (R300). -/
def execOutBridgeIter (s : State) : Out :=
  if !s.attached then .next (s.refuse .unattached)
  else if s.obFatal.isSome then .next s
  else match s.obPhase with
    | .waiting =>
      if s.collab.recvFails then .next (s.raise .ob (.fatalIoError .recvFailed))
      else match s.fromStack with
        | [] => .next s
        | msg :: rest =>
          let t := { s with fromStack := rest }
          if msg.tag = .outputRequest then .next { t with obPhase := .sending msg.buf }
          else .next (t.raise .ob (.protocolViolation msg.tag))
    | .sending buf =>
      let len := s.msgLen buf
      if len ≤ s.cfg.maxFrameLen ∧ s.cfg.pageSize - s.cfg.msgLenBytes < len then .next (s.refuse .messageBeyondPage)
      else match transmitOp len (s.msgFrame buf) s with
        | .error r => .next (s.refuse r)
        | .ok (none, t) => .next { t with obPhase := .waiting }
        | .ok (some .queueFull, t) => .next t
        | .ok (some e, t) => .next (t.raise .ob (.fatalIoError (.transmitError e)))

end Sys2Proof.Machine
end

