-- ==== Sys2Proof/Machine/Dispatch.lean ====
section
/-! DEFINITION. The meaning of every operation: one arm per constructor of Instr, in the order of
spec/opcode_table.json. -/

namespace Sys2Proof.Machine

def exec (i : Instr) (s : State) : Host.Outcome State Fault Refusal :=
  match i with
  | .rdCtrl => Sys2Proof.Machine.execRdCtrl s
  | .wrCtrl v => Sys2Proof.Machine.execWrCtrl v s
  | .rdStatus => Sys2Proof.Machine.execRdStatus s
  | .wrStatus v => Sys2Proof.Machine.execWrStatus v s
  | .rdEerd => Sys2Proof.Machine.execRdEerd s
  | .wrEerd v => Sys2Proof.Machine.execWrEerd v s
  | .rdRctl => Sys2Proof.Machine.execRdRctl s
  | .wrRctl v => Sys2Proof.Machine.execWrRctl v s
  | .rdTctl => Sys2Proof.Machine.execRdTctl s
  | .wrTctl v => Sys2Proof.Machine.execWrTctl v s
  | .rdTipg => Sys2Proof.Machine.execRdTipg s
  | .wrTipg v => Sys2Proof.Machine.execWrTipg v s
  | .rdRdbal => Sys2Proof.Machine.execRdRdbal s
  | .wrRdbal v => Sys2Proof.Machine.execWrRdbal v s
  | .rdRdbah => Sys2Proof.Machine.execRdRdbah s
  | .wrRdbah v => Sys2Proof.Machine.execWrRdbah v s
  | .rdRdlen => Sys2Proof.Machine.execRdRdlen s
  | .wrRdlen v => Sys2Proof.Machine.execWrRdlen v s
  | .rdRdh => Sys2Proof.Machine.execRdRdh s
  | .wrRdh v => Sys2Proof.Machine.execWrRdh v s
  | .rdRdt => Sys2Proof.Machine.execRdRdt s
  | .wrRdt v => Sys2Proof.Machine.execWrRdt v s
  | .rdTdbal => Sys2Proof.Machine.execRdTdbal s
  | .wrTdbal v => Sys2Proof.Machine.execWrTdbal v s
  | .rdTdbah => Sys2Proof.Machine.execRdTdbah s
  | .wrTdbah v => Sys2Proof.Machine.execWrTdbah v s
  | .rdTdlen => Sys2Proof.Machine.execRdTdlen s
  | .wrTdlen v => Sys2Proof.Machine.execWrTdlen v s
  | .rdTdh => Sys2Proof.Machine.execRdTdh s
  | .wrTdh v => Sys2Proof.Machine.execWrTdh v s
  | .rdTdt => Sys2Proof.Machine.execRdTdt s
  | .wrTdt v => Sys2Proof.Machine.execWrTdt v s
  | .rdRal => Sys2Proof.Machine.execRdRal s
  | .wrRal v => Sys2Proof.Machine.execWrRal v s
  | .rdRah => Sys2Proof.Machine.execRdRah s
  | .wrRah v => Sys2Proof.Machine.execWrRah v s
  | .attach h => Sys2Proof.Machine.execAttach h s
  | .eerdReadWord a => Sys2Proof.Machine.execEerdReadWord a s
  | .transmit p => Sys2Proof.Machine.execTransmit p s
  | .receive b => Sys2Proof.Machine.execReceive b s
  | .txFetch => Sys2Proof.Machine.execTxFetch s
  | .txComplete => Sys2Proof.Machine.execTxComplete s
  | .rxDeposit => Sys2Proof.Machine.execRxDeposit s
  | .rxDrop => Sys2Proof.Machine.execRxDrop s
  | .eeComplete => Sys2Proof.Machine.execEeComplete s
  | .inBridgeIter => Sys2Proof.Machine.execInBridgeIter s
  | .outBridgeIter => Sys2Proof.Machine.execOutBridgeIter s

end Sys2Proof.Machine
end

