-- ==== Sys2Proof/Machine/Env.lean ====
section
/-! DEFINITION. What ENV does between two steps (00_scope.md R8, 10_state.md R53, R54): the moves of the wire, the
network stack and the collaborators. -/

namespace Sys2Proof.Machine

/-- A frame ENV may offer (R53, D14). -/
def frameAdmitted (c : Config) (f : Frame) : Bool := c.rxMinLen ≤ f.length && f.length ≤ c.rxBufSize

/-- A move of ENV (assumption 18). The buffer of a sent message is one that the stack holds or the free pool has (R54,
R261, R262). -/
def envMove (m : EnvMove) (s : State) : Out :=
  match m with
  | .offerFrame f =>
    if frameAdmitted s.cfg f then .next { s with wireIn := s.wireIn ++ [f] } else .refused .envNotAdmitted
  | .stackSend tag buf page =>
    if s.attached = true ∧ page.length = s.cfg.pageSize ∧ (buf ∈ s.stackHeld ∨ s.pageFree buf) then
      .next { s.setPage buf page with
        fromStack := s.fromStack ++ [⟨tag, buf⟩], stackHeld := s.stackHeld.erase buf }
    else .refused .envNotAdmitted
  | .stackTake =>
    match s.toStack with
    | [] => .next s
    | msg :: rest =>
      .next { s with
        toStack := rest, stackHeld := s.stackHeld ++ [msg.buf], delivered := s.delivered ++ [s.msgFrame msg.buf] }
  | .stackRelease buf =>
    if buf ∈ s.stackHeld then .next { s with stackHeld := s.stackHeld.erase buf } else .refused .envNotAdmitted
  | .setCollab c => .next { s with collab := c }

/-- What a scheduled record asks for: an operation, a bus access outside the register map (R175), or nothing the model
has. -/
inductive Fetched where
  | instr (i : Instr)
  | badAccess (r : Refuse)
  | undecodable (e : DecodeError)
  deriving DecidableEq, Repr

/-- The meaning of a scheduled record. -/
def fetchRecord (c : Config) (r : Record) : Fetched :=
  match decode c r with
  | .ok i => .instr i
  | .error (.unlistedOffset o) => .badAccess (.busAccess (.unlistedOffset o))
  | .error (.misaligned o) => .badAccess (.busAccess (.misaligned o))
  | .error (.accessWidth w) => .badAccess (.busAccess (.accessWidth w))
  | .error e => .undecodable e

end Sys2Proof.Machine
end

