-- ==== Sys2Proof/Machine/Step.lean ====
section
/-! DEFINITION. One step of the machine: the next scheduled event happens (00_scope.md R8; assumption 2). -/

namespace Sys2Proof.Machine

/-- One step. A state that bears the mark `refused` has no step (R56; assumption 4); with nothing scheduled the block
executes nothing (R320). -/
def step (s : State) : Host.Outcome State Fault Refusal :=
  match s.refused with
  | some r => .refused (.markedRefused r)
  | none =>
    match s.schedule with
    | [] => .next s
    | .env m :: rest => envMove m { s with schedule := rest }
    | .op r :: rest =>
      match fetchRecord s.cfg r with
      | .instr i => exec i { s with schedule := rest }
      | .badAccess e => .next ({ s with schedule := rest }.refuse e)
      | .undecodable e => .refused (.undecodable e)

/-- The state with the operation whose bits are `w` scheduled next (assumption 2); `w` is numbered as the opcode
table's reference register map numbers it. -/
def State.withFetchWord (s : State) (nbits w : Nat) : State :=
  { s with schedule := .op (tableRecord nbits w) :: s.schedule }

end Sys2Proof.Machine
end

