-- ==== Sys2Proof/Safety.lean ====
section
/-! DEFINITION. What claims are stated in: the ring invariants (42_transmit.md R208, 43_receive.md R238), the frames a
ring holds, the launch state (41_attach_eeprom.md R189), the single ownership of message buffers (R54, R260), good and
quiescent states (R56, R335), running a list of operations, and executions with their fairness premises (R336). -/

namespace Sys2Proof.Machine

/-- No mark but `attached` is set: R56 says a state bearing another is never a good final state. -/
def State.Good (s : State) : Prop := s.refused = none ∧ s.ibFatal = none ∧ s.obFatal = none

/-- Quiescence (R335): nothing in flight, nothing undrained, nothing waiting, no fatal or refused mark. -/
def State.Quiescent (s : State) : Prop :=
  s.fromStack = [] ∧ s.obPhase = .waiting ∧ s.txPending = 0 ∧ (∀ i < s.cfg.nTx, s.txFlag i = true) ∧
  s.wireIn = [] ∧ (∀ i < s.cfg.nRx, s.rxFlag i = false) ∧ s.eePending = none ∧ s.Good

/-- SW is outside every driver operation of an attached block: the precondition of TRANSMIT and RECEIVE (R200, R230,
R307). -/
def State.SwReady (s : State) : Prop := s.attached = true ∧ s.sw = .idle ∧ s.attachFailed = false

/-- ATTACH may be called: it has neither succeeded nor failed, and no operation is in progress (R185, R188, R190). -/
def State.Unattached (s : State) : Prop := s.attached = false ∧ s.sw = .idle ∧ s.attachFailed = false

/-- SW may make a register access: it is inside ATTACH, or outside every driver operation of an attached block (R58,
R140, R188, R307, R320; assumption 11). -/
def State.BusReady (s : State) : Prop :=
  s.attachFailed = false ∧ ((s.sw = .idle ∧ s.attached = true) ∨ ∃ h st, s.sw = .attaching h st)

/-- The operation only sets the mark `refused` (R7, R56). -/
def Refuses (i : Instr) (s : State) : Prop := ∃ e, exec i s = .next (s.refuse e)

/-- When TX_FETCH is enabled (R204, R207). -/
def State.FetchEnabled (s : State) : Prop :=
  s.txEnabled = true ∧
  ((s.cfg.txArmRule = .tailGated ∧ s.reg .tdh ≠ s.reg .tdt) ∨
   (s.cfg.txArmRule = .flagGated ∧ s.txFlag s.tdh = false ∧ s.txPending < s.cfg.nTx))

/-- When RX_DEPOSIT is enabled (R234, R237, R187 c). -/
def State.DepositEnabled (s : State) : Prop :=
  s.rxEnabled = true ∧ s.wireIn ≠ [] ∧ s.rxFlag s.rdh = false ∧
  (s.cfg.rxOfferRule = .flagGated ∨ (s.rxTailPublished = true ∧ s.reg .rdh ≠ s.reg .rdt))

/-- The transmit ring invariant (R208) with its numbers: `d` the oldest slot in flight, `m` the slots in flight, `p`
those of them the engine has fetched. `commands` (any slot's command byte is fresh or armed) is what makes R208's own
clause on the slots in flight survive a TRANSMIT. -/
structure TxRing (s : State) (d m p : Nat) : Prop where
  oldest_lt : d < s.cfg.nTx
  fetched_le : p ≤ m
  inFlight_le : m ≤ s.cfg.nTx
  pending : s.txPending = p
  head : s.tdh = (d + p) % s.cfg.nTx
  tail : s.txTail = (d + m) % s.cfg.nTx
  published : s.tdt = s.txTail
  size : s.reg .tdlen = ringLength s.cfg s.cfg.nTx
  flags : ∀ j < s.cfg.nTx, s.txFlag ((d + j) % s.cfg.nTx) = decide (m ≤ j)
  armed : ∀ j < m, s.txCmd ((d + j) % s.cfg.nTx) = cmdReportEop s.cfg.layout ∧
    s.txd ((d + j) % s.cfg.nTx) .length ≤ s.cfg.maxFrameLen
  commands : ∀ i < s.cfg.nTx, s.txCmd i = 0 ∨ s.txCmd i = cmdReportEop s.cfg.layout
  bound : ∀ i < s.cfg.nTx, s.txd i .addr = (s.cfg.txBufBase i).toNat

/-- The receive ring invariant (R238) with its number `k` of deposited, undrained frames; its `c` is
`State.rxCandidate`. -/
structure RxRing (s : State) (k : Nat) : Prop where
  undrained_le : k ≤ s.cfg.nRx
  tail_lt : s.rxTail < s.cfg.nRx
  head : s.rdh = (s.rxCandidate + k) % s.cfg.nRx
  published : s.rdt = s.rxTail
  size : s.reg .rdlen = ringLength s.cfg s.cfg.nRx
  flags : ∀ j < s.cfg.nRx, s.rxFlag ((s.rxCandidate + j) % s.cfg.nRx) = decide (j < k)
  lengths : ∀ j < k, s.rxd ((s.rxCandidate + j) % s.cfg.nRx) .length ≤ s.cfg.rxBufSize
  bound : ∀ i < s.cfg.nRx, s.rxd i .addr = (s.cfg.rxBufBase i).toNat

/-- The frames in flight on the transmit ring, oldest first. -/
def txFrames (s : State) (d m : Nat) : List Frame :=
  (List.range m).map fun j => s.txFrame ((d + j) % s.cfg.nTx)

/-- The frame a receive slot holds: `RXBUF(i)[0 : RXD(i).length]` (R238). -/
def State.rxFrame (s : State) (i : Nat) : Frame :=
  Mem.readBytes s.mem (s.cfg.rxBufBase i).toNat (s.rxd i .length)

/-- The undrained frames of the receive ring, oldest first. -/
def rxFrames (s : State) (k : Nat) : List Frame :=
  (List.range k).map fun j => s.rxFrame ((s.rxCandidate + j) % s.cfg.nRx)

/-- The launch state of R189 and R58, register by register and slot by slot: R189's list, and the After ATTACH clauses
of R25 (START = 0) and R55 (the loop phases) that R58 assembles beside it. -/
structure Launch (s : State) : Prop where
  attached : s.attached = true
  txTail : s.txTail = 0
  rxTail : s.rxTail = s.cfg.nRx - 1
  tdbal : s.reg .tdbal = baseLow s.cfg.txDescBase
  tdbah : s.reg .tdbah = baseHigh s.cfg.txDescBase
  rdbal : s.reg .rdbal = baseLow s.cfg.rxDescBase
  rdbah : s.reg .rdbah = baseHigh s.cfg.rxDescBase
  tdlen : s.reg .tdlen = ringLength s.cfg s.cfg.nTx
  rdlen : s.reg .rdlen = ringLength s.cfg s.cfg.nRx
  tdh : s.reg .tdh = 0
  tdt : s.reg .tdt = 0
  rdh : s.reg .rdh = 0
  rdt : s.reg .rdt = indexWord (s.cfg.nRx - 1)
  tctl : s.reg .tctl = tctlAttachWord s.cfg
  tipg : s.reg .tipg = s.cfg.tipgValue
  rctl : s.reg .rctl = rctlAttachWord s.cfg
  ral : s.reg .ral = ralWord s.cfg.layout (s.eepromWord s.cfg.macWord0) (s.eepromWord s.cfg.macWord1)
  rah : s.reg .rah = rahWord s.cfg.layout (s.eepromWord s.cfg.macWord2)
  eerdAddr : eerdAddr s.cfg.layout (s.reg .eerd) = s.cfg.macWord2
  eerdData : s.eeData = s.eepromWord s.cfg.macWord2
  eerdDone : s.eeDone = 1
  eerdStart : eerdStart s.cfg.layout (s.reg .eerd) = 0
  eePending : s.eePending = none
  txPending : s.txPending = 0
  txDesc : ∀ i < s.cfg.nTx, s.txd i .addr = (s.cfg.txBufBase i).toNat ∧ s.txd i .length = 0 ∧ s.txd i .cso = 0 ∧
    s.txd i .cmd = 0 ∧ s.txd i .status = (bitByte s.cfg.layout.txDone).toNat ∧ s.txd i .css = 0 ∧ s.txd i .special = 0
  rxDesc : ∀ i < s.cfg.nRx, s.rxd i .addr = (s.cfg.rxBufBase i).toNat ∧ s.rxd i .length = 0 ∧
    s.rxd i .checksum = 0 ∧ s.rxd i .status = 0 ∧ s.rxd i .errors = 0 ∧ s.rxd i .special = 0
  txBuf : ∀ i < s.cfg.nTx, ∀ k < s.cfg.txBufSize, Mem.get s.mem ((s.cfg.txBufBase i).toNat + k) = 0
  rxBuf : ∀ i < s.cfg.nRx, ∀ k < s.cfg.rxBufSize, Mem.get s.mem ((s.cfg.rxBufBase i).toNat + k) = 0
  wireOut : s.wireOut = []
  toStack : s.toStack = []
  fromStack : s.fromStack = []
  ibPhase : s.ibPhase = .acquire
  obPhase : s.obPhase = .waiting
  good : s.Good

/-- The invariants of both rings of an attached block (R208, R238). -/
def Rings (s : State) : Prop := s.attached = true ∧ (∃ d m p, TxRing s d m p) ∧ ∃ k, RxRing s k

/-- What ATTACH leaves in the registers and software tails and no later step takes away: both engines enabled over
rings programmed as configured, every head, tail and software tail a slot index. -/
structure AttachedRegs (s : State) : Prop where
  attached : s.attached = true
  txEnabled : s.txEnabled = true
  rxEnabled : s.rxEnabled = true
  txProgrammed : s.txProgrammed = true
  rxProgrammed : s.rxProgrammed = true
  rdt_lt : s.rdt < s.cfg.nRx
  txTail_lt : s.txTail < s.cfg.nTx
  rxTail_lt : s.rxTail < s.cfg.nRx

/-- Between `s` and `t` no message page but that of `buf` has changed; where host memory holds it, no page outside
host memory has. -/
structure OnlyPage (s t : State) (buf : Buf) : Prop where
  others : ∀ b, b ≠ buf → t.msgPage b = s.msgPage b
  inMemory : buf < s.cfg.poolPages → t.farPages = s.farPages

/-- Address `a` is none of the first `n` bytes of the page of `buf`, where host memory holds that page. -/
abbrev OutsidePage (c : Config) (buf : Buf) (n a : Nat) : Prop :=
  buf < c.poolPages → Mem.Outside (pageAt c buf) n a

/-- The input bridge has drained slot `c` of `s` into the page of `buf` (R266): in `t` the page holds the slot's frame
and its length, the slot's flag is clear, no other page has changed, and every byte of memory but the page's length
and frame and the slot's status byte is as it was. -/
structure FilledFrom (s t : State) (buf : Buf) (c : Nat) : Prop where
  len : t.msgLen buf = s.rxd c .length
  frame : t.msgFrame buf = Mem.readBytes s.mem (s.cfg.rxBufBase c).toNat (s.rxd c .length)
  status : t.rxStatus c = s.rxStatus c &&& ~~~(1#8 <<< s.cfg.layout.rxDone)
  outside : ∀ a, Mem.Outside (s.rxdBase c + 12) 1 a →
    OutsidePage s.cfg buf (s.cfg.msgLenBytes + s.rxd c .length) a → Mem.get t.mem a = Mem.get s.mem a
  page : OnlyPage s t buf

/-- What EERD and the pending read have to do with each other (R51, R144, R182): a pending read is of the word ADDR
names and is not DONE, and with DONE = 1 DATA is that word of the EEPROM. -/
structure EepromRead (s : State) : Prop where
  pending : ∀ a, s.eePending = some a → s.eeDone = 0 ∧ eerdAddr s.cfg.layout (s.reg .eerd) = a
  data : s.eeDone = 1 → s.eeData = s.eepromWord (eerdAddr s.cfg.layout (s.reg .eerd))

/-- No buffer has two owners (R54, R260, R262). -/
def State.BufsOwnedOnce (s : State) : Prop := s.bufs.Nodup

/-- The operations of a list, one after the other; none where one of them does not answer a next state. -/
def runOps : List Instr → State → Option State
  | [], s => some s
  | i :: is, s =>
    match exec i s with
    | .next t => runOps is t
    | .fault _ => none
    | .refused _ => none

/-- The operations of one ATTACH up to the write that enables the receive engine, step 8, when `p0`, `p1`, `p2` polls
of the three EEPROM reads come before the answer (R186, R192): step 1; four stores for each transmit slot and three
for each receive slot; nine ring registers; TCTL and TIPG; the start of the first read; a poll and the next start,
twice; a poll, RAL, RAH and RCTL. -/
def attachToEnable (c : Config) (h : Addr) (p0 p1 p2 : Nat) : List Instr :=
  List.replicate (13 + 4 * c.nTx + 3 * c.nRx + p0) (.attach h) ++ .eeComplete ::
    (List.replicate (2 + p1) (.attach h) ++ .eeComplete ::
      (List.replicate (2 + p2) (.attach h) ++ .eeComplete :: List.replicate 4 (.attach h)))

/-- The operations of one whole ATTACH: then steps 9 and 10. -/
def attachRun (c : Config) (h : Addr) (p0 p1 p2 : Nat) : List Instr :=
  attachToEnable c h p0 p1 p2 ++ [.attach h, .attach h]

/-! ### Executions and fairness (R336) -/

/-- An infinite execution: in state `σ n` the scheduler chooses event `ε n`, and the step leads to `σ (n + 1)` (R8,
R57). It never meets a state that bears the mark `refused`, since no step follows one (R56). -/
structure Execution (σ : Nat → State) (ε : Nat → Event) : Prop where
  chosen : ∀ n, (σ n).schedule = []
  steps : ∀ n, step { σ n with schedule := [ε n] } = .next (σ (n + 1))

/-- At moment `n` the scheduler chooses this operation. -/
def Runs (σ : Nat → State) (ε : Nat → Event) (n : Nat) (i : Instr) : Prop :=
  ∃ r, ε n = .op r ∧ decode (σ n).cfg r = .ok i

/-- Weak fairness: whatever moment, later a step of the agent is not enabled or one is made. -/
def WeaklyFair (enabled made : Nat → Prop) : Prop := ∀ n, ∃ m, n ≤ m ∧ (enabled m → made m)

/-- `fair(EEU)`: a pending EEPROM read is eventually completed. -/
def FairEeu (σ : Nat → State) (ε : Nat → Event) : Prop :=
  WeaklyFair (fun n => (σ n).eePending ≠ none) fun n => Runs σ ε n .eeComplete

/-- `fair(TXE)`: an enabled TX_FETCH or TX_COMPLETE eventually runs. -/
def FairTxe (σ : Nat → State) (ε : Nat → Event) : Prop :=
  WeaklyFair (fun n => (σ n).FetchEnabled) (fun n => Runs σ ε n .txFetch) ∧
  WeaklyFair (fun n => (σ n).txPending ≠ 0) fun n => Runs σ ε n .txComplete

/-- `fair(RXE)`: a frame at the head of `wire_in` is eventually deposited or dropped. -/
def FairRxe (σ : Nat → State) (ε : Nat → Event) : Prop :=
  WeaklyFair (fun n => (σ n).wireIn ≠ []) fun n =>
    Runs σ ε n .rxDrop ∨ ((σ n).DepositEnabled ∧ Runs σ ε n .rxDeposit)

/-- `fair(OB)`: the output bridge, while it can step (R269), eventually does. -/
def FairOb (σ : Nat → State) (ε : Nat → Event) : Prop :=
  WeaklyFair (fun n => (σ n).attached = true ∧ (σ n).obFatal = none ∧
    ((∃ buf, (σ n).obPhase = .sending buf) ∨ (σ n).fromStack ≠ [] ∨ (σ n).collab.recvFails = true))
    fun n => Runs σ ε n .outBridgeIter

/-- `fair(IB)`: the input bridge, while it can step (R266), eventually does. -/
def FairIb (σ : Nat → State) (ε : Nat → Event) : Prop :=
  WeaklyFair (fun n => (σ n).attached = true ∧ (σ n).ibFatal = none) fun n => Runs σ ε n .inBridgeIter

/-- The only software that steps is the two bridges, the callers the host has after ATTACH (R8, R274). -/
def BridgesOnly (σ : Nat → State) (ε : Nat → Event) : Prop :=
  ∀ n, (∃ m, ε n = .env m) ∨
    ∃ i ∈ [Instr.txFetch, .txComplete, .rxDeposit, .rxDrop, .eeComplete, .inBridgeIter, .outBridgeIter], Runs σ ε n i

/-- SW stands in the spin of an EEPROM read, its own or one of ATTACH's, and `i` is its next poll (R180, R186). -/
def State.Polls (s : State) (i : Instr) : Prop :=
  s.attachFailed = false ∧
  ((∃ a, i = .eerdReadWord a ∧ s.sw = .readingWord a) ∨
   ∃ h st, i = .attach h ∧ s.attached = false ∧ s.sw = .attaching h st ∧
    (st = .spin0 ∨ (∃ w0, st = .spin1 w0) ∨ ∃ w0 w1, st = .spin2 w0 w1))

/-- The payload an event of the stack hands over, and all payloads handed over before moment `n`, oldest first. -/
def Event.payload (c : Config) : Event → List Frame
  | .env (.stackSend _ _ page) => [pageFrame c page]
  | .env (.offerFrame _) | .env .stackTake | .env (.stackRelease _) | .env (.setCollab _) | .op _ => []

def offeredPayloads (c : Config) (ε : Nat → Event) : Nat → List Frame
  | 0 => []
  | n + 1 => offeredPayloads c ε n ++ (ε n).payload c

/-- The frame a step takes from the wire if it is RX_DEPOSIT, and all frames deposited before moment `n`, oldest
first. -/
def depositedBy (s t : State) : Event → List Frame
  | .env _ => []
  | .op r =>
    if fetchRecord s.cfg r = .instr .rxDeposit then s.wireIn.take (s.wireIn.length - t.wireIn.length) else []

def depositedFrames (σ : Nat → State) (ε : Nat → Event) : Nat → List Frame
  | 0 => []
  | n + 1 => depositedFrames σ ε n ++ depositedBy (σ n) (σ (n + 1)) (ε n)

/-- The frames of the messages that the stack has taken from `to_stack` and of those on it, oldest first (R9). -/
def State.deliveredFrames (s : State) : List Frame := s.delivered ++ s.toStack.map fun m => s.msgFrame m.buf

end Sys2Proof.Machine

namespace Sys2Proof

/-- A write of one register by SW. -/
def Instr.isRegWrite : Instr → Bool
  | .wrCtrl _ | .wrStatus _ | .wrEerd _ | .wrRctl _ | .wrTctl _ | .wrTipg _
  | .wrRdbal _ | .wrRdbah _ | .wrRdlen _ | .wrRdh _ | .wrRdt _
  | .wrTdbal _ | .wrTdbah _ | .wrTdlen _ | .wrTdh _ | .wrTdt _ | .wrRal _ | .wrRah _ => true
  | .rdCtrl | .rdStatus | .rdEerd | .rdRctl | .rdTctl | .rdTipg
  | .rdRdbal | .rdRdbah | .rdRdlen | .rdRdh | .rdRdt
  | .rdTdbal | .rdTdbah | .rdTdlen | .rdTdh | .rdTdt | .rdRal | .rdRah
  | .attach _ | .eerdReadWord _ | .transmit _ | .receive _
  | .txFetch | .txComplete | .rxDeposit | .rxDrop | .eeComplete | .inBridgeIter | .outBridgeIter => false

/-- Which operations may change a register: its own write, ATTACH (which makes that write), and what the rules of
10_state.md R25 to R40 name as its writers. -/
def Instr.mayWrite : Instr → Reg → Bool
  | .wrEerd _, r => r == .eerd
  | .eerdReadWord _, r => r == .eerd
  | .eeComplete, r => r == .eerd
  | .wrRctl _, r => r == .rctl
  | .wrTctl _, r => r == .tctl
  | .wrTipg _, r => r == .tipg
  | .wrRdbal _, r => r == .rdbal
  | .wrRdbah _, r => r == .rdbah
  | .wrRdlen _, r => r == .rdlen
  | .wrRdh _, r => r == .rdh
  | .wrRdt _, r => r == .rdt
  | .wrTdbal _, r => r == .tdbal
  | .wrTdbah _, r => r == .tdbah
  | .wrTdlen _, r => r == .tdlen
  | .wrTdh _, r => r == .tdh
  | .wrTdt _, r => r == .tdt
  | .wrRal _, r => r == .ral
  | .wrRah _, r => r == .rah
  | .attach _, r => r != .ctrl && r != .status
  | .transmit _, r => r == .tdt
  | .outBridgeIter, r => r == .tdt
  | .txFetch, r => r == .tdh
  | .receive _, r => r == .rdt
  | .inBridgeIter, r => r == .rdt
  | .rxDeposit, r => r == .rdh
  | .wrCtrl _, _ | .wrStatus _, _ | .rdCtrl, _ | .rdStatus, _ | .rdEerd, _ | .rdRctl, _ | .rdTctl, _ | .rdTipg, _
  | .rdRdbal, _ | .rdRdbah, _ | .rdRdlen, _ | .rdRdh, _ | .rdRdt, _ | .rdTdbal, _ | .rdTdbah, _ | .rdTdlen, _
  | .rdTdh, _ | .rdTdt, _ | .rdRal, _ | .rdRah, _ | .txComplete, _ | .rxDrop, _ => false

end Sys2Proof
end

