-- ==== Sys2Proof/Certificates/Slice0/Obligations.lean ====
section
/-! DEFINITION. The statements for the provers, in the order of OBLIGATIONS.json. Each docstring names the rule of
spec/ it formalises; where a clause is the model's own choice it names the log entry. -/

open Sys2Proof Sys2Proof.Machine

/-! ### Encoding -/

/-- Under any well-formed register map, decoding the record of any well-formed operation gives it back, every operand
at every value (R101, R102, R120; the layout of the operand bytes is the model's, log 5). -/
def Obligations.DecodeOfEncodeIsIdentity : Prop :=
  ∀ (c : Config) (i : Instr), c.WF → i.wellFormed = true → decode c (encode c i) = .ok i

/-- Each operation has one record: what decodes is well formed and is the record the encoder writes (R9, R101, R120;
log 5). -/
def Obligations.DecodedRecordIsTheEncoding : Prop :=
  ∀ (c : Config) (r : Record) (i : Instr), c.WF → decode c r = .ok i → i.wellFormed = true ∧ encode c i = r

/-- One word of each family under the reference register map: the offsets and ids are those of R102 and R120, the
layout of the bytes (the selector in three, the data in four, a counted operand's length in eight) is the model's
choice, log 5. -/
def Obligations.SampleWordsDecode : Prop :=
  decode Config.reference ⟨.mmio 4, [0x00, 0x38, 0x00]⟩ = .ok .rdTdbal ∧
  decode Config.reference ⟨.mmio 4, [0x18, 0x38, 0x02, 0x3F, 0x00, 0x00, 0x00]⟩ = .ok (.wrTdt 0x3F) ∧
  decode Config.reference ⟨.mmio 4, [0x04, 0x54, 0x02, 0xFF, 0xEE, 0x00, 0x80]⟩ = .ok (.wrRah 0x8000EEFF) ∧
  decode Config.reference ⟨.opid, [0x02, 0xFF]⟩ = .ok (.eerdReadWord 0xFF) ∧
  decode Config.reference ⟨.opid, [0x03, 3, 0, 0, 0, 0, 0, 0, 0, 0xDE, 0xAD, 0xBE]⟩ =
    .ok (.transmit [0xDE, 0xAD, 0xBE]) ∧
  decode Config.reference ⟨.opid, [0x12]⟩ = .ok .rxDeposit ∧
  decode Config.reference ⟨.opid, [0x21]⟩ = .ok .outBridgeIter

/-- The reference configuration meets every constraint, and with its field and flag positions, its BSIZE code and its
ring length unit the register words, the reserved bits and the descriptor bytes are the numerals the rules write (R5,
R104 to R110, R113 to R115, R186; the rows R5 leaves OPEN have the model's values, log 1). -/
def Obligations.ReferenceSizingAndLayout : Prop :=
  Config.reference.WF ∧
  (∀ a : BitVec 8, eerdStartWord Layout.reference a = (a.setWidth 32 <<< 8 ||| 1)) ∧
  tctlAttachWord Config.reference = 0x0004010A ∧ Config.reference.tipgValue = 0x0060200A ∧
  rctlAttachWord Config.reference = 0x04000002 ∧ Config.reference.bsizeCode = 0 ∧ Config.reference.ringUnit = 1 ∧
  (∀ w0 w1 : Half, ralWord Layout.reference w0 w1 = w1 ++ w0) ∧
  (∀ w2 : Half, rahWord Layout.reference w2 = (0x8000 : Half) ++ w2) ∧
  ringLength Config.reference 64 = 0x400 ∧ ringLength Config.reference 128 = 0x800 ∧
  reservedBits Layout.reference.tctlFields = 0xFFC00005 ∧ reservedBits Layout.reference.tipgFields = 0xC0000000 ∧
  reservedBits Layout.reference.rctlFields = 0xFBFCFFFD ∧ reservedBits Layout.reference.rahFields = 0x7FFF0000 ∧
  reservedBits (eerdWriteFields Layout.reference) = 0xFFFF00FE ∧
  cmdReportEop Layout.reference = 0x09 ∧ bitByte Layout.reference.txDone = 0x01 ∧
  bitByte Layout.reference.rxDone = 0x01

/-! ### The step -/

/-- R175: a scheduled access at an offset that is no register's, of another width or misaligned is refused: the mark
is set, the access is used up, nothing else changes. -/
def Obligations.BusAccessOutsideTheMapRefused : Prop :=
  ∀ (s : State) (width sel : Nat) (data : List Byte) (rest : List Event), s.cfg.WF →
    s.refused = none → s.schedule = .op ⟨.mmio width, leBytes 3 sel ++ data⟩ :: rest → sel < 2 ^ 18 →
    (width ≠ 4 ∨ sel % 4 ≠ 0 ∨ ∀ r : Reg, r.offset s.cfg ≠ sel % 2 ^ 17) →
    ∃ e, step s = .next { s with schedule := rest, refused := some (.busAccess e) }

/-- A step at a state whose next event is a record that decodes is the meaning of the decoded operation, the event
being used up (R8; log 2). -/
def Obligations.StepRunsTheDecodedInstruction : Prop :=
  ∀ (s : State) (r : Record) (rest : List Event) (i : Instr),
    s.refused = none → s.schedule = .op r :: rest → decode s.cfg r = .ok i →
    step s = exec i { s with schedule := rest }

/-- What a step is otherwise: with nothing scheduled nothing happens (R320), a move of ENV happens as scheduled (R8),
and after the mark `refused` there is no step (R56; log 2, log 4). -/
def Obligations.StepWithoutAnInstruction : Prop :=
  ∀ s : State,
    (s.refused = none → s.schedule = [] → step s = .next s) ∧
    (∀ m rest, s.refused = none → s.schedule = .env m :: rest → step s = envMove m { s with schedule := rest }) ∧
    (∀ e, s.refused = some e → step s = .refused (.markedRefused e))

/-- The moves of ENV (R53, R54, R261, R262): a frame of an admitted length joins `wire_in` at its end; a message sent
after ATTACH, in a buffer the stack holds or the pool has, stores its page and joins `from_stack`; the oldest message
of `to_stack` is taken; a buffer the stack holds goes back to the pool (log 16, log 18). -/
def Obligations.EnvironmentMoves : Prop :=
  ∀ s : State,
    (∀ f : Frame, s.cfg.rxMinLen ≤ f.length → f.length ≤ s.cfg.rxBufSize →
      envMove (.offerFrame f) s = .next { s with wireIn := s.wireIn ++ [f] }) ∧
    (∀ tag buf page, s.cfg.WF → s.attached = true → page.length = s.cfg.pageSize →
      (buf ∈ s.stackHeld ∨ s.pageFree buf) → ∃ t, envMove (.stackSend tag buf page) s = .next t ∧
        t.msgPage buf = page ∧
        (buf < s.cfg.poolPages → Mem.readBytes t.mem (pageAt s.cfg buf) s.cfg.pageSize = page) ∧
        (∀ a, OutsidePage s.cfg buf s.cfg.pageSize a → Mem.get t.mem a = Mem.get s.mem a) ∧ OnlyPage s t buf ∧
        t = { s with mem := t.mem, farPages := t.farPages, fromStack := s.fromStack ++ [⟨tag, buf⟩],
                     stackHeld := s.stackHeld.erase buf }) ∧
    (∀ msg rest, s.toStack = msg :: rest → envMove .stackTake s =
      .next { s with toStack := rest, stackHeld := s.stackHeld ++ [msg.buf],
                     delivered := s.delivered ++ [s.msgFrame msg.buf] }) ∧
    (∀ buf, buf ∈ s.stackHeld →
      envMove (.stackRelease buf) s = .next { s with stackHeld := s.stackHeld.erase buf })

/-- No operation is refused by `step`'s third outcome; the only fault is an engine step over a ring length register
below DESC_SIZE, which R215 says cannot arise (log 20). -/
def Obligations.ExecAnswersNextOrRingSizeFault : Prop :=
  ∀ (i : Instr) (s : State), (∃ t, exec i s = .next t) ∨
    (exec i s = .fault .ringSizeZero ∧
      ((i = .txFetch ∧ s.txRingSize = 0) ∨ (i = .txComplete ∧ s.txRingSize = 0) ∨
       (i = .rxDeposit ∧ s.rxRingSize = 0)))

/-! ### Reset -/

/-- The five values R320 gives after a hardware reset, and the marks and lists R52 and R56 give at reset. -/
def Obligations.ResetValues : Prop :=
  State.reset.txEnabled = false ∧ State.reset.rxEnabled = false ∧ State.reset.eeDone = 0 ∧
  State.reset.eePending = none ∧ State.reset.txPending = 0 ∧ State.reset.wireOut = [] ∧
  State.reset.attached = false ∧ State.reset.ibFatal = none ∧ State.reset.obFatal = none ∧
  State.reset.refused = none

/-- A step that is not enabled changes nothing: of the hardware (R182, R204, R205, R234, R235; with both engine
enables clear, R320) and of a bridge loop that its fatal mark has ended (R298, R299, R273). That it may be scheduled
all the same is the model's reading (log 3). -/
def Obligations.StepsNotEnabledChangeNothing : Prop :=
  ∀ s : State,
    (s.txEnabled = false → exec .txFetch s = .next s) ∧
    (s.tdh < s.cfg.nTx → s.tdt < s.cfg.nTx → ¬ s.FetchEnabled → exec .txFetch s = .next s) ∧
    (s.txPending = 0 → exec .txComplete s = .next s) ∧
    (s.rxEnabled = false → exec .rxDeposit s = .next s) ∧
    (s.rdh < s.cfg.nRx → s.rdt < s.cfg.nRx → ¬ s.DepositEnabled → exec .rxDeposit s = .next s) ∧
    (s.wireIn = [] → exec .rxDrop s = .next s) ∧
    (s.eePending = none → exec .eeComplete s = .next s) ∧
    (s.attached = true → s.ibFatal ≠ none → exec .inBridgeIter s = .next s) ∧
    (s.attached = true → s.obFatal ≠ none → exec .outBridgeIter s = .next s)

/-- The invariants that every step keeps hold at reset, where no message buffer is in use. All rest on what the model
holds there: R320 lets every byte of host memory be any value, and that it is empty and in canonical form is log 7's
DESIGN CHOICE; R54 and R55 give the channels and the phases after ATTACH only, and that no message buffer is in use at
reset is the choice of log 6 (the phases) and log 16 (the channels, `stackHeld`). EERD is in agreement with the
pending read since R320 has DONE = 0 and no read pending. -/
def Obligations.ResetSatisfiesTheInvariants : Prop :=
  Mem.wf State.reset.mem ∧ State.reset.bufs = [] ∧ State.reset.BufsOwnedOnce ∧ EepromRead State.reset

/-! ### Register accesses -/

/-- R141, R142: an access to CTRL or STATUS, in either direction, sets the mark `refused` and nothing else. -/
def Obligations.ControlAndStatusRefused : Prop :=
  encode Config.reference .rdCtrl = readRecord 0x00000 ∧
  (∀ v, encode Config.reference (.wrCtrl v) = writeRecord 0x20000 v) ∧
  encode Config.reference .rdStatus = readRecord 0x00008 ∧
  (∀ v, encode Config.reference (.wrStatus v) = writeRecord 0x20008 v) ∧
  ∀ (s : State) (v : Word),
    exec .rdCtrl s = .next (s.refuse .controlAccess) ∧ exec (.wrCtrl v) s = .next (s.refuse .controlAccess) ∧
    exec .rdStatus s = .next (s.refuse .statusAccess) ∧ exec (.wrStatus v) s = .next (s.refuse .statusAccess) ∧
    (s.refused = none → s.refuse .controlAccess = { s with refused := some .controlAccess } ∧
      s.refuse .statusAccess = { s with refused := some .statusAccess })

/-- R151, R153 to R158: a read of a transmit register returns the register's 32 bits; nothing else changes. That the
reserved bits of TCTL and TIPG read as stored is the model's choice (log 30). -/
def Obligations.TransmitRegisterReads : Prop :=
  (encode Config.reference .rdTctl = readRecord 0x00400 ∧ encode Config.reference .rdTipg = readRecord 0x00410 ∧
    encode Config.reference .rdTdbal = readRecord 0x03800 ∧ encode Config.reference .rdTdbah = readRecord 0x03804 ∧
    encode Config.reference .rdTdlen = readRecord 0x03808 ∧ encode Config.reference .rdTdh = readRecord 0x03810 ∧
    encode Config.reference .rdTdt = readRecord 0x03818) ∧
  ∀ s : State, s.BusReady →
    exec .rdTctl s = .next { s with busData := s.reg .tctl } ∧
    exec .rdTipg s = .next { s with busData := s.reg .tipg } ∧
    exec .rdTdbal s = .next { s with busData := s.reg .tdbal } ∧
    exec .rdTdbah s = .next { s with busData := s.reg .tdbah } ∧
    exec .rdTdlen s = .next { s with busData := s.reg .tdlen } ∧
    exec .rdTdh s = .next { s with busData := s.reg .tdh } ∧
    exec .rdTdt s = .next { s with busData := s.reg .tdt }

/-- R165 to R170, R173, R174: a read of a receive register returns the register's 32 bits; nothing else changes. That
the reserved bits of RCTL and RAH read as stored is the model's choice (log 30). -/
def Obligations.ReceiveRegisterReads : Prop :=
  (encode Config.reference .rdRctl = readRecord 0x00100 ∧ encode Config.reference .rdRdbal = readRecord 0x02800 ∧
    encode Config.reference .rdRdbah = readRecord 0x02804 ∧ encode Config.reference .rdRdlen = readRecord 0x02808 ∧
    encode Config.reference .rdRdh = readRecord 0x02810 ∧ encode Config.reference .rdRdt = readRecord 0x02818 ∧
    encode Config.reference .rdRal = readRecord 0x05400 ∧ encode Config.reference .rdRah = readRecord 0x05404) ∧
  ∀ s : State, s.BusReady →
    exec .rdRctl s = .next { s with busData := s.reg .rctl } ∧
    exec .rdRdbal s = .next { s with busData := s.reg .rdbal } ∧
    exec .rdRdbah s = .next { s with busData := s.reg .rdbah } ∧
    exec .rdRdlen s = .next { s with busData := s.reg .rdlen } ∧
    exec .rdRdh s = .next { s with busData := s.reg .rdh } ∧
    exec .rdRdt s = .next { s with busData := s.reg .rdt } ∧
    exec .rdRal s = .next { s with busData := s.reg .ral } ∧
    exec .rdRah s = .next { s with busData := s.reg .rah }

/-- Who may change a register (R25 to R40): the operations `Instr.mayWrite` lists, no others. -/
def Obligations.OnlyNamedWritersChangeRegisters : Prop :=
  ∀ (i : Instr) (s t : State) (r : Reg), exec i s = .next t → t.reg r ≠ s.reg r → i.mayWrite r = true

/-- R147, R148, R160, R161: a ring base half is stored when the ring's engine is disabled (and a low half is a
multiple of the ring alignment, 16 bytes: its bits 3:0 are 0), and the write is refused otherwise. -/
def Obligations.RingBaseWrites : Prop :=
  (∀ v, encode Config.reference (.wrTdbal v) = writeRecord 0x23800 v ∧
    encode Config.reference (.wrTdbah v) = writeRecord 0x23804 v ∧
    encode Config.reference (.wrRdbal v) = writeRecord 0x22800 v ∧
    encode Config.reference (.wrRdbah v) = writeRecord 0x22804 v) ∧
  (∀ v : Word, v.toNat % Config.reference.ringAlign = 0 ↔ v.extractLsb' 0 4 = 0) ∧
  ∀ (s : State) (v : Word), s.BusReady →
    (s.txEnabled = false → v.toNat % s.cfg.ringAlign = 0 → exec (.wrTdbal v) s = .next (s.setReg .tdbal v)) ∧
    (s.txEnabled = true ∨ v.toNat % s.cfg.ringAlign ≠ 0 → Refuses (.wrTdbal v) s) ∧
    (s.txEnabled = false → exec (.wrTdbah v) s = .next (s.setReg .tdbah v)) ∧
    (s.txEnabled = true → Refuses (.wrTdbah v) s) ∧
    (s.rxEnabled = false → v.toNat % s.cfg.ringAlign = 0 → exec (.wrRdbal v) s = .next (s.setReg .rdbal v)) ∧
    (s.rxEnabled = true ∨ v.toNat % s.cfg.ringAlign ≠ 0 → Refuses (.wrRdbal v) s) ∧
    (s.rxEnabled = false → exec (.wrRdbah v) s = .next (s.setReg .rdbah v)) ∧
    (s.rxEnabled = true → Refuses (.wrRdbah v) s)

/-- R149, R162: a ring length is stored when the ring's engine is disabled and the value is N × DESC_SIZE (16 bytes),
counted in the register's unit (one byte); the ring size of the engine becomes v / DESC_SIZE. Any other write is
refused. -/
def Obligations.RingLengthWrites : Prop :=
  (∀ v, encode Config.reference (.wrTdlen v) = writeRecord 0x23808 v ∧
    encode Config.reference (.wrRdlen v) = writeRecord 0x22808 v) ∧ Config.reference.descSize = 16 ∧
  Config.reference.ringUnit = 1 ∧
  ∀ (s : State) (v : Word), s.BusReady → s.cfg.WF →
    (s.txEnabled = false → v.toNat * s.cfg.ringUnit = s.cfg.nTx * s.cfg.descSize →
      exec (.wrTdlen v) s = .next (s.setReg .tdlen v) ∧
      (s.setReg .tdlen v).txRingSize = v.toNat * s.cfg.ringUnit / s.cfg.descSize) ∧
    (s.txEnabled = true ∨ v.toNat * s.cfg.ringUnit ≠ s.cfg.nTx * s.cfg.descSize → Refuses (.wrTdlen v) s) ∧
    (s.rxEnabled = false → v.toNat * s.cfg.ringUnit = s.cfg.nRx * s.cfg.descSize →
      exec (.wrRdlen v) s = .next (s.setReg .rdlen v) ∧
      (s.setReg .rdlen v).rxRingSize = v.toNat * s.cfg.ringUnit / s.cfg.descSize) ∧
    (s.rxEnabled = true ∨ v.toNat * s.cfg.ringUnit ≠ s.cfg.nRx * s.cfg.descSize → Refuses (.wrRdlen v) s)

/-- R150, R163: a head is written 0, with the ring's engine disabled and before ATTACH has succeeded; any other write
is refused. -/
def Obligations.HeadWrites : Prop :=
  (∀ v, encode Config.reference (.wrTdh v) = writeRecord 0x23810 v ∧
    encode Config.reference (.wrRdh v) = writeRecord 0x22810 v) ∧
  ∀ (s : State) (v : Word), s.BusReady →
    (s.txEnabled = false → s.attached = false → v = 0 → exec (.wrTdh v) s = .next (s.setReg .tdh 0)) ∧
    (s.txEnabled = true ∨ s.attached = true ∨ v ≠ 0 → Refuses (.wrTdh v) s) ∧
    (s.rxEnabled = false → s.attached = false → v = 0 → exec (.wrRdh v) s = .next (s.setReg .rdh 0)) ∧
    (s.rxEnabled = true ∨ s.attached = true ∨ v ≠ 0 → Refuses (.wrRdh v) s)

/-- R152, R164: a tail below the ring size is stored, the current value as a no-op; any other is refused. After a
write of TDT the engine may fetch under `tail_gated` exactly when the head differs from v. A write of RDT changes
which slots are eligible only under `tail_gated`: then, with a frame waiting, the head's slot is eligible exactly when
the head differs from v, but between steps 8 and 9 of ATTACH none is, whatever RDT holds (R187 c; log 21). -/
def Obligations.TailWrites : Prop :=
  (∀ v, encode Config.reference (.wrTdt v) = writeRecord 0x23818 v ∧
    encode Config.reference (.wrRdt v) = writeRecord 0x22818 v) ∧
  ∀ (s : State) (v : Word), s.BusReady →
    (v.toNat < s.cfg.nTx → exec (.wrTdt v) s = .next (s.setReg .tdt v) ∧
      (v = s.reg .tdt → s.setReg .tdt v = s) ∧
      (s.cfg.txArmRule = .tailGated → s.txEnabled = true → ((s.setReg .tdt v).FetchEnabled ↔ s.reg .tdh ≠ v))) ∧
    (s.cfg.nTx ≤ v.toNat → Refuses (.wrTdt v) s) ∧
    (v.toNat < s.cfg.nRx → exec (.wrRdt v) s = .next (s.setReg .rdt v) ∧
      (s.cfg.rxOfferRule = .flagGated → ((s.setReg .rdt v).DepositEnabled ↔ s.DepositEnabled)) ∧
      (s.cfg.rxOfferRule = .tailGated → s.rxTailPublished = true → s.rxEnabled = true → s.wireIn ≠ [] →
        s.rxFlag s.rdh = false → ((s.setReg .rdt v).DepositEnabled ↔ s.reg .rdh ≠ v)) ∧
      (s.cfg.rxOfferRule = .tailGated → s.rxTailPublished = false → ¬ (s.setReg .rdt v).DepositEnabled)) ∧
    (s.cfg.nRx ≤ v.toNat → Refuses (.wrRdt v) s)

/-- R145, R146, R159: TCTL, TIPG and RCTL are stored unless a reserved bit is 1 (R122), an enable comes before the
ring (and, for RCTL, the receive address) is programmed, an enable is cleared after ATTACH, or BSIZE is not the code
of RX_BUF_SIZE (00: R108). What counts as programmed is the model's reading (log 11). -/
def Obligations.ControlWrites : Prop :=
  ∀ (s : State) (v : Word), s.BusReady →
    (v &&& reservedBits s.cfg.layout.tctlFields = 0 → (txEnBit s.cfg.layout v = true → s.txProgrammed = true) →
      (s.attached = true → s.txEnabled = true → txEnBit s.cfg.layout v = true) →
      exec (.wrTctl v) s = .next (s.setReg .tctl v)) ∧
    (v &&& reservedBits s.cfg.layout.tctlFields ≠ 0 ∨ (txEnBit s.cfg.layout v = true ∧ s.txProgrammed = false) ∨
      (s.attached = true ∧ s.txEnabled = true ∧ txEnBit s.cfg.layout v = false) → Refuses (.wrTctl v) s) ∧
    (v &&& reservedBits s.cfg.layout.tipgFields = 0 → exec (.wrTipg v) s = .next (s.setReg .tipg v)) ∧
    (v &&& reservedBits s.cfg.layout.tipgFields ≠ 0 → Refuses (.wrTipg v) s) ∧
    (bsize s.cfg.layout v = s.cfg.bsizeCode → v &&& reservedBits s.cfg.layout.rctlFields = 0 →
      (rxEnBit s.cfg.layout v = true → s.rxProgrammed = true) →
      (s.attached = true → s.rxEnabled = true → rxEnBit s.cfg.layout v = true) →
      exec (.wrRctl v) s = .next (s.setReg .rctl v)) ∧
    (bsize s.cfg.layout v ≠ s.cfg.bsizeCode ∨ v &&& reservedBits s.cfg.layout.rctlFields ≠ 0 ∨
      (rxEnBit s.cfg.layout v = true ∧ s.rxProgrammed = false) ∨
      (s.attached = true ∧ s.rxEnabled = true ∧ rxEnBit s.cfg.layout v = false) → Refuses (.wrRctl v) s)

/-- R171, R172: each half of the station address is written once, in ATTACH, RAH after RAL. The first write of RAL is
stored, then the first write of RAH (its reserved bits, 30:16 of R110, zero); a second write of either, a write of RAH
before RAL and any write after ATTACH has succeeded is refused (log 22: `station` counts the writes). -/
def Obligations.StationAddressWrites : Prop :=
  (∀ v, encode Config.reference (.wrRal v) = writeRecord 0x25400 v ∧
    encode Config.reference (.wrRah v) = writeRecord 0x25404 v) ∧
  ∀ (s : State) (v : Word), s.BusReady →
    (s.attached = false → s.station = .none →
      exec (.wrRal v) s = .next { s.setReg .ral v with station := .ral }) ∧
    (s.attached = true ∨ s.station ≠ .none → Refuses (.wrRal v) s) ∧
    (s.attached = false → s.station = .ral → v &&& reservedBits s.cfg.layout.rahFields = 0 →
      exec (.wrRah v) s = .next { s.setReg .rah v with station := .both }) ∧
    (s.attached = true ∨ s.station ≠ .ral ∨ v &&& reservedBits s.cfg.layout.rahFields ≠ 0 → Refuses (.wrRah v) s)

/-- R143: a write of EERD with START = 1, no other bit but ADDR, and no read pending starts a read: ADDR as written,
DONE and START 0, DATA any value, `ee_pending` the address; nothing else of the block changes. Otherwise it is
refused. -/
def Obligations.EerdWriteStartsARead : Prop :=
  (∀ v, encode Config.reference (.wrEerd v) = writeRecord 0x20014 v) ∧
  ∀ (s : State) (v : Word), s.BusReady → s.cfg.WF →
    (v &&& reservedBits (eerdWriteFields s.cfg.layout) = 0 → eerdStart s.cfg.layout v = 1 → s.eePending = none →
      ∃ t w, exec (.wrEerd v) s = .next t ∧ eerdAddr s.cfg.layout w = eerdAddr s.cfg.layout v ∧
        eerdDone s.cfg.layout w = 0 ∧ eerdStart s.cfg.layout w = 0 ∧
        t = { s.setReg .eerd w with eePending := some (eerdAddr s.cfg.layout v), draws := s.draws + 1 }) ∧
    (v &&& reservedBits (eerdWriteFields s.cfg.layout) ≠ 0 ∨ eerdStart s.cfg.layout v ≠ 1 ∨ s.eePending ≠ none →
      Refuses (.wrEerd v) s)

/-- R144: a read of EERD returns START, DONE and ADDR as stored and, with DONE = 1, DATA as stored, which is
`eeprom(ADDR)` in every state that meets the invariant EepromReadKept states; it has no side effect on the block (the
other bits are free values, log 28). -/
def Obligations.EerdRead : Prop :=
  encode Config.reference .rdEerd = readRecord 0x00014 ∧
  ∀ s : State, s.BusReady → s.cfg.WF → ∃ t, exec .rdEerd s = .next t ∧
    t = { s with busData := t.busData, draws := s.draws + 1 } ∧
    eerdDone s.cfg.layout t.busData = s.eeDone ∧
    eerdAddr s.cfg.layout t.busData = eerdAddr s.cfg.layout (s.reg .eerd) ∧
    eerdStart s.cfg.layout t.busData = eerdStart s.cfg.layout (s.reg .eerd) ∧
    (s.eeDone = 1 → eerdData s.cfg.layout t.busData = s.eeData) ∧
    (EepromRead s → s.eeDone = 1 →
      eerdData s.cfg.layout t.busData = s.eepromWord (eerdAddr s.cfg.layout t.busData))

/-- Software that may not enter is refused (R58, R188, R294, R307, R320; log 11, log 12, log 23): TRANSMIT and RECEIVE
after `AttachFailure`, while another operation is in progress and before ATTACH has succeeded; a register access then
too, but for the accesses inside ATTACH; EERD_READ_WORD likewise; ATTACH while another operation is in progress; and a
bridge iteration before ATTACH has succeeded, or where it calls TRANSMIT or RECEIVE while these are refused. -/
def Obligations.BlockedSoftwareIsRefused : Prop :=
  ∀ s : State,
    (s.attachFailed = true ∨ s.sw ≠ .idle ∨ s.attached = false →
      ∀ payload out, Refuses (.transmit payload) s ∧ Refuses (.receive out) s) ∧
    (s.attachFailed = true ∨ (∃ a, s.sw = .readingWord a) ∨ (s.sw = .idle ∧ s.attached = false) →
      ∀ (r : Reg) (v : Word), Refuses r.readOp s ∧ Refuses (r.writeOp v) s) ∧
    (∀ a, s.attachFailed = true ∨ (∃ b, a ≠ b ∧ s.sw = .readingWord b) ∨ (∃ h st, s.sw = .attaching h st) ∨
      (s.sw = .idle ∧ s.attached = false) → Refuses (.eerdReadWord a) s) ∧
    (∀ h, (∃ a, s.sw = .readingWord a) ∨ (∃ h' st, h ≠ h' ∧ s.sw = .attaching h' st) → Refuses (.attach h) s) ∧
    (s.attached = false → Refuses .inBridgeIter s ∧ Refuses .outBridgeIter s) ∧
    (s.attachFailed = true ∨ s.sw ≠ .idle →
      (∀ buf, s.ibFatal = none → s.ibPhase = .polling buf → Refuses .inBridgeIter s) ∧
      (∀ buf, s.obFatal = none → s.obPhase = .sending buf → Refuses .outBridgeIter s))

/-! ### EEPROM and ATTACH -/

/-- R182: with a read of word `a` pending, DATA becomes `eeprom(a)`, DONE 1 and `ee_pending` none in one step, every
other bit and all other state unchanged. -/
def Obligations.EepromCompletion : Prop :=
  encode Config.reference .eeComplete = ⟨.opid, [0x14]⟩ ∧
  ∀ (s : State) (a : BitVec 8), s.cfg.WF → s.eePending = some a →
    ∃ w, exec .eeComplete s = .next { s.setReg .eerd w with eePending := none } ∧
      eerdData s.cfg.layout w = s.cfg.eeprom[a.toNat]'a.isLt ∧ eerdDone s.cfg.layout w = 1 ∧
      ∀ i, (i < s.cfg.layout.eerdData ∨ s.cfg.layout.eerdData + 16 ≤ i) → i ≠ s.cfg.layout.eerdDone →
        w.getLsbD i = (s.reg .eerd).getLsbD i

/-- R180, access by access, on an attached block: EERD_READ_WORD starts the read of `a`, or is refused where a read is
pending (R143); it polls while DONE is 0, and returns DATA once DONE is 1 (one access a step: log 9). -/
def Obligations.EerdReadWordAccesses : Prop :=
  ∀ (s : State) (a : BitVec 8), s.cfg.WF → s.attachFailed = false →
    (s.sw = .idle → s.attached = true → s.eePending = none → ∃ t w, exec (.eerdReadWord a) s = .next t ∧
      eerdAddr s.cfg.layout w = a ∧ eerdDone s.cfg.layout w = 0 ∧
      t = { s.setReg .eerd w with eePending := some a, draws := s.draws + 1, sw := .readingWord a }) ∧
    (s.sw = .idle → s.attached = true → s.eePending ≠ none → Refuses (.eerdReadWord a) s) ∧
    (s.sw = .readingWord a → s.eeDone = 0 → ∃ v, exec (.eerdReadWord a) s =
      .next { s with busData := v, draws := s.draws + 1 }) ∧
    (s.sw = .readingWord a → s.eeDone = 1 → ∃ v, exec (.eerdReadWord a) s =
      .next { s with busData := v, draws := s.draws + 1, sw := .idle,
                     results := s.results ++ [⟨.eerdReadWord, .okWord s.eeData⟩] })

/-- R180 to R182, V15: however many polls come before EE_COMPLETE, EERD_READ_WORD(a) returns `eeprom(a)`, leaves DONE
= 1, and changes nothing but EERD and what the model records of the accesses (one access a step: log 9). -/
def Obligations.EerdReadWordReturnsTheWord : Prop :=
  ∀ (s : State) (a : BitVec 8) (polls : Nat), s.cfg.WF → s.SwReady → s.eePending = none →
    ∃ t w v, runOps (List.replicate (1 + polls) (.eerdReadWord a) ++ [.eeComplete, .eerdReadWord a]) s = some t ∧
      eerdDone s.cfg.layout w = 1 ∧ eerdData s.cfg.layout w = s.eepromWord a ∧ eerdAddr s.cfg.layout w = a ∧
      t = { s.setReg .eerd w with
        busData := v, draws := t.draws,
        results := s.results ++ [⟨.eerdReadWord, .okWord (s.eepromWord a)⟩] }

/-- R181: the spin ends in every execution that is weakly fair to EEU: a pending read is completed, nothing taking it
back meanwhile; software that stands in the spin, its own or one of ATTACH's, and is scheduled again as long as it
stands there, then returns the word (the context inside ATTACH making no write of EERD of its own, log 11). And from
wherever software spins on a pending read there is a run in which the poll never ends: it meets no timeout, and it is
not fair to EEU. -/
def Obligations.SpinTerminatesUnderFairness : Prop :=
  (∀ (σ : Nat → State) (ε : Nat → Event) (n : Nat) (a : BitVec 8), Execution σ ε → FairEeu σ ε → (σ n).cfg.WF →
    (σ n).eePending = some a →
    (∃ m, n ≤ m ∧ (∀ k, n ≤ k → k ≤ m → (σ k).eePending = some a) ∧ (σ (m + 1)).eePending = none ∧
      (σ (m + 1)).eeDone = 1 ∧ (σ (m + 1)).eeData = (σ n).eepromWord a) ∧
    ∀ i, (σ n).Polls i → (σ n).eeDone = 0 → (∀ k, n ≤ k → (σ k).Polls i → ∃ m, k ≤ m ∧ Runs σ ε m i) →
      (∀ m v, n ≤ m → ¬ Runs σ ε m (.wrEerd v)) →
      ∃ m, n ≤ m ∧ Runs σ ε m i ∧ ¬ (σ (m + 1)).Polls i ∧
        (σ (m + 1)).results = (σ m).results ++ [⟨.eerdReadWord, .okWord ((σ n).eepromWord a)⟩]) ∧
  ∀ (s : State) (i : Instr) (a : BitVec 8), s.schedule = [] → s.refused = none → s.Polls i → s.eePending = some a →
    s.eeDone = 0 → ∃ σ ε, σ 0 = s ∧ Execution σ ε ∧ ¬ FairEeu σ ε ∧
      ∀ n, Runs σ ε n i ∧ (σ n).Polls i ∧ (σ n).eePending = some a ∧ (σ n).results = s.results

/-- R188, R186 step 1: ATTACH returns `AttachFailure` where ENV fails the mapping, before any state of the block has
changed; else it goes on with the first store of its second step (log 9). Of an attached device, or after
`AttachFailure`, it is refused (R190; R188, log 12). -/
def Obligations.AttachMapsOrFails : Prop :=
  ∀ (s : State) (h : Addr),
    (s.Unattached → s.collab.mapFails = true → exec (.attach h) s =
      .next { s with attachFailed := true, results := s.results ++ [⟨.attach, .err .attachFailure⟩] }) ∧
    (s.Unattached → s.collab.mapFails = false → 1 ≤ s.cfg.nTx → exec (.attach h) s =
      .next { s with sw := .attaching h (.zeroTxDesc 0) }) ∧
    (s.attached = true ∨ s.attachFailed = true → Refuses (.attach h) s)

/-- R186, R189: from any state with both engines disabled in which nothing has happened yet, ATTACH with its three
EEPROM reads answered after any numbers of polls reaches the launch state, whatever memory and registers held before,
no half of the station address having been written (one access a step, as many of them as `attachRun` counts: log 9).
-/
def Obligations.AttachReachesLaunch : Prop :=
  ∀ (s : State) (h : Addr) (p0 p1 p2 : Nat), s.cfg.WF → s.Unattached → s.collab.mapFails = false →
    s.eePending = none → s.txEnabled = false → s.rxEnabled = false → s.txPending = 0 → s.wireOut = [] →
    s.toStack = [] → s.fromStack = [] → s.ibPhase = .acquire → s.obPhase = .waiting → s.station = .none → s.Good →
    ∃ t, runOps (attachRun s.cfg h p0 p1 p2) s = some t ∧ Launch t ∧ t.sw = .idle ∧
      t.results = s.results ++ [⟨.eerdReadWord, .okWord (s.eepromWord s.cfg.macWord0)⟩,
        ⟨.eerdReadWord, .okWord (s.eepromWord s.cfg.macWord1)⟩,
        ⟨.eerdReadWord, .okWord (s.eepromWord s.cfg.macWord2)⟩, ⟨.attach, .ok⟩]

/-- R189's second case, R187 (c): steps of the receive engine between steps 8 and 9 of ATTACH (`d1`) and between steps
9 and 10 (`d2`), whatever frames wait on the wire, leave a transmit ring with nothing in flight and a receive ring
that satisfies R238 with some number of undrained frames, taken from the wire in order; under `tail_gated` nothing is
offered between steps 8 and 9 (log 21). -/
def Obligations.AttachWithReceiveSteps : Prop :=
  ∀ (s : State) (h : Addr) (p0 p1 p2 : Nat) (d1 d2 : List Instr), s.cfg.WF → s.Unattached →
    s.collab.mapFails = false → s.eePending = none → s.txEnabled = false → s.rxEnabled = false → s.txPending = 0 →
    s.station = .none → s.Good → (∀ f ∈ s.wireIn, s.cfg.rxMinLen ≤ f.length ∧ f.length ≤ s.cfg.rxBufSize) →
    (∀ i ∈ d1 ++ d2, i = .rxDeposit ∨ i = .rxDrop) →
    ∃ a b t k, runOps (attachToEnable s.cfg h p0 p1 p2) s = some a ∧ runOps d1 a = some b ∧
      runOps (.attach h :: (d2 ++ [.attach h])) b = some t ∧
      (s.cfg.rxOfferRule = .tailGated → b = { a with wireIn := b.wireIn }) ∧
      t.sw = .idle ∧ t.Good ∧ AttachedRegs t ∧ TxRing t 0 0 0 ∧ RxRing t k ∧
      List.Sublist (rxFrames t k) s.wireIn

/-- R186, R71: an access of ATTACH stores nothing but the bytes its stage names (a descriptor or a buffer of step 2, a
field of step 3), so a stage that names none and the mapping leave all of memory as it was; under a well-formed
configuration all of it lies in the descriptor arrays and packet buffers of R71. It leaves the wire, the channels, the
bridges, their marks, the collaborators and `tx_pending` as they were; `attachFailed` changes only where the mapping
fails (log 12). A refusal, at a stage that stores too, changes nothing but the mark; and a store into a slot that an
enabled engine owns or that has been fetched, or into no slot, is refused (R83, R84; log 20). -/
def Obligations.AttachFrame : Prop :=
  (∀ (s : State) (h : Addr) (i : Nat), s.attachFailed = false → s.attached = false →
    ((s.sw = .attaching h (.zeroTxDesc i) ∨ s.sw = .attaching h (.zeroTxBuf i) ∨
        s.sw = .attaching h (.bindTxAddr i) ∨ s.sw = .attaching h (.bindTxStatus i)) →
      s.cfg.nTx ≤ i ∨ (s.txEnabled = true ∧ s.txFlag i = false) ∨ s.txFetched i = true → Refuses (.attach h) s) ∧
    ((s.sw = .attaching h (.zeroRxDesc i) ∨ s.sw = .attaching h (.zeroRxBuf i) ∨ s.sw = .attaching h (.bindRx i)) →
      s.cfg.nRx ≤ i ∨ (s.rxEnabled = true ∧ s.rxFlag i = false) → Refuses (.attach h) s)) ∧
  ∀ (s t : State) (h : Addr), exec (.attach h) s = .next t →
    (t.refused ≠ s.refused → t = { s with refused := t.refused }) ∧
    (∀ st q, s.sw = .attaching h st → st.target s.cfg = some q →
      ∀ a, Mem.Outside q.1 q.2 a → Mem.get t.mem a = Mem.get s.mem a) ∧
    (∀ st, s.sw = .attaching h st → st.target s.cfg = none → t.mem = s.mem) ∧
    ((∀ st, s.sw ≠ .attaching h st) → t.mem = s.mem) ∧
    (s.cfg.WF → ∀ a, (∀ q ∈ s.cfg.ringRegions, Mem.Outside q.1 q.2 a) → Mem.get t.mem a = Mem.get s.mem a) ∧
    (t.attachFailed = s.attachFailed ∨ (s.Unattached ∧ s.collab.mapFails = true)) ∧
    t = { s with regs := t.regs, mem := t.mem, txTail := t.txTail, rxTail := t.rxTail, eePending := t.eePending,
                 attached := t.attached, refused := t.refused, sw := t.sw, attachFailed := t.attachFailed,
                 station := t.station, busData := t.busData, results := t.results, draws := t.draws }

/-- R189, R321: the launch state satisfies both ring invariants with nothing in flight, the register invariant and
that of the EEPROM read; and (R183, R184, R49) the six bytes of its station address are the three EEPROM words, low
byte of each first, and the address is marked valid. -/
def Obligations.LaunchSatisfiesTheInvariants : Prop :=
  ∀ s : State, s.cfg.WF → Launch s → TxRing s 0 0 0 ∧ RxRing s 0 ∧ AttachedRegs s ∧ EepromRead s ∧
    s.stationAddr =
      [(s.eepromWord s.cfg.macWord0).extractLsb' 0 8, (s.eepromWord s.cfg.macWord0).extractLsb' 8 8,
       (s.eepromWord s.cfg.macWord1).extractLsb' 0 8, (s.eepromWord s.cfg.macWord1).extractLsb' 8 8,
       (s.eepromWord s.cfg.macWord2).extractLsb' 0 8, (s.eepromWord s.cfg.macWord2).extractLsb' 8 8] ∧
    avBit s.cfg.layout (s.reg .rah) = true

/-- R51, R144, R182: every step keeps EERD in agreement with the pending read. A pending read is of the word ADDR
names and is not DONE; with DONE = 1, DATA is `eeprom(ADDR)`, software's accesses inside ATTACH and after it among the
steps. -/
def Obligations.EepromReadKept : Prop :=
  ∀ s t : State, s.cfg.WF → EepromRead s → step s = .next t → EepromRead t

/-- R49, R171, R172, R191: once attached, no step changes the station address or takes the mark `attached` away; and a
half of the address that has been written (`station`, log 22) stays as written, inside ATTACH too. -/
def Obligations.StationAddressImmutable : Prop :=
  ∀ s t : State, step s = .next t →
    (s.attached = true →
      t.attached = true ∧ t.reg .ral = s.reg .ral ∧ t.reg .rah = s.reg .rah ∧ t.stationAddr = s.stationAddr) ∧
    (s.station ≠ .none → t.station ≠ .none ∧ t.reg .ral = s.reg .ral) ∧
    (s.station = .both → t.station = .both ∧ t.reg .rah = s.reg .rah)

/-! ### Transmit -/

/-- R200, R201: TRANSMIT answers `PayloadTooLarge` (first) or `QueueFull` with nothing changed, or copies the payload,
sets the length, clears the flag alone, sets RS and EOP, advances the tail and publishes it, and changes nothing else.
-/
def Obligations.TransmitEffect : Prop :=
  (∀ payload, (encode Config.reference (.transmit payload)).bytes.head? = some 0x03) ∧
  ∀ (s : State) (payload : Frame), s.SwReady →
    (s.cfg.maxFrameLen < payload.length →
      exec (.transmit payload) s = .next { s with results := s.results ++ [⟨.transmit, .err .payloadTooLarge⟩] }) ∧
    (payload.length ≤ s.cfg.maxFrameLen → s.txTail < s.cfg.nTx → s.txFlag s.txTail = false →
      exec (.transmit payload) s = .next { s with results := s.results ++ [⟨.transmit, .err .queueFull⟩] }) ∧
    (payload.length ≤ s.cfg.maxFrameLen → s.txTail < s.cfg.nTx → s.txFlag s.txTail = true → s.cfg.WF →
      ∃ t, exec (.transmit payload) s = .next t ∧
        Mem.readBytes t.mem (s.cfg.txBufBase s.txTail).toNat payload.length = payload ∧
        t.txd s.txTail .length = payload.length ∧
        t.txStatus s.txTail = s.txStatus s.txTail &&& ~~~(1#8 <<< s.cfg.layout.txDone) ∧
        t.txCmd s.txTail = s.txCmd s.txTail ||| 1#8 <<< s.cfg.layout.cmdRs ||| 1#8 <<< s.cfg.layout.cmdEop ∧
        t.txTail = (s.txTail + 1) % s.cfg.nTx ∧ t.reg .tdt = BitVec.ofNat 32 ((s.txTail + 1) % s.cfg.nTx) ∧
        t.results = s.results ++ [⟨.transmit, .ok⟩] ∧
        (∀ a, Mem.Outside (s.cfg.txBufBase s.txTail).toNat payload.length a →
          Mem.Outside (s.txdBase s.txTail + 8) 2 a → Mem.Outside (s.txdBase s.txTail + 11) 2 a →
          Mem.get t.mem a = Mem.get s.mem a) ∧
        (∀ r : Reg, r ≠ .tdt → t.reg r = s.reg r) ∧
        t = { s with regs := t.regs, mem := t.mem, txTail := t.txTail, results := t.results })

/-- What the two driver operations leave unchanged, whatever they answer (R200, R230, R301): TRANSMIT stores only the
payload's bytes of the slot's buffer and the slot's length, cmd and status, and changes no register but TDT; RECEIVE
stores the status byte of the candidate slot and changes no register but RDT; neither changes any other state of the
block. -/
def Obligations.DriverOperationFrames : Prop :=
  (∀ (s t : State) (payload : Frame), exec (.transmit payload) s = .next t →
    (∀ a, Mem.Outside (s.cfg.txBufBase s.txTail).toNat payload.length a →
      Mem.Outside (s.txdBase s.txTail + 8) 2 a → Mem.Outside (s.txdBase s.txTail + 11) 2 a →
      Mem.get t.mem a = Mem.get s.mem a) ∧
    (∀ r : Reg, r ≠ .tdt → t.reg r = s.reg r) ∧
    t = { s with regs := t.regs, mem := t.mem, txTail := t.txTail, refused := t.refused, results := t.results }) ∧
  ∀ (s t : State) (out : List Byte), exec (.receive out) s = .next t →
    (∀ a, Mem.Outside (s.rxdBase ((s.rxTail + 1) % s.cfg.nRx) + 12) 1 a → Mem.get t.mem a = Mem.get s.mem a) ∧
    (∀ r : Reg, r ≠ .rdt → t.reg r = s.reg r) ∧
    t = { s with regs := t.regs, mem := t.mem, rxTail := t.rxTail, refused := t.refused, outBuffer := t.outBuffer,
                 results := t.results }

/-- R204, R211: TX_FETCH of an armed slot moves the head on and counts the slot, storing nothing; a slot whose `cmd`
is not RS and EOP alone, 0x09, is refused. -/
def Obligations.TxFetchEffect : Prop :=
  encode Config.reference .txFetch = ⟨.opid, [0x10]⟩ ∧ cmdReportEop Layout.reference = 0x09 ∧
  ∀ s : State, s.tdh < s.cfg.nTx → s.tdt < s.cfg.nTx → s.txRingSize ≠ 0 →
    (s.FetchEnabled → s.txCmd s.tdh = cmdReportEop s.cfg.layout → exec .txFetch s =
      .next { s.setReg .tdh (BitVec.ofNat 32
          ((s.tdh + 1) % ((s.reg .tdlen).toNat * s.cfg.ringUnit / s.cfg.descSize))) with
        txPending := s.txPending + 1 }) ∧
    (s.FetchEnabled → s.txCmd s.tdh ≠ cmdReportEop s.cfg.layout → Refuses .txFetch s)

/-- R205: TX_COMPLETE sends the oldest fetched slot's frame and then sets its flag, storing that status byte alone. -/
def Obligations.TxCompleteEffect : Prop :=
  encode Config.reference .txComplete = ⟨.opid, [0x11]⟩ ∧
  ∀ (s : State) (d : Nat), s.cfg.WF → s.txPending ≠ 0 → s.tdh < s.cfg.nTx → s.txRingSize ≠ 0 →
    (d : Int) = ((s.tdh : Int) - s.txPending) % ((s.reg .tdlen).toNat * s.cfg.ringUnit / s.cfg.descSize : Nat) →
    ∃ t, exec .txComplete s = .next t ∧
      t.wireOut = s.wireOut ++ [Mem.readBytes s.mem (s.txd d .addr) (s.txd d .length)] ∧
      t.txFlag d = true ∧ t.txPending = s.txPending - 1 ∧
      (∀ a, Mem.Outside (s.txdBase d + 12) 1 a → Mem.get t.mem a = Mem.get s.mem a) ∧
      t = { s with mem := t.mem, wireOut := t.wireOut, txPending := t.txPending, draws := t.draws }

/-! ### Receive -/

/-- R230, R240, R241, D22: RECEIVE refuses a caller's array below `RX_BUF_SIZE` bytes; it answers `QueueEmpty` with
nothing changed, or the frame of the slot one past the tail: its bytes at the front of the caller's array, the rest of
the array as it was, the flag alone cleared, the tail moved and published; a length above `RX_BUF_SIZE` is refused.
That the array is a value, kept in `outBuffer`, is the model's (log 14). -/
def Obligations.ReceiveEffect : Prop :=
  (∀ out, (encode Config.reference (.receive out)).bytes.head? = some 0x04) ∧
  ∀ (s : State) (out : List Byte) (c n : Nat), s.SwReady → s.rxTail < s.cfg.nRx →
    c = (s.rxTail + 1) % s.cfg.nRx → n = s.rxd c .length →
    (out.length < s.cfg.rxBufSize → Refuses (.receive out) s) ∧
    (s.cfg.rxBufSize ≤ out.length → s.rxFlag c = false →
      exec (.receive out) s = .next { s with results := s.results ++ [⟨.receive, .err .queueEmpty⟩] }) ∧
    (s.rxFlag c = true → s.cfg.rxBufSize < n → Refuses (.receive out) s) ∧
    (s.cfg.rxBufSize ≤ out.length → s.rxFlag c = true → n ≤ s.cfg.rxBufSize →
      ∃ t, exec (.receive out) s = .next t ∧
        t.outBuffer = Mem.readBytes s.mem (s.cfg.rxBufBase c).toNat n ++ out.drop n ∧
        t.rxStatus c = s.rxStatus c &&& ~~~(1#8 <<< s.cfg.layout.rxDone) ∧ t.rxTail = c ∧
        t.reg .rdt = BitVec.ofNat 32 c ∧ t.results = s.results ++ [⟨.receive, .okCount n⟩] ∧
        (∀ a, Mem.Outside (s.rxdBase c + 12) 1 a → Mem.get t.mem a = Mem.get s.mem a) ∧
        (∀ r : Reg, r ≠ .rdt → t.reg r = s.reg r) ∧
        t = { s with regs := t.regs, mem := t.mem, rxTail := t.rxTail, outBuffer := t.outBuffer,
                     results := t.results })

/-- R234: RX_DEPOSIT into an offered slot bound to its buffer stores the frame, its length and the flag, takes the
frame from `wire_in` and moves the head on. It stores into the bound buffer and bytes 8 to 15 of the descriptor alone.
-/
def Obligations.RxDepositEffect : Prop :=
  encode Config.reference .rxDeposit = ⟨.opid, [0x12]⟩ ∧
  ∀ (s : State) (f : Frame) (rest : List Frame), s.cfg.WF → s.rdh < s.cfg.nRx → s.rdt < s.cfg.nRx →
    s.rxRingSize ≠ 0 → s.DepositEnabled → s.wireIn = f :: rest → s.cfg.rxMinLen ≤ f.length →
    f.length ≤ s.cfg.rxBufSize → s.rxd s.rdh .addr = (s.cfg.rxBufBase s.rdh).toNat →
    ∃ t, exec .rxDeposit s = .next t ∧ t.wireIn = rest ∧
      Mem.readBytes t.mem (s.cfg.rxBufBase s.rdh).toNat f.length = f ∧
      t.rxd s.rdh .length = f.length ∧ t.rxFlag s.rdh = true ∧ t.rxd s.rdh .addr = s.rxd s.rdh .addr ∧
      t.reg .rdh = BitVec.ofNat 32 ((s.rdh + 1) % ((s.reg .rdlen).toNat * s.cfg.ringUnit / s.cfg.descSize)) ∧
      (∀ a, Mem.Outside (s.cfg.rxBufBase s.rdh).toNat f.length a → Mem.Outside (s.rxdBase s.rdh + 8) 8 a →
        Mem.get t.mem a = Mem.get s.mem a) ∧
      (∀ r : Reg, r ≠ .rdh → t.reg r = s.reg r) ∧
      t = { s with regs := t.regs, mem := t.mem, wireIn := rest, draws := t.draws }

/-- R235: RX_DROP takes the first frame of `wire_in` and changes nothing else. -/
def Obligations.RxDropEffect : Prop :=
  encode Config.reference .rxDrop = ⟨.opid, [0x13]⟩ ∧
  ∀ (s : State) (f : Frame) (rest : List Frame), s.wireIn = f :: rest →
    exec .rxDrop s = .next { s with wireIn := rest }

/-- R239 (b): the receive engine never writes a slot whose flag is set: its descriptor and its buffer keep every byte.
-/
def Obligations.DepositNeverOverwritesAnUndrainedSlot : Prop :=
  ∀ (s t : State) (i : Nat), s.cfg.WF → i < s.cfg.nRx → s.rxFlag i = true →
    (∀ j < s.cfg.nRx, s.rxd j .addr = (s.cfg.rxBufBase j).toNat) → exec .rxDeposit s = .next t →
    (∀ k < s.cfg.descSize, Mem.get t.mem (s.rxdBase i + k) = Mem.get s.mem (s.rxdBase i + k)) ∧
    (∀ k < s.cfg.rxBufSize,
      Mem.get t.mem ((s.cfg.rxBufBase i).toNat + k) = Mem.get s.mem ((s.cfg.rxBufBase i).toNat + k))

/-! ### The bridges -/

/-- R266, R262, R70: in `acquire`, where ENV does not make it fail, the input bridge takes a page no agent has, the
pool being unbounded, and one of host memory as long as one of these is free; polling an empty ring it keeps its phase
and its buffer; polling a filled slot it stores the frame and its length into the buffer's page, sends the buffer and
gives the slot back as RECEIVE does (where the pages lie: log 16). -/
def Obligations.InputBridgeIteration : Prop :=
  ∀ s : State, s.attached = true → s.ibFatal = none →
    (s.ibPhase = .acquire → s.collab.acquireFails = false → ∃ b, b ∉ s.bufs ∧
      ((∃ k < s.cfg.poolPages, k ∉ s.bufs) → b < s.cfg.poolPages) ∧
      exec .inBridgeIter s = .next { s with ibPhase := .polling b }) ∧
    (∀ buf c, s.ibPhase = .polling buf → s.SwReady → s.rxTail < s.cfg.nRx → c = (s.rxTail + 1) % s.cfg.nRx →
      s.cfg.WF → s.rxd c .length ≤ s.cfg.rxBufSize →
      (s.rxFlag c = false → exec .inBridgeIter s =
        .next { s with results := s.results ++ [⟨.receive, .err .queueEmpty⟩] }) ∧
      (s.rxFlag c = true → s.collab.sendFails = false → ∃ t, exec .inBridgeIter s = .next t ∧
        FilledFrom s t buf c ∧
        t = { s.setReg .rdt (BitVec.ofNat 32 c) with
          mem := t.mem, farPages := t.farPages, rxTail := c,
          results := s.results ++ [⟨.receive, .okCount (s.rxd c .length)⟩],
          toStack := s.toStack ++ [⟨.inputAvailable, buf⟩], ibPhase := .acquire }))

/-- R269: waiting on an empty channel the output bridge is blocked (log 3); an output-request moves it to `sending`;
sending, it calls TRANSMIT with the message's data, which for a page that host memory holds are the `len` bytes behind
the page's `len` (R70, R117; log 16): on success it waits again, on `QueueFull` it stays where it is. A message whose
`len` runs past its page is refused (log 26). -/
def Obligations.OutputBridgeIteration : Prop :=
  ∀ s : State, s.attached = true → s.obFatal = none →
    (s.obPhase = .waiting → s.collab.recvFails = false → s.fromStack = [] → exec .outBridgeIter s = .next s) ∧
    (∀ buf rest, s.obPhase = .waiting → s.collab.recvFails = false → s.fromStack = ⟨.outputRequest, buf⟩ :: rest →
      exec .outBridgeIter s = .next { s with fromStack := rest, obPhase := .sending buf }) ∧
    (∀ buf, s.cfg.WF → buf < s.cfg.poolPages →
      s.msgLen buf = Mem.read s.mem (pageAt s.cfg buf) s.cfg.msgLenBytes ∧
      (s.cfg.msgLenBytes + s.msgLen buf ≤ s.cfg.pageSize →
        s.msgFrame buf = Mem.readBytes s.mem (pageAt s.cfg buf + s.cfg.msgLenBytes) (s.msgLen buf))) ∧
    (∀ buf len, s.cfg.WF → s.obPhase = .sending buf → len = s.msgLen buf → len ≤ s.cfg.maxFrameLen →
      (s.SwReady → s.txTail < s.cfg.nTx → s.cfg.msgLenBytes + len ≤ s.cfg.pageSize →
        (s.txFlag s.txTail = true → ∃ t,
          exec (.transmit (s.msgFrame buf)) s = .next t ∧
          t.results = s.results ++ [⟨.transmit, .ok⟩] ∧
          exec .outBridgeIter s = .next { t with obPhase := .waiting }) ∧
        (s.txFlag s.txTail = false → exec .outBridgeIter s =
          .next { s with results := s.results ++ [⟨.transmit, .err .queueFull⟩] })) ∧
      (s.cfg.pageSize < s.cfg.msgLenBytes + len → Refuses .outBridgeIter s))

/-- R295, R296, R298, R300: what ends a bridge loop, and what it leaves: the loop's mark with what it records, nothing
else of the rings or registers changed; a failed `recv` before the tag, the tag before TRANSMIT; a failed `send` comes
after RECEIVE has drained its slot, which is not rolled back: the buffer, its page filled, stays with the bridge, the
channel as it was. That a wrong message is dropped, and the phases kept, is log 17's reading (DEDUCED). -/
def Obligations.FatalConditions : Prop :=
  ∀ s : State, s.attached = true →
    (s.ibFatal = none → s.ibPhase = .acquire → s.collab.acquireFails = true →
      exec .inBridgeIter s = .next { s with ibFatal := some (.fatalIoError .acquireFailed) }) ∧
    (s.obFatal = none → s.obPhase = .waiting → s.collab.recvFails = true →
      exec .outBridgeIter s = .next { s with obFatal := some (.fatalIoError .recvFailed) }) ∧
    (∀ msg rest, s.obFatal = none → s.obPhase = .waiting → s.collab.recvFails = false →
      s.fromStack = msg :: rest → msg.tag ≠ .outputRequest →
      exec .outBridgeIter s = .next { s with fromStack := rest, obFatal := some (.protocolViolation msg.tag) }) ∧
    (∀ buf, s.obFatal = none → s.obPhase = .sending buf → s.SwReady → s.cfg.maxFrameLen < s.msgLen buf →
      exec .outBridgeIter s = .next { s with
        results := s.results ++ [⟨.transmit, .err .payloadTooLarge⟩],
        obFatal := some (.fatalIoError (.transmitError .payloadTooLarge)) }) ∧
    (∀ buf c, s.ibFatal = none → s.ibPhase = .polling buf → s.SwReady → s.cfg.WF →
      s.rxTail < s.cfg.nRx → c = (s.rxTail + 1) % s.cfg.nRx → s.rxd c .length ≤ s.cfg.rxBufSize →
      s.rxFlag c = true → s.collab.sendFails = true → ∃ t, exec .inBridgeIter s = .next t ∧ FilledFrom s t buf c ∧
      t = { s.setReg .rdt (BitVec.ofNat 32 c) with
        mem := t.mem, farPages := t.farPages, rxTail := c,
        results := s.results ++ [⟨.receive, .okCount (s.rxd c .length)⟩], ibFatal := some (.fatalIoError .sendFailed) })

/-! ### Invariants of every step -/

/-- Every step keeps the canonical form of memory: the list of R70's bytes in the form that is the model's choice, log
7 (the spec says nothing of a list). -/
def Obligations.MemoryStaysCanonical : Prop :=
  ∀ s t : State, Mem.wf s.mem → step s = .next t → Mem.wf t.mem

/-- R50, R52, R56: no step clears a mark or changes a parameter, and `wire_out` only grows. -/
def Obligations.MarksStayAndWireOutGrows : Prop :=
  (∀ s t : State, step s = .next t →
    t.cfg = s.cfg ∧ (s.attached = true → t.attached = true) ∧
    (∀ f, s.ibFatal = some f → t.ibFatal = some f) ∧ (∀ f, s.obFatal = some f → t.obFatal = some f) ∧
    s.wireOut <+: t.wireOut) ∧
  ∀ (i : Instr) (s t : State) (e : Refuse), exec i s = .next t → s.refused = some e → t.refused = some e

/-- R54, R260: every step keeps each message buffer with one owner. That a buffer is known by its page's number, and
which free page `acquire` hands out, are the model's choice (log 16). -/
def Obligations.BuffersKeepOneOwner : Prop :=
  ∀ s t : State, s.BufsOwnedOnce → step s = .next t → t.BufsOwnedOnce

/-- R145, R159, R215: every step, any register access among them, keeps an attached block's engines enabled, its ring
bases, ring lengths and station address as configured, and every head and tail a slot index. TIPG and the bits of TCTL
and RCTL beside EN and BSIZE may be written again (R145, R146, R159). -/
def Obligations.AttachedRegistersKept : Prop :=
  ∀ s t : State, s.cfg.WF → AttachedRegs s → step s = .next t → AttachedRegs t

/-- R208, R238, R48: every operation but a register write by SW keeps both ring invariants, and so the binding of
every slot to its buffer. -/
def Obligations.RingInvariantsKept : Prop :=
  ∀ (i : Instr) (s t : State), i.isRegWrite = false → s.cfg.WF → Rings s → exec i s = .next t → Rings t

/-- R122: under the ring invariants none of TRANSMIT, RECEIVE, the hardware steps and the bridge iterations meets a
situation the spec gives no meaning, given a caller's array of `RX_BUF_SIZE` bytes, admitted frames on the wire and
messages inside their pages. -/
def Obligations.NoRefusalUnderTheInvariants : Prop :=
  ∀ (s : State) (i : Instr), s.cfg.WF → Rings s → s.SwReady →
    (∀ f ∈ s.wireIn, s.cfg.rxMinLen ≤ f.length ∧ f.length ≤ s.cfg.rxBufSize) →
    (∀ buf, s.obPhase = .sending buf → s.msgLen buf ≤ s.cfg.maxFrameLen →
      s.cfg.msgLenBytes + s.msgLen buf ≤ s.cfg.pageSize) →
    ((∃ payload, i = .transmit payload) ∨ (∃ out, i = .receive out ∧ s.cfg.rxBufSize ≤ out.length) ∨
      i = .txFetch ∨ i = .txComplete ∨ i = .rxDeposit ∨ i = .rxDrop ∨ i = .eeComplete ∨ i = .inBridgeIter ∨
      i = .outBridgeIter) →
    ∃ t, exec i s = .next t ∧ t.refused = s.refused

/-! ### The rings as queues -/

/-- R206, R208: the transmit ring is a queue. A successful TRANSMIT adds its payload at the end, a fetch leaves the
frames, a completion sends the oldest frame and removes it; each keeps the invariant with the counts R208 gives. -/
def Obligations.TransmitRingIsAQueue : Prop :=
  ∀ (s : State) (d m p : Nat), s.cfg.WF → s.SwReady → TxRing s d m p →
    (∀ payload, payload.length ≤ s.cfg.maxFrameLen → m < s.cfg.nTx → ∃ t, exec (.transmit payload) s = .next t ∧
      TxRing t d (m + 1) p ∧ txFrames t d (m + 1) = txFrames s d m ++ [payload] ∧ t.wireOut = s.wireOut) ∧
    (∀ payload, payload.length ≤ s.cfg.maxFrameLen → m = s.cfg.nTx → exec (.transmit payload) s =
      .next { s with results := s.results ++ [⟨.transmit, .err .queueFull⟩] }) ∧
    (s.txEnabled = true → (s.FetchEnabled ↔
      (s.cfg.txArmRule = .tailGated ∧ 0 < m - p ∧ m - p < s.cfg.nTx) ∨
      (s.cfg.txArmRule = .flagGated ∧ 0 < m - p))) ∧
    (s.FetchEnabled → ∃ t, exec .txFetch s = .next t ∧ TxRing t d m (p + 1) ∧ txFrames t d m = txFrames s d m ∧
      t.wireOut = s.wireOut) ∧
    (0 < p → ∃ t f rest, exec .txComplete s = .next t ∧ txFrames s d m = f :: rest ∧
      t.wireOut = s.wireOut ++ [f] ∧ TxRing t ((d + 1) % s.cfg.nTx) (m - 1) (p - 1) ∧
      txFrames t ((d + 1) % s.cfg.nTx) (m - 1) = rest)

/-- R236, R238, R242: the receive ring is a queue. A deposit adds the first frame of `wire_in` at the end, RECEIVE
returns the oldest with its bytes and length and removes it; each keeps the invariant with the counts R238 gives. -/
def Obligations.ReceiveRingIsAQueue : Prop :=
  ∀ (s : State) (k : Nat), s.cfg.WF → s.SwReady → RxRing s k →
    (s.rxEnabled = true → s.wireIn ≠ [] → (s.DepositEnabled ↔
      (s.cfg.rxOfferRule = .flagGated ∧ k < s.cfg.nRx) ∨
      (s.cfg.rxOfferRule = .tailGated ∧ k + 1 < s.cfg.nRx))) ∧
    (∀ f rest, s.DepositEnabled → s.wireIn = f :: rest → s.cfg.rxMinLen ≤ f.length → f.length ≤ s.cfg.rxBufSize →
      ∃ t, exec .rxDeposit s = .next t ∧ t.wireIn = rest ∧ RxRing t (k + 1) ∧
        rxFrames t (k + 1) = rxFrames s k ++ [f]) ∧
    (∀ out, s.cfg.rxBufSize ≤ out.length → 0 < k → ∃ t f rest, exec (.receive out) s = .next t ∧
      rxFrames s k = f :: rest ∧ t.outBuffer.take f.length = f ∧ t.outBuffer.drop f.length = out.drop f.length ∧
      t.results = s.results ++ [⟨.receive, .okCount f.length⟩] ∧ RxRing t (k - 1) ∧ rxFrames t (k - 1) = rest) ∧
    (∀ out, s.cfg.rxBufSize ≤ out.length → k = 0 → exec (.receive out) s =
      .next { s with results := s.results ++ [⟨.receive, .err .queueEmpty⟩] })

/-- R209: on an empty N-slot transmit ring with no completion, N calls of TRANSMIT succeed, the frames in flight are
their payloads in order, and the next call fails with `QueueFull` and changes nothing of the block. -/
def Obligations.TransmitCapacity : Prop :=
  ∀ (s : State) (d : Nat) (payloads : List Frame) (last : Frame), s.cfg.WF → s.SwReady → TxRing s d 0 0 →
    payloads.length = s.cfg.nTx → (∀ f ∈ payloads, f.length ≤ s.cfg.maxFrameLen) →
    last.length ≤ s.cfg.maxFrameLen →
    ∃ t, runOps (payloads.map .transmit) s = some t ∧ TxRing t d s.cfg.nTx 0 ∧
      txFrames t d s.cfg.nTx = payloads ∧
      t.results = s.results ++ List.replicate s.cfg.nTx ⟨.transmit, .ok⟩ ∧
      exec (.transmit last) t = .next { t with results := t.results ++ [⟨.transmit, .err .queueFull⟩] }

/-- R328: with N slots armed and none fetched, head and tail are equal, under `tail_gated` the engine has no enabled
step and every TRANSMIT answers `QueueFull`: the hang; under `flag_gated` the fetch is enabled. That a step not
enabled changes nothing is log 3. -/
def Obligations.FullRingHang : Prop :=
  ∀ (s : State) (d : Nat), s.cfg.WF → s.SwReady → TxRing s d s.cfg.nTx 0 →
    s.reg .tdt = s.reg .tdh ∧ exec .txComplete s = .next s ∧
    (s.cfg.txArmRule = .tailGated → exec .txFetch s = .next s) ∧
    (s.cfg.txArmRule = .flagGated → s.txEnabled = true → s.FetchEnabled) ∧
    ∀ payload, payload.length ≤ s.cfg.maxFrameLen → exec (.transmit payload) s =
      .next { s with results := s.results ++ [⟨.transmit, .err .queueFull⟩] }

/-- R213: a payload sent, fetched, completed, looped back by ENV, deposited and received comes back byte for byte. A
ring of one slot needs the rule that is not gated on its tail (R328, R237). -/
def Obligations.LoopbackRoundTrip : Prop :=
  ∀ (s : State) (d : Nat) (payload : Frame) (out : List Byte), s.cfg.WF → s.SwReady → s.txEnabled = true →
    s.rxEnabled = true → TxRing s d 0 0 → RxRing s 0 → s.wireIn = [] → payload.length ≤ s.cfg.maxFrameLen →
    s.cfg.rxMinLen ≤ payload.length → payload.length ≤ s.cfg.rxBufSize → s.cfg.rxBufSize ≤ out.length →
    (s.cfg.txArmRule = .flagGated ∨ 2 ≤ s.cfg.nTx) → (s.cfg.rxOfferRule = .flagGated ∨ 2 ≤ s.cfg.nRx) →
    ∃ a b t, runOps [.transmit payload, .txFetch, .txComplete] s = some a ∧ a.wireOut = s.wireOut ++ [payload] ∧
      envMove (.offerFrame payload) a = .next b ∧ runOps [.rxDeposit, .receive out] b = some t ∧
      t.outBuffer.take payload.length = payload ∧
      t.results = s.results ++ [⟨.transmit, .ok⟩, ⟨.receive, .okCount payload.length⟩]

/-! ### Progress -/

/-- R337: from the launch state, under the premises of R336 on TXE and OB, and where the corner of R328 is not met,
every payload the stack sends eventually appears in `wire_out`, exactly once and in order: `wire_out` is always the
first of the payloads offered, and at some moment holds all that were offered before. The bridges are the only
software (R274), no fatal condition ends the output loop, and no message buffer has two owners at the start. -/
def Obligations.TransmitProgress : Prop :=
  ∀ (σ : Nat → State) (ε : Nat → Event), Launch (σ 0) → (σ 0).SwReady → (σ 0).cfg.WF → Execution σ ε →
    BridgesOnly σ ε → FairTxe σ ε → FairOb σ ε → (∀ n, (σ n).obFatal = none) →
    (σ 0).BufsOwnedOnce → ((σ 0).cfg.txArmRule = .flagGated ∨ ∀ n d m p, TxRing (σ n) d m p → m - p < (σ 0).cfg.nTx) →
    ∀ n, (σ n).wireOut <+: offeredPayloads (σ 0).cfg ε n ∧
      ∃ m, n ≤ m ∧ offeredPayloads (σ 0).cfg ε n <+: (σ m).wireOut

/-- R337: from the launch state, under the premise of R336 on IB, every frame RX_DEPOSIT takes is eventually sent on
`to_stack`, exactly once and in order: the frames sent there are always the first of the frames deposited, and at some
moment hold all that were deposited before. The bridges are the only software (R274), no fatal condition ends the
input loop, no message buffer has two owners at the start, and the stack has taken none yet. -/
def Obligations.ReceiveProgress : Prop :=
  ∀ (σ : Nat → State) (ε : Nat → Event), Launch (σ 0) → (σ 0).SwReady → (σ 0).cfg.WF → Execution σ ε →
    BridgesOnly σ ε → FairIb σ ε → (∀ n, (σ n).ibFatal = none) → (σ 0).BufsOwnedOnce → (σ 0).delivered = [] →
    ∀ n, (σ n).deliveredFrames <+: depositedFrames σ ε n ∧
      ∃ m, n ≤ m ∧ depositedFrames σ ε n <+: (σ m).deliveredFrames
end

