-- ==== Sys2Proof/Laws/Config.lean ====
section
/-! SUPPORT. What a well-formed configuration gives: bounds, and that no two regions of 20_memory.md R71 meet. -/

namespace Sys2Proof.Config

theorem WF.nTx_pos {c : Config} (h : c.WF) : 1 ≤ c.nTx := h.sizes.1
theorem WF.nRx_pos {c : Config} (h : c.WF) : 1 ≤ c.nRx := h.sizes.2.1
theorem WF.maxFrame_le {c : Config} (h : c.WF) : c.maxFrameLen ≤ c.txBufSize := h.sizes.2.2.1
theorem WF.txBufSize_lt {c : Config} (h : c.WF) : c.txBufSize < 2 ^ 16 := h.sizes.2.2.2.1
theorem WF.rxBufSize_lt {c : Config} (h : c.WF) : c.rxBufSize < 2 ^ 16 := h.sizes.2.2.2.2.1
theorem WF.txLength_lt {c : Config} (h : c.WF) : c.nTx * c.descSize < 2 ^ 32 := h.sizes.2.2.2.2.2.1
theorem WF.rxLength_lt {c : Config} (h : c.WF) : c.nRx * c.descSize < 2 ^ 32 := h.sizes.2.2.2.2.2.2.1
theorem WF.pairwise {c : Config} (h : c.WF) : c.regions.Pairwise Region.Disjoint := h.sizes.2.2.2.2.2.2.2
theorem WF.nTx_le {c : Config} (h : c.WF) : c.nTx ≤ 2 ^ 16 := h.rows.1
theorem WF.nRx_le {c : Config} (h : c.WF) : c.nRx ≤ 2 ^ 16 := h.rows.2.1
theorem WF.rxMin_le {c : Config} (h : c.WF) : c.rxMinLen ≤ c.rxBufSize := h.rows.2.2.1
theorem WF.page_le {c : Config} (h : c.WF) : c.msgLenBytes + c.rxBufSize ≤ c.pageSize := h.rows.2.2.2.1
theorem WF.msgLen {c : Config} (h : c.WF) : c.rxBufSize < 256 ^ c.msgLenBytes := h.rows.2.2.2.2.1
theorem WF.txAligned {c : Config} (h : c.WF) : c.txDescBase.toNat % c.ringAlign = 0 := h.rows.2.2.2.2.2.1
theorem WF.rxAligned {c : Config} (h : c.WF) : c.rxDescBase.toNat % c.ringAlign = 0 := h.rows.2.2.2.2.2.2.1
theorem WF.align_dvd {c : Config} (h : c.WF) : c.ringAlign ∣ 2 ^ 32 := h.rows.2.2.2.2.2.2.2.1
theorem WF.tipg {c : Config} (h : c.WF) : ∀ i < 32, c.tipgValue.getLsbD i = true →
    ∃ f ∈ c.layout.tipgFields, f.1 ≤ i ∧ i < f.1 + f.2 := h.rows.2.2.2.2.2.2.2.2.1
theorem WF.descSize_le {c : Config} (h : c.WF) : 16 ≤ c.descSize := h.rows.2.2.2.2.2.2.2.2.2.1
theorem WF.addrBits {c : Config} (h : c.WF) : c.addrBits = 64 := h.rows.2.2.2.2.2.2.2.2.2.2.2.2.2.1
theorem WF.regBits {c : Config} (h : c.WF) : c.regBits = 32 := h.rows.2.2.2.2.2.2.2.2.2.2.2.2.2.2
theorem WF.unit_pos {c : Config} (h : c.WF) : 0 < c.ringUnit := h.unit.1
theorem WF.unit_dvd {c : Config} (h : c.WF) : c.ringUnit ∣ c.descSize := h.unit.2
theorem WF.pool_apart {c : Config} (h : c.WF) : ∀ r ∈ c.regions, Region.Disjoint c.poolRegion r := h.pool.1
theorem WF.pool_end {c : Config} (h : c.WF) : c.poolBase.toNat + c.poolPages * c.pageSize ≤ addrSpace := by
  have := h.pool.2
  rwa [h.addrBits] at this
theorem WF.bounded {c : Config} (h : c.WF) : ∀ r ∈ c.regions, r.1 + r.2 ≤ addrSpace := fun r hr => by
  have := h.rows.2.2.2.2.2.2.2.2.2.2.2.2.1 r hr
  rwa [h.addrBits] at this

theorem txDescRegion_mem (c : Config) : c.txDescRegion ∈ c.regions := by simp [regions, ringRegions]
theorem rxDescRegion_mem (c : Config) : c.rxDescRegion ∈ c.regions := by simp [regions, ringRegions]
theorem txBufRegion_mem (c : Config) {i : Nat} (h : i < c.nTx) : c.txBufRegion i ∈ c.regions := by
  simp only [regions, ringRegions, List.mem_cons, List.mem_append, List.mem_map, List.mem_range]
  exact .inr (.inr (.inr (.inl ⟨i, h, rfl⟩)))
theorem rxBufRegion_mem (c : Config) {i : Nat} (h : i < c.nRx) : c.rxBufRegion i ∈ c.regions := by
  simp only [regions, ringRegions, List.mem_cons, List.mem_append, List.mem_map, List.mem_range]
  exact .inr (.inr (.inr (.inr ⟨i, h, rfl⟩)))

/-- A slot's descriptor lies inside its array. -/
theorem slot_end {i n d : Nat} (h : i < n) : d * i + d ≤ n * d := by
  have := Nat.mul_le_mul_right d (show i + 1 ≤ n from h)
  rwa [Nat.add_mul, Nat.one_mul, Nat.mul_comm i d] at this

/-- The descriptors of two slots do not meet. -/
theorem slot_apart {i j d : Nat} (h : i ≠ j) : d * i + d ≤ d * j ∨ d * j + d ≤ d * i := by
  rcases Nat.lt_or_gt_of_ne h with h | h
  · exact .inl (by rw [Nat.mul_comm d j]; exact slot_end h)
  · exact .inr (by rw [Nat.mul_comm d i]; exact slot_end h)

/-- The transmit descriptor array ends inside the address space. -/
theorem WF.txDesc_end {c : Config} (h : c.WF) : c.txDescBase.toNat + c.nTx * c.descSize ≤ addrSpace :=
  h.bounded _ c.txDescRegion_mem
theorem WF.rxDesc_end {c : Config} (h : c.WF) : c.rxDescBase.toNat + c.nRx * c.descSize ≤ addrSpace :=
  h.bounded _ c.rxDescRegion_mem
theorem WF.txBuf_end {c : Config} (h : c.WF) {i : Nat} (hi : i < c.nTx) :
    (c.txBufBase i).toNat + c.txBufSize ≤ addrSpace := h.bounded _ (c.txBufRegion_mem hi)
theorem WF.rxBuf_end {c : Config} (h : c.WF) {i : Nat} (hi : i < c.nRx) :
    (c.rxBufBase i).toNat + c.rxBufSize ≤ addrSpace := h.bounded _ (c.rxBufRegion_mem hi)

/-- The two descriptor arrays do not meet. -/
theorem WF.txDesc_rxDesc {c : Config} (h : c.WF) : Region.Disjoint c.txDescRegion c.rxDescRegion :=
  (List.pairwise_cons.1 (List.pairwise_cons.1 h.pairwise).2).1 _ (by simp)

theorem WF.txDesc_txBuf {c : Config} (h : c.WF) {i : Nat} (hi : i < c.nTx) :
    Region.Disjoint c.txDescRegion (c.txBufRegion i) :=
  (List.pairwise_cons.1 (List.pairwise_cons.1 h.pairwise).2).1 _ (by simp; exact .inr (.inl ⟨i, hi, rfl⟩))

theorem WF.txDesc_rxBuf {c : Config} (h : c.WF) {i : Nat} (hi : i < c.nRx) :
    Region.Disjoint c.txDescRegion (c.rxBufRegion i) :=
  (List.pairwise_cons.1 (List.pairwise_cons.1 h.pairwise).2).1 _ (by simp; exact .inr (.inr ⟨i, hi, rfl⟩))

theorem WF.rxDesc_txBuf {c : Config} (h : c.WF) {i : Nat} (hi : i < c.nTx) :
    Region.Disjoint c.rxDescRegion (c.txBufRegion i) :=
  (List.pairwise_cons.1 (List.pairwise_cons.1 (List.pairwise_cons.1 h.pairwise).2).2).1 _
    (by simp; exact .inl ⟨i, hi, rfl⟩)

theorem WF.rxDesc_rxBuf {c : Config} (h : c.WF) {i : Nat} (hi : i < c.nRx) :
    Region.Disjoint c.rxDescRegion (c.rxBufRegion i) :=
  (List.pairwise_cons.1 (List.pairwise_cons.1 (List.pairwise_cons.1 h.pairwise).2).2).1 _
    (by simp; exact .inr ⟨i, hi, rfl⟩)

theorem WF.bufs {c : Config} (h : c.WF) :
    ((List.range c.nTx).map c.txBufRegion ++ (List.range c.nRx).map c.rxBufRegion).Pairwise Region.Disjoint :=
  (List.pairwise_cons.1 (List.pairwise_cons.1 (List.pairwise_cons.1 h.pairwise).2).2).2

theorem WF.txBuf_rxBuf {c : Config} (h : c.WF) {i j : Nat} (hi : i < c.nTx) (hj : j < c.nRx) :
    Region.Disjoint (c.txBufRegion i) (c.rxBufRegion j) :=
  (List.pairwise_append.1 h.bufs).2.2 _ (List.mem_map.2 ⟨i, by simpa using hi, rfl⟩) _
    (List.mem_map.2 ⟨j, by simpa using hj, rfl⟩)

theorem Region.Disjoint.symm {r q : Region} (h : Region.Disjoint r q) : Region.Disjoint q r := Or.symm h

theorem pairwise_map_range {n : Nat} {f : Nat → Region} {i j : Nat}
    (h : ((List.range n).map f).Pairwise Region.Disjoint) (hi : i < n) (hj : j < n) (hne : i ≠ j) :
    Region.Disjoint (f i) (f j) := by
  rw [List.pairwise_map] at h
  have key : ∀ {a b : Nat}, a < n → b < n → a < b → Region.Disjoint (f a) (f b) := fun {a b} ha hb hab => by
    have := List.pairwise_iff_getElem.1 h a b (by simpa) (by simpa) hab
    simpa using this
  rcases Nat.lt_or_gt_of_ne hne with hlt | hlt
  · exact key hi hj hlt
  · exact (key hj hi hlt).symm

/-- Two transmit buffers do not meet. -/
theorem WF.txBuf_txBuf {c : Config} (h : c.WF) {i j : Nat} (hi : i < c.nTx) (hj : j < c.nTx) (hne : i ≠ j) :
    Region.Disjoint (c.txBufRegion i) (c.txBufRegion j) :=
  pairwise_map_range (List.pairwise_append.1 h.bufs).1 hi hj hne

/-- Two receive buffers do not meet. -/
theorem WF.rxBuf_rxBuf {c : Config} (h : c.WF) {i j : Nat} (hi : i < c.nRx) (hj : j < c.nRx) (hne : i ≠ j) :
    Region.Disjoint (c.rxBufRegion i) (c.rxBufRegion j) :=
  pairwise_map_range (List.pairwise_append.1 h.bufs).2.1 hi hj hne

end Sys2Proof.Config
end

