-- ==== Sys2Proof/Laws/Mem.lean ====
section
/-! SUPPORT. The laws of host memory: a read after a write, what a write leaves alone, and that every operation
keeps the canonical form. They hold of every list of cells, canonical or not. -/

namespace Sys2Proof.Machine

theorem Mem.lookup_erase_same (m : List Host.Cell) (k : Nat) : Mem.lookup (Mem.erase m k) k = 0 := by
  induction m with
  | nil => rfl
  | cons c m ih =>
    by_cases h : c.1 = k
    · simpa [Mem.erase, h] using ih
    · simpa [Mem.erase, h, Mem.lookup] using ih

theorem Mem.lookup_filter (m : List Host.Cell) (p : Nat → Bool) (k : Nat) (hk : p k = true) :
    Mem.lookup (m.filter fun c => p c.1) k = Mem.lookup m k := by
  induction m with
  | nil => rfl
  | cons c m ih =>
    by_cases hp : p c.1 = true
    · simp [hp, Mem.lookup, ih]
    · have : c.1 ≠ k := fun e => hp (e ▸ hk)
      simp [hp, Mem.lookup, this, ih]

theorem Mem.lookup_filter_out (m : List Host.Cell) (p : Nat → Bool) (k : Nat) (hk : p k = false) :
    Mem.lookup (m.filter fun c => p c.1) k = 0 := by
  induction m with
  | nil => rfl
  | cons c m ih =>
    by_cases hp : p c.1 = true
    · have : c.1 ≠ k := fun e => by rw [e, hk] at hp; cases hp
      simp [hp, Mem.lookup, this, ih]
    · simp [hp, ih]

theorem Mem.lookup_erase_ne (m : List Host.Cell) {k j : Nat} (h : j ≠ k) :
    Mem.lookup (Mem.erase m k) j = Mem.lookup m j := by
  have := Mem.lookup_filter m (fun x => decide (x ≠ k)) j (by simpa using h)
  simpa [Mem.erase] using this

theorem Mem.lookup_insert_same (m : List Host.Cell) (k : Nat) (v : Byte)
    (h : ∀ c ∈ m, c.1 ≠ k) : Mem.lookup (Mem.insert m k v) k = v := by
  induction m with
  | nil => simp [Mem.insert, Mem.lookup]
  | cons c m ih =>
    have hc := h c (by simp)
    by_cases hlt : k < c.1
    · simp [Mem.insert, hlt, Mem.lookup]
    · simp [Mem.insert, hlt, Mem.lookup, hc, ih fun d hd => h d (by simp [hd])]

theorem Mem.lookup_insert_ne (m : List Host.Cell) {k j : Nat} (v : Byte) (h : j ≠ k) :
    Mem.lookup (Mem.insert m k v) j = Mem.lookup m j := by
  induction m with
  | nil => simp [Mem.insert, Mem.lookup, h.symm]
  | cons c m ih =>
    by_cases hlt : k < c.1
    · simp [Mem.insert, hlt, Mem.lookup, h.symm]
    · simp [Mem.insert, hlt, Mem.lookup, ih]

/-- A read after a write to the same byte gives the value written. -/
theorem Mem.get_put_same (m : List Host.Cell) (a : Nat) (v : Byte) : Mem.get (Mem.put m a v) a = v := by
  unfold Mem.get Mem.put
  split
  · next h => rw [Mem.lookup_erase_same, h]
  · exact Mem.lookup_insert_same _ _ _ (by simp [Mem.erase])

/-- A write leaves every other byte alone. -/
theorem Mem.get_put_ne (m : List Host.Cell) {a b : Nat} (v : Byte) (h : b % addrSpace ≠ a % addrSpace) :
    Mem.get (Mem.put m a v) b = Mem.get m b := by
  unfold Mem.get Mem.put
  split
  · exact Mem.lookup_erase_ne _ h
  · rw [Mem.lookup_insert_ne _ _ h, Mem.lookup_erase_ne _ h]

theorem Mem.get_put (m : List Host.Cell) (a b : Nat) (v : Byte) :
    Mem.get (Mem.put m a v) b = if b % addrSpace = a % addrSpace then v else Mem.get m b := by
  split
  · next h =>
    have := Mem.get_put_same m a v
    unfold Mem.get at *
    rwa [h]
  · next h => exact Mem.get_put_ne m v h

/-! ### The canonical form -/

theorem Mem.wf_nil : Mem.wf [] := by simp [Mem.wf]

theorem Mem.wf_filter {m : List Host.Cell} (p : Host.Cell → Bool) (h : Mem.wf m) : Mem.wf (m.filter p) :=
  ⟨h.1.filter p, fun c hc => h.2 c (List.mem_of_mem_filter hc)⟩

theorem Mem.mem_insert {m : List Host.Cell} {k : Nat} {v : Byte} {c : Host.Cell} :
    c ∈ Mem.insert m k v ↔ c = (k, v) ∨ c ∈ m := by
  induction m with
  | nil => simp [Mem.insert]
  | cons d m ih =>
    by_cases h : k < d.1
    · simp [Mem.insert, h]
    · simp [Mem.insert, h, ih]; tauto

theorem Mem.wf_insert {m : List Host.Cell} {k : Nat} {v : Byte} (h : Mem.wf m) (hk : k < addrSpace)
    (hv : v ≠ 0) (hne : ∀ c ∈ m, c.1 ≠ k) : Mem.wf (Mem.insert m k v) := by
  refine ⟨?_, fun c hc => ?_⟩
  · obtain ⟨hs, -⟩ := h
    induction m with
    | nil => simp [Mem.insert]
    | cons d m ih =>
      have hd := List.pairwise_cons.1 hs
      by_cases hlt : k < d.1
      · simp only [Mem.insert, hlt, if_true]
        refine List.pairwise_cons.2 ⟨fun c hc => ?_, hs⟩
        rcases List.mem_cons.1 hc with rfl | hc
        · exact hlt
        · exact Nat.lt_trans hlt (hd.1 c hc)
      · simp only [Mem.insert, hlt, if_false]
        refine List.pairwise_cons.2 ⟨fun c hc => ?_, ih (fun c hc => hne c (by simp [hc])) hd.2⟩
        rcases Mem.mem_insert.1 hc with rfl | hc
        · have := hne d (by simp); simp only; omega
        · exact hd.1 c hc
  · rcases Mem.mem_insert.1 hc with rfl | hc
    · exact ⟨hk, hv⟩
    · exact h.2 c hc

theorem Mem.put_wf {m : List Host.Cell} (a : Nat) (v : Byte) (h : Mem.wf m) : Mem.wf (Mem.put m a v) := by
  have hlt : a % addrSpace < addrSpace := Nat.mod_lt _ (by decide)
  unfold Mem.put
  split
  · exact Mem.wf_filter _ h
  · next hv => exact Mem.wf_insert (Mem.wf_filter _ h) hlt hv (by simp [Mem.erase])

theorem Mem.writeBytes_wf {m : List Host.Cell} (a : Nat) (bs : List Byte) (h : Mem.wf m) :
    Mem.wf (Mem.writeBytes m a bs) := by
  induction bs generalizing m a with
  | nil => exact h
  | cons b bs ih => exact ih _ (Mem.put_wf a b h)

theorem Mem.write_wf {m : List Host.Cell} (a n v : Nat) (h : Mem.wf m) : Mem.wf (Mem.write m a n v) :=
  Mem.writeBytes_wf _ _ h

theorem Mem.zeroFill_wf {m : List Host.Cell} (a n : Nat) (h : Mem.wf m) : Mem.wf (Mem.zeroFill m a n) :=
  Mem.wf_filter _ h

/-! ### Byte strings -/

theorem Mem.Outside.tail {a n b : Nat} (h : Mem.Outside a (n + 1) b) : Mem.Outside (a + 1) n b := fun k hk => by
  have := h (k + 1) (by omega)
  rwa [show a + (k + 1) = a + 1 + k by omega] at this

/-- Inside the address space, lying before or after a range is being outside it. -/
theorem Mem.outside_of_lt {a n b : Nat} (ha : a + n ≤ addrSpace) (hb : b < addrSpace) (h : b < a ∨ a + n ≤ b) :
    Mem.Outside a n b := fun k hk => by
  rw [Nat.mod_eq_of_lt hb, Nat.mod_eq_of_lt (show a + k < addrSpace by omega)]
  omega

/-- Storing a byte string leaves every byte outside it alone. -/
theorem Mem.get_writeBytes_outside (m : List Host.Cell) (a : Nat) (bs : List Byte) (b : Nat)
    (h : Mem.Outside a bs.length b) : Mem.get (Mem.writeBytes m a bs) b = Mem.get m b := by
  induction bs generalizing m a with
  | nil => rfl
  | cons c bs ih =>
    have h0 := h 0 (by simp)
    simp only [Mem.writeBytes]
    rw [ih _ _ (Mem.Outside.tail h), Mem.get_put_ne _ _ (by simpa using h0)]

/-- Storing a byte string puts its k-th byte at the k-th address. -/
theorem Mem.get_writeBytes_inside (m : List Host.Cell) (a : Nat) (bs : List Byte) (k : Nat) (hk : k < bs.length)
    (hl : bs.length ≤ addrSpace) : Mem.get (Mem.writeBytes m a bs) (a + k) = bs[k] := by
  induction bs generalizing m a k with
  | nil => simp at hk
  | cons c bs ih =>
    simp only [List.length_cons] at hk hl
    cases k with
    | zero =>
      simp only [Mem.writeBytes, Nat.add_zero, List.getElem_cons_zero]
      rw [Mem.get_writeBytes_outside, Mem.get_put_same]
      intro j hj he
      have : (a + 1 + j) % addrSpace = (a + (1 + j)) % addrSpace := by rw [Nat.add_assoc]
      rw [this] at he
      have hlt : 1 + j < addrSpace := by omega
      unfold addrSpace at *
      omega
    | succ k =>
      simp only [Mem.writeBytes, List.getElem_cons_succ]
      rw [show a + (k + 1) = a + 1 + k by omega]
      exact ih _ _ k (by omega) (by omega)

@[simp] theorem Mem.readBytes_length (m : List Host.Cell) (a n : Nat) : (Mem.readBytes m a n).length = n := by
  induction n generalizing a with
  | zero => rfl
  | succ n ih => simp [Mem.readBytes, ih]

theorem Mem.readBytes_getElem (m : List Host.Cell) (a n k : Nat) (hk : k < (Mem.readBytes m a n).length) :
    (Mem.readBytes m a n)[k] = Mem.get m (a + k) := by
  induction n generalizing a k with
  | zero => simp at hk
  | succ n ih =>
    cases k with
    | zero => simp [Mem.readBytes]
    | succ k =>
      simp only [Mem.readBytes, List.getElem_cons_succ]
      rw [ih, show a + 1 + k = a + (k + 1) by omega]

/-- Two memories that agree on a range read the same bytes there. -/
theorem Mem.readBytes_congr {m m' : List Host.Cell} (a n : Nat)
    (h : ∀ k < n, Mem.get m' (a + k) = Mem.get m (a + k)) : Mem.readBytes m' a n = Mem.readBytes m a n := by
  induction n generalizing a with
  | zero => rfl
  | succ n ih =>
    simp only [Mem.readBytes]
    rw [ih (a + 1) fun k hk => by rw [show a + 1 + k = a + (k + 1) by omega]; exact h _ (by omega)]
    have := h 0 (by omega)
    rw [Nat.add_zero] at this
    rw [this]

theorem Mem.read_congr {m m' : List Host.Cell} (a n : Nat)
    (h : ∀ k < n, Mem.get m' (a + k) = Mem.get m (a + k)) : Mem.read m' a n = Mem.read m a n := by
  unfold Mem.read; rw [Mem.readBytes_congr a n h]

/-- Reading back a byte string just stored. -/
theorem Mem.readBytes_writeBytes_same (m : List Host.Cell) (a : Nat) (bs : List Byte)
    (hl : bs.length ≤ addrSpace) : Mem.readBytes (Mem.writeBytes m a bs) a bs.length = bs := by
  apply List.ext_getElem (by simp)
  intro k h1 h2
  rw [Mem.readBytes_getElem, Mem.get_writeBytes_inside m a bs k h2 hl]

@[simp] theorem leBytes_length (n v : Nat) : (leBytes n v).length = n := by
  induction n generalizing v with
  | zero => rfl
  | succ n ih => simp [leBytes, ih]

/-- Little-endian bytes read back as the number they were made of, modulo their width. -/
theorem leValue_leBytes (n v : Nat) : leValue (leBytes n v) = v % 256 ^ n := by
  induction n generalizing v with
  | zero => simp [leBytes, leValue, Nat.mod_one]
  | succ n ih =>
    simp only [leBytes, leValue, ih, BitVec.toNat_ofNat]
    rw [show 256 ^ (n + 1) = 256 * 256 ^ n from Nat.pow_succ', Nat.mod_mul]

theorem leValue_lt (bs : List Byte) : leValue bs < 256 ^ bs.length := by
  induction bs with
  | nil => simp [leValue]
  | cons b bs ih =>
    have := b.isLt
    simp only [leValue, List.length_cons, pow_succ]
    omega

theorem leBytes_leValue (bs : List Byte) : leBytes bs.length (leValue bs) = bs := by
  induction bs with
  | nil => rfl
  | cons b bs ih =>
    have hb := b.isLt
    simp only [List.length_cons, leBytes, leValue]
    have h1 : (b.toNat + 256 * leValue bs) / 256 = leValue bs := by omega
    rw [h1, ih]
    congr 1
    apply BitVec.eq_of_toNat_eq
    rw [BitVec.toNat_ofNat]
    omega

theorem Mem.read_lt (m : List Host.Cell) (a n : Nat) : Mem.read m a n < 256 ^ n := by
  have := leValue_lt (Mem.readBytes m a n)
  simpa [Mem.read] using this

/-- Reading back a field just stored: its low bytes. -/
theorem Mem.read_write_same (m : List Host.Cell) (a n v : Nat) (hn : n ≤ addrSpace) :
    Mem.read (Mem.write m a n v) a n = v % 256 ^ n := by
  have h := Mem.readBytes_writeBytes_same m a (leBytes n v) (by simpa using hn)
  rw [leBytes_length] at h
  unfold Mem.read Mem.write
  rw [h, leValue_leBytes]

/-- Storing a field leaves every byte outside it alone. -/
theorem Mem.get_write_outside (m : List Host.Cell) (a n v b : Nat) (h : Mem.Outside a n b) :
    Mem.get (Mem.write m a n v) b = Mem.get m b :=
  Mem.get_writeBytes_outside _ _ _ _ (by simpa using h)

/-- Ranges of the address space that do not meet. -/
theorem Mem.outside_range {a n b k : Nat} (n' : Nat) (ha : a + n ≤ addrSpace) (hb : b + n' ≤ addrSpace)
    (hk : k < n') (h : a + n ≤ b ∨ b + n' ≤ a) : Mem.Outside a n (b + k) :=
  Mem.outside_of_lt ha (by omega) (by omega)

theorem Mem.readBytes_writeBytes_disjoint (m : List Host.Cell) (a b n : Nat) (bs : List Byte)
    (ha : a + bs.length ≤ addrSpace) (hb : b + n ≤ addrSpace) (h : a + bs.length ≤ b ∨ b + n ≤ a) :
    Mem.readBytes (Mem.writeBytes m a bs) b n = Mem.readBytes m b n :=
  Mem.readBytes_congr _ _ fun _ hk => Mem.get_writeBytes_outside _ _ _ _ (Mem.outside_range n ha hb hk h)

theorem Mem.read_write_disjoint (m : List Host.Cell) (a n v b n' : Nat)
    (ha : a + n ≤ addrSpace) (hb : b + n' ≤ addrSpace) (h : a + n ≤ b ∨ b + n' ≤ a) :
    Mem.read (Mem.write m a n v) b n' = Mem.read m b n' :=
  Mem.read_congr _ _ fun _ hk => Mem.get_write_outside _ _ _ _ _ (Mem.outside_range n' ha hb hk h)

/-! ### Zero filling -/

theorem Mem.get_zeroFill (m : List Host.Cell) (a n b : Nat) :
    Mem.get (Mem.zeroFill m a n) b = if Mem.inRange a n (b % addrSpace) then 0 else Mem.get m b := by
  unfold Mem.get Mem.zeroFill
  split
  · next h => exact Mem.lookup_filter_out m (fun k => !Mem.inRange a n k) _ (by simp [h])
  · next h => exact Mem.lookup_filter m (fun k => !Mem.inRange a n k) _ (by simp [h])

/-- Zero filling leaves every byte outside the range alone. -/
theorem Mem.get_zeroFill_outside (m : List Host.Cell) (a n b : Nat) (h : Mem.Outside a n b) :
    Mem.get (Mem.zeroFill m a n) b = Mem.get m b := by
  rw [Mem.get_zeroFill, if_neg]
  unfold Mem.inRange
  simp only [decide_eq_true_eq, Nat.not_lt]
  by_contra hlt
  apply h _ (Nat.lt_of_not_le hlt)
  have := Nat.mod_lt b (show 0 < addrSpace by decide)
  have := Nat.mod_lt a (show 0 < addrSpace by decide)
  unfold addrSpace at *
  omega

/-- Inside the address space, the range is what it looks like. -/
theorem Mem.inRange_iff {a n k : Nat} (ha : a + n ≤ addrSpace) (hk : k < addrSpace) :
    Mem.inRange a n k = true ↔ a ≤ k ∧ k < a + n := by
  unfold Mem.inRange
  rw [decide_eq_true_iff]
  by_cases hn : a < addrSpace
  · rw [Nat.mod_eq_of_lt hn]
    by_cases hak : a ≤ k
    · rw [show k + (addrSpace - a) = (k - a) + addrSpace by omega, Nat.add_mod_right,
        Nat.mod_eq_of_lt (by omega)]
      omega
    · rw [Nat.mod_eq_of_lt (by omega)]
      omega
  · have : n = 0 := by omega
    subst this
    simp only [Nat.not_lt_zero, false_iff]
    omega

end Sys2Proof.Machine
end

