-- ==== Sys2Proof/Laws/State.lean ====
section
/-! SUPPORT. One lemma per field per update of the state, true by unfolding, so that no later proof unfolds a record
update; and what reading a register gives after an update. -/

namespace Sys2Proof.Machine

/-! ### `State.setReg` -/

@[simp] theorem State.setReg_cfg (s : State) (r : Reg) (v : Word) : (s.setReg r v).cfg = s.cfg := rfl
@[simp] theorem State.setReg_regs (s : State) (r : Reg) (v : Word) : (s.setReg r v).regs = s.regs.set r v := rfl
@[simp] theorem State.setReg_mem (s : State) (r : Reg) (v : Word) : (s.setReg r v).mem = s.mem := rfl
@[simp] theorem State.setReg_txTail (s : State) (r : Reg) (v : Word) : (s.setReg r v).txTail = s.txTail := rfl
@[simp] theorem State.setReg_rxTail (s : State) (r : Reg) (v : Word) : (s.setReg r v).rxTail = s.rxTail := rfl
@[simp] theorem State.setReg_txPending (s : State) (r : Reg) (v : Word) : (s.setReg r v).txPending = s.txPending := rfl
@[simp] theorem State.setReg_eePending (s : State) (r : Reg) (v : Word) : (s.setReg r v).eePending = s.eePending := rfl
@[simp] theorem State.setReg_wireOut (s : State) (r : Reg) (v : Word) : (s.setReg r v).wireOut = s.wireOut := rfl
@[simp] theorem State.setReg_wireIn (s : State) (r : Reg) (v : Word) : (s.setReg r v).wireIn = s.wireIn := rfl
@[simp] theorem State.setReg_toStack (s : State) (r : Reg) (v : Word) : (s.setReg r v).toStack = s.toStack := rfl
@[simp] theorem State.setReg_fromStack (s : State) (r : Reg) (v : Word) : (s.setReg r v).fromStack = s.fromStack := rfl
@[simp] theorem State.setReg_stackHeld (s : State) (r : Reg) (v : Word) : (s.setReg r v).stackHeld = s.stackHeld := rfl
@[simp] theorem State.setReg_delivered (s : State) (r : Reg) (v : Word) : (s.setReg r v).delivered = s.delivered := rfl
@[simp] theorem State.setReg_ibPhase (s : State) (r : Reg) (v : Word) : (s.setReg r v).ibPhase = s.ibPhase := rfl
@[simp] theorem State.setReg_obPhase (s : State) (r : Reg) (v : Word) : (s.setReg r v).obPhase = s.obPhase := rfl
@[simp] theorem State.setReg_attached (s : State) (r : Reg) (v : Word) : (s.setReg r v).attached = s.attached := rfl
@[simp] theorem State.setReg_ibFatal (s : State) (r : Reg) (v : Word) : (s.setReg r v).ibFatal = s.ibFatal := rfl
@[simp] theorem State.setReg_obFatal (s : State) (r : Reg) (v : Word) : (s.setReg r v).obFatal = s.obFatal := rfl
@[simp] theorem State.setReg_refused (s : State) (r : Reg) (v : Word) : (s.setReg r v).refused = s.refused := rfl
@[simp] theorem State.setReg_sw (s : State) (r : Reg) (v : Word) : (s.setReg r v).sw = s.sw := rfl
@[simp] theorem State.setReg_attachFailed (s : State) (r : Reg) (v : Word) : (s.setReg r v).attachFailed = s.attachFailed := rfl
@[simp] theorem State.setReg_collab (s : State) (r : Reg) (v : Word) : (s.setReg r v).collab = s.collab := rfl
@[simp] theorem State.setReg_farPages (s : State) (r : Reg) (v : Word) : (s.setReg r v).farPages = s.farPages := rfl
@[simp] theorem State.setReg_station (s : State) (r : Reg) (v : Word) : (s.setReg r v).station = s.station := rfl
@[simp] theorem State.setReg_busData (s : State) (r : Reg) (v : Word) : (s.setReg r v).busData = s.busData := rfl
@[simp] theorem State.setReg_outBuffer (s : State) (r : Reg) (v : Word) : (s.setReg r v).outBuffer = s.outBuffer := rfl
@[simp] theorem State.setReg_results (s : State) (r : Reg) (v : Word) : (s.setReg r v).results = s.results := rfl
@[simp] theorem State.setReg_draws (s : State) (r : Reg) (v : Word) : (s.setReg r v).draws = s.draws := rfl
@[simp] theorem State.setReg_schedule (s : State) (r : Reg) (v : Word) : (s.setReg r v).schedule = s.schedule := rfl

/-! ### `State.setMem` -/

@[simp] theorem State.setMem_cfg (s : State) (m : List Host.Cell) : (s.setMem m).cfg = s.cfg := rfl
@[simp] theorem State.setMem_regs (s : State) (m : List Host.Cell) : (s.setMem m).regs = s.regs := rfl
@[simp] theorem State.setMem_mem (s : State) (m : List Host.Cell) : (s.setMem m).mem = m := rfl
@[simp] theorem State.setMem_txTail (s : State) (m : List Host.Cell) : (s.setMem m).txTail = s.txTail := rfl
@[simp] theorem State.setMem_rxTail (s : State) (m : List Host.Cell) : (s.setMem m).rxTail = s.rxTail := rfl
@[simp] theorem State.setMem_txPending (s : State) (m : List Host.Cell) : (s.setMem m).txPending = s.txPending := rfl
@[simp] theorem State.setMem_eePending (s : State) (m : List Host.Cell) : (s.setMem m).eePending = s.eePending := rfl
@[simp] theorem State.setMem_wireOut (s : State) (m : List Host.Cell) : (s.setMem m).wireOut = s.wireOut := rfl
@[simp] theorem State.setMem_wireIn (s : State) (m : List Host.Cell) : (s.setMem m).wireIn = s.wireIn := rfl
@[simp] theorem State.setMem_toStack (s : State) (m : List Host.Cell) : (s.setMem m).toStack = s.toStack := rfl
@[simp] theorem State.setMem_fromStack (s : State) (m : List Host.Cell) : (s.setMem m).fromStack = s.fromStack := rfl
@[simp] theorem State.setMem_stackHeld (s : State) (m : List Host.Cell) : (s.setMem m).stackHeld = s.stackHeld := rfl
@[simp] theorem State.setMem_delivered (s : State) (m : List Host.Cell) : (s.setMem m).delivered = s.delivered := rfl
@[simp] theorem State.setMem_ibPhase (s : State) (m : List Host.Cell) : (s.setMem m).ibPhase = s.ibPhase := rfl
@[simp] theorem State.setMem_obPhase (s : State) (m : List Host.Cell) : (s.setMem m).obPhase = s.obPhase := rfl
@[simp] theorem State.setMem_attached (s : State) (m : List Host.Cell) : (s.setMem m).attached = s.attached := rfl
@[simp] theorem State.setMem_ibFatal (s : State) (m : List Host.Cell) : (s.setMem m).ibFatal = s.ibFatal := rfl
@[simp] theorem State.setMem_obFatal (s : State) (m : List Host.Cell) : (s.setMem m).obFatal = s.obFatal := rfl
@[simp] theorem State.setMem_refused (s : State) (m : List Host.Cell) : (s.setMem m).refused = s.refused := rfl
@[simp] theorem State.setMem_sw (s : State) (m : List Host.Cell) : (s.setMem m).sw = s.sw := rfl
@[simp] theorem State.setMem_attachFailed (s : State) (m : List Host.Cell) : (s.setMem m).attachFailed = s.attachFailed := rfl
@[simp] theorem State.setMem_collab (s : State) (m : List Host.Cell) : (s.setMem m).collab = s.collab := rfl
@[simp] theorem State.setMem_farPages (s : State) (m : List Host.Cell) : (s.setMem m).farPages = s.farPages := rfl
@[simp] theorem State.setMem_station (s : State) (m : List Host.Cell) : (s.setMem m).station = s.station := rfl
@[simp] theorem State.setMem_busData (s : State) (m : List Host.Cell) : (s.setMem m).busData = s.busData := rfl
@[simp] theorem State.setMem_outBuffer (s : State) (m : List Host.Cell) : (s.setMem m).outBuffer = s.outBuffer := rfl
@[simp] theorem State.setMem_results (s : State) (m : List Host.Cell) : (s.setMem m).results = s.results := rfl
@[simp] theorem State.setMem_draws (s : State) (m : List Host.Cell) : (s.setMem m).draws = s.draws := rfl
@[simp] theorem State.setMem_schedule (s : State) (m : List Host.Cell) : (s.setMem m).schedule = s.schedule := rfl

/-! ### `State.refuse` -/

@[simp] theorem State.refuse_cfg (s : State) (r : Refuse) : (s.refuse r).cfg = s.cfg := rfl
@[simp] theorem State.refuse_regs (s : State) (r : Refuse) : (s.refuse r).regs = s.regs := rfl
@[simp] theorem State.refuse_mem (s : State) (r : Refuse) : (s.refuse r).mem = s.mem := rfl
@[simp] theorem State.refuse_txTail (s : State) (r : Refuse) : (s.refuse r).txTail = s.txTail := rfl
@[simp] theorem State.refuse_rxTail (s : State) (r : Refuse) : (s.refuse r).rxTail = s.rxTail := rfl
@[simp] theorem State.refuse_txPending (s : State) (r : Refuse) : (s.refuse r).txPending = s.txPending := rfl
@[simp] theorem State.refuse_eePending (s : State) (r : Refuse) : (s.refuse r).eePending = s.eePending := rfl
@[simp] theorem State.refuse_wireOut (s : State) (r : Refuse) : (s.refuse r).wireOut = s.wireOut := rfl
@[simp] theorem State.refuse_wireIn (s : State) (r : Refuse) : (s.refuse r).wireIn = s.wireIn := rfl
@[simp] theorem State.refuse_toStack (s : State) (r : Refuse) : (s.refuse r).toStack = s.toStack := rfl
@[simp] theorem State.refuse_fromStack (s : State) (r : Refuse) : (s.refuse r).fromStack = s.fromStack := rfl
@[simp] theorem State.refuse_stackHeld (s : State) (r : Refuse) : (s.refuse r).stackHeld = s.stackHeld := rfl
@[simp] theorem State.refuse_delivered (s : State) (r : Refuse) : (s.refuse r).delivered = s.delivered := rfl
@[simp] theorem State.refuse_ibPhase (s : State) (r : Refuse) : (s.refuse r).ibPhase = s.ibPhase := rfl
@[simp] theorem State.refuse_obPhase (s : State) (r : Refuse) : (s.refuse r).obPhase = s.obPhase := rfl
@[simp] theorem State.refuse_attached (s : State) (r : Refuse) : (s.refuse r).attached = s.attached := rfl
@[simp] theorem State.refuse_ibFatal (s : State) (r : Refuse) : (s.refuse r).ibFatal = s.ibFatal := rfl
@[simp] theorem State.refuse_obFatal (s : State) (r : Refuse) : (s.refuse r).obFatal = s.obFatal := rfl
@[simp] theorem State.refuse_sw (s : State) (r : Refuse) : (s.refuse r).sw = s.sw := rfl
@[simp] theorem State.refuse_attachFailed (s : State) (r : Refuse) : (s.refuse r).attachFailed = s.attachFailed := rfl
@[simp] theorem State.refuse_collab (s : State) (r : Refuse) : (s.refuse r).collab = s.collab := rfl
@[simp] theorem State.refuse_farPages (s : State) (r : Refuse) : (s.refuse r).farPages = s.farPages := rfl
@[simp] theorem State.refuse_station (s : State) (r : Refuse) : (s.refuse r).station = s.station := rfl
@[simp] theorem State.refuse_busData (s : State) (r : Refuse) : (s.refuse r).busData = s.busData := rfl
@[simp] theorem State.refuse_outBuffer (s : State) (r : Refuse) : (s.refuse r).outBuffer = s.outBuffer := rfl
@[simp] theorem State.refuse_results (s : State) (r : Refuse) : (s.refuse r).results = s.results := rfl
@[simp] theorem State.refuse_draws (s : State) (r : Refuse) : (s.refuse r).draws = s.draws := rfl
@[simp] theorem State.refuse_schedule (s : State) (r : Refuse) : (s.refuse r).schedule = s.schedule := rfl

/-! ### `State.returns` -/

@[simp] theorem State.returns_cfg (s : State) (op : DriverOp) (r : Result) : (s.returns op r).cfg = s.cfg := rfl
@[simp] theorem State.returns_regs (s : State) (op : DriverOp) (r : Result) : (s.returns op r).regs = s.regs := rfl
@[simp] theorem State.returns_mem (s : State) (op : DriverOp) (r : Result) : (s.returns op r).mem = s.mem := rfl
@[simp] theorem State.returns_txTail (s : State) (op : DriverOp) (r : Result) : (s.returns op r).txTail = s.txTail := rfl
@[simp] theorem State.returns_rxTail (s : State) (op : DriverOp) (r : Result) : (s.returns op r).rxTail = s.rxTail := rfl
@[simp] theorem State.returns_txPending (s : State) (op : DriverOp) (r : Result) : (s.returns op r).txPending = s.txPending := rfl
@[simp] theorem State.returns_eePending (s : State) (op : DriverOp) (r : Result) : (s.returns op r).eePending = s.eePending := rfl
@[simp] theorem State.returns_wireOut (s : State) (op : DriverOp) (r : Result) : (s.returns op r).wireOut = s.wireOut := rfl
@[simp] theorem State.returns_wireIn (s : State) (op : DriverOp) (r : Result) : (s.returns op r).wireIn = s.wireIn := rfl
@[simp] theorem State.returns_toStack (s : State) (op : DriverOp) (r : Result) : (s.returns op r).toStack = s.toStack := rfl
@[simp] theorem State.returns_fromStack (s : State) (op : DriverOp) (r : Result) : (s.returns op r).fromStack = s.fromStack := rfl
@[simp] theorem State.returns_stackHeld (s : State) (op : DriverOp) (r : Result) : (s.returns op r).stackHeld = s.stackHeld := rfl
@[simp] theorem State.returns_delivered (s : State) (op : DriverOp) (r : Result) : (s.returns op r).delivered = s.delivered := rfl
@[simp] theorem State.returns_ibPhase (s : State) (op : DriverOp) (r : Result) : (s.returns op r).ibPhase = s.ibPhase := rfl
@[simp] theorem State.returns_obPhase (s : State) (op : DriverOp) (r : Result) : (s.returns op r).obPhase = s.obPhase := rfl
@[simp] theorem State.returns_attached (s : State) (op : DriverOp) (r : Result) : (s.returns op r).attached = s.attached := rfl
@[simp] theorem State.returns_ibFatal (s : State) (op : DriverOp) (r : Result) : (s.returns op r).ibFatal = s.ibFatal := rfl
@[simp] theorem State.returns_obFatal (s : State) (op : DriverOp) (r : Result) : (s.returns op r).obFatal = s.obFatal := rfl
@[simp] theorem State.returns_refused (s : State) (op : DriverOp) (r : Result) : (s.returns op r).refused = s.refused := rfl
@[simp] theorem State.returns_sw (s : State) (op : DriverOp) (r : Result) : (s.returns op r).sw = s.sw := rfl
@[simp] theorem State.returns_attachFailed (s : State) (op : DriverOp) (r : Result) : (s.returns op r).attachFailed = s.attachFailed := rfl
@[simp] theorem State.returns_collab (s : State) (op : DriverOp) (r : Result) : (s.returns op r).collab = s.collab := rfl
@[simp] theorem State.returns_farPages (s : State) (op : DriverOp) (r : Result) : (s.returns op r).farPages = s.farPages := rfl
@[simp] theorem State.returns_station (s : State) (op : DriverOp) (r : Result) : (s.returns op r).station = s.station := rfl
@[simp] theorem State.returns_busData (s : State) (op : DriverOp) (r : Result) : (s.returns op r).busData = s.busData := rfl
@[simp] theorem State.returns_outBuffer (s : State) (op : DriverOp) (r : Result) : (s.returns op r).outBuffer = s.outBuffer := rfl
@[simp] theorem State.returns_results (s : State) (op : DriverOp) (r : Result) : (s.returns op r).results = s.results ++ [⟨op, r⟩] := rfl
@[simp] theorem State.returns_draws (s : State) (op : DriverOp) (r : Result) : (s.returns op r).draws = s.draws := rfl
@[simp] theorem State.returns_schedule (s : State) (op : DriverOp) (r : Result) : (s.returns op r).schedule = s.schedule := rfl

/-! ### `State.atStage` -/

@[simp] theorem State.atStage_cfg (s : State) (h : Addr) (st : AttachStage) : (s.atStage h st).cfg = s.cfg := rfl
@[simp] theorem State.atStage_regs (s : State) (h : Addr) (st : AttachStage) : (s.atStage h st).regs = s.regs := rfl
@[simp] theorem State.atStage_mem (s : State) (h : Addr) (st : AttachStage) : (s.atStage h st).mem = s.mem := rfl
@[simp] theorem State.atStage_txTail (s : State) (h : Addr) (st : AttachStage) : (s.atStage h st).txTail = s.txTail := rfl
@[simp] theorem State.atStage_rxTail (s : State) (h : Addr) (st : AttachStage) : (s.atStage h st).rxTail = s.rxTail := rfl
@[simp] theorem State.atStage_txPending (s : State) (h : Addr) (st : AttachStage) : (s.atStage h st).txPending = s.txPending := rfl
@[simp] theorem State.atStage_eePending (s : State) (h : Addr) (st : AttachStage) : (s.atStage h st).eePending = s.eePending := rfl
@[simp] theorem State.atStage_wireOut (s : State) (h : Addr) (st : AttachStage) : (s.atStage h st).wireOut = s.wireOut := rfl
@[simp] theorem State.atStage_wireIn (s : State) (h : Addr) (st : AttachStage) : (s.atStage h st).wireIn = s.wireIn := rfl
@[simp] theorem State.atStage_toStack (s : State) (h : Addr) (st : AttachStage) : (s.atStage h st).toStack = s.toStack := rfl
@[simp] theorem State.atStage_fromStack (s : State) (h : Addr) (st : AttachStage) : (s.atStage h st).fromStack = s.fromStack := rfl
@[simp] theorem State.atStage_stackHeld (s : State) (h : Addr) (st : AttachStage) : (s.atStage h st).stackHeld = s.stackHeld := rfl
@[simp] theorem State.atStage_delivered (s : State) (h : Addr) (st : AttachStage) : (s.atStage h st).delivered = s.delivered := rfl
@[simp] theorem State.atStage_ibPhase (s : State) (h : Addr) (st : AttachStage) : (s.atStage h st).ibPhase = s.ibPhase := rfl
@[simp] theorem State.atStage_obPhase (s : State) (h : Addr) (st : AttachStage) : (s.atStage h st).obPhase = s.obPhase := rfl
@[simp] theorem State.atStage_attached (s : State) (h : Addr) (st : AttachStage) : (s.atStage h st).attached = s.attached := rfl
@[simp] theorem State.atStage_ibFatal (s : State) (h : Addr) (st : AttachStage) : (s.atStage h st).ibFatal = s.ibFatal := rfl
@[simp] theorem State.atStage_obFatal (s : State) (h : Addr) (st : AttachStage) : (s.atStage h st).obFatal = s.obFatal := rfl
@[simp] theorem State.atStage_refused (s : State) (h : Addr) (st : AttachStage) : (s.atStage h st).refused = s.refused := rfl
@[simp] theorem State.atStage_sw (s : State) (h : Addr) (st : AttachStage) : (s.atStage h st).sw = .attaching h st := rfl
@[simp] theorem State.atStage_attachFailed (s : State) (h : Addr) (st : AttachStage) : (s.atStage h st).attachFailed = s.attachFailed := rfl
@[simp] theorem State.atStage_collab (s : State) (h : Addr) (st : AttachStage) : (s.atStage h st).collab = s.collab := rfl
@[simp] theorem State.atStage_farPages (s : State) (h : Addr) (st : AttachStage) : (s.atStage h st).farPages = s.farPages := rfl
@[simp] theorem State.atStage_station (s : State) (h : Addr) (st : AttachStage) : (s.atStage h st).station = s.station := rfl
@[simp] theorem State.atStage_busData (s : State) (h : Addr) (st : AttachStage) : (s.atStage h st).busData = s.busData := rfl
@[simp] theorem State.atStage_outBuffer (s : State) (h : Addr) (st : AttachStage) : (s.atStage h st).outBuffer = s.outBuffer := rfl
@[simp] theorem State.atStage_results (s : State) (h : Addr) (st : AttachStage) : (s.atStage h st).results = s.results := rfl
@[simp] theorem State.atStage_draws (s : State) (h : Addr) (st : AttachStage) : (s.atStage h st).draws = s.draws := rfl
@[simp] theorem State.atStage_schedule (s : State) (h : Addr) (st : AttachStage) : (s.atStage h st).schedule = s.schedule := rfl

/-! ### `State.pollEerd` -/

@[simp] theorem State.pollEerd_cfg (s : State) : (s.pollEerd).cfg = s.cfg := rfl
@[simp] theorem State.pollEerd_regs (s : State) : (s.pollEerd).regs = s.regs := rfl
@[simp] theorem State.pollEerd_mem (s : State) : (s.pollEerd).mem = s.mem := rfl
@[simp] theorem State.pollEerd_txTail (s : State) : (s.pollEerd).txTail = s.txTail := rfl
@[simp] theorem State.pollEerd_rxTail (s : State) : (s.pollEerd).rxTail = s.rxTail := rfl
@[simp] theorem State.pollEerd_txPending (s : State) : (s.pollEerd).txPending = s.txPending := rfl
@[simp] theorem State.pollEerd_eePending (s : State) : (s.pollEerd).eePending = s.eePending := rfl
@[simp] theorem State.pollEerd_wireOut (s : State) : (s.pollEerd).wireOut = s.wireOut := rfl
@[simp] theorem State.pollEerd_wireIn (s : State) : (s.pollEerd).wireIn = s.wireIn := rfl
@[simp] theorem State.pollEerd_toStack (s : State) : (s.pollEerd).toStack = s.toStack := rfl
@[simp] theorem State.pollEerd_fromStack (s : State) : (s.pollEerd).fromStack = s.fromStack := rfl
@[simp] theorem State.pollEerd_stackHeld (s : State) : (s.pollEerd).stackHeld = s.stackHeld := rfl
@[simp] theorem State.pollEerd_delivered (s : State) : (s.pollEerd).delivered = s.delivered := rfl
@[simp] theorem State.pollEerd_ibPhase (s : State) : (s.pollEerd).ibPhase = s.ibPhase := rfl
@[simp] theorem State.pollEerd_obPhase (s : State) : (s.pollEerd).obPhase = s.obPhase := rfl
@[simp] theorem State.pollEerd_attached (s : State) : (s.pollEerd).attached = s.attached := rfl
@[simp] theorem State.pollEerd_ibFatal (s : State) : (s.pollEerd).ibFatal = s.ibFatal := rfl
@[simp] theorem State.pollEerd_obFatal (s : State) : (s.pollEerd).obFatal = s.obFatal := rfl
@[simp] theorem State.pollEerd_refused (s : State) : (s.pollEerd).refused = s.refused := rfl
@[simp] theorem State.pollEerd_sw (s : State) : (s.pollEerd).sw = s.sw := rfl
@[simp] theorem State.pollEerd_attachFailed (s : State) : (s.pollEerd).attachFailed = s.attachFailed := rfl
@[simp] theorem State.pollEerd_collab (s : State) : (s.pollEerd).collab = s.collab := rfl
@[simp] theorem State.pollEerd_farPages (s : State) : (s.pollEerd).farPages = s.farPages := rfl
@[simp] theorem State.pollEerd_station (s : State) : (s.pollEerd).station = s.station := rfl
@[simp] theorem State.pollEerd_busData (s : State) : (s.pollEerd).busData = s.eerdReadValue := rfl
@[simp] theorem State.pollEerd_outBuffer (s : State) : (s.pollEerd).outBuffer = s.outBuffer := rfl
@[simp] theorem State.pollEerd_results (s : State) : (s.pollEerd).results = s.results := rfl
@[simp] theorem State.pollEerd_draws (s : State) : (s.pollEerd).draws = s.draws + 1 := rfl
@[simp] theorem State.pollEerd_schedule (s : State) : (s.pollEerd).schedule = s.schedule := rfl

/-! ### `State.setTxd` -/

@[simp] theorem State.setTxd_cfg (s : State) (i : Nat) (f : TxField) (v : Nat) : (s.setTxd i f v).cfg = s.cfg := rfl
@[simp] theorem State.setTxd_regs (s : State) (i : Nat) (f : TxField) (v : Nat) : (s.setTxd i f v).regs = s.regs := rfl
@[simp] theorem State.setTxd_mem (s : State) (i : Nat) (f : TxField) (v : Nat) : (s.setTxd i f v).mem = Mem.write s.mem (s.txdBase i + f.offset) f.width v := rfl
@[simp] theorem State.setTxd_txTail (s : State) (i : Nat) (f : TxField) (v : Nat) : (s.setTxd i f v).txTail = s.txTail := rfl
@[simp] theorem State.setTxd_rxTail (s : State) (i : Nat) (f : TxField) (v : Nat) : (s.setTxd i f v).rxTail = s.rxTail := rfl
@[simp] theorem State.setTxd_txPending (s : State) (i : Nat) (f : TxField) (v : Nat) : (s.setTxd i f v).txPending = s.txPending := rfl
@[simp] theorem State.setTxd_eePending (s : State) (i : Nat) (f : TxField) (v : Nat) : (s.setTxd i f v).eePending = s.eePending := rfl
@[simp] theorem State.setTxd_wireOut (s : State) (i : Nat) (f : TxField) (v : Nat) : (s.setTxd i f v).wireOut = s.wireOut := rfl
@[simp] theorem State.setTxd_wireIn (s : State) (i : Nat) (f : TxField) (v : Nat) : (s.setTxd i f v).wireIn = s.wireIn := rfl
@[simp] theorem State.setTxd_toStack (s : State) (i : Nat) (f : TxField) (v : Nat) : (s.setTxd i f v).toStack = s.toStack := rfl
@[simp] theorem State.setTxd_fromStack (s : State) (i : Nat) (f : TxField) (v : Nat) : (s.setTxd i f v).fromStack = s.fromStack := rfl
@[simp] theorem State.setTxd_stackHeld (s : State) (i : Nat) (f : TxField) (v : Nat) : (s.setTxd i f v).stackHeld = s.stackHeld := rfl
@[simp] theorem State.setTxd_delivered (s : State) (i : Nat) (f : TxField) (v : Nat) : (s.setTxd i f v).delivered = s.delivered := rfl
@[simp] theorem State.setTxd_ibPhase (s : State) (i : Nat) (f : TxField) (v : Nat) : (s.setTxd i f v).ibPhase = s.ibPhase := rfl
@[simp] theorem State.setTxd_obPhase (s : State) (i : Nat) (f : TxField) (v : Nat) : (s.setTxd i f v).obPhase = s.obPhase := rfl
@[simp] theorem State.setTxd_attached (s : State) (i : Nat) (f : TxField) (v : Nat) : (s.setTxd i f v).attached = s.attached := rfl
@[simp] theorem State.setTxd_ibFatal (s : State) (i : Nat) (f : TxField) (v : Nat) : (s.setTxd i f v).ibFatal = s.ibFatal := rfl
@[simp] theorem State.setTxd_obFatal (s : State) (i : Nat) (f : TxField) (v : Nat) : (s.setTxd i f v).obFatal = s.obFatal := rfl
@[simp] theorem State.setTxd_refused (s : State) (i : Nat) (f : TxField) (v : Nat) : (s.setTxd i f v).refused = s.refused := rfl
@[simp] theorem State.setTxd_sw (s : State) (i : Nat) (f : TxField) (v : Nat) : (s.setTxd i f v).sw = s.sw := rfl
@[simp] theorem State.setTxd_attachFailed (s : State) (i : Nat) (f : TxField) (v : Nat) : (s.setTxd i f v).attachFailed = s.attachFailed := rfl
@[simp] theorem State.setTxd_collab (s : State) (i : Nat) (f : TxField) (v : Nat) : (s.setTxd i f v).collab = s.collab := rfl
@[simp] theorem State.setTxd_farPages (s : State) (i : Nat) (f : TxField) (v : Nat) : (s.setTxd i f v).farPages = s.farPages := rfl
@[simp] theorem State.setTxd_station (s : State) (i : Nat) (f : TxField) (v : Nat) : (s.setTxd i f v).station = s.station := rfl
@[simp] theorem State.setTxd_busData (s : State) (i : Nat) (f : TxField) (v : Nat) : (s.setTxd i f v).busData = s.busData := rfl
@[simp] theorem State.setTxd_outBuffer (s : State) (i : Nat) (f : TxField) (v : Nat) : (s.setTxd i f v).outBuffer = s.outBuffer := rfl
@[simp] theorem State.setTxd_results (s : State) (i : Nat) (f : TxField) (v : Nat) : (s.setTxd i f v).results = s.results := rfl
@[simp] theorem State.setTxd_draws (s : State) (i : Nat) (f : TxField) (v : Nat) : (s.setTxd i f v).draws = s.draws := rfl
@[simp] theorem State.setTxd_schedule (s : State) (i : Nat) (f : TxField) (v : Nat) : (s.setTxd i f v).schedule = s.schedule := rfl

/-! ### `State.setRxd` -/

@[simp] theorem State.setRxd_cfg (s : State) (i : Nat) (f : RxField) (v : Nat) : (s.setRxd i f v).cfg = s.cfg := rfl
@[simp] theorem State.setRxd_regs (s : State) (i : Nat) (f : RxField) (v : Nat) : (s.setRxd i f v).regs = s.regs := rfl
@[simp] theorem State.setRxd_mem (s : State) (i : Nat) (f : RxField) (v : Nat) : (s.setRxd i f v).mem = Mem.write s.mem (s.rxdBase i + f.offset) f.width v := rfl
@[simp] theorem State.setRxd_txTail (s : State) (i : Nat) (f : RxField) (v : Nat) : (s.setRxd i f v).txTail = s.txTail := rfl
@[simp] theorem State.setRxd_rxTail (s : State) (i : Nat) (f : RxField) (v : Nat) : (s.setRxd i f v).rxTail = s.rxTail := rfl
@[simp] theorem State.setRxd_txPending (s : State) (i : Nat) (f : RxField) (v : Nat) : (s.setRxd i f v).txPending = s.txPending := rfl
@[simp] theorem State.setRxd_eePending (s : State) (i : Nat) (f : RxField) (v : Nat) : (s.setRxd i f v).eePending = s.eePending := rfl
@[simp] theorem State.setRxd_wireOut (s : State) (i : Nat) (f : RxField) (v : Nat) : (s.setRxd i f v).wireOut = s.wireOut := rfl
@[simp] theorem State.setRxd_wireIn (s : State) (i : Nat) (f : RxField) (v : Nat) : (s.setRxd i f v).wireIn = s.wireIn := rfl
@[simp] theorem State.setRxd_toStack (s : State) (i : Nat) (f : RxField) (v : Nat) : (s.setRxd i f v).toStack = s.toStack := rfl
@[simp] theorem State.setRxd_fromStack (s : State) (i : Nat) (f : RxField) (v : Nat) : (s.setRxd i f v).fromStack = s.fromStack := rfl
@[simp] theorem State.setRxd_stackHeld (s : State) (i : Nat) (f : RxField) (v : Nat) : (s.setRxd i f v).stackHeld = s.stackHeld := rfl
@[simp] theorem State.setRxd_delivered (s : State) (i : Nat) (f : RxField) (v : Nat) : (s.setRxd i f v).delivered = s.delivered := rfl
@[simp] theorem State.setRxd_ibPhase (s : State) (i : Nat) (f : RxField) (v : Nat) : (s.setRxd i f v).ibPhase = s.ibPhase := rfl
@[simp] theorem State.setRxd_obPhase (s : State) (i : Nat) (f : RxField) (v : Nat) : (s.setRxd i f v).obPhase = s.obPhase := rfl
@[simp] theorem State.setRxd_attached (s : State) (i : Nat) (f : RxField) (v : Nat) : (s.setRxd i f v).attached = s.attached := rfl
@[simp] theorem State.setRxd_ibFatal (s : State) (i : Nat) (f : RxField) (v : Nat) : (s.setRxd i f v).ibFatal = s.ibFatal := rfl
@[simp] theorem State.setRxd_obFatal (s : State) (i : Nat) (f : RxField) (v : Nat) : (s.setRxd i f v).obFatal = s.obFatal := rfl
@[simp] theorem State.setRxd_refused (s : State) (i : Nat) (f : RxField) (v : Nat) : (s.setRxd i f v).refused = s.refused := rfl
@[simp] theorem State.setRxd_sw (s : State) (i : Nat) (f : RxField) (v : Nat) : (s.setRxd i f v).sw = s.sw := rfl
@[simp] theorem State.setRxd_attachFailed (s : State) (i : Nat) (f : RxField) (v : Nat) : (s.setRxd i f v).attachFailed = s.attachFailed := rfl
@[simp] theorem State.setRxd_collab (s : State) (i : Nat) (f : RxField) (v : Nat) : (s.setRxd i f v).collab = s.collab := rfl
@[simp] theorem State.setRxd_farPages (s : State) (i : Nat) (f : RxField) (v : Nat) : (s.setRxd i f v).farPages = s.farPages := rfl
@[simp] theorem State.setRxd_station (s : State) (i : Nat) (f : RxField) (v : Nat) : (s.setRxd i f v).station = s.station := rfl
@[simp] theorem State.setRxd_busData (s : State) (i : Nat) (f : RxField) (v : Nat) : (s.setRxd i f v).busData = s.busData := rfl
@[simp] theorem State.setRxd_outBuffer (s : State) (i : Nat) (f : RxField) (v : Nat) : (s.setRxd i f v).outBuffer = s.outBuffer := rfl
@[simp] theorem State.setRxd_results (s : State) (i : Nat) (f : RxField) (v : Nat) : (s.setRxd i f v).results = s.results := rfl
@[simp] theorem State.setRxd_draws (s : State) (i : Nat) (f : RxField) (v : Nat) : (s.setRxd i f v).draws = s.draws := rfl
@[simp] theorem State.setRxd_schedule (s : State) (i : Nat) (f : RxField) (v : Nat) : (s.setRxd i f v).schedule = s.schedule := rfl

/-! ### `State.setPage` and `State.fillMsg` -/

/-- Storing a page changes host memory and the pages outside it alone. -/
theorem State.setPage_eq (s : State) (b : Buf) (page : List Byte) :
    s.setPage b page = { s with mem := (s.setPage b page).mem, farPages := (s.setPage b page).farPages } := by
  unfold State.setPage; split <;> rfl

@[simp] theorem State.setPage_cfg (s : State) (b : Buf) (page : List Byte) : (s.setPage b page).cfg = s.cfg := by rw [s.setPage_eq]
@[simp] theorem State.setPage_regs (s : State) (b : Buf) (page : List Byte) : (s.setPage b page).regs = s.regs := by rw [s.setPage_eq]
@[simp] theorem State.setPage_txTail (s : State) (b : Buf) (page : List Byte) : (s.setPage b page).txTail = s.txTail := by rw [s.setPage_eq]
@[simp] theorem State.setPage_rxTail (s : State) (b : Buf) (page : List Byte) : (s.setPage b page).rxTail = s.rxTail := by rw [s.setPage_eq]
@[simp] theorem State.setPage_txPending (s : State) (b : Buf) (page : List Byte) : (s.setPage b page).txPending = s.txPending := by rw [s.setPage_eq]
@[simp] theorem State.setPage_eePending (s : State) (b : Buf) (page : List Byte) : (s.setPage b page).eePending = s.eePending := by rw [s.setPage_eq]
@[simp] theorem State.setPage_wireOut (s : State) (b : Buf) (page : List Byte) : (s.setPage b page).wireOut = s.wireOut := by rw [s.setPage_eq]
@[simp] theorem State.setPage_wireIn (s : State) (b : Buf) (page : List Byte) : (s.setPage b page).wireIn = s.wireIn := by rw [s.setPage_eq]
@[simp] theorem State.setPage_toStack (s : State) (b : Buf) (page : List Byte) : (s.setPage b page).toStack = s.toStack := by rw [s.setPage_eq]
@[simp] theorem State.setPage_fromStack (s : State) (b : Buf) (page : List Byte) : (s.setPage b page).fromStack = s.fromStack := by rw [s.setPage_eq]
@[simp] theorem State.setPage_stackHeld (s : State) (b : Buf) (page : List Byte) : (s.setPage b page).stackHeld = s.stackHeld := by rw [s.setPage_eq]
@[simp] theorem State.setPage_delivered (s : State) (b : Buf) (page : List Byte) : (s.setPage b page).delivered = s.delivered := by rw [s.setPage_eq]
@[simp] theorem State.setPage_ibPhase (s : State) (b : Buf) (page : List Byte) : (s.setPage b page).ibPhase = s.ibPhase := by rw [s.setPage_eq]
@[simp] theorem State.setPage_obPhase (s : State) (b : Buf) (page : List Byte) : (s.setPage b page).obPhase = s.obPhase := by rw [s.setPage_eq]
@[simp] theorem State.setPage_attached (s : State) (b : Buf) (page : List Byte) : (s.setPage b page).attached = s.attached := by rw [s.setPage_eq]
@[simp] theorem State.setPage_ibFatal (s : State) (b : Buf) (page : List Byte) : (s.setPage b page).ibFatal = s.ibFatal := by rw [s.setPage_eq]
@[simp] theorem State.setPage_obFatal (s : State) (b : Buf) (page : List Byte) : (s.setPage b page).obFatal = s.obFatal := by rw [s.setPage_eq]
@[simp] theorem State.setPage_refused (s : State) (b : Buf) (page : List Byte) : (s.setPage b page).refused = s.refused := by rw [s.setPage_eq]
@[simp] theorem State.setPage_sw (s : State) (b : Buf) (page : List Byte) : (s.setPage b page).sw = s.sw := by rw [s.setPage_eq]
@[simp] theorem State.setPage_attachFailed (s : State) (b : Buf) (page : List Byte) : (s.setPage b page).attachFailed = s.attachFailed := by rw [s.setPage_eq]
@[simp] theorem State.setPage_collab (s : State) (b : Buf) (page : List Byte) : (s.setPage b page).collab = s.collab := by rw [s.setPage_eq]
@[simp] theorem State.setPage_station (s : State) (b : Buf) (page : List Byte) : (s.setPage b page).station = s.station := by rw [s.setPage_eq]
@[simp] theorem State.setPage_busData (s : State) (b : Buf) (page : List Byte) : (s.setPage b page).busData = s.busData := by rw [s.setPage_eq]
@[simp] theorem State.setPage_outBuffer (s : State) (b : Buf) (page : List Byte) : (s.setPage b page).outBuffer = s.outBuffer := by rw [s.setPage_eq]
@[simp] theorem State.setPage_results (s : State) (b : Buf) (page : List Byte) : (s.setPage b page).results = s.results := by rw [s.setPage_eq]
@[simp] theorem State.setPage_draws (s : State) (b : Buf) (page : List Byte) : (s.setPage b page).draws = s.draws := by rw [s.setPage_eq]
@[simp] theorem State.setPage_schedule (s : State) (b : Buf) (page : List Byte) : (s.setPage b page).schedule = s.schedule := by rw [s.setPage_eq]

@[simp] theorem State.fillMsg_cfg (s : State) (b : Buf) (n : Nat) (d : List Byte) : (s.fillMsg b n d).cfg = s.cfg := s.setPage_cfg _ _
@[simp] theorem State.fillMsg_regs (s : State) (b : Buf) (n : Nat) (d : List Byte) : (s.fillMsg b n d).regs = s.regs := s.setPage_regs _ _
@[simp] theorem State.fillMsg_txTail (s : State) (b : Buf) (n : Nat) (d : List Byte) : (s.fillMsg b n d).txTail = s.txTail := s.setPage_txTail _ _
@[simp] theorem State.fillMsg_rxTail (s : State) (b : Buf) (n : Nat) (d : List Byte) : (s.fillMsg b n d).rxTail = s.rxTail := s.setPage_rxTail _ _
@[simp] theorem State.fillMsg_txPending (s : State) (b : Buf) (n : Nat) (d : List Byte) : (s.fillMsg b n d).txPending = s.txPending := s.setPage_txPending _ _
@[simp] theorem State.fillMsg_eePending (s : State) (b : Buf) (n : Nat) (d : List Byte) : (s.fillMsg b n d).eePending = s.eePending := s.setPage_eePending _ _
@[simp] theorem State.fillMsg_wireOut (s : State) (b : Buf) (n : Nat) (d : List Byte) : (s.fillMsg b n d).wireOut = s.wireOut := s.setPage_wireOut _ _
@[simp] theorem State.fillMsg_wireIn (s : State) (b : Buf) (n : Nat) (d : List Byte) : (s.fillMsg b n d).wireIn = s.wireIn := s.setPage_wireIn _ _
@[simp] theorem State.fillMsg_toStack (s : State) (b : Buf) (n : Nat) (d : List Byte) : (s.fillMsg b n d).toStack = s.toStack := s.setPage_toStack _ _
@[simp] theorem State.fillMsg_fromStack (s : State) (b : Buf) (n : Nat) (d : List Byte) : (s.fillMsg b n d).fromStack = s.fromStack := s.setPage_fromStack _ _
@[simp] theorem State.fillMsg_stackHeld (s : State) (b : Buf) (n : Nat) (d : List Byte) : (s.fillMsg b n d).stackHeld = s.stackHeld := s.setPage_stackHeld _ _
@[simp] theorem State.fillMsg_delivered (s : State) (b : Buf) (n : Nat) (d : List Byte) : (s.fillMsg b n d).delivered = s.delivered := s.setPage_delivered _ _
@[simp] theorem State.fillMsg_ibPhase (s : State) (b : Buf) (n : Nat) (d : List Byte) : (s.fillMsg b n d).ibPhase = s.ibPhase := s.setPage_ibPhase _ _
@[simp] theorem State.fillMsg_obPhase (s : State) (b : Buf) (n : Nat) (d : List Byte) : (s.fillMsg b n d).obPhase = s.obPhase := s.setPage_obPhase _ _
@[simp] theorem State.fillMsg_attached (s : State) (b : Buf) (n : Nat) (d : List Byte) : (s.fillMsg b n d).attached = s.attached := s.setPage_attached _ _
@[simp] theorem State.fillMsg_ibFatal (s : State) (b : Buf) (n : Nat) (d : List Byte) : (s.fillMsg b n d).ibFatal = s.ibFatal := s.setPage_ibFatal _ _
@[simp] theorem State.fillMsg_obFatal (s : State) (b : Buf) (n : Nat) (d : List Byte) : (s.fillMsg b n d).obFatal = s.obFatal := s.setPage_obFatal _ _
@[simp] theorem State.fillMsg_refused (s : State) (b : Buf) (n : Nat) (d : List Byte) : (s.fillMsg b n d).refused = s.refused := s.setPage_refused _ _
@[simp] theorem State.fillMsg_sw (s : State) (b : Buf) (n : Nat) (d : List Byte) : (s.fillMsg b n d).sw = s.sw := s.setPage_sw _ _
@[simp] theorem State.fillMsg_attachFailed (s : State) (b : Buf) (n : Nat) (d : List Byte) : (s.fillMsg b n d).attachFailed = s.attachFailed := s.setPage_attachFailed _ _
@[simp] theorem State.fillMsg_collab (s : State) (b : Buf) (n : Nat) (d : List Byte) : (s.fillMsg b n d).collab = s.collab := s.setPage_collab _ _
@[simp] theorem State.fillMsg_station (s : State) (b : Buf) (n : Nat) (d : List Byte) : (s.fillMsg b n d).station = s.station := s.setPage_station _ _
@[simp] theorem State.fillMsg_busData (s : State) (b : Buf) (n : Nat) (d : List Byte) : (s.fillMsg b n d).busData = s.busData := s.setPage_busData _ _
@[simp] theorem State.fillMsg_outBuffer (s : State) (b : Buf) (n : Nat) (d : List Byte) : (s.fillMsg b n d).outBuffer = s.outBuffer := s.setPage_outBuffer _ _
@[simp] theorem State.fillMsg_results (s : State) (b : Buf) (n : Nat) (d : List Byte) : (s.fillMsg b n d).results = s.results := s.setPage_results _ _
@[simp] theorem State.fillMsg_draws (s : State) (b : Buf) (n : Nat) (d : List Byte) : (s.fillMsg b n d).draws = s.draws := s.setPage_draws _ _
@[simp] theorem State.fillMsg_schedule (s : State) (b : Buf) (n : Nat) (d : List Byte) : (s.fillMsg b n d).schedule = s.schedule := s.setPage_schedule _ _

theorem State.fillMsg_eq (s : State) (b : Buf) (n : Nat) (d : List Byte) : s.fillMsg b n d =
    { s with mem := (s.fillMsg b n d).mem, farPages := (s.fillMsg b n d).farPages } := s.setPage_eq _ _

/-! ### `State.sendToStack` -/

@[simp] theorem State.sendToStack_cfg (s : State) (b : Buf) : (s.sendToStack b).cfg = s.cfg := rfl
@[simp] theorem State.sendToStack_regs (s : State) (b : Buf) : (s.sendToStack b).regs = s.regs := rfl
@[simp] theorem State.sendToStack_mem (s : State) (b : Buf) : (s.sendToStack b).mem = s.mem := rfl
@[simp] theorem State.sendToStack_txTail (s : State) (b : Buf) : (s.sendToStack b).txTail = s.txTail := rfl
@[simp] theorem State.sendToStack_rxTail (s : State) (b : Buf) : (s.sendToStack b).rxTail = s.rxTail := rfl
@[simp] theorem State.sendToStack_txPending (s : State) (b : Buf) : (s.sendToStack b).txPending = s.txPending := rfl
@[simp] theorem State.sendToStack_eePending (s : State) (b : Buf) : (s.sendToStack b).eePending = s.eePending := rfl
@[simp] theorem State.sendToStack_wireOut (s : State) (b : Buf) : (s.sendToStack b).wireOut = s.wireOut := rfl
@[simp] theorem State.sendToStack_wireIn (s : State) (b : Buf) : (s.sendToStack b).wireIn = s.wireIn := rfl
@[simp] theorem State.sendToStack_toStack (s : State) (b : Buf) : (s.sendToStack b).toStack = s.toStack ++ [⟨.inputAvailable, b⟩] := rfl
@[simp] theorem State.sendToStack_fromStack (s : State) (b : Buf) : (s.sendToStack b).fromStack = s.fromStack := rfl
@[simp] theorem State.sendToStack_stackHeld (s : State) (b : Buf) : (s.sendToStack b).stackHeld = s.stackHeld := rfl
@[simp] theorem State.sendToStack_delivered (s : State) (b : Buf) : (s.sendToStack b).delivered = s.delivered := rfl
@[simp] theorem State.sendToStack_ibPhase (s : State) (b : Buf) : (s.sendToStack b).ibPhase = s.ibPhase := rfl
@[simp] theorem State.sendToStack_obPhase (s : State) (b : Buf) : (s.sendToStack b).obPhase = s.obPhase := rfl
@[simp] theorem State.sendToStack_attached (s : State) (b : Buf) : (s.sendToStack b).attached = s.attached := rfl
@[simp] theorem State.sendToStack_ibFatal (s : State) (b : Buf) : (s.sendToStack b).ibFatal = s.ibFatal := rfl
@[simp] theorem State.sendToStack_obFatal (s : State) (b : Buf) : (s.sendToStack b).obFatal = s.obFatal := rfl
@[simp] theorem State.sendToStack_refused (s : State) (b : Buf) : (s.sendToStack b).refused = s.refused := rfl
@[simp] theorem State.sendToStack_sw (s : State) (b : Buf) : (s.sendToStack b).sw = s.sw := rfl
@[simp] theorem State.sendToStack_attachFailed (s : State) (b : Buf) : (s.sendToStack b).attachFailed = s.attachFailed := rfl
@[simp] theorem State.sendToStack_collab (s : State) (b : Buf) : (s.sendToStack b).collab = s.collab := rfl
@[simp] theorem State.sendToStack_farPages (s : State) (b : Buf) : (s.sendToStack b).farPages = s.farPages := rfl
@[simp] theorem State.sendToStack_station (s : State) (b : Buf) : (s.sendToStack b).station = s.station := rfl
@[simp] theorem State.sendToStack_busData (s : State) (b : Buf) : (s.sendToStack b).busData = s.busData := rfl
@[simp] theorem State.sendToStack_outBuffer (s : State) (b : Buf) : (s.sendToStack b).outBuffer = s.outBuffer := rfl
@[simp] theorem State.sendToStack_results (s : State) (b : Buf) : (s.sendToStack b).results = s.results := rfl
@[simp] theorem State.sendToStack_draws (s : State) (b : Buf) : (s.sendToStack b).draws = s.draws := rfl
@[simp] theorem State.sendToStack_schedule (s : State) (b : Buf) : (s.sendToStack b).schedule = s.schedule := rfl

/-! ### `State.zeroTarget` -/

/-- Zeroing a stage's bytes changes memory alone. -/
theorem State.zeroTarget_eq (s : State) (st : AttachStage) : s.zeroTarget st = s.setMem (s.zeroTarget st).mem := by
  unfold State.zeroTarget
  split <;> rfl

@[simp] theorem State.zeroTarget_cfg (s : State) (st : AttachStage) : (s.zeroTarget st).cfg = s.cfg := by rw [s.zeroTarget_eq]; rfl
@[simp] theorem State.zeroTarget_regs (s : State) (st : AttachStage) : (s.zeroTarget st).regs = s.regs := by rw [s.zeroTarget_eq]; rfl
@[simp] theorem State.zeroTarget_txTail (s : State) (st : AttachStage) : (s.zeroTarget st).txTail = s.txTail := by rw [s.zeroTarget_eq]; rfl
@[simp] theorem State.zeroTarget_rxTail (s : State) (st : AttachStage) : (s.zeroTarget st).rxTail = s.rxTail := by rw [s.zeroTarget_eq]; rfl
@[simp] theorem State.zeroTarget_txPending (s : State) (st : AttachStage) : (s.zeroTarget st).txPending = s.txPending := by rw [s.zeroTarget_eq]; rfl
@[simp] theorem State.zeroTarget_eePending (s : State) (st : AttachStage) : (s.zeroTarget st).eePending = s.eePending := by rw [s.zeroTarget_eq]; rfl
@[simp] theorem State.zeroTarget_wireOut (s : State) (st : AttachStage) : (s.zeroTarget st).wireOut = s.wireOut := by rw [s.zeroTarget_eq]; rfl
@[simp] theorem State.zeroTarget_wireIn (s : State) (st : AttachStage) : (s.zeroTarget st).wireIn = s.wireIn := by rw [s.zeroTarget_eq]; rfl
@[simp] theorem State.zeroTarget_toStack (s : State) (st : AttachStage) : (s.zeroTarget st).toStack = s.toStack := by rw [s.zeroTarget_eq]; rfl
@[simp] theorem State.zeroTarget_fromStack (s : State) (st : AttachStage) : (s.zeroTarget st).fromStack = s.fromStack := by rw [s.zeroTarget_eq]; rfl
@[simp] theorem State.zeroTarget_stackHeld (s : State) (st : AttachStage) : (s.zeroTarget st).stackHeld = s.stackHeld := by rw [s.zeroTarget_eq]; rfl
@[simp] theorem State.zeroTarget_delivered (s : State) (st : AttachStage) : (s.zeroTarget st).delivered = s.delivered := by rw [s.zeroTarget_eq]; rfl
@[simp] theorem State.zeroTarget_ibPhase (s : State) (st : AttachStage) : (s.zeroTarget st).ibPhase = s.ibPhase := by rw [s.zeroTarget_eq]; rfl
@[simp] theorem State.zeroTarget_obPhase (s : State) (st : AttachStage) : (s.zeroTarget st).obPhase = s.obPhase := by rw [s.zeroTarget_eq]; rfl
@[simp] theorem State.zeroTarget_attached (s : State) (st : AttachStage) : (s.zeroTarget st).attached = s.attached := by rw [s.zeroTarget_eq]; rfl
@[simp] theorem State.zeroTarget_ibFatal (s : State) (st : AttachStage) : (s.zeroTarget st).ibFatal = s.ibFatal := by rw [s.zeroTarget_eq]; rfl
@[simp] theorem State.zeroTarget_obFatal (s : State) (st : AttachStage) : (s.zeroTarget st).obFatal = s.obFatal := by rw [s.zeroTarget_eq]; rfl
@[simp] theorem State.zeroTarget_refused (s : State) (st : AttachStage) : (s.zeroTarget st).refused = s.refused := by rw [s.zeroTarget_eq]; rfl
@[simp] theorem State.zeroTarget_sw (s : State) (st : AttachStage) : (s.zeroTarget st).sw = s.sw := by rw [s.zeroTarget_eq]; rfl
@[simp] theorem State.zeroTarget_attachFailed (s : State) (st : AttachStage) : (s.zeroTarget st).attachFailed = s.attachFailed := by rw [s.zeroTarget_eq]; rfl
@[simp] theorem State.zeroTarget_collab (s : State) (st : AttachStage) : (s.zeroTarget st).collab = s.collab := by rw [s.zeroTarget_eq]; rfl
@[simp] theorem State.zeroTarget_farPages (s : State) (st : AttachStage) : (s.zeroTarget st).farPages = s.farPages := by rw [s.zeroTarget_eq]; rfl
@[simp] theorem State.zeroTarget_station (s : State) (st : AttachStage) : (s.zeroTarget st).station = s.station := by rw [s.zeroTarget_eq]; rfl
@[simp] theorem State.zeroTarget_busData (s : State) (st : AttachStage) : (s.zeroTarget st).busData = s.busData := by rw [s.zeroTarget_eq]; rfl
@[simp] theorem State.zeroTarget_outBuffer (s : State) (st : AttachStage) : (s.zeroTarget st).outBuffer = s.outBuffer := by rw [s.zeroTarget_eq]; rfl
@[simp] theorem State.zeroTarget_results (s : State) (st : AttachStage) : (s.zeroTarget st).results = s.results := by rw [s.zeroTarget_eq]; rfl
@[simp] theorem State.zeroTarget_draws (s : State) (st : AttachStage) : (s.zeroTarget st).draws = s.draws := by rw [s.zeroTarget_eq]; rfl
@[simp] theorem State.zeroTarget_schedule (s : State) (st : AttachStage) : (s.zeroTarget st).schedule = s.schedule := by rw [s.zeroTarget_eq]; rfl

/-! ### `State.raise` -/

@[simp] theorem State.raise_cfg (s : State) (b : Bridge) (f : Fatal) : (s.raise b f).cfg = s.cfg := by cases b <;> rfl
@[simp] theorem State.raise_regs (s : State) (b : Bridge) (f : Fatal) : (s.raise b f).regs = s.regs := by cases b <;> rfl
@[simp] theorem State.raise_mem (s : State) (b : Bridge) (f : Fatal) : (s.raise b f).mem = s.mem := by cases b <;> rfl
@[simp] theorem State.raise_txTail (s : State) (b : Bridge) (f : Fatal) : (s.raise b f).txTail = s.txTail := by cases b <;> rfl
@[simp] theorem State.raise_rxTail (s : State) (b : Bridge) (f : Fatal) : (s.raise b f).rxTail = s.rxTail := by cases b <;> rfl
@[simp] theorem State.raise_txPending (s : State) (b : Bridge) (f : Fatal) : (s.raise b f).txPending = s.txPending := by cases b <;> rfl
@[simp] theorem State.raise_eePending (s : State) (b : Bridge) (f : Fatal) : (s.raise b f).eePending = s.eePending := by cases b <;> rfl
@[simp] theorem State.raise_wireOut (s : State) (b : Bridge) (f : Fatal) : (s.raise b f).wireOut = s.wireOut := by cases b <;> rfl
@[simp] theorem State.raise_wireIn (s : State) (b : Bridge) (f : Fatal) : (s.raise b f).wireIn = s.wireIn := by cases b <;> rfl
@[simp] theorem State.raise_toStack (s : State) (b : Bridge) (f : Fatal) : (s.raise b f).toStack = s.toStack := by cases b <;> rfl
@[simp] theorem State.raise_fromStack (s : State) (b : Bridge) (f : Fatal) : (s.raise b f).fromStack = s.fromStack := by cases b <;> rfl
@[simp] theorem State.raise_stackHeld (s : State) (b : Bridge) (f : Fatal) : (s.raise b f).stackHeld = s.stackHeld := by cases b <;> rfl
@[simp] theorem State.raise_delivered (s : State) (b : Bridge) (f : Fatal) : (s.raise b f).delivered = s.delivered := by cases b <;> rfl
@[simp] theorem State.raise_ibPhase (s : State) (b : Bridge) (f : Fatal) : (s.raise b f).ibPhase = s.ibPhase := by cases b <;> rfl
@[simp] theorem State.raise_obPhase (s : State) (b : Bridge) (f : Fatal) : (s.raise b f).obPhase = s.obPhase := by cases b <;> rfl
@[simp] theorem State.raise_attached (s : State) (b : Bridge) (f : Fatal) : (s.raise b f).attached = s.attached := by cases b <;> rfl
@[simp] theorem State.raise_refused (s : State) (b : Bridge) (f : Fatal) : (s.raise b f).refused = s.refused := by cases b <;> rfl
@[simp] theorem State.raise_sw (s : State) (b : Bridge) (f : Fatal) : (s.raise b f).sw = s.sw := by cases b <;> rfl
@[simp] theorem State.raise_attachFailed (s : State) (b : Bridge) (f : Fatal) : (s.raise b f).attachFailed = s.attachFailed := by cases b <;> rfl
@[simp] theorem State.raise_collab (s : State) (b : Bridge) (f : Fatal) : (s.raise b f).collab = s.collab := by cases b <;> rfl
@[simp] theorem State.raise_farPages (s : State) (b : Bridge) (f : Fatal) : (s.raise b f).farPages = s.farPages := by cases b <;> rfl
@[simp] theorem State.raise_station (s : State) (b : Bridge) (f : Fatal) : (s.raise b f).station = s.station := by cases b <;> rfl
@[simp] theorem State.raise_busData (s : State) (b : Bridge) (f : Fatal) : (s.raise b f).busData = s.busData := by cases b <;> rfl
@[simp] theorem State.raise_outBuffer (s : State) (b : Bridge) (f : Fatal) : (s.raise b f).outBuffer = s.outBuffer := by cases b <;> rfl
@[simp] theorem State.raise_results (s : State) (b : Bridge) (f : Fatal) : (s.raise b f).results = s.results := by cases b <;> rfl
@[simp] theorem State.raise_draws (s : State) (b : Bridge) (f : Fatal) : (s.raise b f).draws = s.draws := by cases b <;> rfl
@[simp] theorem State.raise_schedule (s : State) (b : Bridge) (f : Fatal) : (s.raise b f).schedule = s.schedule := by cases b <;> rfl

theorem State.raise_ib_ibFatal {s : State} (f : Fatal) (h : s.ibFatal = none) :
    (s.raise .ib f).ibFatal = some f := by simp [State.raise, h]

theorem State.raise_ob_obFatal {s : State} (f : Fatal) (h : s.obFatal = none) :
    (s.raise .ob f).obFatal = some f := by simp [State.raise, h]

/-- A refusal marks the state (R7). -/
theorem State.refuse_refused {s : State} (r : Refuse) (h : s.refused = none) :
    (s.refuse r).refused = some r := by simp [State.refuse, h]

/-- A mark once set stays (R56). -/
theorem State.refuse_refused_sticky {s : State} {q : Refuse} (r : Refuse) (h : s.refused = some q) :
    (s.refuse r).refused = some q := by simp [State.refuse, h]

/-! ### Registers -/

@[simp] theorem RegFile.get_set_same (f : RegFile) (r : Reg) (v : Word) : (f.set r v).get r = v := by
  cases r <;> rfl

@[simp] theorem RegFile.get_set_ne (f : RegFile) {r q : Reg} (v : Word) (h : q ≠ r) :
    (f.set r v).get q = f.get q := by
  cases r <;> cases q <;> first | rfl | exact absurd rfl h

@[simp] theorem State.reg_setReg_same (s : State) (r : Reg) (v : Word) : (s.setReg r v).reg r = v :=
  RegFile.get_set_same _ _ _

@[simp] theorem State.reg_setReg_ne (s : State) {r q : Reg} (v : Word) (h : q ≠ r) :
    (s.setReg r v).reg q = s.reg q :=
  RegFile.get_set_ne _ _ h

@[simp] theorem State.reg_setMem (s : State) (m : List Host.Cell) (r : Reg) : (s.setMem m).reg r = s.reg r := rfl

@[simp] theorem State.reg_zeroTarget (s : State) (st : AttachStage) (r : Reg) : (s.zeroTarget st).reg r = s.reg r := by
  rw [s.zeroTarget_eq]; rfl

@[simp] theorem State.reg_fillMsg (s : State) (b : Buf) (n : Nat) (d : List Byte) (r : Reg) :
    (s.fillMsg b n d).reg r = s.reg r := by simp [State.reg]

@[simp] theorem State.reg_refuse (s : State) (e : Refuse) (r : Reg) : (s.refuse e).reg r = s.reg r := rfl

@[simp] theorem State.reg_returns (s : State) (op : DriverOp) (x : Result) (r : Reg) :
    (s.returns op x).reg r = s.reg r := rfl

@[simp] theorem State.reg_setTxd (s : State) (i : Nat) (f : TxField) (v : Nat) (r : Reg) :
    (s.setTxd i f v).reg r = s.reg r := rfl

@[simp] theorem State.reg_setRxd (s : State) (i : Nat) (f : RxField) (v : Nat) (r : Reg) :
    (s.setRxd i f v).reg r = s.reg r := rfl

/-- A register read depends on the register block alone. -/
theorem State.reg_congr {s t : State} (h : t.regs = s.regs) (r : Reg) : t.reg r = s.reg r := by
  simp [State.reg, h]

/-- A descriptor field depends on the configuration and the memory alone. -/
theorem State.txd_congr {s t : State} (hc : t.cfg = s.cfg) (hm : t.mem = s.mem) (i : Nat) (f : TxField) :
    t.txd i f = s.txd i f := by simp [State.txd, State.txdBase, hc, hm]

theorem State.rxd_congr {s t : State} (hc : t.cfg = s.cfg) (hm : t.mem = s.mem) (i : Nat) (f : RxField) :
    t.rxd i f = s.rxd i f := by simp [State.rxd, State.rxdBase, hc, hm]

end Sys2Proof.Machine
end

