-- ==== Sys2Proof/Laws/Operands.lean ====
section
/-! SUPPORT. The small lemmas of register fields, of descriptor fields, of slot indexes and of the completion
flag. -/

namespace Sys2Proof.Machine

/-! ### Register fields -/

@[simp] theorem getLsbD_fieldMask (f : Region) (i : Nat) :
    (fieldMask f).getLsbD i = (decide (i < 32) && decide (f.1 ≤ i) && decide (i < f.1 + f.2)) := by
  simp only [fieldMask, BitVec.getLsbD_shiftLeft, BitVec.getLsbD_setWidth, BitVec.getLsbD_allOnes]
  by_cases h1 : i < 32 ∧ f.1 ≤ i
  · have h3 : ¬ i < f.1 := by omega
    have h4 : i - f.1 < 32 := by omega
    have h5 : (i - f.1 < f.2) ↔ (i < f.1 + f.2) := by omega
    simp [h1, h3, h4, h5]
  · by_cases h2 : i < 32
    · have h3 : i < f.1 := by omega
      have h4 : ¬ f.1 ≤ i := by omega
      simp [h3, h4]
    · simp [h2]

@[simp] theorem getLsbD_place {w : Nat} (p : Nat) (x : BitVec w) (i : Nat) :
    (place p x).getLsbD i = (decide (i < 32) && decide (p ≤ i) && x.getLsbD (i - p)) := by
  simp only [place, BitVec.getLsbD_shiftLeft, BitVec.getLsbD_setWidth]
  by_cases h1 : i < 32 ∧ p ≤ i
  · have h3 : ¬ i < p := by omega
    have h4 : i - p < 32 := by omega
    simp [h1, h3, h4]
  · by_cases h2 : i < 32
    · have h3 : i < p := by omega
      have h4 : ¬ p ≤ i := by omega
      simp [h3, h4]
    · simp [h2]

@[simp] theorem getLsbD_reservedBits (fs : List Region) (i : Nat) :
    (reservedBits fs).getLsbD i = (decide (i < 32) && !fs.any fun f => decide (f.1 ≤ i) && decide (i < f.1 + f.2)) := by
  have key : (fs.foldr (fun f m => fieldMask f ||| m) (0 : Word)).getLsbD i =
      (decide (i < 32) && fs.any fun f => decide (f.1 ≤ i) && decide (i < f.1 + f.2)) := by
    induction fs with
    | nil => simp
    | cons f fs ih =>
      simp only [List.foldr_cons, BitVec.getLsbD_or, getLsbD_fieldMask, ih, List.any_cons]
      cases decide (i < 32) <;> simp
  rw [reservedBits, BitVec.getLsbD_not, key]
  cases decide (i < 32) <;> simp

/-- A field reads back what was placed in it. -/
@[simp] theorem extract_place_same {w : Nat} {p : Nat} {x : BitVec w} (h : p + w ≤ 32) :
    (place p x).extractLsb' p w = x := by
  apply BitVec.eq_of_getLsbD_eq
  intro i hi
  simp only [BitVec.getLsbD_extractLsb', getLsbD_place]
  simp [hi, show p + i < 32 by omega]

/-- A field shows nothing of what was placed in another. -/
theorem extract_place_other {w v : Nat} {p q : Nat} {x : BitVec v} (h : Region.Disjoint (p, w) (q, v)) :
    (place q x).extractLsb' p w = 0 := by
  apply BitVec.eq_of_getLsbD_eq
  intro i hi
  rcases h with h | h <;> simp only at h
  · simp [show ¬ q ≤ p + i by omega]
  · simp only [BitVec.getLsbD_extractLsb', getLsbD_place]
    rw [BitVec.getLsbD_of_ge x _ (by omega)]; simp

theorem extract_or {p w : Nat} (a b : Word) :
    (a ||| b).extractLsb' p w = a.extractLsb' p w ||| b.extractLsb' p w := by
  apply BitVec.eq_of_getLsbD_eq
  intro i hi
  simp [hi]

/-- The field just set reads the value. -/
theorem extract_setField_same {w p : Nat} {x : BitVec w} (v : Word) (h : p + w ≤ 32) :
    (setField v p x).extractLsb' p w = x := by
  apply BitVec.eq_of_getLsbD_eq
  intro i hi
  simp only [setField, BitVec.getLsbD_extractLsb', BitVec.getLsbD_or, BitVec.getLsbD_and, BitVec.getLsbD_not,
    getLsbD_place, getLsbD_fieldMask]
  simp [hi, show p + i < 32 by omega]

/-- A bit outside the field set stays. -/
theorem getLsbD_setField_outside {w p : Nat} (x : BitVec w) (v : Word) {i : Nat} (h : i < p ∨ p + w ≤ i) :
    (setField v p x).getLsbD i = v.getLsbD i := by
  simp only [setField, BitVec.getLsbD_or, BitVec.getLsbD_and, BitVec.getLsbD_not, getLsbD_fieldMask, getLsbD_place]
  by_cases hi : i < 32
  · rcases h with h | h
    · simp [hi, show ¬ p ≤ i by omega]
    · rw [BitVec.getLsbD_of_ge x _ (by omega)]; simp [hi, show ¬ i < p + w by omega]
  · rw [BitVec.getLsbD_of_ge v i (by omega)]; simp [hi]

/-- Setting one field leaves another. -/
theorem extract_setField_other {w u p q : Nat} (x : BitVec u) (v : Word) (h : Region.Disjoint (p, w) (q, u)) :
    (setField v q x).extractLsb' p w = v.extractLsb' p w := by
  apply BitVec.eq_of_getLsbD_eq
  intro i hi
  simp only [BitVec.getLsbD_extractLsb', hi, decide_true, Bool.true_and]
  exact getLsbD_setField_outside _ _ (by rcases h with h | h <;> simp only at h <;> omega)

/-- What lies in one of a register's fields sets no reserved bit. -/
theorem place_reserved {w p : Nat} (x : BitVec w) {fs : List Region} (h : (p, w) ∈ fs) :
    place p x &&& reservedBits fs = 0 := by
  apply BitVec.eq_of_getLsbD_eq
  intro i hi
  simp only [BitVec.getLsbD_and, getLsbD_place, getLsbD_reservedBits, hi, decide_true, Bool.true_and]
  by_cases h1 : p ≤ i
  · by_cases h2 : i < p + w
    · have : (fs.any fun f => decide (f.1 ≤ i) && decide (i < f.1 + f.2)) = true :=
        List.any_eq_true.2 ⟨_, h, by simp [h1, h2]⟩
      simp [this]
    · rw [BitVec.getLsbD_of_ge x _ (by omega)]; simp
  · simp [h1]

theorem or_reserved {a b : Word} {m : Word} (ha : a &&& m = 0) (hb : b &&& m = 0) : (a ||| b) &&& m = 0 := by
  apply BitVec.eq_of_getLsbD_eq
  intro i _
  have h1 := congrArg (·.getLsbD i) ha
  have h2 := congrArg (·.getLsbD i) hb
  simp only [BitVec.getLsbD_and, BitVec.getLsbD_or] at *
  cases h : m.getLsbD i <;> simp_all

/-! ### The fields of each register of a well-formed layout -/

/-- Two different fields of one register do not meet. -/
theorem fields_apart {fs : List Region} (h : Layout.FieldsFit fs) {f g : Region} (hf : f ∈ fs) (hg : g ∈ fs)
    (hne : f ≠ g) : Region.Disjoint f g := by
  obtain ⟨-, hp⟩ := h
  induction fs with
  | nil => cases hf
  | cons a fs ih =>
    obtain ⟨ha, hp⟩ := List.pairwise_cons.1 hp
    rcases List.mem_cons.1 hf with rfl | hf' <;> rcases List.mem_cons.1 hg with rfl | hg'
    · exact absurd rfl hne
    · exact ha _ hg'
    · exact Or.symm (ha _ hf')
    · exact ih hf' hg' hp

/-- The four fields of EERD fit and are apart. -/
theorem eerd_apart {l : Layout} (h : l.WF) :
    l.eerdStart + 1 ≤ 32 ∧ l.eerdDone + 1 ≤ 32 ∧ l.eerdAddr + 8 ≤ 32 ∧ l.eerdData + 16 ≤ 32 ∧
    Region.Disjoint (l.eerdStart, 1) (l.eerdDone, 1) ∧ Region.Disjoint (l.eerdStart, 1) (l.eerdAddr, 8) ∧
    Region.Disjoint (l.eerdStart, 1) (l.eerdData, 16) ∧ Region.Disjoint (l.eerdDone, 1) (l.eerdAddr, 8) ∧
    Region.Disjoint (l.eerdDone, 1) (l.eerdData, 16) ∧ Region.Disjoint (l.eerdAddr, 8) (l.eerdData, 16) := by
  obtain ⟨hfit, hp⟩ := h.eerd
  simp only [Layout.eerdFields] at hfit hp
  have h1 := List.pairwise_cons.1 hp
  have h2 := List.pairwise_cons.1 h1.2
  have h3 := List.pairwise_cons.1 h2.2
  exact ⟨hfit (l.eerdStart, 1) (by simp), hfit (l.eerdDone, 1) (by simp), hfit (l.eerdAddr, 8) (by simp),
    hfit (l.eerdData, 16) (by simp), h1.1 _ (by simp), h1.1 _ (by simp),
    h1.1 _ (by simp), h2.1 _ (by simp), h2.1 _ (by simp), h3.1 _ (by simp)⟩

/-- START and ADDR of the word that starts a read (R104). -/
theorem eerdStart_eerdStartWord {l : Layout} (h : l.WF) (a : BitVec 8) : eerdStart l (eerdStartWord l a) = 1 := by
  obtain ⟨h1, -, -, -, -, h2, -⟩ := eerd_apart h
  rw [eerdStart, eerdStartWord, extract_or, extract_place_other h2, extract_place_same h1]; rfl

theorem eerdAddr_eerdStartWord {l : Layout} (h : l.WF) (a : BitVec 8) : eerdAddr l (eerdStartWord l a) = a := by
  obtain ⟨-, -, h1, -, -, h2, -⟩ := eerd_apart h
  rw [eerdAddr, eerdStartWord, extract_or, extract_place_other (Or.symm h2), extract_place_same h1]; simp

/-- The word that starts a read sets no other bit. -/
theorem eerdStartWord_reserved (l : Layout) (a : BitVec 8) :
    eerdStartWord l a &&& reservedBits (eerdWriteFields l) = 0 :=
  or_reserved (place_reserved _ (by simp [eerdWriteFields])) (place_reserved _ (by simp [eerdWriteFields]))

/-- DONE, START and ADDR while a read is pending (R143). -/
theorem eerdDone_eerdReading {l : Layout} (h : l.WF) (a : BitVec 8) (d : Half) : eerdDone l (eerdReading l a d) = 0 := by
  obtain ⟨-, -, -, -, -, -, -, h1, h2, -⟩ := eerd_apart h
  rw [eerdDone, eerdReading, extract_or, extract_place_other h1, extract_place_other h2]; rfl

theorem eerdStart_eerdReading {l : Layout} (h : l.WF) (a : BitVec 8) (d : Half) :
    eerdStart l (eerdReading l a d) = 0 := by
  obtain ⟨-, -, -, -, -, h1, h2, -⟩ := eerd_apart h
  rw [eerdStart, eerdReading, extract_or, extract_place_other h1, extract_place_other h2]; rfl

theorem eerdAddr_eerdReading {l : Layout} (h : l.WF) (a : BitVec 8) (d : Half) : eerdAddr l (eerdReading l a d) = a := by
  obtain ⟨-, -, h1, -, -, -, -, -, -, h2⟩ := eerd_apart h
  rw [eerdAddr, eerdReading, extract_or, extract_place_other h2, extract_place_same h1]; simp

/-- Which bits a read of EERD shows as stored. -/
theorem getLsbD_eerdReadValue {s : State} {i : Nat} (h : s.eerdFree.getLsbD i = false) :
    s.eerdReadValue.getLsbD i = (s.reg .eerd).getLsbD i := by
  by_cases hi : i < 32
  · simp only [State.eerdReadValue, BitVec.getLsbD_or, BitVec.getLsbD_and, BitVec.getLsbD_not, h]
    simp [hi]
  · rw [BitVec.getLsbD_of_ge _ i (by omega), BitVec.getLsbD_of_ge _ i (by omega)]

/-- A field of EERD other than DATA is read as stored; DATA is once DONE is 1 (R144). -/
theorem extract_eerdReadValue {s : State} (hl : s.cfg.layout.WF) {p w : Nat} (h : (p, w) ∈ s.cfg.layout.eerdFields)
    (hd : (p, w) ≠ (s.cfg.layout.eerdData, 16) ∨ s.eeDone = 1) :
    s.eerdReadValue.extractLsb' p w = (s.reg .eerd).extractLsb' p w := by
  apply BitVec.eq_of_getLsbD_eq
  intro i hi
  simp only [BitVec.getLsbD_extractLsb', hi, decide_true, Bool.true_and]
  apply getLsbD_eerdReadValue
  have hany : (s.cfg.layout.eerdFields.any fun f => decide (f.1 ≤ p + i) && decide (p + i < f.1 + f.2)) = true :=
    List.any_eq_true.2 ⟨_, h, by simp [hi]⟩
  unfold State.eerdFree
  simp only
  split
  · simp [hany]
  · next hn =>
    have hne := hd.resolve_right hn
    have hdis : Region.Disjoint (p, w) (s.cfg.layout.eerdData, 16) := by
      obtain ⟨-, -, -, -, -, -, h1, -, h2, h3⟩ := eerd_apart hl
      simp only [Layout.eerdFields, List.mem_cons, List.not_mem_nil, or_false] at h
      rcases h with h | h | h | h
      · rwa [h]
      · rwa [h]
      · rwa [h]
      · exact absurd h hne
    simp only [BitVec.getLsbD_or, getLsbD_reservedBits, hany, getLsbD_fieldMask]
    rcases hdis with h | h <;> simp only at h
    · simp [show ¬ s.cfg.layout.eerdData ≤ p + i by omega]
    · simp [show ¬ p + i < s.cfg.layout.eerdData + 16 by omega]

/-- DONE, ADDR, START and, with DONE = 1, DATA of the value a read of EERD returns are the register's (R144). -/
theorem eerdDone_readValue {s : State} (h : s.cfg.layout.WF) : eerdDone s.cfg.layout s.eerdReadValue = s.eeDone := by
  obtain ⟨-, -, -, -, -, -, -, -, h2, -⟩ := eerd_apart h
  exact extract_eerdReadValue h (by simp [Layout.eerdFields]) (.inl (by simp))

theorem eerdAddr_readValue {s : State} (h : s.cfg.layout.WF) :
    eerdAddr s.cfg.layout s.eerdReadValue = eerdAddr s.cfg.layout (s.reg .eerd) :=
  extract_eerdReadValue h (by simp [Layout.eerdFields]) (.inl (by simp))

theorem eerdStart_readValue {s : State} (h : s.cfg.layout.WF) :
    eerdStart s.cfg.layout s.eerdReadValue = eerdStart s.cfg.layout (s.reg .eerd) :=
  extract_eerdReadValue h (by simp [Layout.eerdFields]) (.inl (by simp))

theorem eerdData_readValue {s : State} (h : s.cfg.layout.WF) (hd : s.eeDone = 1) :
    eerdData s.cfg.layout s.eerdReadValue = s.eeData :=
  extract_eerdReadValue h (by simp [Layout.eerdFields]) (.inr hd)

/-- What EE_COMPLETE writes: DATA and DONE take their values, every other bit stays (R182). -/
theorem eerd_completed {l : Layout} (h : l.WF) (v : Word) (d : Half) :
    eerdData l (setField (setField v l.eerdData d) l.eerdDone 1#1) = d ∧
    eerdDone l (setField (setField v l.eerdData d) l.eerdDone 1#1) = 1 ∧
    ∀ i, (i < l.eerdData ∨ l.eerdData + 16 ≤ i) → i ≠ l.eerdDone →
      (setField (setField v l.eerdData d) l.eerdDone 1#1).getLsbD i = v.getLsbD i := by
  obtain ⟨-, h1, -, h2, -, -, -, -, h3, -⟩ := eerd_apart h
  refine ⟨?_, extract_setField_same _ h1, fun i hi hne => ?_⟩
  · rw [eerdData, extract_setField_other _ _ (Or.symm h3), extract_setField_same _ h2]
  · rw [getLsbD_setField_outside _ _ (by omega), getLsbD_setField_outside _ _ hi]

/-! ### The words of ATTACH -/

/-- One bit placed, read back; and another field seen through it. -/
theorem getLsbD_place_bit {p : Nat} (h : p < 32) : (place p 1#1).getLsbD p = true := by simp [h]

theorem txEnBit_tctlAttachWord {c : Config} (h : c.layout.WF) : txEnBit c.layout (tctlAttachWord c) = true := by
  have := h.tctl.1 (c.layout.tctlEn, 1) (by simp [Layout.tctlFields])
  simp only [txEnBit, tctlAttachWord, BitVec.getLsbD_or]
  rw [getLsbD_place_bit (by simp only at this; omega)]; rfl

theorem tctlAttachWord_reserved (c : Config) : tctlAttachWord c &&& reservedBits c.layout.tctlFields = 0 :=
  or_reserved (place_reserved _ (by simp [Layout.tctlFields])) (or_reserved (place_reserved _ (by simp [Layout.tctlFields]))
    (or_reserved (place_reserved _ (by simp [Layout.tctlFields])) (place_reserved _ (by simp [Layout.tctlFields]))))

theorem rxEnBit_rctlAttachWord {c : Config} (h : c.layout.WF) : rxEnBit c.layout (rctlAttachWord c) = true := by
  have := h.rctl.1 (c.layout.rctlEn, 1) (by simp [Layout.rctlFields])
  simp only [rxEnBit, rctlAttachWord, BitVec.getLsbD_or]
  rw [getLsbD_place_bit (by simp only at this; omega)]; rfl

theorem bsize_rctlAttachWord {c : Config} (h : c.layout.WF) : bsize c.layout (rctlAttachWord c) = c.bsizeCode := by
  have m : ∀ {f}, f = (c.layout.rctlEn, 1) ∨ f = (c.layout.rctlBsize, 2) ∨ f = (c.layout.rctlSecrc, 1) →
      f ∈ c.layout.rctlFields := by
    rintro f (rfl | rfl | rfl) <;> simp [Layout.rctlFields]
  have h1 := fields_apart h.rctl (m (.inr (.inl rfl))) (m (.inl rfl)) (by simp)
  have h2 := fields_apart h.rctl (m (.inr (.inl rfl))) (m (.inr (.inr rfl))) (by simp)
  have h3 := h.rctl.1 _ (m (.inr (.inl rfl)))
  rw [bsize, rctlAttachWord, extract_or, extract_or, extract_place_other h1, extract_place_other h2,
    extract_place_same h3]; simp

theorem rctlAttachWord_reserved (c : Config) : rctlAttachWord c &&& reservedBits c.layout.rctlFields = 0 :=
  or_reserved (place_reserved _ (by simp [Layout.rctlFields])) (or_reserved (place_reserved _ (by simp [Layout.rctlFields]))
    (place_reserved _ (by simp [Layout.rctlFields])))

theorem rahWord_reserved (l : Layout) (w2 : Half) : rahWord l w2 &&& reservedBits l.rahFields = 0 :=
  or_reserved (place_reserved _ (by simp [Layout.rahFields])) (or_reserved (place_reserved _ (by simp [Layout.rahFields]))
    (place_reserved _ (by simp [Layout.rahFields])))

theorem avBit_rahWord {l : Layout} (h : l.WF) (w2 : Half) : avBit l (rahWord l w2) = true := by
  have := h.rah.1 (l.rahAv, 1) (by simp [Layout.rahFields])
  simp only [avBit, rahWord, BitVec.getLsbD_or]
  rw [getLsbD_place_bit (by simp only at this; omega)]; simp

/-- The TIPG value of a well-formed configuration sets no reserved bit (R106). -/
theorem tipgValue_reserved {c : Config} (h : c.WF) : c.tipgValue &&& reservedBits c.layout.tipgFields = 0 := by
  apply BitVec.eq_of_getLsbD_eq
  intro i hi
  rw [BitVec.getLsbD_and, getLsbD_reservedBits]
  cases ht : c.tipgValue.getLsbD i with
  | false => simp
  | true =>
    obtain ⟨f, hf, h1, h2⟩ := h.tipg i hi ht
    have : (c.layout.tipgFields.any fun f => decide (f.1 ≤ i) && decide (i < f.1 + f.2)) = true :=
      List.any_eq_true.2 ⟨f, hf, by simp [h1, h2]⟩
    simp [this]

/-- The low half of an aligned base is aligned (R107). -/
theorem baseAligned_baseLow {c : Config} (h : c.WF) {a : Addr} (ha : a.toNat % c.ringAlign = 0) :
    baseAligned c (baseLow a) = true := by
  simp only [baseAligned, baseLow, BitVec.extractLsb'_toNat, Nat.shiftRight_zero, beq_iff_eq]
  rw [Nat.mod_mod_of_dvd _ h.align_dvd, ha]

/-- RAL holds the four bytes of the first two words, low byte first (R109, R183). -/
theorem ralWord_bytes {l : Layout} (h : l.WF) (w0 w1 : Half) :
    (ralWord l w0 w1).extractLsb' l.ralMac0 8 = w0.extractLsb' 0 8 ∧
    (ralWord l w0 w1).extractLsb' l.ralMac1 8 = w0.extractLsb' 8 8 ∧
    (ralWord l w0 w1).extractLsb' l.ralMac2 8 = w1.extractLsb' 0 8 ∧
    (ralWord l w0 w1).extractLsb' l.ralMac3 8 = w1.extractLsb' 8 8 := by
  obtain ⟨hfit, hp⟩ := h.ral
  simp only [Layout.ralFields] at hfit hp
  have h1 := List.pairwise_cons.1 hp
  have h2 := List.pairwise_cons.1 h1.2
  have h3 := List.pairwise_cons.1 h2.2
  have a01 := h1.1 (l.ralMac1, 8) (by simp)
  have a02 := h1.1 (l.ralMac2, 8) (by simp)
  have a03 := h1.1 (l.ralMac3, 8) (by simp)
  have a12 := h2.1 (l.ralMac2, 8) (by simp)
  have a13 := h2.1 (l.ralMac3, 8) (by simp)
  have a23 := h3.1 (l.ralMac3, 8) (by simp)
  have f0 := hfit (l.ralMac0, 8) (by simp)
  have f1 := hfit (l.ralMac1, 8) (by simp)
  have f2 := hfit (l.ralMac2, 8) (by simp)
  have f3 := hfit (l.ralMac3, 8) (by simp)
  simp only [ralWord, extract_or]
  refine ⟨?_, ?_, ?_, ?_⟩
  · rw [extract_place_same f0, extract_place_other a01, extract_place_other a02, extract_place_other a03]; simp
  · rw [extract_place_other (Or.symm a01), extract_place_same f1, extract_place_other a12, extract_place_other a13]; simp
  · rw [extract_place_other (Or.symm a02), extract_place_other (Or.symm a12), extract_place_same f2,
      extract_place_other a23]; simp
  · rw [extract_place_other (Or.symm a03), extract_place_other (Or.symm a13), extract_place_other (Or.symm a23),
      extract_place_same f3]; simp

/-- RAH holds the two bytes of the third word, low byte first (R110, R183). -/
theorem rahWord_bytes {l : Layout} (h : l.WF) (w2 : Half) :
    (rahWord l w2).extractLsb' l.rahMac4 8 = w2.extractLsb' 0 8 ∧
    (rahWord l w2).extractLsb' l.rahMac5 8 = w2.extractLsb' 8 8 := by
  obtain ⟨hfit, hp⟩ := h.rah
  simp only [Layout.rahFields] at hfit hp
  have h1 := List.pairwise_cons.1 hp
  have h2 := List.pairwise_cons.1 h1.2
  have a45 := h1.1 (l.rahMac5, 8) (by simp)
  have a4v := h1.1 (l.rahAv, 1) (by simp)
  have a5v := h2.1 (l.rahAv, 1) (by simp)
  simp only [rahWord, extract_or]
  refine ⟨?_, ?_⟩
  · rw [extract_place_same (hfit (l.rahMac4, 8) (by simp)), extract_place_other a45, extract_place_other a4v]; simp
  · rw [extract_place_other (Or.symm a45), extract_place_same (hfit (l.rahMac5, 8) (by simp)),
      extract_place_other a5v]; simp

/-! ### Slot indexes in registers -/

theorem indexWord_toNat {i : Nat} (h : i < 2 ^ 32) : (indexWord i).toNat = i := by
  rw [indexWord, BitVec.toNat_ofNat, Nat.mod_eq_of_lt h]

@[simp] theorem State.tdh_setReg (s : State) (v : Word) : (s.setReg .tdh v).tdh = v.toNat := rfl
@[simp] theorem State.tdt_setReg (s : State) (v : Word) : (s.setReg .tdt v).tdt = v.toNat := rfl
@[simp] theorem State.rdh_setReg (s : State) (v : Word) : (s.setReg .rdh v).rdh = v.toNat := rfl
@[simp] theorem State.rdt_setReg (s : State) (v : Word) : (s.setReg .rdt v).rdt = v.toNat := rfl

/-- The length register of an `n`-slot ring that fits it holds `n × DESC_SIZE` bytes and makes room for `n` slots. -/
theorem ringLength_bytes {c : Config} (hw : c.WF) {n : Nat} (hn : n * c.descSize < 2 ^ 32) :
    (ringLength c n).toNat * c.ringUnit = n * c.descSize := by
  rw [ringLength, BitVec.toNat_ofNat, Nat.mod_eq_of_lt (Nat.lt_of_le_of_lt (Nat.div_le_self ..) hn),
    Nat.div_mul_cancel (hw.unit_dvd.mul_left n)]
theorem ringSlots_ringLength {c : Config} (hw : c.WF) {n : Nat} (hn : n * c.descSize < 2 ^ 32) :
    ringSlots c (ringLength c n) = n := by
  have := hw.descSize_le
  rw [ringSlots, ringLength_bytes hw hn, Nat.mul_div_cancel _ (by omega)]

/-- A programmed transmit ring has the configured size (R30). -/
theorem State.txRingSize_eq {s : State} (h : s.reg .tdlen = ringLength s.cfg s.cfg.nTx) (hw : s.cfg.WF) :
    s.txRingSize = s.cfg.nTx := by
  rw [State.txRingSize, h, ringSlots_ringLength hw hw.txLength_lt]

/-- A programmed receive ring has the configured size (R36). -/
theorem State.rxRingSize_eq {s : State} (h : s.reg .rdlen = ringLength s.cfg s.cfg.nRx) (hw : s.cfg.WF) :
    s.rxRingSize = s.cfg.nRx := by
  rw [State.rxRingSize, h, ringSlots_ringLength hw hw.rxLength_lt]

theorem nextIndex_lt {i n : Nat} (h : 0 < n) : nextIndex i n < n := Nat.mod_lt _ h

/-- The step of a ring index, without the modulus. -/
theorem nextIndex_eq {i n : Nat} (h : i < n) : nextIndex i n = if i + 1 = n then 0 else i + 1 := by
  unfold nextIndex
  split
  · next e => rw [e, Nat.mod_self]
  · exact Nat.mod_eq_of_lt (by omega)

/-- Moving on from the j-th slot after `d`. -/
theorem nextIndex_add (d j n : Nat) : nextIndex ((d + j) % n) n = (d + (j + 1)) % n := by
  unfold nextIndex
  rw [Nat.mod_add_mod, Nat.add_assoc]

/-- Two offsets below the ring size name the same slot only when they are equal. -/
theorem slot_inj {d j k n : Nat} (hj : j < n) (hk : k < n) (h : (d + j) % n = (d + k) % n) : j = k := by
  have := Nat.ModEq.add_left_cancel' d (show (d + j) ≡ (d + k) [MOD n] from h)
  unfold Nat.ModEq at this
  rwa [Nat.mod_eq_of_lt hj, Nat.mod_eq_of_lt hk] at this

/-- The oldest fetched slot when the head stands `p` slots past slot `d` (R205). -/
theorem State.txOldest_eq {s : State} {d p n : Nat} (hn : s.txRingSize = n) (hd : d < n)
    (hh : s.tdh = (d + p) % n) (hp : s.txPending = p) : s.txOldest = d := by
  unfold State.txOldest
  rw [hn, hh, hp]
  have h1 : (((d + p) % n : Nat) : Int) - (p : Int) ≡ (d : Int) [ZMOD n] := by
    have h2 : (((d + p) % n : Nat) : Int) ≡ ((d + p : Nat) : Int) [ZMOD n] := by
      rw [Int.natCast_mod]; exact Int.mod_modEq _ _
    have h3 := h2.sub_right (p : Int)
    simpa using h3
  have h4 : ((((d + p) % n : Nat) : Int) - (p : Int)) % (n : Int) = (d : Int) := by
    rw [h1]; exact Int.emod_eq_of_lt (by omega) (by omega)
  rw [h4]; rfl

/-! ### The completion flag -/

@[simp] theorem getLsbD_bitByte (p i : Nat) : (bitByte p).getLsbD i = (decide (i < 8) && decide (i = p)) := by
  simp only [bitByte, BitVec.getLsbD_shiftLeft, BitVec.getLsbD_one]
  by_cases h : i = p
  · subst h; simp
  · by_cases h2 : i < p
    · simp [h, h2]
    · simp [h, h2]; omega

@[simp] theorem flagBit_clearFlag (p : Nat) (b : Byte) : flagBit p (clearFlag p b) = false := by
  by_cases h : p < 8 <;> simp [flagBit, clearFlag, h]

theorem flagBit_engineStatus {p : Nat} (b : Byte) (h : p < 8) : flagBit p (engineStatus p b) = true := by
  simp [flagBit, engineStatus, clearFlag, h]

theorem flagBit_bitByte {p : Nat} (h : p < 8) : flagBit p (bitByte p) = true := by simp [flagBit, h]

/-- Clearing the flag leaves the other bits. -/
theorem clearFlag_bit {p i : Nat} (b : Byte) (h : i ≠ p) : (clearFlag p b).getLsbD i = b.getLsbD i := by
  by_cases hi : i < 8
  · simp only [clearFlag, BitVec.getLsbD_and, BitVec.getLsbD_not, getLsbD_bitByte]
    simp [h, hi]
  · rw [BitVec.getLsbD_of_ge _ i (by omega), BitVec.getLsbD_of_ge _ i (by omega)]

/-- The command byte of a slot TRANSMIT armed before, or of a fresh one, becomes RS and EOP alone. -/
theorem armCmd_eq {l : Layout} {b : Byte} (h : b = 0 ∨ b = cmdReportEop l) : armCmd l b = cmdReportEop l := by
  rcases h with rfl | rfl
  · simp [armCmd, cmdReportEop]
  · apply BitVec.eq_of_getLsbD_eq
    intro i hi
    simp only [armCmd, cmdReportEop, BitVec.getLsbD_or]
    cases (bitByte l.cmdRs).getLsbD i <;> cases (bitByte l.cmdEop).getLsbD i <;> rfl

/-! ### Descriptor fields -/

theorem TxField.width_le (f : TxField) : f.offset + f.width ≤ 16 := by cases f <;> decide
theorem RxField.width_le (f : RxField) : f.offset + f.width ≤ 16 := by cases f <;> decide

/-- Two fields of one descriptor share no byte (R111). -/
theorem TxField.disjoint {f g : TxField} (h : f ≠ g) :
    f.offset + f.width ≤ g.offset ∨ g.offset + g.width ≤ f.offset := by
  cases f <;> cases g <;> first | exact absurd rfl h | decide

/-- Two fields of one descriptor share no byte (R112). -/
theorem RxField.disjoint {f g : RxField} (h : f ≠ g) :
    f.offset + f.width ≤ g.offset ∨ g.offset + g.width ≤ f.offset := by
  cases f <;> cases g <;> first | exact absurd rfl h | decide

/-- A field just written reads back. -/
theorem State.txd_setTxd_same (s : State) (i : Nat) (f : TxField) (v : Nat) :
    (s.setTxd i f v).txd i f = v % 256 ^ f.width := by
  have hw : f.width ≤ addrSpace := le_trans (by cases f <;> decide : f.width ≤ 8) (by decide)
  exact Mem.read_write_same _ _ _ _ hw

theorem State.rxd_setRxd_same (s : State) (i : Nat) (f : RxField) (v : Nat) :
    (s.setRxd i f v).rxd i f = v % 256 ^ f.width := by
  have hw : f.width ≤ addrSpace := le_trans (by cases f <;> decide : f.width ≤ 8) (by decide)
  exact Mem.read_write_same _ _ _ _ hw

/-- A write of one field leaves every other field of the array alone. -/
theorem State.txd_setTxd_other {s : State} {i j : Nat} {f g : TxField} (v : Nat) (h : i ≠ j ∨ f ≠ g)
    (hd : 16 ≤ s.cfg.descSize) (hi : s.txdBase i + 16 ≤ addrSpace) (hj : s.txdBase j + 16 ≤ addrSpace) :
    (s.setTxd i f v).txd j g = s.txd j g := by
  have hf := f.width_le
  have hg := g.width_le
  refine Mem.read_write_disjoint s.mem (s.txdBase i + f.offset) f.width v (s.txdBase j + g.offset) g.width
    (by omega) (by omega) ?_
  by_cases hij : i = j
  · subst hij
    rcases TxField.disjoint (h.resolve_left (fun e => e rfl)) with h | h <;> [left; right] <;> omega
  · unfold State.txdBase txdAt
    rcases Config.slot_apart (d := s.cfg.descSize) hij with h | h <;> [left; right] <;> omega

theorem State.rxd_setRxd_other {s : State} {i j : Nat} {f g : RxField} (v : Nat) (h : i ≠ j ∨ f ≠ g)
    (hd : 16 ≤ s.cfg.descSize) (hi : s.rxdBase i + 16 ≤ addrSpace) (hj : s.rxdBase j + 16 ≤ addrSpace) :
    (s.setRxd i f v).rxd j g = s.rxd j g := by
  have hf := f.width_le
  have hg := g.width_le
  refine Mem.read_write_disjoint s.mem (s.rxdBase i + f.offset) f.width v (s.rxdBase j + g.offset) g.width
    (by omega) (by omega) ?_
  by_cases hij : i = j
  · subst hij
    rcases RxField.disjoint (h.resolve_left (fun e => e rfl)) with h | h <;> [left; right] <;> omega
  · unfold State.rxdBase rxdAt
    rcases Config.slot_apart (d := s.cfg.descSize) hij with h | h <;> [left; right] <;> omega

end Sys2Proof.Machine
end

