-- ==== Sys2Proof/Laws/Meanings.lean ====
section
/-! SUPPORT. One spec lemma per shared operation and per meaning: everything it can do, said once ("if it answers next
t, then ..."), for proofs to cite instead of unfolding it. -/

namespace Sys2Proof.Machine

/-! ### Endings -/

theorem settle_cases {s t : State} {e : Except Refuse State} (h : settle s e = .next t) :
    e = .ok t ∨ ∃ r, e = .error r ∧ t = s.refuse r := by
  cases e with
  | ok u => simp only [settle, Host.Outcome.next.injEq] at h; exact .inl (h ▸ rfl)
  | error r => simp only [settle, Host.Outcome.next.injEq] at h; exact .inr ⟨r, rfl, h.symm⟩

theorem settle_isNext (s : State) (e : Except Refuse State) : ∃ t, settle s e = .next t := by
  cases e <;> exact ⟨_, rfl⟩

@[simp] theorem settle_ok (s t : State) : settle s (.ok t) = .next t := rfl
@[simp] theorem settle_error (s : State) (r : Refuse) : settle s (.error r) = .next (s.refuse r) := rfl

theorem State.swBlocked_eq_none {s : State} : s.swBlocked = none ↔ s.SwReady := by
  unfold State.swBlocked State.SwReady
  cases h : s.attachFailed <;> cases h3 : s.attached <;> by_cases h2 : s.sw = .idle <;> simp [h2]

theorem State.SwReady.swBlocked {s : State} (h : s.SwReady) : s.swBlocked = none := State.swBlocked_eq_none.2 h

theorem State.busBlocked_eq_none {s : State} : s.busBlocked = none ↔ s.BusReady := by
  unfold State.busBlocked State.BusReady
  cases h : s.attachFailed <;> cases h3 : s.attached <;> cases h2 : s.sw <;> simp

theorem State.BusReady.busBlocked {s : State} (h : s.BusReady) : s.busBlocked = none := State.busBlocked_eq_none.2 h

/-- SW between two driver operations of an attached block may access the bus. -/
theorem State.SwReady.busReady {s : State} (h : s.SwReady) : s.BusReady := ⟨h.2.2, .inl ⟨h.2.1, h.1⟩⟩

/-! ### Register accesses -/

theorem busRead_ready {s : State} (r : Reg) (h : s.busBlocked = none) :
    busRead r s = .next { s with busData := s.reg r } := by simp [busRead, h]

theorem busRead_cases {s t : State} {r : Reg} (h : busRead r s = .next t) :
    (s.busBlocked = none ∧ t = { s with busData := s.reg r }) ∨ ∃ e, t = s.refuse e := by
  unfold busRead at h
  split at h
  · exact .inr ⟨_, (Host.Outcome.next.inj h).symm⟩
  · next hn => exact .inl ⟨hn, (Host.Outcome.next.inj h).symm⟩

theorem busWrite_ready {s : State} {w : State → Except Refuse State} (h : s.busBlocked = none) :
    busWrite w s = settle s (w s) := by simp [busWrite, h]

theorem busWrite_cases {s t : State} {w : State → Except Refuse State} (h : busWrite w s = .next t) :
    (s.busBlocked = none ∧ w s = .ok t) ∨ ∃ e, t = s.refuse e := by
  unfold busWrite at h
  split at h
  · exact .inr ⟨_, (Host.Outcome.next.inj h).symm⟩
  · next hn =>
    rcases settle_cases h with h | ⟨r, -, h⟩
    · exact .inl ⟨hn, h⟩
    · exact .inr ⟨r, h⟩

theorem writeTctl_iff {s t : State} {v : Word} : writeTctl v s = .ok t ↔
    (v &&& reservedBits s.cfg.layout.tctlFields = 0 ∧ (txEnBit s.cfg.layout v = true → s.txProgrammed = true) ∧
    ((s.attached && s.txEnabled) = true → txEnBit s.cfg.layout v = true)) ∧ t = s.setReg .tctl v := by
  unfold writeTctl; grind

theorem writeTipg_iff {s t : State} {v : Word} : writeTipg v s = .ok t ↔
    (v &&& reservedBits s.cfg.layout.tipgFields = 0) ∧ t = s.setReg .tipg v := by
  unfold writeTipg; grind

theorem writeTdbal_iff {s t : State} {v : Word} : writeTdbal v s = .ok t ↔
    (s.txEnabled = false ∧ baseAligned s.cfg v = true) ∧ t = s.setReg .tdbal v := by
  unfold writeTdbal; grind

theorem writeTdbah_iff {s t : State} {v : Word} : writeTdbah v s = .ok t ↔
    (s.txEnabled = false) ∧ t = s.setReg .tdbah v := by
  unfold writeTdbah; grind

theorem writeTdlen_iff {s t : State} {v : Word} : writeTdlen v s = .ok t ↔
    (s.txEnabled = false ∧ v = ringLength s.cfg s.cfg.nTx) ∧ t = s.setReg .tdlen v := by
  unfold writeTdlen; grind

theorem writeTdh_iff {s t : State} {v : Word} : writeTdh v s = .ok t ↔
    (s.txEnabled = false ∧ s.attached = false ∧ v = 0) ∧ t = s.setReg .tdh v := by
  unfold writeTdh; grind

theorem writeTdt_iff {s t : State} {v : Word} : writeTdt v s = .ok t ↔
    (v.toNat < s.cfg.nTx) ∧ t = s.setReg .tdt v := by
  unfold writeTdt; grind

theorem writeRctl_iff {s t : State} {v : Word} : writeRctl v s = .ok t ↔
    (bsize s.cfg.layout v = s.cfg.bsizeCode ∧ v &&& reservedBits s.cfg.layout.rctlFields = 0 ∧ (rxEnBit s.cfg.layout v = true → s.rxProgrammed = true) ∧
    ((s.attached && s.rxEnabled) = true → rxEnBit s.cfg.layout v = true)) ∧ t = s.setReg .rctl v := by
  unfold writeRctl; grind

theorem writeRdbal_iff {s t : State} {v : Word} : writeRdbal v s = .ok t ↔
    (s.rxEnabled = false ∧ baseAligned s.cfg v = true) ∧ t = s.setReg .rdbal v := by
  unfold writeRdbal; grind

theorem writeRdbah_iff {s t : State} {v : Word} : writeRdbah v s = .ok t ↔
    (s.rxEnabled = false) ∧ t = s.setReg .rdbah v := by
  unfold writeRdbah; grind

theorem writeRdlen_iff {s t : State} {v : Word} : writeRdlen v s = .ok t ↔
    (s.rxEnabled = false ∧ v = ringLength s.cfg s.cfg.nRx) ∧ t = s.setReg .rdlen v := by
  unfold writeRdlen; grind

theorem writeRdh_iff {s t : State} {v : Word} : writeRdh v s = .ok t ↔
    (s.rxEnabled = false ∧ s.attached = false ∧ v = 0) ∧ t = s.setReg .rdh v := by
  unfold writeRdh; grind

theorem writeRdt_iff {s t : State} {v : Word} : writeRdt v s = .ok t ↔
    (v.toNat < s.cfg.nRx) ∧ t = s.setReg .rdt v := by
  unfold writeRdt; grind

theorem writeRal_iff {s t : State} {v : Word} : writeRal v s = .ok t ↔
    (s.attached = false ∧ s.station = .none) ∧ t = { s.setReg .ral v with station := .ral } := by
  unfold writeRal; grind

theorem writeRah_iff {s t : State} {v : Word} : writeRah v s = .ok t ↔
    (v &&& reservedBits s.cfg.layout.rahFields = 0 ∧ s.attached = false ∧ s.station = .ral) ∧
    t = { s.setReg .rah v with station := .both } := by
  unfold writeRah; grind

theorem writeEerd_iff {s t : State} {v : Word} : writeEerd v s = .ok t ↔
    (v &&& reservedBits (eerdWriteFields s.cfg.layout) = 0 ∧ eerdStart s.cfg.layout v = 1 ∧ s.eePending = none) ∧
    t = { s.setReg .eerd (eerdReading s.cfg.layout (eerdAddr s.cfg.layout v) (Config.draw16 s.draws)) with
      eePending := some (eerdAddr s.cfg.layout v), draws := s.draws + 1 } := by
  unfold writeEerd; grind

/-! ### The writes of the ring operations, field by field -/

@[simp] theorem State.armSlot_cfg (s : State) (len : Nat) (payload : Frame) : (s.armSlot len payload).cfg = s.cfg := rfl
@[simp] theorem State.armSlot_regs (s : State) (len : Nat) (payload : Frame) : (s.armSlot len payload).regs = s.regs.set .tdt (indexWord (nextIndex s.txTail s.cfg.nTx)) := rfl
@[simp] theorem State.armSlot_txTail (s : State) (len : Nat) (payload : Frame) : (s.armSlot len payload).txTail = nextIndex s.txTail s.cfg.nTx := rfl
@[simp] theorem State.armSlot_rxTail (s : State) (len : Nat) (payload : Frame) : (s.armSlot len payload).rxTail = s.rxTail := rfl
@[simp] theorem State.armSlot_txPending (s : State) (len : Nat) (payload : Frame) : (s.armSlot len payload).txPending = s.txPending := rfl
@[simp] theorem State.armSlot_eePending (s : State) (len : Nat) (payload : Frame) : (s.armSlot len payload).eePending = s.eePending := rfl
@[simp] theorem State.armSlot_wireOut (s : State) (len : Nat) (payload : Frame) : (s.armSlot len payload).wireOut = s.wireOut := rfl
@[simp] theorem State.armSlot_wireIn (s : State) (len : Nat) (payload : Frame) : (s.armSlot len payload).wireIn = s.wireIn := rfl
@[simp] theorem State.armSlot_toStack (s : State) (len : Nat) (payload : Frame) : (s.armSlot len payload).toStack = s.toStack := rfl
@[simp] theorem State.armSlot_fromStack (s : State) (len : Nat) (payload : Frame) : (s.armSlot len payload).fromStack = s.fromStack := rfl
@[simp] theorem State.armSlot_stackHeld (s : State) (len : Nat) (payload : Frame) : (s.armSlot len payload).stackHeld = s.stackHeld := rfl
@[simp] theorem State.armSlot_delivered (s : State) (len : Nat) (payload : Frame) : (s.armSlot len payload).delivered = s.delivered := rfl
@[simp] theorem State.armSlot_ibPhase (s : State) (len : Nat) (payload : Frame) : (s.armSlot len payload).ibPhase = s.ibPhase := rfl
@[simp] theorem State.armSlot_obPhase (s : State) (len : Nat) (payload : Frame) : (s.armSlot len payload).obPhase = s.obPhase := rfl
@[simp] theorem State.armSlot_attached (s : State) (len : Nat) (payload : Frame) : (s.armSlot len payload).attached = s.attached := rfl
@[simp] theorem State.armSlot_ibFatal (s : State) (len : Nat) (payload : Frame) : (s.armSlot len payload).ibFatal = s.ibFatal := rfl
@[simp] theorem State.armSlot_obFatal (s : State) (len : Nat) (payload : Frame) : (s.armSlot len payload).obFatal = s.obFatal := rfl
@[simp] theorem State.armSlot_refused (s : State) (len : Nat) (payload : Frame) : (s.armSlot len payload).refused = s.refused := rfl
@[simp] theorem State.armSlot_sw (s : State) (len : Nat) (payload : Frame) : (s.armSlot len payload).sw = s.sw := rfl
@[simp] theorem State.armSlot_attachFailed (s : State) (len : Nat) (payload : Frame) : (s.armSlot len payload).attachFailed = s.attachFailed := rfl
@[simp] theorem State.armSlot_collab (s : State) (len : Nat) (payload : Frame) : (s.armSlot len payload).collab = s.collab := rfl
@[simp] theorem State.armSlot_farPages (s : State) (len : Nat) (payload : Frame) : (s.armSlot len payload).farPages = s.farPages := rfl
@[simp] theorem State.armSlot_station (s : State) (len : Nat) (payload : Frame) : (s.armSlot len payload).station = s.station := rfl
@[simp] theorem State.armSlot_busData (s : State) (len : Nat) (payload : Frame) : (s.armSlot len payload).busData = s.busData := rfl
@[simp] theorem State.armSlot_outBuffer (s : State) (len : Nat) (payload : Frame) : (s.armSlot len payload).outBuffer = s.outBuffer := rfl
@[simp] theorem State.armSlot_results (s : State) (len : Nat) (payload : Frame) : (s.armSlot len payload).results = s.results := rfl
@[simp] theorem State.armSlot_draws (s : State) (len : Nat) (payload : Frame) : (s.armSlot len payload).draws = s.draws := rfl
@[simp] theorem State.armSlot_schedule (s : State) (len : Nat) (payload : Frame) : (s.armSlot len payload).schedule = s.schedule := rfl

@[simp] theorem State.drainSlot_cfg (s : State) (c : Nat) : (s.drainSlot c).cfg = s.cfg := rfl
@[simp] theorem State.drainSlot_regs (s : State) (c : Nat) : (s.drainSlot c).regs = s.regs.set .rdt (indexWord c) := rfl
@[simp] theorem State.drainSlot_txTail (s : State) (c : Nat) : (s.drainSlot c).txTail = s.txTail := rfl
@[simp] theorem State.drainSlot_rxTail (s : State) (c : Nat) : (s.drainSlot c).rxTail = c := rfl
@[simp] theorem State.drainSlot_txPending (s : State) (c : Nat) : (s.drainSlot c).txPending = s.txPending := rfl
@[simp] theorem State.drainSlot_eePending (s : State) (c : Nat) : (s.drainSlot c).eePending = s.eePending := rfl
@[simp] theorem State.drainSlot_wireOut (s : State) (c : Nat) : (s.drainSlot c).wireOut = s.wireOut := rfl
@[simp] theorem State.drainSlot_wireIn (s : State) (c : Nat) : (s.drainSlot c).wireIn = s.wireIn := rfl
@[simp] theorem State.drainSlot_toStack (s : State) (c : Nat) : (s.drainSlot c).toStack = s.toStack := rfl
@[simp] theorem State.drainSlot_fromStack (s : State) (c : Nat) : (s.drainSlot c).fromStack = s.fromStack := rfl
@[simp] theorem State.drainSlot_stackHeld (s : State) (c : Nat) : (s.drainSlot c).stackHeld = s.stackHeld := rfl
@[simp] theorem State.drainSlot_delivered (s : State) (c : Nat) : (s.drainSlot c).delivered = s.delivered := rfl
@[simp] theorem State.drainSlot_ibPhase (s : State) (c : Nat) : (s.drainSlot c).ibPhase = s.ibPhase := rfl
@[simp] theorem State.drainSlot_obPhase (s : State) (c : Nat) : (s.drainSlot c).obPhase = s.obPhase := rfl
@[simp] theorem State.drainSlot_attached (s : State) (c : Nat) : (s.drainSlot c).attached = s.attached := rfl
@[simp] theorem State.drainSlot_ibFatal (s : State) (c : Nat) : (s.drainSlot c).ibFatal = s.ibFatal := rfl
@[simp] theorem State.drainSlot_obFatal (s : State) (c : Nat) : (s.drainSlot c).obFatal = s.obFatal := rfl
@[simp] theorem State.drainSlot_refused (s : State) (c : Nat) : (s.drainSlot c).refused = s.refused := rfl
@[simp] theorem State.drainSlot_sw (s : State) (c : Nat) : (s.drainSlot c).sw = s.sw := rfl
@[simp] theorem State.drainSlot_attachFailed (s : State) (c : Nat) : (s.drainSlot c).attachFailed = s.attachFailed := rfl
@[simp] theorem State.drainSlot_collab (s : State) (c : Nat) : (s.drainSlot c).collab = s.collab := rfl
@[simp] theorem State.drainSlot_farPages (s : State) (c : Nat) : (s.drainSlot c).farPages = s.farPages := rfl
@[simp] theorem State.drainSlot_station (s : State) (c : Nat) : (s.drainSlot c).station = s.station := rfl
@[simp] theorem State.drainSlot_busData (s : State) (c : Nat) : (s.drainSlot c).busData = s.busData := rfl
@[simp] theorem State.drainSlot_outBuffer (s : State) (c : Nat) : (s.drainSlot c).outBuffer = s.outBuffer := rfl
@[simp] theorem State.drainSlot_results (s : State) (c : Nat) : (s.drainSlot c).results = s.results := rfl
@[simp] theorem State.drainSlot_draws (s : State) (c : Nat) : (s.drainSlot c).draws = s.draws := rfl
@[simp] theorem State.drainSlot_schedule (s : State) (c : Nat) : (s.drainSlot c).schedule = s.schedule := rfl

@[simp] theorem State.depositInto_cfg (s : State) (h : Nat) (f : Frame) : (s.depositInto h f).cfg = s.cfg := rfl
@[simp] theorem State.depositInto_regs (s : State) (h : Nat) (f : Frame) : (s.depositInto h f).regs = s.regs := rfl
@[simp] theorem State.depositInto_txTail (s : State) (h : Nat) (f : Frame) : (s.depositInto h f).txTail = s.txTail := rfl
@[simp] theorem State.depositInto_rxTail (s : State) (h : Nat) (f : Frame) : (s.depositInto h f).rxTail = s.rxTail := rfl
@[simp] theorem State.depositInto_txPending (s : State) (h : Nat) (f : Frame) : (s.depositInto h f).txPending = s.txPending := rfl
@[simp] theorem State.depositInto_eePending (s : State) (h : Nat) (f : Frame) : (s.depositInto h f).eePending = s.eePending := rfl
@[simp] theorem State.depositInto_wireOut (s : State) (h : Nat) (f : Frame) : (s.depositInto h f).wireOut = s.wireOut := rfl
@[simp] theorem State.depositInto_wireIn (s : State) (h : Nat) (f : Frame) : (s.depositInto h f).wireIn = s.wireIn := rfl
@[simp] theorem State.depositInto_toStack (s : State) (h : Nat) (f : Frame) : (s.depositInto h f).toStack = s.toStack := rfl
@[simp] theorem State.depositInto_fromStack (s : State) (h : Nat) (f : Frame) : (s.depositInto h f).fromStack = s.fromStack := rfl
@[simp] theorem State.depositInto_stackHeld (s : State) (h : Nat) (f : Frame) : (s.depositInto h f).stackHeld = s.stackHeld := rfl
@[simp] theorem State.depositInto_delivered (s : State) (h : Nat) (f : Frame) : (s.depositInto h f).delivered = s.delivered := rfl
@[simp] theorem State.depositInto_ibPhase (s : State) (h : Nat) (f : Frame) : (s.depositInto h f).ibPhase = s.ibPhase := rfl
@[simp] theorem State.depositInto_obPhase (s : State) (h : Nat) (f : Frame) : (s.depositInto h f).obPhase = s.obPhase := rfl
@[simp] theorem State.depositInto_attached (s : State) (h : Nat) (f : Frame) : (s.depositInto h f).attached = s.attached := rfl
@[simp] theorem State.depositInto_ibFatal (s : State) (h : Nat) (f : Frame) : (s.depositInto h f).ibFatal = s.ibFatal := rfl
@[simp] theorem State.depositInto_obFatal (s : State) (h : Nat) (f : Frame) : (s.depositInto h f).obFatal = s.obFatal := rfl
@[simp] theorem State.depositInto_refused (s : State) (h : Nat) (f : Frame) : (s.depositInto h f).refused = s.refused := rfl
@[simp] theorem State.depositInto_sw (s : State) (h : Nat) (f : Frame) : (s.depositInto h f).sw = s.sw := rfl
@[simp] theorem State.depositInto_attachFailed (s : State) (h : Nat) (f : Frame) : (s.depositInto h f).attachFailed = s.attachFailed := rfl
@[simp] theorem State.depositInto_collab (s : State) (h : Nat) (f : Frame) : (s.depositInto h f).collab = s.collab := rfl
@[simp] theorem State.depositInto_farPages (s : State) (h : Nat) (f : Frame) : (s.depositInto h f).farPages = s.farPages := rfl
@[simp] theorem State.depositInto_station (s : State) (h : Nat) (f : Frame) : (s.depositInto h f).station = s.station := rfl
@[simp] theorem State.depositInto_busData (s : State) (h : Nat) (f : Frame) : (s.depositInto h f).busData = s.busData := rfl
@[simp] theorem State.depositInto_outBuffer (s : State) (h : Nat) (f : Frame) : (s.depositInto h f).outBuffer = s.outBuffer := rfl
@[simp] theorem State.depositInto_results (s : State) (h : Nat) (f : Frame) : (s.depositInto h f).results = s.results := rfl
@[simp] theorem State.depositInto_draws (s : State) (h : Nat) (f : Frame) : (s.depositInto h f).draws = s.draws + 4 := rfl
@[simp] theorem State.depositInto_schedule (s : State) (h : Nat) (f : Frame) : (s.depositInto h f).schedule = s.schedule := rfl

/-- The memory a successful TRANSMIT leaves, store by store (R200). -/
theorem State.armSlot_mem (s : State) (len : Nat) (payload : Frame) :
    (s.armSlot len payload).mem =
      let a := s.txdBase s.txTail
      let m1 := Mem.writeBytes s.mem (s.cfg.txBufBase s.txTail).toNat payload
      let m2 := Mem.write m1 (a + 8) 2 len
      let m3 := Mem.write m2 (a + 12) 1 (clearFlag s.cfg.layout.txDone (BitVec.ofNat 8 (Mem.read m2 (a + 12) 1))).toNat
      Mem.write m3 (a + 11) 1 (armCmd s.cfg.layout (BitVec.ofNat 8 (Mem.read m3 (a + 11) 1))).toNat := rfl

/-- TRANSMIT stores into the slot's buffer, its length, its command and its status, and nowhere else. -/
theorem State.armSlot_get_outside (s : State) (len : Nat) (payload : Frame) (b : Nat)
    (h1 : Mem.Outside (s.cfg.txBufBase s.txTail).toNat payload.length b)
    (h2 : Mem.Outside (s.txdBase s.txTail + 8) 2 b) (h3 : Mem.Outside (s.txdBase s.txTail + 11) 2 b) :
    Mem.get (s.armSlot len payload).mem b = Mem.get s.mem b := by
  have h4 : Mem.Outside (s.txdBase s.txTail + 12) 1 b := fun k hk => by
    have := h3 (k + 1) (by omega)
    rwa [show s.txdBase s.txTail + 11 + (k + 1) = s.txdBase s.txTail + 12 + k by omega] at this
  have h5 : Mem.Outside (s.txdBase s.txTail + 11) 1 b := fun k hk => h3 k (by omega)
  rw [State.armSlot_mem]
  simp only
  rw [Mem.get_write_outside _ _ _ _ _ h5, Mem.get_write_outside _ _ _ _ _ h4,
    Mem.get_write_outside _ _ _ _ _ h2, Mem.get_writeBytes_outside _ _ _ _ h1]

/-- The memory a successful RECEIVE leaves (R230). -/
theorem State.drainSlot_mem (s : State) (c : Nat) : (s.drainSlot c).mem =
    Mem.write s.mem (s.rxdBase c + 12) 1 (clearFlag s.cfg.layout.rxDone (s.rxStatus c)).toNat := rfl

theorem State.drainSlot_get_outside (s : State) (c b : Nat) (h : Mem.Outside (s.rxdBase c + 12) 1 b) :
    Mem.get (s.drainSlot c).mem b = Mem.get s.mem b := Mem.get_write_outside _ _ _ _ _ h

/-- The memory a deposit leaves, store by store (R234). -/
theorem State.depositInto_mem (s : State) (h : Nat) (f : Frame) : (s.depositInto h f).mem =
    let a := s.rxdBase h
    let m1 := Mem.writeBytes s.mem (s.rxd h .addr) f
    let m2 := Mem.write m1 (a + 8) 2 f.length
    let m3 := Mem.write m2 (a + 10) 2 (Config.draw16 s.draws).toNat
    let m4 := Mem.write m3 (a + 13) 1 (Config.draw8 (s.draws + 1)).toNat
    let m5 := Mem.write m4 (a + 14) 2 (Config.draw16 (s.draws + 2)).toNat
    Mem.write m5 (a + 12) 1 (engineStatus s.cfg.layout.rxDone (Config.draw8 (s.draws + 3))).toNat := rfl

/-- A deposit stores into the bound buffer and into bytes 8 to 15 of the slot's descriptor, and nowhere else. -/
theorem State.depositInto_get_outside (s : State) (h : Nat) (f : Frame) (b : Nat)
    (h1 : Mem.Outside (s.rxd h .addr) f.length b) (h2 : Mem.Outside (s.rxdBase h + 8) 8 b) :
    Mem.get (s.depositInto h f).mem b = Mem.get s.mem b := by
  have sub : ∀ o n, o + n ≤ 8 → Mem.Outside (s.rxdBase h + (8 + o)) n b := fun o n ho k hk => by
    have := h2 (o + k) (by omega)
    rwa [show s.rxdBase h + 8 + (o + k) = s.rxdBase h + (8 + o) + k by omega] at this
  rw [State.depositInto_mem]
  simp only
  rw [Mem.get_write_outside _ _ _ _ _ (sub 4 1 (by omega)), Mem.get_write_outside _ _ _ _ _ (sub 6 2 (by omega)),
    Mem.get_write_outside _ _ _ _ _ (sub 5 1 (by omega)), Mem.get_write_outside _ _ _ _ _ (sub 2 2 (by omega)),
    Mem.get_write_outside _ _ _ _ _ (sub 0 2 (by omega)), Mem.get_writeBytes_outside _ _ _ _ h1]

/-! ### The ring operations -/

/-- Everything TRANSMIT can do: two errors that change nothing but the list of results, or the armed slot. -/
theorem transmitOp_cases {len : Nat} {payload : Frame} {s t : State} {e : Option ErrKind}
    (h : transmitOp len payload s = .ok (e, t)) :
    s.SwReady ∧
    ((s.cfg.maxFrameLen < len ∧ e = some .payloadTooLarge ∧ t = s.returns .transmit (.err .payloadTooLarge)) ∨
     (len ≤ s.cfg.maxFrameLen ∧ s.txTail < s.cfg.nTx ∧ s.txFlag s.txTail = false ∧ e = some .queueFull ∧
       t = s.returns .transmit (.err .queueFull)) ∨
     (len ≤ s.cfg.maxFrameLen ∧ s.txTail < s.cfg.nTx ∧ s.txFlag s.txTail = true ∧ e = none ∧
       t = (s.armSlot len payload).returns .transmit .ok)) := by
  unfold transmitOp at h
  split at h
  · cases h
  · next hb =>
    refine ⟨State.swBlocked_eq_none.1 hb, ?_⟩
    split at h
    · next h1 => cases h; exact .inl ⟨h1, rfl, rfl⟩
    · next h1 =>
      split at h
      · cases h
      · next h2 =>
        split at h
        · next h3 => cases h; exact .inr (.inl ⟨by omega, by omega, by simpa using h3, rfl, rfl⟩)
        · next h3 => cases h; exact .inr (.inr ⟨by omega, by omega, by simpa using h3, rfl, rfl⟩)

/-- Everything RECEIVE can do: `QueueEmpty`, or the frame of the candidate slot and the slot given back. -/
theorem receiveOp_cases {out : List Byte} {s t : State} {r : Option (Nat × List Byte)}
    (h : receiveOp out s = .ok (r, t)) :
    s.SwReady ∧ s.cfg.rxBufSize ≤ out.length ∧ s.rxTail < s.cfg.nRx ∧
    ((s.rxFlag s.rxCandidate = false ∧ r = none ∧ t = s.returns .receive (.err .queueEmpty)) ∨
     (s.rxFlag s.rxCandidate = true ∧ s.rxd s.rxCandidate .length ≤ s.cfg.rxBufSize ∧
       r = some (s.rxd s.rxCandidate .length,
         s.rxFrame s.rxCandidate ++ out.drop (s.rxd s.rxCandidate .length)) ∧
       t = (s.drainSlot s.rxCandidate).returns .receive (.okCount (s.rxd s.rxCandidate .length)))) := by
  unfold receiveOp at h
  split at h
  · cases h
  · next hb =>
    split at h
    · cases h
    · next h0 =>
      split at h
      · cases h
      · next h1 =>
        refine ⟨State.swBlocked_eq_none.1 hb, by omega, by omega, ?_⟩
        simp only at h
        split at h
        · next h2 => cases h; exact .inl ⟨by simpa using h2, rfl, rfl⟩
        · next h2 =>
          split at h
          · cases h
          · next h3 => cases h; exact .inr ⟨by simpa using h2, by omega, rfl, rfl⟩

/-- TX_FETCH does nothing, is refused, or passes one armed slot. -/
theorem execTxFetch_cases {s t : State} (h : execTxFetch s = .next t) :
    t = s ∨ (∃ r, t = s.refuse r) ∨
    (s.txEnabled = true ∧ s.tdh < s.cfg.nTx ∧ s.tdt < s.cfg.nTx ∧ s.txArmed = true ∧ s.txRingSize ≠ 0 ∧
      s.txCmd s.tdh = cmdReportEop s.cfg.layout ∧
      t = { s.setReg .tdh (indexWord (nextIndex s.tdh s.txRingSize)) with txPending := s.txPending + 1 }) := by
  unfold execTxFetch at h
  split at h
  · exact .inl (Host.Outcome.next.inj h).symm
  · next h1 =>
    split at h
    · exact .inr (.inl ⟨_, (Host.Outcome.next.inj h).symm⟩)
    · next h2 =>
      split at h
      · exact .inl (Host.Outcome.next.inj h).symm
      · next h3 =>
        split at h
        · cases h
        · next h4 =>
          split at h
          · exact .inr (.inl ⟨_, (Host.Outcome.next.inj h).symm⟩)
          · next h5 =>
            exact .inr (.inr ⟨by simpa using h1, by omega, by omega, by simpa using h3, h4, by simpa using h5,
              (Host.Outcome.next.inj h).symm⟩)

/-- TX_COMPLETE does nothing, is refused, or sends the oldest fetched slot. -/
theorem execTxComplete_cases {s t : State} (h : execTxComplete s = .next t) :
    t = s ∨ (∃ r, t = s.refuse r) ∨
    (s.txPending ≠ 0 ∧ s.tdh < s.cfg.nTx ∧ s.txRingSize ≠ 0 ∧
      t = { s.setTxd s.txOldest .status (engineStatus s.cfg.layout.txDone (Config.draw8 s.draws)).toNat with
        wireOut := s.wireOut ++ [s.txFrame s.txOldest]
        txPending := s.txPending - 1
        draws := s.draws + 1 }) := by
  unfold execTxComplete at h; grind

/-- RX_DEPOSIT does nothing, is refused, or puts the first frame into the offered slot. -/
theorem execRxDeposit_cases {s t : State} (h : execRxDeposit s = .next t) :
    t = s ∨ (∃ r, t = s.refuse r) ∨
    (∃ f rest, s.wireIn = f :: rest ∧ s.rxEnabled = true ∧ s.rdh < s.cfg.nRx ∧ s.rxOffered = true ∧
      s.cfg.rxMinLen ≤ f.length ∧ f.length ≤ s.cfg.rxBufSize ∧ s.rxRingSize ≠ 0 ∧
      t = ({ s with wireIn := rest }.depositInto s.rdh f).setReg .rdh
        (indexWord (nextIndex s.rdh s.rxRingSize))) := by
  unfold execRxDeposit at h
  grind

/-- An offered slot's flag is clear, under either offering rule (R234, R239 b). -/
theorem State.rxOffered_flag {s : State} (h : s.rxOffered = true) : s.rxFlag s.rdh = false := by
  unfold State.rxOffered at h
  grind

/-- Everything one iteration of the input bridge can do. -/
theorem execInBridgeIter_cases {s t : State} (h : execInBridgeIter s = .next t) :
    t = s ∨ (∃ r, t = s.refuse r) ∨
    (s.ibPhase = .acquire ∧ s.ibFatal = none ∧ s.acquire = none ∧ t = s.raise .ib (.fatalIoError .acquireFailed)) ∨
    (∃ buf, s.ibPhase = .acquire ∧ s.ibFatal = none ∧ s.acquire = some buf ∧ t = { s with ibPhase := .polling buf }) ∨
    (∃ buf r u, s.ibPhase = .polling buf ∧ s.ibFatal = none ∧
      receiveOp (pageData s.cfg (s.msgPage buf)) s = .ok (r, u) ∧
      ((r = none ∧ t = u) ∨
       ∃ n data, r = some (n, data) ∧
        (t = (u.fillMsg buf n data).raise .ib (.fatalIoError .sendFailed) ∨
         t = { (u.fillMsg buf n data).sendToStack buf with ibPhase := .acquire }))) := by
  unfold execInBridgeIter at h
  split at h
  · exact .inr (.inl ⟨_, (Host.Outcome.next.inj h).symm⟩)
  · split at h
    · exact .inl (Host.Outcome.next.inj h).symm
    · next hf =>
      have hf : s.ibFatal = none := by simpa using hf
      split at h
      · next hp =>
        split at h
        · next ha => exact .inr (.inr (.inl ⟨hp, hf, ha, (Host.Outcome.next.inj h).symm⟩))
        · next b ha => exact .inr (.inr (.inr (.inl ⟨b, hp, hf, ha, (Host.Outcome.next.inj h).symm⟩)))
      · next buf hp =>
        split at h
        · exact .inr (.inl ⟨_, (Host.Outcome.next.inj h).symm⟩)
        · next u he =>
          exact .inr (.inr (.inr (.inr ⟨buf, _, u, hp, hf, he, .inl ⟨rfl, (Host.Outcome.next.inj h).symm⟩⟩)))
        · next n data u he =>
          refine .inr (.inr (.inr (.inr ⟨buf, _, u, hp, hf, he, .inr ⟨n, data, rfl, ?_⟩⟩)))
          simp only at h
          split at h
          · exact .inl (Host.Outcome.next.inj h).symm
          · exact .inr (Host.Outcome.next.inj h).symm

/-- Everything one iteration of the output bridge can do. -/
theorem execOutBridgeIter_cases {s t : State} (h : execOutBridgeIter s = .next t) :
    t = s ∨ (∃ r, t = s.refuse r) ∨
    (s.obFatal = none ∧ t = s.raise .ob (.fatalIoError .recvFailed)) ∨
    (∃ msg rest, s.obPhase = .waiting ∧ s.obFatal = none ∧ s.fromStack = msg :: rest ∧
      ((msg.tag = .outputRequest ∧ t = { s with fromStack := rest, obPhase := .sending msg.buf }) ∨
       (msg.tag ≠ .outputRequest ∧ t = { s with fromStack := rest }.raise .ob (.protocolViolation msg.tag)))) ∨
    (∃ buf e u, s.obPhase = .sending buf ∧ s.obFatal = none ∧
      transmitOp (s.msgLen buf) (s.msgFrame buf) s = .ok (e, u) ∧
      ((e = none ∧ t = { u with obPhase := .waiting }) ∨ (e = some .queueFull ∧ t = u) ∨
       ∃ k, e = some k ∧ k ≠ .queueFull ∧ t = u.raise .ob (.fatalIoError (.transmitError k)))) := by
  unfold execOutBridgeIter at h
  split at h
  · exact .inr (.inl ⟨_, (Host.Outcome.next.inj h).symm⟩)
  · split at h
    · exact .inl (Host.Outcome.next.inj h).symm
    · next hf =>
      have hf : s.obFatal = none := by simpa using hf
      split at h
      · next hp =>
        split at h
        · exact .inr (.inr (.inl ⟨hf, (Host.Outcome.next.inj h).symm⟩))
        · split at h
          · exact .inl (Host.Outcome.next.inj h).symm
          · next msg rest hm =>
            refine .inr (.inr (.inr (.inl ⟨msg, rest, hp, hf, hm, ?_⟩)))
            simp only at h
            split at h
            · next ht => exact .inl ⟨ht, (Host.Outcome.next.inj h).symm⟩
            · next ht => exact .inr ⟨ht, (Host.Outcome.next.inj h).symm⟩
      · next buf hp =>
        simp only at h
        split at h
        · exact .inr (.inl ⟨_, (Host.Outcome.next.inj h).symm⟩)
        · split at h
          · exact .inr (.inl ⟨_, (Host.Outcome.next.inj h).symm⟩)
          · next u he =>
            exact .inr (.inr (.inr (.inr ⟨buf, _, u, hp, hf, he, .inl ⟨rfl, (Host.Outcome.next.inj h).symm⟩⟩)))
          · next u he =>
            exact .inr (.inr (.inr (.inr ⟨buf, _, u, hp, hf, he, .inr (.inl ⟨rfl,
              (Host.Outcome.next.inj h).symm⟩)⟩)))
          · next e u hne he =>
            exact .inr (.inr (.inr (.inr ⟨buf, _, u, hp, hf, he, .inr (.inr ⟨e, rfl, by simpa using hne,
              (Host.Outcome.next.inj h).symm⟩)⟩)))

/-- EE_COMPLETE does nothing or answers the pending read. -/
theorem execEeComplete_cases {s t : State} (h : execEeComplete s = .next t) :
    (s.eePending = none ∧ t = s) ∨
    ∃ a, s.eePending = some a ∧
      t = { s.setReg .eerd (setField (setField (s.reg .eerd) s.cfg.layout.eerdData (s.eepromWord a))
        s.cfg.layout.eerdDone 1#1) with eePending := none } := by
  unfold execEeComplete at h
  grind

/-- Every move of ENV. -/
theorem envMove_cases {m : EnvMove} {s t : State} (h : envMove m s = .next t) :
    t = s ∨
    (∃ f, m = .offerFrame f ∧ frameAdmitted s.cfg f = true ∧ t = { s with wireIn := s.wireIn ++ [f] }) ∨
    (∃ tag buf page, m = .stackSend tag buf page ∧ s.attached = true ∧ page.length = s.cfg.pageSize ∧
      (buf ∈ s.stackHeld ∨ s.pageFree buf) ∧ t = { s.setPage buf page with
        fromStack := s.fromStack ++ [⟨tag, buf⟩], stackHeld := s.stackHeld.erase buf }) ∨
    (∃ msg rest, m = .stackTake ∧ s.toStack = msg :: rest ∧
      t = { s with
        toStack := rest, stackHeld := s.stackHeld ++ [msg.buf], delivered := s.delivered ++ [s.msgFrame msg.buf] }) ∨
    (∃ buf, m = .stackRelease buf ∧ buf ∈ s.stackHeld ∧ t = { s with stackHeld := s.stackHeld.erase buf }) ∨
    (∃ c, m = .setCollab c ∧ t = { s with collab := c }) := by
  unfold envMove at h
  grind

end Sys2Proof.Machine
end

