-- ==== Sys2Proof/Laws/Rings.lean ====
section
/-! SUPPORT. What a store into one part of a ring leaves of the others: the regions of a well-formed configuration do
not meet (20_memory.md R71), so a descriptor field, another descriptor and every packet buffer can be told apart. -/

namespace Sys2Proof.Machine

theorem Mem.read_writeBytes_disjoint (m : List Host.Cell) (a b n : Nat) (bs : List Byte)
    (ha : a + bs.length ≤ addrSpace) (hb : b + n ≤ addrSpace) (h : a + bs.length ≤ b ∨ b + n ≤ a) :
    Mem.read (Mem.writeBytes m a bs) b n = Mem.read m b n := by
  unfold Mem.read; rw [Mem.readBytes_writeBytes_disjoint m a b n bs ha hb h]

theorem Mem.readBytes_write_disjoint (m : List Host.Cell) (a n v b k : Nat)
    (ha : a + n ≤ addrSpace) (hb : b + k ≤ addrSpace) (h : a + n ≤ b ∨ b + k ≤ a) :
    Mem.readBytes (Mem.write m a n v) b k = Mem.readBytes m b k :=
  Mem.readBytes_writeBytes_disjoint m a b k _ (by simpa using ha) hb (by simpa using h)

/-! ### Where things lie -/

theorem State.txdBase_add (s : State) (i : Nat) : s.txdBase i = s.cfg.txDescBase.toNat + s.cfg.descSize * i := rfl
theorem State.rxdBase_add (s : State) (i : Nat) : s.rxdBase i = s.cfg.rxDescBase.toNat + s.cfg.descSize * i := rfl

/-- A slot's descriptor, its sixteen bytes of fields inside its array (R111, R112). -/
theorem State.txdBase_inside {s : State} (h : s.cfg.WF) {i : Nat} (hi : i < s.cfg.nTx) :
    s.cfg.txDescBase.toNat ≤ s.txdBase i ∧
      s.txdBase i + 16 ≤ s.cfg.txDescBase.toNat + s.cfg.nTx * s.cfg.descSize := by
  have := Config.slot_end (d := s.cfg.descSize) hi
  have := h.descSize_le
  rw [State.txdBase_add]; omega

theorem State.rxdBase_inside {s : State} (h : s.cfg.WF) {i : Nat} (hi : i < s.cfg.nRx) :
    s.cfg.rxDescBase.toNat ≤ s.rxdBase i ∧
      s.rxdBase i + 16 ≤ s.cfg.rxDescBase.toNat + s.cfg.nRx * s.cfg.descSize := by
  have := Config.slot_end (d := s.cfg.descSize) hi
  have := h.descSize_le
  rw [State.rxdBase_add]; omega

theorem State.txdBase_end {s : State} (h : s.cfg.WF) {i : Nat} (hi : i < s.cfg.nTx) :
    s.txdBase i + 16 ≤ addrSpace := (State.txdBase_inside h hi).2.trans h.txDesc_end

theorem State.rxdBase_end {s : State} (h : s.cfg.WF) {i : Nat} (hi : i < s.cfg.nRx) :
    s.rxdBase i + 16 ≤ addrSpace := (State.rxdBase_inside h hi).2.trans h.rxDesc_end

/-- Ranges inside ranges that do not meet do not meet. -/
theorem disjoint_sub {r q : Region} (h : Region.Disjoint r q) {a n b k : Nat} (ha : r.1 ≤ a ∧ a + n ≤ r.1 + r.2)
    (hb : q.1 ≤ b ∧ b + k ≤ q.1 + q.2) : a + n ≤ b ∨ b + k ≤ a := by
  unfold Region.Disjoint at h; omega

/-- Descriptors of the two rings do not meet. -/
theorem State.txd_rxd_apart {s : State} (h : s.cfg.WF) {i j : Nat} (hi : i < s.cfg.nTx) (hj : j < s.cfg.nRx) :
    s.txdBase i + 16 ≤ s.rxdBase j ∨ s.rxdBase j + 16 ≤ s.txdBase i :=
  disjoint_sub h.txDesc_rxDesc (State.txdBase_inside h hi) (State.rxdBase_inside h hj)

theorem State.txd_txBuf_apart {s : State} (h : s.cfg.WF) {i j : Nat} (hi : i < s.cfg.nTx) (hj : j < s.cfg.nTx) :
    s.txdBase i + 16 ≤ (s.cfg.txBufBase j).toNat ∨
      (s.cfg.txBufBase j).toNat + s.cfg.txBufSize ≤ s.txdBase i :=
  disjoint_sub (h.txDesc_txBuf hj) (State.txdBase_inside h hi) ⟨Nat.le_refl _, Nat.le_refl _⟩

theorem State.txd_rxBuf_apart {s : State} (h : s.cfg.WF) {i j : Nat} (hi : i < s.cfg.nTx) (hj : j < s.cfg.nRx) :
    s.txdBase i + 16 ≤ (s.cfg.rxBufBase j).toNat ∨
      (s.cfg.rxBufBase j).toNat + s.cfg.rxBufSize ≤ s.txdBase i :=
  disjoint_sub (h.txDesc_rxBuf hj) (State.txdBase_inside h hi) ⟨Nat.le_refl _, Nat.le_refl _⟩

theorem State.rxd_txBuf_apart {s : State} (h : s.cfg.WF) {i j : Nat} (hi : i < s.cfg.nRx) (hj : j < s.cfg.nTx) :
    s.rxdBase i + 16 ≤ (s.cfg.txBufBase j).toNat ∨
      (s.cfg.txBufBase j).toNat + s.cfg.txBufSize ≤ s.rxdBase i :=
  disjoint_sub (h.rxDesc_txBuf hj) (State.rxdBase_inside h hi) ⟨Nat.le_refl _, Nat.le_refl _⟩

theorem State.rxd_rxBuf_apart {s : State} (h : s.cfg.WF) {i j : Nat} (hi : i < s.cfg.nRx) (hj : j < s.cfg.nRx) :
    s.rxdBase i + 16 ≤ (s.cfg.rxBufBase j).toNat ∨
      (s.cfg.rxBufBase j).toNat + s.cfg.rxBufSize ≤ s.rxdBase i :=
  disjoint_sub (h.rxDesc_rxBuf hj) (State.rxdBase_inside h hi) ⟨Nat.le_refl _, Nat.le_refl _⟩

/-! ### A store into a transmit descriptor -/

theorem State.setTxd_rxd {s : State} (h : s.cfg.WF) {i j : Nat} (hi : i < s.cfg.nTx) (hj : j < s.cfg.nRx)
    (f : TxField) (g : RxField) (v : Nat) : (s.setTxd i f v).rxd j g = s.rxd j g := by
  have h1 := f.width_le
  have h2 := g.width_le
  have h3 := State.txdBase_end h hi
  have h4 := State.rxdBase_end h hj
  have h5 := State.txd_rxd_apart h hi hj
  exact Mem.read_write_disjoint _ _ _ _ _ _ (by omega) (by show s.rxdBase j + g.offset + g.width ≤ _; omega)
    (by show _ ≤ s.rxdBase j + g.offset ∨ s.rxdBase j + g.offset + g.width ≤ _; omega)

theorem State.setTxd_txBuf {s : State} (h : s.cfg.WF) {i j n : Nat} (hi : i < s.cfg.nTx) (hj : j < s.cfg.nTx)
    (hn : n ≤ s.cfg.txBufSize) (f : TxField) (v : Nat) :
    Mem.readBytes (s.setTxd i f v).mem (s.cfg.txBufBase j).toNat n =
      Mem.readBytes s.mem (s.cfg.txBufBase j).toNat n := by
  have h1 := f.width_le
  have h3 := State.txdBase_end h hi
  have h4 := h.txBuf_end hj
  have h5 := State.txd_txBuf_apart h hi hj
  exact Mem.readBytes_write_disjoint _ _ _ _ _ _ (by omega) (by omega) (by omega)

theorem State.setTxd_rxBuf {s : State} (h : s.cfg.WF) {i j n : Nat} (hi : i < s.cfg.nTx) (hj : j < s.cfg.nRx)
    (hn : n ≤ s.cfg.rxBufSize) (f : TxField) (v : Nat) :
    Mem.readBytes (s.setTxd i f v).mem (s.cfg.rxBufBase j).toNat n =
      Mem.readBytes s.mem (s.cfg.rxBufBase j).toNat n := by
  have h1 := f.width_le
  have h3 := State.txdBase_end h hi
  have h4 := h.rxBuf_end hj
  have h5 := State.txd_rxBuf_apart h hi hj
  exact Mem.readBytes_write_disjoint _ _ _ _ _ _ (by omega) (by omega) (by omega)

/-! ### A store into a receive descriptor -/

theorem State.setRxd_txd {s : State} (h : s.cfg.WF) {i j : Nat} (hi : i < s.cfg.nRx) (hj : j < s.cfg.nTx)
    (f : RxField) (g : TxField) (v : Nat) : (s.setRxd i f v).txd j g = s.txd j g := by
  have h1 := f.width_le
  have h2 := g.width_le
  have h3 := State.rxdBase_end h hi
  have h4 := State.txdBase_end h hj
  have h5 := State.txd_rxd_apart h hj hi
  exact Mem.read_write_disjoint _ _ _ _ _ _ (by omega) (by show s.txdBase j + g.offset + g.width ≤ _; omega)
    (by show _ ≤ s.txdBase j + g.offset ∨ s.txdBase j + g.offset + g.width ≤ _; omega)

theorem State.setRxd_txBuf {s : State} (h : s.cfg.WF) {i j n : Nat} (hi : i < s.cfg.nRx) (hj : j < s.cfg.nTx)
    (hn : n ≤ s.cfg.txBufSize) (f : RxField) (v : Nat) :
    Mem.readBytes (s.setRxd i f v).mem (s.cfg.txBufBase j).toNat n =
      Mem.readBytes s.mem (s.cfg.txBufBase j).toNat n := by
  have h1 := f.width_le
  have h3 := State.rxdBase_end h hi
  have h4 := h.txBuf_end hj
  have h5 := State.rxd_txBuf_apart h hi hj
  exact Mem.readBytes_write_disjoint _ _ _ _ _ _ (by omega) (by omega) (by omega)

theorem State.setRxd_rxBuf {s : State} (h : s.cfg.WF) {i j n : Nat} (hi : i < s.cfg.nRx) (hj : j < s.cfg.nRx)
    (hn : n ≤ s.cfg.rxBufSize) (f : RxField) (v : Nat) :
    Mem.readBytes (s.setRxd i f v).mem (s.cfg.rxBufBase j).toNat n =
      Mem.readBytes s.mem (s.cfg.rxBufBase j).toNat n := by
  have h1 := f.width_le
  have h3 := State.rxdBase_end h hi
  have h4 := h.rxBuf_end hj
  have h5 := State.rxd_rxBuf_apart h hi hj
  exact Mem.readBytes_write_disjoint _ _ _ _ _ _ (by omega) (by omega) (by omega)

/-! ### A store into a packet buffer -/

theorem State.writeTxBuf_txd {s : State} (h : s.cfg.WF) {i j : Nat} {bs : List Byte} (hi : i < s.cfg.nTx)
    (hj : j < s.cfg.nTx) (hl : bs.length ≤ s.cfg.txBufSize) (g : TxField) :
    (s.setMem (Mem.writeBytes s.mem (s.cfg.txBufBase i).toNat bs)).txd j g = s.txd j g := by
  have h2 := g.width_le
  have h3 := State.txdBase_end h hj
  have h4 := h.txBuf_end hi
  have h5 := State.txd_txBuf_apart h hj hi
  exact Mem.read_writeBytes_disjoint _ _ _ _ _ (by omega) (by show s.txdBase j + g.offset + g.width ≤ _; omega)
    (by show _ ≤ s.txdBase j + g.offset ∨ s.txdBase j + g.offset + g.width ≤ _; omega)

theorem State.writeTxBuf_rxd {s : State} (h : s.cfg.WF) {i j : Nat} {bs : List Byte} (hi : i < s.cfg.nTx)
    (hj : j < s.cfg.nRx) (hl : bs.length ≤ s.cfg.txBufSize) (g : RxField) :
    (s.setMem (Mem.writeBytes s.mem (s.cfg.txBufBase i).toNat bs)).rxd j g = s.rxd j g := by
  have h2 := g.width_le
  have h3 := State.rxdBase_end h hj
  have h4 := h.txBuf_end hi
  have h5 := State.rxd_txBuf_apart h hj hi
  exact Mem.read_writeBytes_disjoint _ _ _ _ _ (by omega) (by show s.rxdBase j + g.offset + g.width ≤ _; omega)
    (by show _ ≤ s.rxdBase j + g.offset ∨ s.rxdBase j + g.offset + g.width ≤ _; omega)

theorem State.writeTxBuf_txBuf {s : State} (h : s.cfg.WF) {i j n : Nat} {bs : List Byte} (hi : i < s.cfg.nTx)
    (hj : j < s.cfg.nTx) (hne : i ≠ j) (hl : bs.length ≤ s.cfg.txBufSize) (hn : n ≤ s.cfg.txBufSize) :
    Mem.readBytes (Mem.writeBytes s.mem (s.cfg.txBufBase i).toNat bs) (s.cfg.txBufBase j).toNat n =
      Mem.readBytes s.mem (s.cfg.txBufBase j).toNat n := by
  have h3 := h.txBuf_end hi
  have h4 := h.txBuf_end hj
  have h5 := h.txBuf_txBuf hi hj hne
  simp only [Region.Disjoint, Config.txBufRegion] at h5
  exact Mem.readBytes_writeBytes_disjoint _ _ _ _ _ (by omega) (by omega) (by omega)

theorem State.writeTxBuf_rxBuf {s : State} (h : s.cfg.WF) {i j n : Nat} {bs : List Byte} (hi : i < s.cfg.nTx)
    (hj : j < s.cfg.nRx) (hl : bs.length ≤ s.cfg.txBufSize) (hn : n ≤ s.cfg.rxBufSize) :
    Mem.readBytes (Mem.writeBytes s.mem (s.cfg.txBufBase i).toNat bs) (s.cfg.rxBufBase j).toNat n =
      Mem.readBytes s.mem (s.cfg.rxBufBase j).toNat n := by
  have h3 := h.txBuf_end hi
  have h4 := h.rxBuf_end hj
  have h5 := h.txBuf_rxBuf hi hj
  simp only [Region.Disjoint, Config.txBufRegion, Config.rxBufRegion] at h5
  exact Mem.readBytes_writeBytes_disjoint _ _ _ _ _ (by omega) (by omega) (by omega)

theorem State.writeRxBuf_txd {s : State} (h : s.cfg.WF) {i j : Nat} {bs : List Byte} (hi : i < s.cfg.nRx)
    (hj : j < s.cfg.nTx) (hl : bs.length ≤ s.cfg.rxBufSize) (g : TxField) :
    (s.setMem (Mem.writeBytes s.mem (s.cfg.rxBufBase i).toNat bs)).txd j g = s.txd j g := by
  have h2 := g.width_le
  have h3 := State.txdBase_end h hj
  have h4 := h.rxBuf_end hi
  have h5 := State.txd_rxBuf_apart h hj hi
  exact Mem.read_writeBytes_disjoint _ _ _ _ _ (by omega) (by show s.txdBase j + g.offset + g.width ≤ _; omega)
    (by show _ ≤ s.txdBase j + g.offset ∨ s.txdBase j + g.offset + g.width ≤ _; omega)

theorem State.writeRxBuf_rxd {s : State} (h : s.cfg.WF) {i j : Nat} {bs : List Byte} (hi : i < s.cfg.nRx)
    (hj : j < s.cfg.nRx) (hl : bs.length ≤ s.cfg.rxBufSize) (g : RxField) :
    (s.setMem (Mem.writeBytes s.mem (s.cfg.rxBufBase i).toNat bs)).rxd j g = s.rxd j g := by
  have h2 := g.width_le
  have h3 := State.rxdBase_end h hj
  have h4 := h.rxBuf_end hi
  have h5 := State.rxd_rxBuf_apart h hj hi
  exact Mem.read_writeBytes_disjoint _ _ _ _ _ (by omega) (by show s.rxdBase j + g.offset + g.width ≤ _; omega)
    (by show _ ≤ s.rxdBase j + g.offset ∨ s.rxdBase j + g.offset + g.width ≤ _; omega)

theorem State.writeRxBuf_txBuf {s : State} (h : s.cfg.WF) {i j n : Nat} {bs : List Byte} (hi : i < s.cfg.nRx)
    (hj : j < s.cfg.nTx) (hl : bs.length ≤ s.cfg.rxBufSize) (hn : n ≤ s.cfg.txBufSize) :
    Mem.readBytes (Mem.writeBytes s.mem (s.cfg.rxBufBase i).toNat bs) (s.cfg.txBufBase j).toNat n =
      Mem.readBytes s.mem (s.cfg.txBufBase j).toNat n := by
  have h3 := h.rxBuf_end hi
  have h4 := h.txBuf_end hj
  have h5 := h.txBuf_rxBuf hj hi
  simp only [Region.Disjoint, Config.txBufRegion, Config.rxBufRegion] at h5
  exact Mem.readBytes_writeBytes_disjoint _ _ _ _ _ (by omega) (by omega) (by omega)

theorem State.writeRxBuf_rxBuf {s : State} (h : s.cfg.WF) {i j n : Nat} {bs : List Byte} (hi : i < s.cfg.nRx)
    (hj : j < s.cfg.nRx) (hne : i ≠ j) (hl : bs.length ≤ s.cfg.rxBufSize) (hn : n ≤ s.cfg.rxBufSize) :
    Mem.readBytes (Mem.writeBytes s.mem (s.cfg.rxBufBase i).toNat bs) (s.cfg.rxBufBase j).toNat n =
      Mem.readBytes s.mem (s.cfg.rxBufBase j).toNat n := by
  have h3 := h.rxBuf_end hi
  have h4 := h.rxBuf_end hj
  have h5 := h.rxBuf_rxBuf hi hj hne
  simp only [Region.Disjoint, Config.rxBufRegion] at h5
  exact Mem.readBytes_writeBytes_disjoint _ _ _ _ _ (by omega) (by omega) (by omega)

theorem State.txBuf_addr_lt (s : State) (i : Nat) : (s.cfg.txBufBase i).toNat < 256 ^ TxField.addr.width :=
  (s.cfg.txBufBase i).isLt

/-! ### The ring operations, slot by slot -/

/-- What TRANSMIT leaves in its slot (R200). -/
structure ArmedSlot (s u : State) (i : Nat) (payload : Frame) : Prop where
  length : u.txd i .length = payload.length
  status : u.txStatus i = clearFlag s.cfg.layout.txDone (s.txStatus i)
  cmd : u.txCmd i = armCmd s.cfg.layout (s.txCmd i)
  addr : u.txd i .addr = s.txd i .addr
  buffer : Mem.readBytes u.mem (s.cfg.txBufBase i).toNat payload.length = payload

theorem State.armSlot_spec {s : State} (h : s.cfg.WF) {payload : Frame} (ht : s.txTail < s.cfg.nTx)
    (hl : payload.length ≤ s.cfg.txBufSize) :
    ArmedSlot s (s.armSlot payload.length payload) s.txTail payload := by
  have hb := State.txdBase_end h ht
  have hlt := h.txBufSize_lt
  let s1 := s.setMem (Mem.writeBytes s.mem (s.cfg.txBufBase s.txTail).toNat payload)
  let s2 := s1.setTxd s.txTail .length payload.length
  let s3 := s2.setTxd s.txTail .status (clearFlag s.cfg.layout.txDone (s2.txStatus s.txTail)).toNat
  let s4 := s3.setTxd s.txTail .cmd (armCmd s.cfg.layout (s3.txCmd s.txTail)).toNat
  have e1 : ∀ g, s1.txd s.txTail g = s.txd s.txTail g := State.writeTxBuf_txd h ht ht hl
  have e2 : ∀ g, TxField.length ≠ g → s2.txd s.txTail g = s1.txd s.txTail g := fun g hg =>
    State.txd_setTxd_other _ (.inr hg) h.descSize_le hb hb
  have e3 : ∀ g, TxField.status ≠ g → s3.txd s.txTail g = s2.txd s.txTail g := fun g hg =>
    State.txd_setTxd_other _ (.inr hg) h.descSize_le hb hb
  have e4 : ∀ g, TxField.cmd ≠ g → s4.txd s.txTail g = s3.txd s.txTail g := fun g hg =>
    State.txd_setTxd_other _ (.inr hg) h.descSize_le hb hb
  have hst : s2.txStatus s.txTail = s.txStatus s.txTail := by
    unfold State.txStatus; rw [e2 _ (by decide), e1]
  have hcm : s3.txCmd s.txTail = s.txCmd s.txTail := by
    unfold State.txCmd; rw [e3 _ (by decide), e2 _ (by decide), e1]
  have b8 : ∀ b : Byte, BitVec.ofNat 8 (b.toNat % 256 ^ 1) = b := fun b => by
    apply BitVec.eq_of_toNat_eq
    rw [BitVec.toNat_ofNat]; have := b.isLt; omega
  refine ⟨?_, ?_, ?_, ?_, ?_⟩
  · show s4.txd _ _ = _
    rw [e4 _ (by decide), e3 _ (by decide)]
    exact (State.txd_setTxd_same _ _ _ _).trans (Nat.mod_eq_of_lt (by show _ < 256 ^ 2; omega))
  · show BitVec.ofNat 8 (s4.txd _ _) = _
    rw [e4 _ (by decide), ← hst]
    show BitVec.ofNat 8 ((s2.setTxd _ _ _).txd _ _) = _
    rw [State.txd_setTxd_same]; exact b8 _
  · show BitVec.ofNat 8 (s4.txd _ _) = _
    rw [← hcm]
    show BitVec.ofNat 8 ((s3.setTxd _ _ _).txd _ _) = _
    rw [State.txd_setTxd_same]; exact b8 _
  · show s4.txd _ _ = _
    rw [e4 _ (by decide), e3 _ (by decide), e2 _ (by decide), e1]
  · show Mem.readBytes s4.mem (s.cfg.txBufBase s.txTail).toNat _ = _
    have h4 := State.setTxd_txBuf (s := s3) h ht ht hl .cmd (armCmd s.cfg.layout (s3.txCmd s.txTail)).toNat
    have h3 := State.setTxd_txBuf (s := s2) h ht ht hl .status (clearFlag s.cfg.layout.txDone (s2.txStatus s.txTail)).toNat
    have h2 := State.setTxd_txBuf (s := s1) h ht ht hl .length payload.length
    have he := h.txBuf_end ht
    exact (h4.trans (h3.trans h2)).trans (Mem.readBytes_writeBytes_same _ _ _ (by omega))

/-- TRANSMIT stores into one buffer and three fields of one descriptor. -/
theorem State.armSlot_stores (s : State) (payload : Frame) : ∃ v2 v3 v4,
    (s.armSlot payload.length payload).mem =
      ((((s.setMem (Mem.writeBytes s.mem (s.cfg.txBufBase s.txTail).toNat payload)).setTxd s.txTail .length v2).setTxd
        s.txTail .status v3).setTxd s.txTail .cmd v4).mem := by
  let s1 := s.setMem (Mem.writeBytes s.mem (s.cfg.txBufBase s.txTail).toNat payload)
  let s2 := s1.setTxd s.txTail .length payload.length
  let s3 := s2.setTxd s.txTail .status (clearFlag s.cfg.layout.txDone (s2.txStatus s.txTail)).toNat
  exact ⟨payload.length, (clearFlag s.cfg.layout.txDone (s2.txStatus s.txTail)).toNat, (armCmd s.cfg.layout (s3.txCmd s.txTail)).toNat, rfl⟩

theorem State.armSlot_txd_other {s : State} (h : s.cfg.WF) {payload : Frame} (ht : s.txTail < s.cfg.nTx)
    (hl : payload.length ≤ s.cfg.txBufSize) {j : Nat} (hj : j < s.cfg.nTx) (hne : s.txTail ≠ j) (g : TxField) :
    (s.armSlot payload.length payload).txd j g = s.txd j g := by
  have hb := State.txdBase_end h ht
  have hb' := State.txdBase_end h hj
  obtain ⟨v2, v3, v4, hm⟩ := s.armSlot_stores payload
  let s1 := s.setMem (Mem.writeBytes s.mem (s.cfg.txBufBase s.txTail).toNat payload)
  let s2 := s1.setTxd s.txTail .length v2
  let s3 := s2.setTxd s.txTail .status v3
  have e1 : s1.txd j g = s.txd j g := State.writeTxBuf_txd h ht hj hl g
  have e2 := State.txd_setTxd_other (s := s1) (f := .length) (g := g) v2 (.inl hne) h.descSize_le hb hb'
  have e3 := State.txd_setTxd_other (s := s2) (f := .status) (g := g) v3 (.inl hne) h.descSize_le hb hb'
  have e4 := State.txd_setTxd_other (s := s3) (f := .cmd) (g := g) v4 (.inl hne) h.descSize_le hb hb'
  exact (State.txd_congr (by rfl) hm j g).trans (e4.trans (e3.trans (e2.trans e1)))

theorem State.armSlot_rxd {s : State} (h : s.cfg.WF) {payload : Frame} (ht : s.txTail < s.cfg.nTx)
    (hl : payload.length ≤ s.cfg.txBufSize) {j : Nat} (hj : j < s.cfg.nRx) (g : RxField) :
    (s.armSlot payload.length payload).rxd j g = s.rxd j g := by
  obtain ⟨v2, v3, v4, hm⟩ := s.armSlot_stores payload
  let s1 := s.setMem (Mem.writeBytes s.mem (s.cfg.txBufBase s.txTail).toNat payload)
  let s2 := s1.setTxd s.txTail .length v2
  let s3 := s2.setTxd s.txTail .status v3
  have e1 : s1.rxd j g = s.rxd j g := State.writeTxBuf_rxd h ht hj hl g
  have e2 := State.setTxd_rxd (s := s1) h ht hj .length g v2
  have e3 := State.setTxd_rxd (s := s2) h ht hj .status g v3
  have e4 := State.setTxd_rxd (s := s3) h ht hj .cmd g v4
  exact (State.rxd_congr (by rfl) hm j g).trans (e4.trans (e3.trans (e2.trans e1)))

theorem State.armSlot_txBuf_other {s : State} (h : s.cfg.WF) {payload : Frame} (ht : s.txTail < s.cfg.nTx)
    (hl : payload.length ≤ s.cfg.txBufSize) {j n : Nat} (hj : j < s.cfg.nTx) (hne : s.txTail ≠ j)
    (hn : n ≤ s.cfg.txBufSize) :
    Mem.readBytes (s.armSlot payload.length payload).mem (s.cfg.txBufBase j).toNat n =
      Mem.readBytes s.mem (s.cfg.txBufBase j).toNat n := by
  obtain ⟨v2, v3, v4, hm⟩ := s.armSlot_stores payload
  let s1 := s.setMem (Mem.writeBytes s.mem (s.cfg.txBufBase s.txTail).toNat payload)
  let s2 := s1.setTxd s.txTail .length v2
  let s3 := s2.setTxd s.txTail .status v3
  have e1 := State.writeTxBuf_txBuf (bs := payload) h ht hj hne hl hn
  have e2 := State.setTxd_txBuf (s := s1) h ht hj hn .length v2
  have e3 := State.setTxd_txBuf (s := s2) h ht hj hn .status v3
  have e4 := State.setTxd_txBuf (s := s3) h ht hj hn .cmd v4
  rw [hm]
  exact e4.trans (e3.trans (e2.trans e1))

theorem State.armSlot_rxBuf {s : State} (h : s.cfg.WF) {payload : Frame} (ht : s.txTail < s.cfg.nTx)
    (hl : payload.length ≤ s.cfg.txBufSize) {j n : Nat} (hj : j < s.cfg.nRx) (hn : n ≤ s.cfg.rxBufSize) :
    Mem.readBytes (s.armSlot payload.length payload).mem (s.cfg.rxBufBase j).toNat n =
      Mem.readBytes s.mem (s.cfg.rxBufBase j).toNat n := by
  obtain ⟨v2, v3, v4, hm⟩ := s.armSlot_stores payload
  let s1 := s.setMem (Mem.writeBytes s.mem (s.cfg.txBufBase s.txTail).toNat payload)
  let s2 := s1.setTxd s.txTail .length v2
  let s3 := s2.setTxd s.txTail .status v3
  have e1 := State.writeTxBuf_rxBuf (bs := payload) h ht hj hl hn
  have e2 := State.setTxd_rxBuf (s := s1) h ht hj hn .length v2
  have e3 := State.setTxd_rxBuf (s := s2) h ht hj hn .status v3
  have e4 := State.setTxd_rxBuf (s := s3) h ht hj hn .cmd v4
  rw [hm]
  exact e4.trans (e3.trans (e2.trans e1))

/-- What RX_DEPOSIT leaves in its slot (R234). -/
structure FilledSlot (s u : State) (i : Nat) (f : Frame) : Prop where
  length : u.rxd i .length = f.length
  flag : u.rxFlag i = true
  addr : u.rxd i .addr = s.rxd i .addr
  buffer : Mem.readBytes u.mem (s.cfg.rxBufBase i).toNat f.length = f

/-- RX_DEPOSIT stores into one buffer and five fields of one descriptor. -/
theorem State.depositInto_stores {s : State} {i : Nat} (f : Frame)
    (ha : s.rxd i .addr = (s.cfg.rxBufBase i).toNat) : ∃ v3 v4 v5,
    (s.depositInto i f).mem =
      ((((((s.setMem (Mem.writeBytes s.mem (s.cfg.rxBufBase i).toNat f)).setRxd i .length f.length).setRxd
        i .checksum v3).setRxd i .errors v4).setRxd i .special v5).setRxd i .status
          (engineStatus s.cfg.layout.rxDone (Config.draw8 (s.draws + 3))).toNat).mem := by
  rw [← ha]
  exact ⟨(Config.draw16 s.draws).toNat, (Config.draw8 (s.draws + 1)).toNat, (Config.draw16 (s.draws + 2)).toNat, rfl⟩

theorem State.depositInto_spec {s : State} (h : s.cfg.WF) {i : Nat} {f : Frame} (hi : i < s.cfg.nRx)
    (hl : f.length ≤ s.cfg.rxBufSize) (ha : s.rxd i .addr = (s.cfg.rxBufBase i).toNat) :
    FilledSlot s (s.depositInto i f) i f := by
  have hb := State.rxdBase_end h hi
  have hlt := h.rxBufSize_lt
  obtain ⟨v3, v4, v5, hm⟩ := State.depositInto_stores f ha
  let s1 := s.setMem (Mem.writeBytes s.mem (s.cfg.rxBufBase i).toNat f)
  let s2 := s1.setRxd i .length f.length
  let s3 := s2.setRxd i .checksum v3
  let s4 := s3.setRxd i .errors v4
  let s5 := s4.setRxd i .special v5
  let st := engineStatus s.cfg.layout.rxDone (Config.draw8 (s.draws + 3))
  have e1 : ∀ g, s1.rxd i g = s.rxd i g := State.writeRxBuf_rxd h hi hi hl
  have e2 : ∀ g, RxField.length ≠ g → s2.rxd i g = s1.rxd i g := fun g hg =>
    State.rxd_setRxd_other (s := s1) _ (.inr hg) h.descSize_le hb hb
  have e3 : ∀ g, RxField.checksum ≠ g → s3.rxd i g = s2.rxd i g := fun g hg =>
    State.rxd_setRxd_other (s := s2) _ (.inr hg) h.descSize_le hb hb
  have e4 : ∀ g, RxField.errors ≠ g → s4.rxd i g = s3.rxd i g := fun g hg =>
    State.rxd_setRxd_other (s := s3) _ (.inr hg) h.descSize_le hb hb
  have e5 : ∀ g, RxField.special ≠ g → s5.rxd i g = s4.rxd i g := fun g hg =>
    State.rxd_setRxd_other (s := s4) _ (.inr hg) h.descSize_le hb hb
  have e6 : ∀ g, RxField.status ≠ g → (s5.setRxd i .status st.toNat).rxd i g = s5.rxd i g := fun g hg =>
    State.rxd_setRxd_other (s := s5) _ (.inr hg) h.descSize_le hb hb
  have e : ∀ g, (s.depositInto i f).rxd i g = (s5.setRxd i .status st.toNat).rxd i g := fun g =>
    State.rxd_congr (by rfl) hm i g
  refine ⟨?_, ?_, ?_, ?_⟩
  · rw [e, e6 _ (by decide), e5 _ (by decide), e4 _ (by decide), e3 _ (by decide)]
    exact (State.rxd_setRxd_same s1 i .length f.length).trans (Nat.mod_eq_of_lt (by show _ < 256 ^ 2; omega))
  · have hs := State.rxd_setRxd_same s5 i .status st.toNat
    have hb8 : BitVec.ofNat 8 (st.toNat % 256 ^ RxField.status.width) = st := by
      apply BitVec.eq_of_toNat_eq
      rw [BitVec.toNat_ofNat]; have := st.isLt
      show _ % 256 ^ 1 % _ = _
      omega
    show flagBit s.cfg.layout.rxDone (BitVec.ofNat 8 ((s.depositInto i f).rxd i .status)) = true
    rw [e, hs, hb8]
    exact flagBit_engineStatus _ h.fields.rxDone
  · rw [e, e6 _ (by decide), e5 _ (by decide), e4 _ (by decide), e3 _ (by decide), e2 _ (by decide), e1]
  · have he := h.rxBuf_end hi
    have b1 := Mem.readBytes_writeBytes_same s.mem (s.cfg.rxBufBase i).toNat f (by omega)
    have b2 := State.setRxd_rxBuf (s := s1) h hi hi hl .length f.length
    have b3 := State.setRxd_rxBuf (s := s2) h hi hi hl .checksum v3
    have b4 := State.setRxd_rxBuf (s := s3) h hi hi hl .errors v4
    have b5 := State.setRxd_rxBuf (s := s4) h hi hi hl .special v5
    have b6 := State.setRxd_rxBuf (s := s5) h hi hi hl .status st.toNat
    rw [hm]
    exact b6.trans (b5.trans (b4.trans (b3.trans (b2.trans b1))))

theorem State.depositInto_rxd_other {s : State} (h : s.cfg.WF) {i j : Nat} {f : Frame} (hi : i < s.cfg.nRx)
    (hj : j < s.cfg.nRx) (hne : i ≠ j) (hl : f.length ≤ s.cfg.rxBufSize)
    (ha : s.rxd i .addr = (s.cfg.rxBufBase i).toNat) (g : RxField) :
    (s.depositInto i f).rxd j g = s.rxd j g := by
  have hb := State.rxdBase_end h hi
  have hb' := State.rxdBase_end h hj
  obtain ⟨v3, v4, v5, hm⟩ := State.depositInto_stores f ha
  let s1 := s.setMem (Mem.writeBytes s.mem (s.cfg.rxBufBase i).toNat f)
  let s2 := s1.setRxd i .length f.length
  let s3 := s2.setRxd i .checksum v3
  let s4 := s3.setRxd i .errors v4
  let s5 := s4.setRxd i .special v5
  let st := engineStatus s.cfg.layout.rxDone (Config.draw8 (s.draws + 3))
  have e1 : s1.rxd j g = s.rxd j g := State.writeRxBuf_rxd h hi hj hl g
  have e2 := State.rxd_setRxd_other (s := s1) (f := .length) (g := g) f.length (.inl hne) h.descSize_le hb hb'
  have e3 := State.rxd_setRxd_other (s := s2) (f := .checksum) (g := g) v3 (.inl hne) h.descSize_le hb hb'
  have e4 := State.rxd_setRxd_other (s := s3) (f := .errors) (g := g) v4 (.inl hne) h.descSize_le hb hb'
  have e5 := State.rxd_setRxd_other (s := s4) (f := .special) (g := g) v5 (.inl hne) h.descSize_le hb hb'
  have e6 := State.rxd_setRxd_other (s := s5) (f := .status) (g := g) st.toNat (.inl hne) h.descSize_le hb hb'
  exact (State.rxd_congr (by rfl) hm j g).trans (e6.trans (e5.trans (e4.trans (e3.trans (e2.trans e1)))))

theorem State.depositInto_txd {s : State} (h : s.cfg.WF) {i j : Nat} {f : Frame} (hi : i < s.cfg.nRx)
    (hj : j < s.cfg.nTx) (hl : f.length ≤ s.cfg.rxBufSize) (ha : s.rxd i .addr = (s.cfg.rxBufBase i).toNat)
    (g : TxField) : (s.depositInto i f).txd j g = s.txd j g := by
  obtain ⟨v3, v4, v5, hm⟩ := State.depositInto_stores f ha
  let s1 := s.setMem (Mem.writeBytes s.mem (s.cfg.rxBufBase i).toNat f)
  let s2 := s1.setRxd i .length f.length
  let s3 := s2.setRxd i .checksum v3
  let s4 := s3.setRxd i .errors v4
  let s5 := s4.setRxd i .special v5
  let st := engineStatus s.cfg.layout.rxDone (Config.draw8 (s.draws + 3))
  have e1 : s1.txd j g = s.txd j g := State.writeRxBuf_txd h hi hj hl g
  have e2 := State.setRxd_txd (s := s1) h hi hj .length g f.length
  have e3 := State.setRxd_txd (s := s2) h hi hj .checksum g v3
  have e4 := State.setRxd_txd (s := s3) h hi hj .errors g v4
  have e5 := State.setRxd_txd (s := s4) h hi hj .special g v5
  have e6 := State.setRxd_txd (s := s5) h hi hj .status g st.toNat
  exact (State.txd_congr (by rfl) hm j g).trans (e6.trans (e5.trans (e4.trans (e3.trans (e2.trans e1)))))

theorem State.depositInto_rxBuf_other {s : State} (h : s.cfg.WF) {i j n : Nat} {f : Frame} (hi : i < s.cfg.nRx)
    (hj : j < s.cfg.nRx) (hne : i ≠ j) (hl : f.length ≤ s.cfg.rxBufSize)
    (ha : s.rxd i .addr = (s.cfg.rxBufBase i).toNat) (hn : n ≤ s.cfg.rxBufSize) :
    Mem.readBytes (s.depositInto i f).mem (s.cfg.rxBufBase j).toNat n =
      Mem.readBytes s.mem (s.cfg.rxBufBase j).toNat n := by
  obtain ⟨v3, v4, v5, hm⟩ := State.depositInto_stores f ha
  let s1 := s.setMem (Mem.writeBytes s.mem (s.cfg.rxBufBase i).toNat f)
  let s2 := s1.setRxd i .length f.length
  let s3 := s2.setRxd i .checksum v3
  let s4 := s3.setRxd i .errors v4
  let s5 := s4.setRxd i .special v5
  let st := engineStatus s.cfg.layout.rxDone (Config.draw8 (s.draws + 3))
  have e1 := State.writeRxBuf_rxBuf (bs := f) h hi hj hne hl hn
  have e2 := State.setRxd_rxBuf (s := s1) h hi hj hn .length f.length
  have e3 := State.setRxd_rxBuf (s := s2) h hi hj hn .checksum v3
  have e4 := State.setRxd_rxBuf (s := s3) h hi hj hn .errors v4
  have e5 := State.setRxd_rxBuf (s := s4) h hi hj hn .special v5
  have e6 := State.setRxd_rxBuf (s := s5) h hi hj hn .status st.toNat
  rw [hm]
  exact e6.trans (e5.trans (e4.trans (e3.trans (e2.trans e1))))

theorem State.depositInto_txBuf {s : State} (h : s.cfg.WF) {i j n : Nat} {f : Frame} (hi : i < s.cfg.nRx)
    (hj : j < s.cfg.nTx) (hl : f.length ≤ s.cfg.rxBufSize) (ha : s.rxd i .addr = (s.cfg.rxBufBase i).toNat)
    (hn : n ≤ s.cfg.txBufSize) :
    Mem.readBytes (s.depositInto i f).mem (s.cfg.txBufBase j).toNat n =
      Mem.readBytes s.mem (s.cfg.txBufBase j).toNat n := by
  obtain ⟨v3, v4, v5, hm⟩ := State.depositInto_stores f ha
  let s1 := s.setMem (Mem.writeBytes s.mem (s.cfg.rxBufBase i).toNat f)
  let s2 := s1.setRxd i .length f.length
  let s3 := s2.setRxd i .checksum v3
  let s4 := s3.setRxd i .errors v4
  let s5 := s4.setRxd i .special v5
  let st := engineStatus s.cfg.layout.rxDone (Config.draw8 (s.draws + 3))
  have e1 := State.writeRxBuf_txBuf (bs := f) h hi hj hl hn
  have e2 := State.setRxd_txBuf (s := s1) h hi hj hn .length f.length
  have e3 := State.setRxd_txBuf (s := s2) h hi hj hn .checksum v3
  have e4 := State.setRxd_txBuf (s := s3) h hi hj hn .errors v4
  have e5 := State.setRxd_txBuf (s := s4) h hi hj hn .special v5
  have e6 := State.setRxd_txBuf (s := s5) h hi hj hn .status st.toNat
  rw [hm]
  exact e6.trans (e5.trans (e4.trans (e3.trans (e2.trans e1))))

/-- The status byte after a store into it, as a byte. -/
theorem State.txStatus_setTxd_same (s : State) (i : Nat) (b : Byte) :
    (s.setTxd i .status b.toNat).txStatus i = b := by
  unfold State.txStatus
  rw [State.txd_setTxd_same]
  apply BitVec.eq_of_toNat_eq
  rw [BitVec.toNat_ofNat]; have := b.isLt
  show _ % 256 ^ 1 % _ = _
  omega

theorem State.rxStatus_setRxd_same (s : State) (i : Nat) (b : Byte) :
    (s.setRxd i .status b.toNat).rxStatus i = b := by
  unfold State.rxStatus
  rw [State.rxd_setRxd_same]
  apply BitVec.eq_of_toNat_eq
  rw [BitVec.toNat_ofNat]; have := b.isLt
  show _ % 256 ^ 1 % _ = _
  omega

end Sys2Proof.Machine
end

