-- ==== Sys2Proof/Laws/Pages.lean ====
section
/-! SUPPORT. The pages of the message buffers (20_memory.md R70): the page the pool hands out, where a page lies, and
what storing a page and filling one leave and read back. -/

namespace Sys2Proof.Machine

/-! ### The page the pool hands out -/

theorem firstFree_some {used : List Buf} {n fuel k : Nat} {b : Buf} (h : firstFree used n fuel k = some b) :
    b < n ∧ b ∉ used := by
  induction fuel generalizing k with
  | zero => cases h
  | succ fuel ih =>
    simp only [firstFree] at h
    split at h
    · next hk => exact Option.some.inj h ▸ hk
    · exact ih h

theorem firstFree_none {used : List Buf} {n fuel k : Nat} (h : firstFree used n fuel k = none) :
    ∀ j < fuel, (k + j) % n < n → (k + j) % n ∈ used := by
  induction fuel generalizing k with
  | zero => intro j hj; omega
  | succ fuel ih =>
    simp only [firstFree] at h
    split at h
    · cases h
    · next hk =>
      intro j hj hlt
      cases j with
      | zero => exact not_not.1 fun hn => hk ⟨hlt, hn⟩
      | succ j =>
        have := ih h j (by omega)
        rw [show k + 1 + j = k + (j + 1) by omega] at this
        exact this hlt

theorem State.nearPage_some {s : State} {b : Buf} (h : s.nearPage = some b) : b < s.cfg.poolPages ∧ b ∉ s.bufs :=
  firstFree_some h

/-- No page of host memory is handed out exactly when every one is in use. -/
theorem State.nearPage_eq_none {s : State} : s.nearPage = none ↔ ∀ b < s.cfg.poolPages, b ∈ s.bufs := by
  refine ⟨fun h b hb => ?_, fun h => ?_⟩
  · have hn := firstFree_none h
    have hpos : 0 < s.cfg.poolPages := by omega
    simp only [Nat.mod_lt _ hpos, forall_const] at hn
    by_cases hl : s.cfg.poolPages ≤ s.bufs.length + 1
    · have hk := Nat.mod_lt s.collab.nextPage hpos
      have hd := Nat.div_add_mod s.collab.nextPage s.cfg.poolPages
      have := hn ((b + (s.cfg.poolPages - s.collab.nextPage % s.cfg.poolPages)) % s.cfg.poolPages)
        (Nat.lt_of_lt_of_le (Nat.mod_lt _ hpos) hl)
      rw [Nat.add_mod_mod] at this
      rwa [show s.collab.nextPage + (b + (s.cfg.poolPages - s.collab.nextPage % s.cfg.poolPages)) =
          b + s.cfg.poolPages * (s.collab.nextPage / s.cfg.poolPages + 1) by rw [Nat.mul_add]; omega,
        Nat.add_mul_mod_self_left, Nat.mod_eq_of_lt hb] at this
    · -- Fewer buffers in use than pages tried, all different.
      exfalso
      have hnd : ((List.range (s.bufs.length + 1)).map fun j => (s.collab.nextPage + j) % s.cfg.poolPages).Nodup := by
        refine List.Nodup.map_on (fun i hi j hj hij => ?_) List.nodup_range
        simp only [List.mem_range] at hi hj
        have := Nat.ModEq.add_left_cancel' s.collab.nextPage hij
        rwa [Nat.ModEq, Nat.mod_eq_of_lt (by omega), Nat.mod_eq_of_lt (by omega)] at this
      have hsub : ((List.range (s.bufs.length + 1)).map fun j => (s.collab.nextPage + j) % s.cfg.poolPages) ⊆ s.bufs :=
        fun x hx => by
          obtain ⟨j, hj, rfl⟩ := List.mem_map.1 hx
          exact hn j (by simpa using hj)
      have := (hnd.subperm hsub).length_le
      simp at this
  · cases hf : s.nearPage with
    | none => rfl
    | some b => exact absurd (h b (State.nearPage_some hf).1) (State.nearPage_some hf).2

/-- The page past every page in use. -/
theorem State.farPage_spec (s : State) : s.cfg.poolPages ≤ s.farPage ∧ ∀ b ∈ s.bufs, b < s.farPage := by
  unfold State.farPage
  induction s.bufs with
  | nil => simp
  | cons c l ih =>
    simp only [List.foldr_cons, List.mem_cons, forall_eq_or_imp]
    obtain ⟨h1, h2⟩ := ih
    exact ⟨h1.trans (Nat.le_max_right _ _), Nat.lt_of_succ_le (Nat.le_max_left _ _),
      fun b hb => (h2 b hb).trans_le (Nat.le_max_right _ _)⟩

/-- The page handed out is one that nobody has, and one of host memory while one of these is free (R262, R70). -/
theorem State.freePage_free (s : State) : s.pageFree s.freePage := by
  unfold State.freePage State.pageFree
  cases h : s.nearPage with
  | none => exact ⟨fun hm => Nat.lt_irrefl _ (s.farPage_spec.2 _ hm), .inr rfl⟩
  | some b => exact ⟨(State.nearPage_some h).2, .inl (State.nearPage_some h).1⟩

theorem State.pageFree.near {s : State} {b k : Buf} (h : s.pageFree b) (hk : k < s.cfg.poolPages) (hf : k ∉ s.bufs) :
    b < s.cfg.poolPages := h.2.resolve_right fun hn => hf (State.nearPage_eq_none.1 hn k hk)

/-- `acquire()` gives a page that nobody has (R262). -/
theorem State.acquire_some {s : State} {b : Buf} (h : s.acquire = some b) : s.pageFree b := by
  unfold State.acquire at h
  split at h
  · cases h
  · exact Option.some.inj h ▸ s.freePage_free

/-- It fails exactly where ENV makes it fail. -/
theorem State.acquire_eq_none {s : State} : s.acquire = none ↔ s.collab.acquireFails = true := by
  unfold State.acquire; split <;> simp_all

/-- What keeps ownership (R54): no buffer gains an owner, but one that has none. -/
theorem State.BufsOwnedOnce.of_count {s t : State} (h : s.BufsOwnedOnce)
    (hb : ∀ b, t.bufs.count b ≤ s.bufs.count b ∨ t.bufs.count b ≤ 1) : t.BufsOwnedOnce :=
  List.nodup_iff_count_le_one.2 fun b => (hb b).elim (fun h1 => h1.trans (List.nodup_iff_count_le_one.1 h b)) id

/-! ### Where pages lie -/

/-- A page lies inside the pool. -/
theorem pageAt_inside (c : Config) {b : Buf} (hb : b < c.poolPages) :
    c.poolRegion.1 ≤ pageAt c b ∧ pageAt c b + c.pageSize ≤ c.poolRegion.1 + c.poolRegion.2 := by
  have := Config.slot_end (d := c.pageSize) hb
  unfold pageAt Config.poolRegion
  omega

theorem pageAt_end {c : Config} (h : c.WF) {b : Buf} (hb : b < c.poolPages) : pageAt c b + c.pageSize ≤ addrSpace :=
  (pageAt_inside c hb).2.trans h.pool_end

/-- Two pages do not meet. -/
theorem pageAt_apart (c : Config) {a b : Buf} (h : a ≠ b) :
    pageAt c a + c.pageSize ≤ pageAt c b ∨ pageAt c b + c.pageSize ≤ pageAt c a := by
  have := Config.slot_apart (d := c.pageSize) h
  unfold pageAt
  omega

/-- A page meets neither a descriptor array nor a packet buffer nor the register window (R70, R71). -/
theorem pageAt_region {c : Config} (h : c.WF) {b : Buf} (hb : b < c.poolPages) {r : Region} (hr : r ∈ c.regions)
    {a n : Nat} (ha : r.1 ≤ a ∧ a + n ≤ r.1 + r.2) : pageAt c b + c.pageSize ≤ a ∨ a + n ≤ pageAt c b :=
  disjoint_sub (h.pool_apart r hr) (pageAt_inside c hb) ha

@[simp] theorem State.msgPage_length (s : State) (b : Buf) : (s.msgPage b).length = s.cfg.pageSize := by
  unfold State.msgPage; split <;> simp

theorem State.msgPage_near {s : State} {b : Buf} (hb : b < s.cfg.poolPages) :
    s.msgPage b = Mem.readBytes s.mem (pageAt s.cfg b) s.cfg.pageSize := if_pos hb

/-- A message buffer's page depends on the configuration, host memory and the pages outside it alone. -/
theorem State.msgPage_congr {s t : State} (hc : t.cfg = s.cfg) (hm : t.mem = s.mem) (hf : t.farPages = s.farPages)
    (b : Buf) : t.msgPage b = s.msgPage b := by simp [State.msgPage, hc, hm, hf]

/-! ### Storing a page -/

theorem State.setPage_near {s : State} {b : Buf} (hb : b < s.cfg.poolPages) (page : List Byte) :
    s.setPage b page = s.setMem (Mem.writeBytes s.mem (pageAt s.cfg b) page) := if_pos hb

theorem State.setPage_far {s : State} {b : Buf} (hb : ¬ b < s.cfg.poolPages) (page : List Byte) :
    s.setPage b page = { s with farPages := (b, page) :: s.farPages.filter fun p => p.1 ≠ b } := if_neg hb

/-- The bytes of host memory outside the page stored stay. -/
theorem State.setPage_get_outside (s : State) (b : Buf) (page : List Byte) (a : Nat)
    (h : OutsidePage s.cfg b page.length a) : Mem.get (s.setPage b page).mem a = Mem.get s.mem a := by
  by_cases hb : b < s.cfg.poolPages
  · rw [State.setPage_near hb]
    exact Mem.get_writeBytes_outside _ _ _ _ (h hb)
  · rw [State.setPage_far hb]

/-- A range apart from the page reads as before. -/
theorem State.setPage_readBytes {s : State} (h : s.cfg.WF) {b : Buf} {page : List Byte}
    (hp : page.length = s.cfg.pageSize) {a k : Nat} (ha : a + k ≤ addrSpace)
    (hd : b < s.cfg.poolPages → pageAt s.cfg b + s.cfg.pageSize ≤ a ∨ a + k ≤ pageAt s.cfg b) :
    Mem.readBytes (s.setPage b page).mem a k = Mem.readBytes s.mem a k :=
  Mem.readBytes_congr _ _ fun _ hj => s.setPage_get_outside b page _ fun hb => hp ▸
    Mem.outside_range k (pageAt_end h hb) ha hj (hd hb)

/-- The page stored reads back. -/
theorem State.setPage_msgPage_same {s : State} (h : s.cfg.WF) (b : Buf) {page : List Byte}
    (hp : page.length = s.cfg.pageSize) : (s.setPage b page).msgPage b = page := by
  by_cases hb : b < s.cfg.poolPages
  · have he := pageAt_end h hb
    rw [State.setPage_near hb]
    refine (State.msgPage_near (s := s.setMem (Mem.writeBytes s.mem (pageAt s.cfg b) page)) hb).trans ?_
    have := Mem.readBytes_writeBytes_same s.mem (pageAt s.cfg b) page (by omega)
    rwa [hp] at this
  · rw [State.setPage_far hb, State.msgPage, if_neg hb, List.lookup_cons_self, Option.getD_some]
    exact (List.takeD_eq_take 0 hp.ge).trans (List.take_of_length_le hp.le)

theorem lookup_filter_ne {b c : Buf} (h : c ≠ b) (l : List (Buf × List Byte)) :
    (l.filter fun p => p.1 ≠ b).lookup c = l.lookup c := by
  induction l with
  | nil => rfl
  | cons p l ih =>
    by_cases hp : p.1 = b
    · rw [List.filter_cons_of_neg (by simpa using hp), ih, List.lookup_cons,
        beq_eq_false_iff_ne.2 (hp ▸ h)]
    · rw [List.filter_cons_of_pos (by simpa using hp), List.lookup_cons, List.lookup_cons, ih]

/-- Every other page stays, and with it all of them that lie outside host memory if the page stored lies inside. -/
theorem State.setPage_onlyPage {s : State} (h : s.cfg.WF) (b : Buf) {page : List Byte}
    (hp : page.length = s.cfg.pageSize) : OnlyPage s (s.setPage b page) b := by
  refine ⟨fun c hc => ?_, fun hb => by rw [State.setPage_near hb, State.setMem_farPages]⟩
  by_cases hcb : c < s.cfg.poolPages
  · rw [State.msgPage_near hcb, State.msgPage_near (s := s.setPage b page) (by simpa using hcb), State.setPage_cfg]
    exact State.setPage_readBytes h hp (pageAt_end h hcb) fun _ => pageAt_apart s.cfg hc.symm
  · by_cases hb : b < s.cfg.poolPages
    · simp [State.msgPage, hcb, State.setPage_near hb]
    · rw [State.setPage_far hb]
      simp only [State.msgPage, hcb, if_false]
      rw [List.lookup_cons, beq_eq_false_iff_ne.2 hc, lookup_filter_ne hc]

/-- What lies in a region of R71 reads as before. -/
theorem State.setPage_region {s : State} (h : s.cfg.WF) {b : Buf} {page : List Byte}
    (hp : page.length = s.cfg.pageSize) {r : Region} (hr : r ∈ s.cfg.regions) {a k : Nat}
    (ha : r.1 ≤ a ∧ a + k ≤ r.1 + r.2) :
    Mem.readBytes (s.setPage b page).mem a k = Mem.readBytes s.mem a k :=
  State.setPage_readBytes h hp (ha.2.trans (h.bounded r hr)) fun hb => pageAt_region h hb hr ha

theorem State.setPage_txd {s : State} (h : s.cfg.WF) {b : Buf} {page : List Byte}
    (hp : page.length = s.cfg.pageSize) {i : Nat} (hi : i < s.cfg.nTx) (g : TxField) :
    (s.setPage b page).txd i g = s.txd i g := by
  have hg := g.width_le
  have hin := State.txdBase_inside h hi
  unfold State.txd State.txdBase Mem.read
  rw [State.setPage_cfg]
  exact congrArg leValue (State.setPage_region h hp s.cfg.txDescRegion_mem
    ⟨Nat.le_add_right_of_le (Nat.le_add_right _ _), by
      show s.txdBase i + g.offset + g.width ≤ s.cfg.txDescBase.toNat + s.cfg.nTx * s.cfg.descSize; omega⟩)

theorem State.setPage_rxd {s : State} (h : s.cfg.WF) {b : Buf} {page : List Byte}
    (hp : page.length = s.cfg.pageSize) {i : Nat} (hi : i < s.cfg.nRx) (g : RxField) :
    (s.setPage b page).rxd i g = s.rxd i g := by
  have hg := g.width_le
  have hin := State.rxdBase_inside h hi
  unfold State.rxd State.rxdBase Mem.read
  rw [State.setPage_cfg]
  exact congrArg leValue (State.setPage_region h hp s.cfg.rxDescRegion_mem
    ⟨Nat.le_add_right_of_le (Nat.le_add_right _ _), by
      show s.rxdBase i + g.offset + g.width ≤ s.cfg.rxDescBase.toNat + s.cfg.nRx * s.cfg.descSize; omega⟩)

theorem State.setPage_txBuf {s : State} (h : s.cfg.WF) {b : Buf} {page : List Byte}
    (hp : page.length = s.cfg.pageSize) {i k : Nat} (hi : i < s.cfg.nTx) (hk : k ≤ s.cfg.txBufSize) :
    Mem.readBytes (s.setPage b page).mem (s.cfg.txBufBase i).toNat k =
      Mem.readBytes s.mem (s.cfg.txBufBase i).toNat k :=
  State.setPage_region h hp (s.cfg.txBufRegion_mem hi) ⟨Nat.le_refl _, Nat.add_le_add_left hk _⟩

theorem State.setPage_rxBuf {s : State} (h : s.cfg.WF) {b : Buf} {page : List Byte}
    (hp : page.length = s.cfg.pageSize) {i k : Nat} (hi : i < s.cfg.nRx) (hk : k ≤ s.cfg.rxBufSize) :
    Mem.readBytes (s.setPage b page).mem (s.cfg.rxBufBase i).toNat k =
      Mem.readBytes s.mem (s.cfg.rxBufBase i).toNat k :=
  State.setPage_region h hp (s.cfg.rxBufRegion_mem hi) ⟨Nat.le_refl _, Nat.add_le_add_left hk _⟩

/-- The memory keeps its canonical form. -/
theorem State.setPage_wf {s : State} (b : Buf) (page : List Byte) (h : Mem.wf s.mem) :
    Mem.wf (s.setPage b page).mem := by
  unfold State.setPage; split
  · exact Mem.writeBytes_wf _ _ h
  · exact h

/-! ### Filling a page -/

/-- A filled page is a whole page, with the length and the frame in front (R266, R117). -/
theorem filledPage_length {c : Config} {page d : List Byte} {n : Nat} (hp : page.length = c.pageSize)
    (hn : c.msgLenBytes + n ≤ c.pageSize) (hd : n ≤ d.length) : (filledPage c page n d).length = c.pageSize := by
  simp [filledPage, hp]; omega

theorem pageLen_filledPage {c : Config} {page d : List Byte} {n : Nat} (hn : n < 256 ^ c.msgLenBytes) :
    pageLen c (filledPage c page n d) = n := by
  simp [pageLen, filledPage, List.append_assoc, leValue_leBytes, Nat.mod_eq_of_lt hn]

theorem pageFrame_filledPage {c : Config} {page d : List Byte} {n : Nat} (hn : n < 256 ^ c.msgLenBytes)
    (hd : n ≤ d.length) : pageFrame c (filledPage c page n d) = d.take n := by
  rw [pageFrame, pageLen_filledPage hn]
  simp [pageData, filledPage, List.append_assoc, hd]

/-- Behind its frame a filled page is as it was. -/
theorem filledPage_getElem {c : Config} {page d : List Byte} {n k : Nat} (hd : n ≤ d.length)
    (hk : c.msgLenBytes + n ≤ k) (h : k < (filledPage c page n d).length) :
    ∃ h', (filledPage c page n d)[k] = page[k]'h' := by
  have h' : k < page.length := by simp [filledPage] at h; omega
  refine ⟨h', ?_⟩
  simp only [filledPage]
  rw [List.getElem_append_right (by simp; omega), List.getElem_drop]
  congr 1
  simp; omega

/-- Storing the bytes that stand there changes nothing. -/
theorem Mem.get_writeBytes_agree (m : List Host.Cell) (a : Nat) (bs : List Byte) (b : Nat)
    (h : ∀ k (hk : k < bs.length), (a + k) % addrSpace = b % addrSpace → bs[k] = Mem.get m b) :
    Mem.get (Mem.writeBytes m a bs) b = Mem.get m b := by
  induction bs generalizing m a with
  | nil => rfl
  | cons v bs ih =>
    have h0 : Mem.get (Mem.put m a v) b = Mem.get m b := by
      rw [Mem.get_put]; split
      · next hb => exact h 0 (by simp) hb.symm
      · rfl
    refine (ih _ _ fun k hk hb => ?_).trans h0
    rw [h0]
    exact h (k + 1) (by simpa using hk) (by rwa [Nat.add_right_comm] at hb)

/-- Filling a page stores into its `len` and the `n` bytes behind it, and nowhere else in host memory. -/
theorem State.fillMsg_get_outside (s : State) (b : Buf) {n : Nat} {d : List Byte} (hd : n ≤ d.length) (a : Nat)
    (h : OutsidePage s.cfg b (s.cfg.msgLenBytes + n) a) :
    Mem.get (s.fillMsg b n d).mem a = Mem.get s.mem a := by
  by_cases hb : b < s.cfg.poolPages
  · rw [State.fillMsg, State.setPage_near hb]
    refine Mem.get_writeBytes_agree _ _ _ _ fun k hk hm => ?_
    obtain ⟨h', he⟩ := filledPage_getElem hd (Nat.le_of_not_lt fun hlt => h hb k hlt hm.symm) hk
    rw [he]
    simp only [State.msgPage_near hb, Mem.readBytes_getElem]
    unfold Mem.get
    rw [hm]
  · rw [State.fillMsg, State.setPage_far hb]

/-- A filled page holds the length. -/
theorem State.fillMsg_msgLen {s : State} (h : s.cfg.WF) (b : Buf) {n : Nat} (hn : n ≤ s.cfg.rxBufSize)
    {d : List Byte} (hd : n ≤ d.length) : (s.fillMsg b n d).msgLen b = n := by
  have hp := h.page_le
  unfold State.msgLen
  rw [State.fillMsg_cfg, State.fillMsg, State.setPage_msgPage_same h b
    (filledPage_length (s.msgPage_length b) (by omega) hd)]
  exact pageLen_filledPage (Nat.lt_of_le_of_lt hn h.msgLen)

/-- And the frame. -/
theorem State.fillMsg_msgFrame {s : State} (h : s.cfg.WF) (b : Buf) {n : Nat} (hn : n ≤ s.cfg.rxBufSize)
    {d : List Byte} (hd : n ≤ d.length) : (s.fillMsg b n d).msgFrame b = d.take n := by
  have hp := h.page_le
  unfold State.msgFrame
  rw [State.fillMsg_cfg, State.fillMsg, State.setPage_msgPage_same h b
    (filledPage_length (s.msgPage_length b) (by omega) hd)]
  exact pageFrame_filledPage (Nat.lt_of_le_of_lt hn h.msgLen) hd

/-- No other page changes. -/
theorem State.fillMsg_onlyPage {s : State} (h : s.cfg.WF) (b : Buf) {n : Nat} (hn : n ≤ s.cfg.rxBufSize)
    {d : List Byte} (hd : n ≤ d.length) : OnlyPage s (s.fillMsg b n d) b := by
  have hp := h.page_le
  exact State.setPage_onlyPage h b (filledPage_length (s.msgPage_length b) (by omega) hd)

/-! ### A page that host memory holds -/

/-- The front of a range read from memory. -/
theorem Mem.readBytes_take (m : List Host.Cell) (a : Nat) {n k : Nat} (h : k ≤ n) :
    (Mem.readBytes m a n).take k = Mem.readBytes m a k := by
  refine List.ext_getElem (by simp [h]) fun i h1 h2 => ?_
  rw [List.getElem_take, Mem.readBytes_getElem, Mem.readBytes_getElem]

/-- What stands behind the front. -/
theorem Mem.readBytes_drop (m : List Host.Cell) (a n k : Nat) :
    (Mem.readBytes m a n).drop k = Mem.readBytes m (a + k) (n - k) := by
  refine List.ext_getElem (by simp) fun i h1 h2 => ?_
  rw [List.getElem_drop, Mem.readBytes_getElem, Mem.readBytes_getElem, Nat.add_assoc]

/-- A message's `len` and its frame, read where they stand (R117). -/
theorem State.msgLen_eq {s : State} (h : s.cfg.WF) {b : Buf} (hb : b < s.cfg.poolPages) :
    s.msgLen b = Mem.read s.mem (pageAt s.cfg b) s.cfg.msgLenBytes := by
  have := h.page_le
  unfold State.msgLen
  rw [State.msgPage_near hb]
  exact congrArg leValue (Mem.readBytes_take _ _ (by omega))

theorem State.msgFrame_eq {s : State} {b : Buf} (hb : b < s.cfg.poolPages)
    (hl : s.cfg.msgLenBytes + s.msgLen b ≤ s.cfg.pageSize) :
    s.msgFrame b = Mem.readBytes s.mem (pageAt s.cfg b + s.cfg.msgLenBytes) (s.msgLen b) := by
  show List.take (s.msgLen b) (List.drop _ (s.msgPage b)) = _
  rw [State.msgPage_near hb, Mem.readBytes_drop, Mem.readBytes_take _ _ (by omega)]

end Sys2Proof.Machine
end

