-- ==== Sys2Proof/Laws/PerInstr.lean ====
section
/-! SUPPORT. The header of every operation's record is the row of spec/opcode_table.json, transcribed here literally
(30_encoding.md R102, R120), whose offsets are the reference register map's: the bytes its bits fill and its match
value, all of whose bits the mask fixes. -/

namespace Sys2Proof.Laws

/-- The selector of a bus write, read back from its record (R101). -/
theorem encodeWrite_selector (r : Reg) (v : Word) :
    leValue ((encodeWrite Config.reference r v).bytes.take 3) = 0x20000 + r.offset Config.reference := by
  unfold encodeWrite writeRecord
  rw [List.take_left' (by simp), Machine.leValue_leBytes]
  cases r <;> rfl

namespace TableWord

/-- The table's row of an operation: the bytes its bits fill, and its match value. -/
def row : Instr → Nat × Nat
  | .rdCtrl => (3, 0x00000)
  | .wrCtrl _ => (3, 0x20000)
  | .rdStatus => (3, 0x00008)
  | .wrStatus _ => (3, 0x20008)
  | .rdEerd => (3, 0x00014)
  | .wrEerd _ => (3, 0x20014)
  | .rdRctl => (3, 0x00100)
  | .wrRctl _ => (3, 0x20100)
  | .rdTctl => (3, 0x00400)
  | .wrTctl _ => (3, 0x20400)
  | .rdTipg => (3, 0x00410)
  | .wrTipg _ => (3, 0x20410)
  | .rdRdbal => (3, 0x02800)
  | .wrRdbal _ => (3, 0x22800)
  | .rdRdbah => (3, 0x02804)
  | .wrRdbah _ => (3, 0x22804)
  | .rdRdlen => (3, 0x02808)
  | .wrRdlen _ => (3, 0x22808)
  | .rdRdh => (3, 0x02810)
  | .wrRdh _ => (3, 0x22810)
  | .rdRdt => (3, 0x02818)
  | .wrRdt _ => (3, 0x22818)
  | .rdTdbal => (3, 0x03800)
  | .wrTdbal _ => (3, 0x23800)
  | .rdTdbah => (3, 0x03804)
  | .wrTdbah _ => (3, 0x23804)
  | .rdTdlen => (3, 0x03808)
  | .wrTdlen _ => (3, 0x23808)
  | .rdTdh => (3, 0x03810)
  | .wrTdh _ => (3, 0x23810)
  | .rdTdt => (3, 0x03818)
  | .wrTdt _ => (3, 0x23818)
  | .rdRal => (3, 0x05400)
  | .wrRal _ => (3, 0x25400)
  | .rdRah => (3, 0x05404)
  | .wrRah _ => (3, 0x25404)
  | .attach _ => (1, 0x01)
  | .eerdReadWord _ => (1, 0x02)
  | .transmit _ => (1, 0x03)
  | .receive _ => (1, 0x04)
  | .txFetch => (1, 0x10)
  | .txComplete => (1, 0x11)
  | .rxDeposit => (1, 0x12)
  | .rxDrop => (1, 0x13)
  | .eeComplete => (1, 0x14)
  | .inBridgeIter => (1, 0x20)
  | .outBridgeIter => (1, 0x21)

/-- The first bytes of an operation's record are its row's match value: an 18-bit selector in three bytes of a 32-bit
bus transaction, or an id in one byte. -/
def Statement (i : Instr) : Prop :=
  leValue ((encode Config.reference i).bytes.take ((row i).1)) = (row i).2 ∧
    (encode Config.reference i).format = if (row i).1 = 3 then .mmio 4 else .opid

/-- A write operation's record has its row's selector when the row is the register's (R102). -/
theorem ofWrite {i : Instr} {r : Reg} {v : Word} (he : encode Config.reference i = encodeWrite Config.reference r v)
    (hr : row i = (3, 0x20000 + r.offset Config.reference)) : Statement i := by
  unfold Statement
  rw [he, hr]
  exact ⟨encodeWrite_selector r v, rfl⟩

theorem rdCtrl : Statement .rdCtrl := ⟨rfl, rfl⟩
theorem wrCtrl (v : Word) : Statement (.wrCtrl v) := ofWrite (r := .ctrl) (v := v) rfl rfl
theorem rdStatus : Statement .rdStatus := ⟨rfl, rfl⟩
theorem wrStatus (v : Word) : Statement (.wrStatus v) := ofWrite (r := .status) (v := v) rfl rfl
theorem rdEerd : Statement .rdEerd := ⟨rfl, rfl⟩
theorem wrEerd (v : Word) : Statement (.wrEerd v) := ofWrite (r := .eerd) (v := v) rfl rfl
theorem rdRctl : Statement .rdRctl := ⟨rfl, rfl⟩
theorem wrRctl (v : Word) : Statement (.wrRctl v) := ofWrite (r := .rctl) (v := v) rfl rfl
theorem rdTctl : Statement .rdTctl := ⟨rfl, rfl⟩
theorem wrTctl (v : Word) : Statement (.wrTctl v) := ofWrite (r := .tctl) (v := v) rfl rfl
theorem rdTipg : Statement .rdTipg := ⟨rfl, rfl⟩
theorem wrTipg (v : Word) : Statement (.wrTipg v) := ofWrite (r := .tipg) (v := v) rfl rfl
theorem rdRdbal : Statement .rdRdbal := ⟨rfl, rfl⟩
theorem wrRdbal (v : Word) : Statement (.wrRdbal v) := ofWrite (r := .rdbal) (v := v) rfl rfl
theorem rdRdbah : Statement .rdRdbah := ⟨rfl, rfl⟩
theorem wrRdbah (v : Word) : Statement (.wrRdbah v) := ofWrite (r := .rdbah) (v := v) rfl rfl
theorem rdRdlen : Statement .rdRdlen := ⟨rfl, rfl⟩
theorem wrRdlen (v : Word) : Statement (.wrRdlen v) := ofWrite (r := .rdlen) (v := v) rfl rfl
theorem rdRdh : Statement .rdRdh := ⟨rfl, rfl⟩
theorem wrRdh (v : Word) : Statement (.wrRdh v) := ofWrite (r := .rdh) (v := v) rfl rfl
theorem rdRdt : Statement .rdRdt := ⟨rfl, rfl⟩
theorem wrRdt (v : Word) : Statement (.wrRdt v) := ofWrite (r := .rdt) (v := v) rfl rfl
theorem rdTdbal : Statement .rdTdbal := ⟨rfl, rfl⟩
theorem wrTdbal (v : Word) : Statement (.wrTdbal v) := ofWrite (r := .tdbal) (v := v) rfl rfl
theorem rdTdbah : Statement .rdTdbah := ⟨rfl, rfl⟩
theorem wrTdbah (v : Word) : Statement (.wrTdbah v) := ofWrite (r := .tdbah) (v := v) rfl rfl
theorem rdTdlen : Statement .rdTdlen := ⟨rfl, rfl⟩
theorem wrTdlen (v : Word) : Statement (.wrTdlen v) := ofWrite (r := .tdlen) (v := v) rfl rfl
theorem rdTdh : Statement .rdTdh := ⟨rfl, rfl⟩
theorem wrTdh (v : Word) : Statement (.wrTdh v) := ofWrite (r := .tdh) (v := v) rfl rfl
theorem rdTdt : Statement .rdTdt := ⟨rfl, rfl⟩
theorem wrTdt (v : Word) : Statement (.wrTdt v) := ofWrite (r := .tdt) (v := v) rfl rfl
theorem rdRal : Statement .rdRal := ⟨rfl, rfl⟩
theorem wrRal (v : Word) : Statement (.wrRal v) := ofWrite (r := .ral) (v := v) rfl rfl
theorem rdRah : Statement .rdRah := ⟨rfl, rfl⟩
theorem wrRah (v : Word) : Statement (.wrRah v) := ofWrite (r := .rah) (v := v) rfl rfl
theorem attach (h : Addr) : Statement (.attach h) := ⟨rfl, rfl⟩
theorem eerdReadWord (a : BitVec 8) : Statement (.eerdReadWord a) := ⟨rfl, rfl⟩
theorem transmit (payload : Frame) : Statement (.transmit payload) := ⟨rfl, rfl⟩
theorem receive (out : List Byte) : Statement (.receive out) := ⟨rfl, rfl⟩
theorem txFetch : Statement .txFetch := ⟨rfl, rfl⟩
theorem txComplete : Statement .txComplete := ⟨rfl, rfl⟩
theorem rxDeposit : Statement .rxDeposit := ⟨rfl, rfl⟩
theorem rxDrop : Statement .rxDrop := ⟨rfl, rfl⟩
theorem eeComplete : Statement .eeComplete := ⟨rfl, rfl⟩
theorem inBridgeIter : Statement .inBridgeIter := ⟨rfl, rfl⟩
theorem outBridgeIter : Statement .outBridgeIter := ⟨rfl, rfl⟩

end TableWord

end Sys2Proof.Laws
end

