-- ==== Sys2Proof/Laws/Step.lean ====
section
/-! SUPPORT. Everything a step can do, said once: by event, by operation, and for ATTACH by access. -/

namespace Sys2Proof.Machine

theorem map_ok_cases {α β ε : Type} {f : α → β} {e : Except ε α} {b : β} (h : e.map f = .ok b) :
    ∃ a, e = .ok a ∧ b = f a := by
  cases e with
  | ok a => exact ⟨a, rfl, by simpa [Except.map] using h.symm⟩
  | error e => cases h

/-- A step leaves the state, refuses a bus access, runs an operation or makes a move of ENV. -/
theorem step_cases {s t : State} (h : step s = .next t) :
    (s.schedule = [] ∧ t = s) ∨
    ∃ rest, s.refused = none ∧
      ((∃ e, t = { s with schedule := rest }.refuse e) ∨
       (∃ i, exec i { s with schedule := rest } = .next t) ∨
       ∃ m, envMove m { s with schedule := rest } = .next t) := by
  unfold step at h
  split at h
  · cases h
  · next hr =>
    split at h
    · next hs => exact .inl ⟨hs, (Host.Outcome.next.inj h).symm⟩
    · next m rest hs => exact .inr ⟨rest, hr, .inr (.inr ⟨m, h⟩)⟩
    · next r rest hs =>
      split at h
      · exact .inr ⟨rest, hr, .inr (.inl ⟨_, h⟩)⟩
      · exact .inr ⟨rest, hr, .inl ⟨_, (Host.Outcome.next.inj h).symm⟩⟩
      · cases h

/-- Everything ATTACH can do when it is called or goes on (R185, R186, R188, R190). -/
theorem execAttach_cases {h : Addr} {s t : State} (he : execAttach h s = .next t) :
    (∃ e, t = s.refuse e) ∨
    (s.attached = false ∧ s.attachFailed = false ∧
      ((s.sw = .idle ∧ s.collab.mapFails = true ∧
        t = { s with attachFailed := true }.returns .attach (.err .attachFailure)) ∨
       (s.sw = .idle ∧ s.collab.mapFails = false ∧ t = s.atStage h (zeroTxFrom s.cfg 0)) ∨
       ∃ st, s.sw = .attaching h st ∧ attachStep h st s = .ok t)) := by
  unfold execAttach at he
  split at he
  · exact .inl ⟨_, (Host.Outcome.next.inj he).symm⟩
  · next h1 =>
    split at he
    · exact .inl ⟨_, (Host.Outcome.next.inj he).symm⟩
    · next h2 =>
      have h1 : s.attachFailed = false := by simpa using h1
      have h2 : s.attached = false := by simpa using h2
      split at he
      · next hs =>
        split at he
        · next h3 => exact .inr ⟨h2, h1, .inl ⟨hs, h3, (Host.Outcome.next.inj he).symm⟩⟩
        · next h3 => exact .inr ⟨h2, h1, .inr (.inl ⟨hs, by simpa using h3, (Host.Outcome.next.inj he).symm⟩)⟩
      · next h' st hs =>
        split at he
        · next e =>
          subst e
          rcases settle_cases he with he | ⟨r, -, he⟩
          · exact .inr ⟨h2, h1, .inr (.inr ⟨st, hs, he⟩)⟩
          · exact .inl ⟨r, he⟩
        · exact .inl ⟨_, (Host.Outcome.next.inj he).symm⟩
      · exact .inl ⟨_, (Host.Outcome.next.inj he).symm⟩

/-- What an access of ATTACH at stage `st` may change, and what it leaves. -/
structure AttachAccess (st : AttachStage) (s t : State) : Prop where
  outside : ∀ q, st.target s.cfg = some q → ∀ b, Mem.Outside q.1 q.2 b → Mem.get t.mem b = Mem.get s.mem b
  mem : st.target s.cfg = none → t.mem = s.mem
  wf : Mem.wf s.mem → Mem.wf t.mem
  ctrl : t.reg .ctrl = s.reg .ctrl
  status : t.reg .status = s.reg .status
  attached : s.attached = true → t.attached = true
  rest : t = { s with regs := t.regs, mem := t.mem, txTail := t.txTail, rxTail := t.rxTail, eePending := t.eePending,
                      attached := t.attached, sw := t.sw, station := t.station, busData := t.busData,
                      results := t.results, draws := t.draws }

/-- An access that stores nothing. -/
theorem AttachAccess.quiet {st : AttachStage} {s t : State} (hm : t.mem = s.mem) (hc : t.reg .ctrl = s.reg .ctrl)
    (hs : t.reg .status = s.reg .status) (ha : s.attached = true → t.attached = true)
    (hr : t = { s with regs := t.regs, mem := t.mem, txTail := t.txTail, rxTail := t.rxTail,
                       eePending := t.eePending, attached := t.attached, sw := t.sw, station := t.station,
                       busData := t.busData, results := t.results, draws := t.draws }) : AttachAccess st s t :=
  ⟨fun _ _ _ _ => by rw [hm], fun _ => hm, fun h => by rw [hm]; exact h, hc, hs, ha, hr⟩

/-- What a store of ATTACH into a slot of a ring answers (R84). -/
theorem attachTx_ok {s t u : State} {i : Nat} (h : attachTx s i t = .ok u) :
    i < s.cfg.nTx ∧ ((s.txEnabled = true → s.txFlag i = true) ∧ s.txFetched i = false) ∧ u = t := by unfold attachTx at h; grind
theorem attachRx_ok {s t u : State} {i : Nat} (h : attachRx s i t = .ok u) :
    i < s.cfg.nRx ∧ (s.rxEnabled = true → s.rxFlag i = true) ∧ u = t := by unfold attachRx at h; grind

/-- A stage that fills with zeros (R186 step 2). -/
theorem AttachAccess.zero (s : State) (h : Addr) (st next : AttachStage) :
    AttachAccess st s ((s.zeroTarget st).atStage h next) := by
  unfold State.zeroTarget
  split
  · next q hq =>
    refine ⟨fun r hr b hb => ?_, fun hn => ?_, Mem.zeroFill_wf _ _, rfl, rfl, id, rfl⟩
    · obtain rfl := Option.some.inj (hq.symm.trans hr)
      exact Mem.get_zeroFill_outside _ _ _ _ hb
    · rw [hq] at hn; cases hn
  · exact .quiet rfl rfl rfl id rfl

/-- A stage that stores one field of a slot (R186 step 3). -/
theorem AttachAccess.field {s : State} (h : Addr) {st : AttachStage} (next : AttachStage) {a n : Nat} (v : Nat)
    (ht : st.target s.cfg = some (a, n)) :
    AttachAccess st s ((s.setMem (Mem.write s.mem a n v)).atStage h next) := by
  refine ⟨fun r hr b hb => ?_, fun hn => ?_, Mem.write_wf _ _ _, rfl, rfl, id, rfl⟩
  · obtain rfl := Option.some.inj (ht.symm.trans hr)
    exact Mem.get_write_outside _ _ _ _ _ hb
  · rw [ht] at hn; cases hn

theorem AttachAccess.setReg {st : AttachStage} {s : State} (h : Addr) (next : AttachStage) {r : Reg} (v : Word)
    (hc : r ≠ .ctrl) (hs : r ≠ .status) : AttachAccess st s ((s.setReg r v).atStage h next) :=
  .quiet rfl (State.reg_setReg_ne s v hc.symm) (State.reg_setReg_ne s v hs.symm) id rfl

theorem AttachAccess.eerd {st : AttachStage} {s u : State} (h : Addr) (next : AttachStage) {v : Word}
    (hw : writeEerd v s = .ok u) : AttachAccess st s (u.atStage h next) := by
  obtain ⟨-, rfl⟩ := writeEerd_iff.1 hw
  exact .quiet rfl rfl rfl id rfl

theorem AttachAccess.spin {st : AttachStage} (s : State) (h : Addr) (k : Half → AttachStage) :
    AttachAccess st s (s.spin fun w t => t.atStage h (k w)) := by
  unfold State.spin
  split <;> exact .quiet rfl rfl rfl id rfl

/-- What one access of ATTACH changes. -/
theorem attachStep_access {h : Addr} {st : AttachStage} {s t : State} (he : attachStep h st s = .ok t) :
    AttachAccess st s t := by
  cases st <;> simp only [attachStep] at he
  case zeroTxDesc i =>
    obtain ⟨u, hu, rfl⟩ := map_ok_cases he
    obtain ⟨-, -, rfl⟩ := attachTx_ok hu
    exact .zero _ _ _ _
  case zeroTxBuf i =>
    obtain ⟨u, hu, rfl⟩ := map_ok_cases he
    obtain ⟨-, -, rfl⟩ := attachTx_ok hu
    exact .zero _ _ _ _
  case zeroRxDesc i =>
    obtain ⟨u, hu, rfl⟩ := map_ok_cases he
    obtain ⟨-, -, rfl⟩ := attachRx_ok hu
    exact .zero _ _ _ _
  case zeroRxBuf i =>
    obtain ⟨u, hu, rfl⟩ := map_ok_cases he
    obtain ⟨-, -, rfl⟩ := attachRx_ok hu
    exact .zero _ _ _ _
  case bindTxAddr i =>
    obtain ⟨u, hu, rfl⟩ := map_ok_cases he
    obtain ⟨-, -, rfl⟩ := attachTx_ok hu
    exact .field _ _ _ rfl
  case bindTxStatus i =>
    obtain ⟨u, hu, rfl⟩ := map_ok_cases he
    obtain ⟨-, -, rfl⟩ := attachTx_ok hu
    exact .field _ _ _ rfl
  case bindRx i =>
    obtain ⟨u, hu, rfl⟩ := map_ok_cases he
    obtain ⟨-, -, rfl⟩ := attachRx_ok hu
    exact .field _ _ _ rfl
  case finish =>
    obtain rfl : _ = t := by simpa using he
    exact .quiet rfl rfl rfl (fun _ => rfl) rfl
  case spin0 => obtain rfl : _ = t := by simpa using he
                exact .spin s h _
  case spin1 => obtain rfl : _ = t := by simpa using he
                exact .spin s h _
  case spin2 => obtain rfl : _ = t := by simpa using he
                exact .spin s h _
  case wrTdt =>
    obtain ⟨u, hu, rfl⟩ := map_ok_cases he
    obtain ⟨w, hw, rfl⟩ := map_ok_cases hu
    obtain ⟨-, rfl⟩ := writeTdt_iff.1 hw
    exact .quiet rfl rfl rfl id rfl
  case wrRdt =>
    obtain ⟨u, hu, rfl⟩ := map_ok_cases he
    obtain ⟨w, hw, rfl⟩ := map_ok_cases hu
    obtain ⟨-, rfl⟩ := writeRdt_iff.1 hw
    exact .quiet rfl rfl rfl id rfl
  case wrTdbal =>
    obtain ⟨u, hu, rfl⟩ := map_ok_cases he
    obtain ⟨-, rfl⟩ := writeTdbal_iff.1 hu
    exact .setReg _ _ _ (by decide) (by decide)
  case wrTdbah =>
    obtain ⟨u, hu, rfl⟩ := map_ok_cases he
    obtain ⟨-, rfl⟩ := writeTdbah_iff.1 hu
    exact .setReg _ _ _ (by decide) (by decide)
  case wrTdlen =>
    obtain ⟨u, hu, rfl⟩ := map_ok_cases he
    obtain ⟨-, rfl⟩ := writeTdlen_iff.1 hu
    exact .setReg _ _ _ (by decide) (by decide)
  case wrTdh =>
    obtain ⟨u, hu, rfl⟩ := map_ok_cases he
    obtain ⟨-, rfl⟩ := writeTdh_iff.1 hu
    exact .setReg _ _ _ (by decide) (by decide)
  case wrRdbal =>
    obtain ⟨u, hu, rfl⟩ := map_ok_cases he
    obtain ⟨-, rfl⟩ := writeRdbal_iff.1 hu
    exact .setReg _ _ _ (by decide) (by decide)
  case wrRdbah =>
    obtain ⟨u, hu, rfl⟩ := map_ok_cases he
    obtain ⟨-, rfl⟩ := writeRdbah_iff.1 hu
    exact .setReg _ _ _ (by decide) (by decide)
  case wrRdlen =>
    obtain ⟨u, hu, rfl⟩ := map_ok_cases he
    obtain ⟨-, rfl⟩ := writeRdlen_iff.1 hu
    exact .setReg _ _ _ (by decide) (by decide)
  case wrRdh =>
    obtain ⟨u, hu, rfl⟩ := map_ok_cases he
    obtain ⟨-, rfl⟩ := writeRdh_iff.1 hu
    exact .setReg _ _ _ (by decide) (by decide)
  case wrTctl =>
    obtain ⟨u, hu, rfl⟩ := map_ok_cases he
    obtain ⟨-, rfl⟩ := writeTctl_iff.1 hu
    exact .setReg _ _ _ (by decide) (by decide)
  case wrTipg =>
    obtain ⟨u, hu, rfl⟩ := map_ok_cases he
    obtain ⟨-, rfl⟩ := writeTipg_iff.1 hu
    exact .setReg _ _ _ (by decide) (by decide)
  case wrRal =>
    obtain ⟨u, hu, rfl⟩ := map_ok_cases he
    obtain ⟨-, rfl⟩ := writeRal_iff.1 hu
    exact .quiet rfl rfl rfl id rfl
  case wrRah =>
    obtain ⟨u, hu, rfl⟩ := map_ok_cases he
    obtain ⟨-, rfl⟩ := writeRah_iff.1 hu
    exact .quiet rfl rfl rfl id rfl
  case wrRctl =>
    obtain ⟨u, hu, rfl⟩ := map_ok_cases he
    obtain ⟨-, rfl⟩ := writeRctl_iff.1 hu
    exact .setReg _ _ _ (by decide) (by decide)
  all_goals
    obtain ⟨u, hu, rfl⟩ := map_ok_cases he
    exact .eerd _ _ hu

/-- Everything EERD_READ_WORD can do (R180): refuse, start the read, poll, return. -/
theorem execEerdReadWord_cases {a : BitVec 8} {s t : State} (he : execEerdReadWord a s = .next t) :
    (∃ e, t = s.refuse e) ∨
    (s.attachFailed = false ∧
      ((s.sw = .idle ∧ s.attached = true ∧
        ∃ u, writeEerd (eerdStartWord s.cfg.layout a) s = .ok u ∧ t = { u with sw := .readingWord a }) ∨
       (s.sw = .readingWord a ∧ s.eeDone ≠ 1 ∧ t = s.pollEerd) ∨
       (s.sw = .readingWord a ∧ s.eeDone = 1 ∧
        t = { s.pollEerd.returns .eerdReadWord (.okWord s.eeData) with sw := .idle }))) := by
  unfold execEerdReadWord at he
  split at he
  · exact .inl ⟨_, (Host.Outcome.next.inj he).symm⟩
  · next hf =>
    have hf : s.attachFailed = false := by simpa using hf
    split at he
    · next hs =>
      split at he
      · next ha =>
        rcases settle_cases he with he | ⟨r, -, he⟩
        · obtain ⟨u, hu, rfl⟩ := map_ok_cases he
          exact .inr ⟨hf, .inl ⟨hs, ha, u, hu, rfl⟩⟩
        · exact .inl ⟨r, he⟩
      · exact .inl ⟨_, (Host.Outcome.next.inj he).symm⟩
    · next b hs =>
      split at he
      · next e =>
        subst e
        have he := (Host.Outcome.next.inj he).symm
        unfold State.spin at he
        split at he
        · next h1 => exact .inr ⟨hf, .inr (.inr ⟨hs, h1, he⟩)⟩
        · next h1 => exact .inr ⟨hf, .inr (.inl ⟨hs, h1, he⟩)⟩
      · exact .inl ⟨_, (Host.Outcome.next.inj he).symm⟩
    · exact .inl ⟨_, (Host.Outcome.next.inj he).symm⟩

theorem execTransmit_cases {payload : Frame} {s t : State} (h : execTransmit payload s = .next t) :
    (∃ e, t = s.refuse e) ∨ ∃ e, transmitOp payload.length payload s = .ok (e, t) := by
  rcases settle_cases h with h | ⟨r, -, h⟩
  · obtain ⟨⟨e, u⟩, he, hb⟩ := map_ok_cases h
    simp only at hb
    subst hb
    exact .inr ⟨e, he⟩
  · exact .inl ⟨r, h⟩

theorem execReceive_cases {out : List Byte} {s t : State} (h : execReceive out s = .next t) :
    (∃ e, t = s.refuse e) ∨ receiveOp out s = .ok (none, t) ∨
    ∃ n data u, receiveOp out s = .ok (some (n, data), u) ∧ t = { u with outBuffer := data } := by
  rcases settle_cases h with h | ⟨r, -, h⟩
  · obtain ⟨⟨e, u⟩, he, hb⟩ := map_ok_cases h
    cases e with
    | none => simp only at hb; subst hb; exact .inr (.inl he)
    | some p => exact .inr (.inr ⟨p.1, p.2, u, he, hb⟩)
  · exact .inl ⟨r, h⟩

/-- The operations: register accesses, the four driver operations, the five hardware steps, the two bridges (R125). -/
theorem Instr.kinds (i : Instr) : (i.isRegWrite = true ∨ ∃ r : Reg, i = r.readOp) ∨ (∃ h, i = .attach h) ∨
    (∃ a, i = .eerdReadWord a) ∨ (∃ p, i = .transmit p) ∨ (∃ b, i = .receive b) ∨ i = .txFetch ∨ i = .txComplete ∨
    i = .rxDeposit ∨ i = .rxDrop ∨ i = .eeComplete ∨ i = .inBridgeIter ∨ i = .outBridgeIter := by
  cases i
  case rdCtrl => exact .inl (.inr ⟨.ctrl, rfl⟩)
  case rdStatus => exact .inl (.inr ⟨.status, rfl⟩)
  case rdEerd => exact .inl (.inr ⟨.eerd, rfl⟩)
  case rdRctl => exact .inl (.inr ⟨.rctl, rfl⟩)
  case rdTctl => exact .inl (.inr ⟨.tctl, rfl⟩)
  case rdTipg => exact .inl (.inr ⟨.tipg, rfl⟩)
  case rdRdbal => exact .inl (.inr ⟨.rdbal, rfl⟩)
  case rdRdbah => exact .inl (.inr ⟨.rdbah, rfl⟩)
  case rdRdlen => exact .inl (.inr ⟨.rdlen, rfl⟩)
  case rdRdh => exact .inl (.inr ⟨.rdh, rfl⟩)
  case rdRdt => exact .inl (.inr ⟨.rdt, rfl⟩)
  case rdTdbal => exact .inl (.inr ⟨.tdbal, rfl⟩)
  case rdTdbah => exact .inl (.inr ⟨.tdbah, rfl⟩)
  case rdTdlen => exact .inl (.inr ⟨.tdlen, rfl⟩)
  case rdTdh => exact .inl (.inr ⟨.tdh, rfl⟩)
  case rdTdt => exact .inl (.inr ⟨.tdt, rfl⟩)
  case rdRal => exact .inl (.inr ⟨.ral, rfl⟩)
  case rdRah => exact .inl (.inr ⟨.rah, rfl⟩)
  all_goals first | exact .inl (.inl rfl) | simp [Instr.isRegWrite]

/-- A register access by SW, by name or as ATTACH makes it: what a register read or write by SW can do (R140). -/
theorem regAccess_cases {i : Instr} {s t : State} (h : exec i s = .next t)
    (hi : i.isRegWrite = true ∨ ∃ r : Reg, i = r.readOp) :
    (∃ e, t = s.refuse e) ∨ (∃ v n, t = { s with busData := v, draws := n }) ∨
    ∃ r v p n st, i.mayWrite r = true ∧ (i = r.writeOp v ∨ r = .eerd) ∧
      (st = s.station ∨ r = .ral ∨ r = .rah) ∧ t = { s.setReg r v with eePending := p, draws := n, station := st } := by
  have rd : ∀ r, busRead r s = .next t → (∃ e, t = s.refuse e) ∨ (∃ v n, t = { s with busData := v, draws := n }) ∨
      ∃ r v p n st, i.mayWrite r = true ∧ (i = r.writeOp v ∨ r = .eerd) ∧
        (st = s.station ∨ r = .ral ∨ r = .rah) ∧ t = { s.setReg r v with eePending := p, draws := n, station := st } :=
    fun r hr => by
    rcases busRead_cases hr with ⟨-, rfl⟩ | h
    · exact .inr (.inl ⟨_, _, rfl⟩)
    · exact .inl h
  have wr : ∀ {w : State → Except Refuse State} r v, (∀ u, w s = .ok u → ∃ st, (st = s.station ∨ r = .ral ∨ r = .rah) ∧
        u = { s.setReg r v with station := st }) →
      i.mayWrite r = true → i = r.writeOp v → busWrite w s = .next t →
      (∃ e, t = s.refuse e) ∨ (∃ v n, t = { s with busData := v, draws := n }) ∨
      ∃ r v p n st, i.mayWrite r = true ∧ (i = r.writeOp v ∨ r = .eerd) ∧
        (st = s.station ∨ r = .ral ∨ r = .rah) ∧ t = { s.setReg r v with eePending := p, draws := n, station := st } :=
    fun r v hw hm hi hr => by
    rcases busWrite_cases hr with ⟨-, h⟩ | h
    · obtain ⟨st, hst, h⟩ := hw _ h
      exact .inr (.inr ⟨r, v, s.eePending, s.draws, st, hm, .inl hi, hst, h⟩)
    · exact .inl h
  cases i
  case wrEerd v =>
    rcases busWrite_cases h with ⟨-, h⟩ | h
    · exact .inr (.inr ⟨.eerd, _, _, _, s.station, rfl, .inr rfl, .inl rfl, (writeEerd_iff.1 h).2⟩)
    · exact .inl h
  case rdEerd =>
    simp only [exec] at h
    unfold execRdEerd at h
    split at h
    · exact .inl ⟨_, (Host.Outcome.next.inj h).symm⟩
    · exact .inr (.inl ⟨_, _, (Host.Outcome.next.inj h).symm⟩)
  case rdCtrl => exact .inl ⟨_, (Host.Outcome.next.inj h).symm⟩
  case rdStatus => exact .inl ⟨_, (Host.Outcome.next.inj h).symm⟩
  case wrCtrl => exact .inl ⟨_, (Host.Outcome.next.inj h).symm⟩
  case wrStatus => exact .inl ⟨_, (Host.Outcome.next.inj h).symm⟩
  case rdRctl => exact rd _ h
  case rdTctl => exact rd _ h
  case rdTipg => exact rd _ h
  case rdRdbal => exact rd _ h
  case rdRdbah => exact rd _ h
  case rdRdlen => exact rd _ h
  case rdRdh => exact rd _ h
  case rdRdt => exact rd _ h
  case rdTdbal => exact rd _ h
  case rdTdbah => exact rd _ h
  case rdTdlen => exact rd _ h
  case rdTdh => exact rd _ h
  case rdTdt => exact rd _ h
  case rdRal => exact rd _ h
  case rdRah => exact rd _ h
  case wrRctl v => exact wr .rctl v (fun _ h => ⟨s.station, .inl rfl, (writeRctl_iff.1 h).2⟩) rfl rfl h
  case wrTctl v => exact wr .tctl v (fun _ h => ⟨s.station, .inl rfl, (writeTctl_iff.1 h).2⟩) rfl rfl h
  case wrTipg v => exact wr .tipg v (fun _ h => ⟨s.station, .inl rfl, (writeTipg_iff.1 h).2⟩) rfl rfl h
  case wrRdbal v => exact wr .rdbal v (fun _ h => ⟨s.station, .inl rfl, (writeRdbal_iff.1 h).2⟩) rfl rfl h
  case wrRdbah v => exact wr .rdbah v (fun _ h => ⟨s.station, .inl rfl, (writeRdbah_iff.1 h).2⟩) rfl rfl h
  case wrRdlen v => exact wr .rdlen v (fun _ h => ⟨s.station, .inl rfl, (writeRdlen_iff.1 h).2⟩) rfl rfl h
  case wrRdh v => exact wr .rdh v (fun _ h => ⟨s.station, .inl rfl, (writeRdh_iff.1 h).2⟩) rfl rfl h
  case wrRdt v => exact wr .rdt v (fun _ h => ⟨s.station, .inl rfl, (writeRdt_iff.1 h).2⟩) rfl rfl h
  case wrTdbal v => exact wr .tdbal v (fun _ h => ⟨s.station, .inl rfl, (writeTdbal_iff.1 h).2⟩) rfl rfl h
  case wrTdbah v => exact wr .tdbah v (fun _ h => ⟨s.station, .inl rfl, (writeTdbah_iff.1 h).2⟩) rfl rfl h
  case wrTdlen v => exact wr .tdlen v (fun _ h => ⟨s.station, .inl rfl, (writeTdlen_iff.1 h).2⟩) rfl rfl h
  case wrTdh v => exact wr .tdh v (fun _ h => ⟨s.station, .inl rfl, (writeTdh_iff.1 h).2⟩) rfl rfl h
  case wrTdt v => exact wr .tdt v (fun _ h => ⟨s.station, .inl rfl, (writeTdt_iff.1 h).2⟩) rfl rfl h
  case wrRal v => exact wr .ral v (fun _ h => ⟨_, .inr (.inl rfl), (writeRal_iff.1 h).2⟩) rfl rfl h
  case wrRah v => exact wr .rah v (fun _ h => ⟨_, .inr (.inr rfl), (writeRah_iff.1 h).2⟩) rfl rfl h
  all_goals
    rcases hi with hi | ⟨r, hr⟩
    · cases hi
    · cases r <;> cases hr

end Sys2Proof.Machine
end

