-- ==== Sys2Proof/Laws/Transport.lean ====
section
/-! SUPPORT. What carries an invariant over a step that leaves what the invariant reads: the canonical form of memory,
the two ring invariants; and the meanings of TRANSMIT, RECEIVE and the engines' conditions in the words of Safety. -/

namespace Sys2Proof.Machine

/-! ### The canonical form of memory -/

theorem State.armSlot_wf {s : State} (len : Nat) (payload : Frame) (h : Mem.wf s.mem) :
    Mem.wf (s.armSlot len payload).mem := by
  rw [State.armSlot_mem]
  exact Mem.write_wf _ _ _ (Mem.write_wf _ _ _ (Mem.write_wf _ _ _ (Mem.writeBytes_wf _ _ h)))

theorem State.drainSlot_wf {s : State} (c : Nat) (h : Mem.wf s.mem) : Mem.wf (s.drainSlot c).mem :=
  Mem.write_wf _ _ _ h

theorem State.depositInto_wf {s : State} (i : Nat) (f : Frame) (h : Mem.wf s.mem) :
    Mem.wf (s.depositInto i f).mem := by
  rw [State.depositInto_mem]
  exact Mem.write_wf _ _ _ (Mem.write_wf _ _ _ (Mem.write_wf _ _ _ (Mem.write_wf _ _ _ (Mem.write_wf _ _ _
    (Mem.writeBytes_wf _ _ h)))))

/-! ### TRANSMIT, RECEIVE and the engines' conditions -/

theorem State.SwReady.transmitOp_eq {s : State} (h : s.SwReady) (len : Nat) (payload : Frame) :
    transmitOp len payload s =
      if s.cfg.maxFrameLen < len then
        .ok (some .payloadTooLarge, s.returns .transmit (.err .payloadTooLarge))
      else if s.cfg.nTx ≤ s.txTail then .error .slotIndex
      else if !s.txFlag s.txTail then .ok (some .queueFull, s.returns .transmit (.err .queueFull))
      else .ok (none, (s.armSlot len payload).returns .transmit .ok) := by
  unfold transmitOp
  rw [h.swBlocked]

theorem State.SwReady.receiveOp_eq {s : State} (h : s.SwReady) (hr : s.rxTail < s.cfg.nRx) {out : List Byte}
    (ho : s.cfg.rxBufSize ≤ out.length) :
    receiveOp out s =
      if !s.rxFlag s.rxCandidate then .ok (none, s.returns .receive (.err .queueEmpty))
      else if s.cfg.rxBufSize < s.rxd s.rxCandidate .length then .error .rxLength
      else .ok (some (s.rxd s.rxCandidate .length, s.rxFrame s.rxCandidate ++ out.drop (s.rxd s.rxCandidate .length)),
        (s.drainSlot s.rxCandidate).returns .receive (.okCount (s.rxd s.rxCandidate .length))) := by
  unfold receiveOp
  rw [h.swBlocked]
  simp only
  rw [if_neg (by omega), if_neg (by omega)]
  rfl

/-- What TRANSMIT leaves of the state, and the one register it writes. -/
theorem transmitOp_frame {s t : State} {len : Nat} {payload : Frame} {e : Option ErrKind}
    (he : transmitOp len payload s = .ok (e, t)) :
    t = { s with regs := t.regs, mem := t.mem, txTail := t.txTail, results := t.results } ∧
      ∀ r, r ≠ .tdt → t.reg r = s.reg r := by
  rcases (transmitOp_cases he).2 with ⟨-, -, rfl⟩ | ⟨-, -, -, -, rfl⟩ | ⟨-, -, -, -, rfl⟩
  · exact ⟨rfl, fun _ _ => rfl⟩
  · exact ⟨rfl, fun _ _ => rfl⟩
  · exact ⟨by apply State.ext <;> rfl, fun r h => RegFile.get_set_ne _ _ h⟩

/-- What RECEIVE leaves of the state, and the one register it writes. -/
theorem receiveOp_frame {s t : State} {out : List Byte} {r : Option (Nat × List Byte)}
    (he : receiveOp out s = .ok (r, t)) :
    t = { s with regs := t.regs, mem := t.mem, rxTail := t.rxTail, results := t.results } ∧
      ∀ r, r ≠ .rdt → t.reg r = s.reg r := by
  rcases (receiveOp_cases he).2.2.2 with ⟨-, -, rfl⟩ | ⟨-, -, -, -, rfl⟩
  · exact ⟨rfl, fun _ _ => rfl⟩
  · exact ⟨by apply State.ext <;> rfl, fun r h => RegFile.get_set_ne _ _ h⟩

theorem State.txArmed_iff {s : State} (h : s.txEnabled = true) : s.txArmed = true ↔ s.FetchEnabled := by
  unfold State.txArmed State.FetchEnabled
  cases hr : s.cfg.txArmRule <;> simp [h]

theorem State.rxOffered_iff {s : State} (h : s.rxEnabled = true) (hw : s.wireIn ≠ []) :
    s.rxOffered = true ↔ s.DepositEnabled := by
  unfold State.rxOffered State.DepositEnabled
  cases hr : s.cfg.rxOfferRule <;> simp [h, hw, and_assoc]

theorem State.SwReady.rxTailPublished {s : State} (h : s.SwReady) : s.rxTailPublished = true := by
  unfold State.rxTailPublished; rw [h.2.1]

/-! ### The ring invariants -/

/-- The transmit ring invariant reads only these. -/
theorem TxRing.transport {s u : State} {d m p : Nat} (h : TxRing s d m p) (hc : u.cfg = s.cfg)
    (h1 : u.reg .tdh = s.reg .tdh) (h2 : u.reg .tdt = s.reg .tdt) (h3 : u.reg .tdlen = s.reg .tdlen)
    (h4 : u.txTail = s.txTail) (h5 : u.txPending = s.txPending)
    (h6 : ∀ i < s.cfg.nTx, ∀ g, u.txd i g = s.txd i g) : TxRing u d m p := by
  have hf : ∀ i < s.cfg.nTx, u.txFlag i = s.txFlag i := fun i hi => by
    unfold State.txFlag State.txStatus; rw [h6 i hi, hc]
  have hcm : ∀ i < s.cfg.nTx, u.txCmd i = s.txCmd i := fun i hi => by
    unfold State.txCmd; rw [h6 i hi]
  have hpos : 0 < s.cfg.nTx := by have := h.oldest_lt; omega
  have hm : ∀ j, (d + j) % s.cfg.nTx < s.cfg.nTx := fun j => Nat.mod_lt _ hpos
  constructor
  · rw [hc]; exact h.oldest_lt
  · exact h.fetched_le
  · rw [hc]; exact h.inFlight_le
  · rw [h5]; exact h.pending
  · unfold State.tdh; rw [hc, h1]; exact h.head
  · rw [hc, h4]; exact h.tail
  · unfold State.tdt; rw [h2, h4]; exact h.published
  · rw [hc, h3]; exact h.size
  · rw [hc]; intro j hj; rw [hf _ (hm j)]; exact h.flags j hj
  · rw [hc]; intro j hj; rw [hcm _ (hm j), h6 _ (hm j)]; exact h.armed j hj
  · rw [hc]; intro i hi; rw [hcm i hi]; exact h.commands i hi
  · rw [hc]; intro i hi; rw [h6 i hi]; exact h.bound i hi

/-- The receive ring invariant reads only these. -/
theorem RxRing.transport {s u : State} {k : Nat} (h : RxRing s k) (hc : u.cfg = s.cfg)
    (h1 : u.reg .rdh = s.reg .rdh) (h2 : u.reg .rdt = s.reg .rdt) (h3 : u.reg .rdlen = s.reg .rdlen)
    (h4 : u.rxTail = s.rxTail) (h6 : ∀ i < s.cfg.nRx, ∀ g, u.rxd i g = s.rxd i g) : RxRing u k := by
  have hf : ∀ i < s.cfg.nRx, u.rxFlag i = s.rxFlag i := fun i hi => by
    unfold State.rxFlag State.rxStatus; rw [h6 i hi, hc]
  have hpos : 0 < s.cfg.nRx := by have := h.tail_lt; omega
  have hm : ∀ j, (s.rxCandidate + j) % s.cfg.nRx < s.cfg.nRx := fun j => Nat.mod_lt _ hpos
  have hcand : u.rxCandidate = s.rxCandidate := by unfold State.rxCandidate; rw [h4, hc]
  constructor
  · rw [hc]; exact h.undrained_le
  · rw [hc, h4]; exact h.tail_lt
  · unfold State.rdh; rw [hc, h1, hcand]; exact h.head
  · unfold State.rdt; rw [h2, h4]; exact h.published
  · rw [hc, h3]; exact h.size
  · rw [hc, hcand]; intro j hj; rw [hf _ (hm j)]; exact h.flags j hj
  · rw [hc, hcand]; intro j hj; rw [h6 _ (hm j)]; exact h.lengths j hj
  · rw [hc]; intro i hi; rw [h6 i hi]; exact h.bound i hi

/-- Both invariants stand where memory, the tails, the count of fetched slots and every register but EERD do. -/
theorem Rings.transport {s u : State} (h : Rings s) (hc : u.cfg = s.cfg) (ha : u.attached = s.attached)
    (hr : ∀ r, r ≠ .eerd → u.reg r = s.reg r) (h4 : u.txTail = s.txTail) (h5 : u.txPending = s.txPending)
    (h6 : u.rxTail = s.rxTail) (hm : u.mem = s.mem) : Rings u := by
  obtain ⟨h0, ⟨d, m, p, ht⟩, k, hk⟩ := h
  exact ⟨ha.trans h0,
    ⟨d, m, p, ht.transport hc (hr _ (by decide)) (hr _ (by decide)) (hr _ (by decide)) h4 h5
      (fun i _ g => State.txd_congr hc hm i g)⟩,
    k, hk.transport hc (hr _ (by decide)) (hr _ (by decide)) (hr _ (by decide)) h6
      (fun i _ g => State.rxd_congr hc hm i g)⟩

end Sys2Proof.Machine
end

