-- ==== Sys2Proof/Tests/Slice0.lean ====
section
/-! SUPPORT. Tests of the model: the check of operands, one word per operation, worked examples of
95_test_vectors.md, and for every statement of Certificates/Slice0 a witness of its hypotheses. -/

namespace Sys2Proof.Tests

open Sys2Proof.Machine
-- One theorem after the other: many kernel evaluations at once need more threads than the memory limit allows.
set_option Elab.async false

/-! ### The small machine -/

/-- S4 of V01 with 16-byte buffers and 20-byte pages, so that the kernel checks small states. -/
def small : Config := { Config.reference with
  nTx := 4, nRx := 4, txBufSize := 16, rxBufSize := 16, maxFrameLen := 16, pageSize := 20, poolPages := 8
  txBufBases := [0x00300000, 0x00300800, 0x00301000, 0x00301800]
  rxBufBases := [0x00400000, 0x00400800, 0x00401000, 0x00401800]
  eeprom := ((Config.reference.eeprom.set 0 0xAABB).set 1 0xCCDD).set 2 0xEEFF }

/-- The alternative rules of R207 and R237. -/
def other : Config := { small with txArmRule := .flagGated, rxOfferRule := .tailGated }

/-- The decoder under the reference register map. -/
def decodeRef (r : Record) : Except DecodeError Instr := decode Config.reference r

/-- After a hardware reset. -/
def fresh : State := { State.reset with cfg := small }

/-- Every slot bound to its buffer, the transmit flags set (R186 step 3). -/
def bound : State := (List.range 4).foldl (fun s i =>
  ((s.setTxd i .addr (small.txBufBase i).toNat).setTxd i .status 1).setRxd i .addr (small.rxBufBase i).toNat) fresh

/-- The launch state, its registers those of V44. -/
def launch : State := { fresh with
  regs := { RegFile.reset with
    tdbal := 0x00200000, tdlen := 0x40, rdbal := 0x00201000, rdlen := 0x40, rdt := 3, tctl := 0x0004010A
    tipg := 0x0060200A, rctl := 0x04000002, ral := 0xCCDDAABB, rah := 0x8000EEFF, eerd := 0xEEFF0210 }
  mem := bound.mem, rxTail := 3, attached := true, station := .both }

/-- The state after an operation that answers one. -/
def after (i : Instr) (s : State) : State :=
  match exec i s with
  | .next t => t
  | .fault _ => s
  | .refused _ => s

/-- The operation answers a next state. -/
def answers (i : Instr) (s : State) : Bool :=
  match exec i s with
  | .next _ => true
  | .fault _ => false
  | .refused _ => false

theorem next_after {i : Instr} {s : State} (h : answers i s = true) : exec i s = .next (after i s) := by
  unfold answers at h
  unfold after
  split at h <;> simp_all

/-- The operation answers this next state. -/
theorem next_eq {i : Instr} {s t : State} (h : answers i s = true) (ht : after i s = t) : exec i s = .next t :=
  ht ▸ next_after h

/-- One frame armed, then fetched; all four slots armed (V04). -/
def armed : State := after (.transmit [0xDE, 0xAD, 0xBE]) launch
def fetched : State := after .txFetch armed
def full : State :=
  after (.transmit [0x13]) (after (.transmit [0x12]) (after (.transmit [0x11]) (after (.transmit [0x10]) launch)))

/-- A frame of two bytes undrained in slot 0 (V18), written as the engine leaves it with every free byte 0. -/
def filled : State :=
  (((launch.setMem (Mem.writeBytes launch.mem 0x00400000 [0x01, 0x02])).setRxd 0 .length 2).setRxd 0 .status 1).setReg
    .rdh 1

/-- A page holding the frame `a1 a2` (V13). -/
def page : List Byte := [2, 0, 0, 0, 0xA1, 0xA2] ++ List.replicate 14 0

/-- The input bridge polling with buffer 7, its page full of 0xEE; the output bridge sending buffer 5, a page in it.
-/
def polled (s : State) : State :=
  { s with mem := Mem.writeBytes s.mem (pageAt s.cfg 7) (List.replicate 20 0xEE), ibPhase := .polling 7 }
def sending (c : Config) (p : List Byte) (s : State) : State :=
  { s with cfg := c, mem := Mem.writeBytes s.mem (pageAt c 5) p, obPhase := .sending 5 }

theorem layout_wf : Layout.reference.WF :=
  ⟨by decide, by decide, by decide, by decide, by decide, by decide, by decide, by decide, by decide⟩
theorem small_wf : small.WF := ⟨by decide +kernel, by decide +kernel, by decide +kernel, by decide, by decide +kernel,
  layout_wf⟩
theorem fetched_cfg : fetched.cfg = small := by decide +kernel
theorem full_cfg : full.cfg = small := by decide +kernel
theorem other_wf : other.WF := ⟨small_wf.sizes, small_wf.rows, small_wf.map, small_wf.unit, small_wf.pool, layout_wf⟩
theorem launch_ready : launch.SwReady := ⟨rfl, rfl, rfl⟩
theorem armed_ready : armed.SwReady := ⟨by decide +kernel, by decide +kernel, by decide +kernel⟩
theorem fetched_ready : fetched.SwReady := ⟨by decide +kernel, by decide +kernel, by decide +kernel⟩
theorem full_ready : full.SwReady := ⟨by decide +kernel, by decide +kernel, by decide +kernel⟩
theorem filled_ready : filled.SwReady := ⟨by decide +kernel, by decide +kernel, by decide +kernel⟩

/-! ### Operands -/

theorem wellFormed_payload (p : List Byte) :
    (Instr.transmit p).wellFormed = decide (p.length < 2 ^ 64) ∧
    (Instr.receive p).wellFormed = decide (p.length < 2 ^ 64) := ⟨rfl, rfl⟩
theorem test_wf_transmit (p : List Byte) (h : p.length = 2 ^ 64) : (Instr.transmit p).wellFormed = false := by
  rw [(wellFormed_payload p).1, h]
  decide
theorem test_wf_receive (p : List Byte) (h : p.length = 2 ^ 64) : (Instr.receive p).wellFormed = false := by
  rw [(wellFormed_payload p).2, h]
  decide
theorem test_wf_boundary (p : List Byte) (h : p.length = 2 ^ 64 - 1) : (Instr.transmit p).wellFormed = true := by
  rw [(wellFormed_payload p).1, h]
  decide

/-! ### One word per operation (R101, R102, R120, V10) -/

theorem test_decode_rdCtrl : decodeRef ⟨.mmio 4, [0x00, 0x00, 0x00]⟩ = .ok .rdCtrl := by rfl
theorem test_decode_wrCtrl : decodeRef ⟨.mmio 4, [0x00, 0x00, 0x02, 0x04, 0x03, 0x02, 0x01]⟩ =
    .ok (.wrCtrl 0x01020304) :=
  by rfl
theorem test_decode_rdStatus : decodeRef ⟨.mmio 4, [0x08, 0x00, 0x00]⟩ = .ok .rdStatus := by rfl
theorem test_decode_wrStatus : decodeRef ⟨.mmio 4, [0x08, 0x00, 0x02, 0x04, 0x03, 0x02, 0x01]⟩ =
    .ok (.wrStatus 0x01020304) :=
  by rfl
theorem test_decode_rdEerd : decodeRef ⟨.mmio 4, [0x14, 0x00, 0x00]⟩ = .ok .rdEerd := by rfl
theorem test_decode_wrEerd : decodeRef ⟨.mmio 4, [0x14, 0x00, 0x02, 0x04, 0x03, 0x02, 0x01]⟩ =
    .ok (.wrEerd 0x01020304) :=
  by rfl
theorem test_decode_rdRctl : decodeRef ⟨.mmio 4, [0x00, 0x01, 0x00]⟩ = .ok .rdRctl := by rfl
theorem test_decode_wrRctl : decodeRef ⟨.mmio 4, [0x00, 0x01, 0x02, 0x04, 0x03, 0x02, 0x01]⟩ =
    .ok (.wrRctl 0x01020304) :=
  by rfl
theorem test_decode_rdTctl : decodeRef ⟨.mmio 4, [0x00, 0x04, 0x00]⟩ = .ok .rdTctl := by rfl
theorem test_decode_wrTctl : decodeRef ⟨.mmio 4, [0x00, 0x04, 0x02, 0x04, 0x03, 0x02, 0x01]⟩ =
    .ok (.wrTctl 0x01020304) :=
  by rfl
theorem test_decode_rdTipg : decodeRef ⟨.mmio 4, [0x10, 0x04, 0x00]⟩ = .ok .rdTipg := by rfl
theorem test_decode_wrTipg : decodeRef ⟨.mmio 4, [0x10, 0x04, 0x02, 0x04, 0x03, 0x02, 0x01]⟩ =
    .ok (.wrTipg 0x01020304) :=
  by rfl
theorem test_decode_rdRdbal : decodeRef ⟨.mmio 4, [0x00, 0x28, 0x00]⟩ = .ok .rdRdbal := by rfl
theorem test_decode_wrRdbal : decodeRef ⟨.mmio 4, [0x00, 0x28, 0x02, 0x04, 0x03, 0x02, 0x01]⟩ =
    .ok (.wrRdbal 0x01020304) :=
  by rfl
theorem test_decode_rdRdbah : decodeRef ⟨.mmio 4, [0x04, 0x28, 0x00]⟩ = .ok .rdRdbah := by rfl
theorem test_decode_wrRdbah : decodeRef ⟨.mmio 4, [0x04, 0x28, 0x02, 0x04, 0x03, 0x02, 0x01]⟩ =
    .ok (.wrRdbah 0x01020304) :=
  by rfl
theorem test_decode_rdRdlen : decodeRef ⟨.mmio 4, [0x08, 0x28, 0x00]⟩ = .ok .rdRdlen := by rfl
theorem test_decode_wrRdlen : decodeRef ⟨.mmio 4, [0x08, 0x28, 0x02, 0x04, 0x03, 0x02, 0x01]⟩ =
    .ok (.wrRdlen 0x01020304) :=
  by rfl
theorem test_decode_rdRdh : decodeRef ⟨.mmio 4, [0x10, 0x28, 0x00]⟩ = .ok .rdRdh := by rfl
theorem test_decode_wrRdh : decodeRef ⟨.mmio 4, [0x10, 0x28, 0x02, 0x04, 0x03, 0x02, 0x01]⟩ = .ok (.wrRdh 0x01020304) :=
  by rfl
theorem test_decode_rdRdt : decodeRef ⟨.mmio 4, [0x18, 0x28, 0x00]⟩ = .ok .rdRdt := by rfl
theorem test_decode_wrRdt : decodeRef ⟨.mmio 4, [0x18, 0x28, 0x02, 0x04, 0x03, 0x02, 0x01]⟩ = .ok (.wrRdt 0x01020304) :=
  by rfl
theorem test_decode_rdTdbal : decodeRef ⟨.mmio 4, [0x00, 0x38, 0x00]⟩ = .ok .rdTdbal := by rfl
theorem test_decode_wrTdbal : decodeRef ⟨.mmio 4, [0x00, 0x38, 0x02, 0x04, 0x03, 0x02, 0x01]⟩ =
    .ok (.wrTdbal 0x01020304) :=
  by rfl
theorem test_decode_rdTdbah : decodeRef ⟨.mmio 4, [0x04, 0x38, 0x00]⟩ = .ok .rdTdbah := by rfl
theorem test_decode_wrTdbah : decodeRef ⟨.mmio 4, [0x04, 0x38, 0x02, 0x04, 0x03, 0x02, 0x01]⟩ =
    .ok (.wrTdbah 0x01020304) :=
  by rfl
theorem test_decode_rdTdlen : decodeRef ⟨.mmio 4, [0x08, 0x38, 0x00]⟩ = .ok .rdTdlen := by rfl
theorem test_decode_wrTdlen : decodeRef ⟨.mmio 4, [0x08, 0x38, 0x02, 0x04, 0x03, 0x02, 0x01]⟩ =
    .ok (.wrTdlen 0x01020304) :=
  by rfl
theorem test_decode_rdTdh : decodeRef ⟨.mmio 4, [0x10, 0x38, 0x00]⟩ = .ok .rdTdh := by rfl
theorem test_decode_wrTdh : decodeRef ⟨.mmio 4, [0x10, 0x38, 0x02, 0x04, 0x03, 0x02, 0x01]⟩ = .ok (.wrTdh 0x01020304) :=
  by rfl
theorem test_decode_rdTdt : decodeRef ⟨.mmio 4, [0x18, 0x38, 0x00]⟩ = .ok .rdTdt := by rfl
theorem test_decode_wrTdt : decodeRef ⟨.mmio 4, [0x18, 0x38, 0x02, 0x04, 0x03, 0x02, 0x01]⟩ = .ok (.wrTdt 0x01020304) :=
  by rfl
theorem test_decode_rdRal : decodeRef ⟨.mmio 4, [0x00, 0x54, 0x00]⟩ = .ok .rdRal := by rfl
theorem test_decode_wrRal : decodeRef ⟨.mmio 4, [0x00, 0x54, 0x02, 0x04, 0x03, 0x02, 0x01]⟩ = .ok (.wrRal 0x01020304) :=
  by rfl
theorem test_decode_rdRah : decodeRef ⟨.mmio 4, [0x04, 0x54, 0x00]⟩ = .ok .rdRah := by rfl
theorem test_decode_wrRah : decodeRef ⟨.mmio 4, [0x04, 0x54, 0x02, 0x04, 0x03, 0x02, 0x01]⟩ = .ok (.wrRah 0x01020304) :=
  by rfl
theorem test_decode_attach : decodeRef ⟨.opid, [0x01, 8, 7, 6, 5, 4, 3, 2, 1]⟩ = .ok (.attach 0x0102030405060708) := by
  rfl
theorem test_decode_eerdReadWord : decodeRef ⟨.opid, [0x02, 0xFF]⟩ = .ok (.eerdReadWord 0xFF) := by rfl
theorem test_decode_transmit : decodeRef ⟨.opid, [0x03, 2, 0, 0, 0, 0, 0, 0, 0, 0xAA, 0xBB]⟩ =
    .ok (.transmit [0xAA, 0xBB]) :=
  by rfl
theorem test_decode_receive : decodeRef ⟨.opid, [0x04, 1, 0, 0, 0, 0, 0, 0, 0, 0xAA]⟩ = .ok (.receive [0xAA]) := by
  rfl
theorem test_decode_txFetch : decodeRef ⟨.opid, [0x10]⟩ = .ok .txFetch := by rfl
theorem test_decode_txComplete : decodeRef ⟨.opid, [0x11]⟩ = .ok .txComplete := by rfl
theorem test_decode_rxDeposit : decodeRef ⟨.opid, [0x12]⟩ = .ok .rxDeposit := by rfl
theorem test_decode_rxDrop : decodeRef ⟨.opid, [0x13]⟩ = .ok .rxDrop := by rfl
theorem test_decode_eeComplete : decodeRef ⟨.opid, [0x14]⟩ = .ok .eeComplete := by rfl
theorem test_decode_inBridgeIter : decodeRef ⟨.opid, [0x20]⟩ = .ok .inBridgeIter := by rfl
theorem test_decode_outBridgeIter : decodeRef ⟨.opid, [0x21]⟩ = .ok .outBridgeIter := by rfl

theorem test_decode_undefinedOpid : decodeRef ⟨.opid, [0x05]⟩ = .error (.undefinedOpid 0x05) := by rfl
theorem test_decode_unlisted : decodeRef ⟨.mmio 4, [0xD0, 0x00, 0x00]⟩ = .error (.unlistedOffset 0xD0) := by rfl
theorem test_decode_width : decodeRef ⟨.mmio 2, [0x18, 0x38, 0x02, 0, 0]⟩ = .error (.accessWidth 2) := by rfl
theorem test_decode_misaligned : decodeRef ⟨.mmio 4, [0x02, 0x00, 0x00]⟩ = .error (.misaligned 2) := by rfl
theorem test_tableWord : decodeTableWord 24 0x23818 = some (.wrTdt 0) ∧
    decodeTableWord 8 0x03 = some (.transmit []) := by
  decide +kernel

/-! ### Register words and descriptor bytes (V08, V11, V12, V15) -/

theorem test_tctlWord : tctlAttachWord Config.reference = 0x0004010A := by decide +kernel
theorem test_rctlWord : rctlAttachWord Config.reference = 0x04000002 := by decide +kernel
theorem test_eerdStartWord : eerdStartWord Layout.reference 0xFF = 0x0000FF01 := by decide +kernel
theorem test_ringLength : ringLength small 64 = 0x400 ∧ ringLength small 128 = 0x800 := by decide +kernel
/-- A length register that counts blocks of eight bytes. -/
theorem test_ringUnit : ringLength { small with ringUnit := 8 } 64 = 0x80 ∧
    ringSlots { small with ringUnit := 8 } 0x80 = 64 := by decide +kernel
theorem test_ral : ralWord Layout.reference 0x1234 0x5678 = 0x56781234 ∧
    rahWord Layout.reference 0x9ABC = 0x80009ABC := by decide +kernel
theorem test_stationAddr : launch.stationAddr = [0xBB, 0xAA, 0xDD, 0xCC, 0xFF, 0xEE] := by decide +kernel
theorem test_txDescriptor : Mem.readBytes armed.mem 0x00200000 16 =
    [0x00, 0x00, 0x30, 0, 0, 0, 0, 0, 0x03, 0x00, 0, 0x09, 0x00, 0, 0, 0] := by decide +kernel
theorem test_rxDescriptor : Mem.readBytes launch.mem 0x00201010 16 =
    [0x00, 0x08, 0x40, 0, 0, 0, 0, 0, 0, 0, 0, 0, 0, 0, 0, 0] := by decide +kernel

/-! ### Steps -/

/-- V14, 1 and 5. -/
theorem test_rdTdt : (after .rdTdt launch).busData = 0 := by decide +kernel
theorem test_rdRdt : (after .rdRdt launch).busData = 3 := by decide +kernel
theorem test_rdEerd : eerdData Layout.reference (after .rdEerd launch).busData = 0xEEFF :=
  (eerdData_readValue (s := launch) layout_wf (by decide +kernel)).trans (by decide +kernel)
/-- V14, 6 to 14. -/
theorem test_ctrl_refused : (after .rdCtrl launch).refused = some .controlAccess := by decide +kernel
theorem test_badAccess_refused : ∃ t, step { launch with schedule := [.op ⟨.mmio 4, [0xD0, 0, 0]⟩] } = .next t ∧
    t.refused = some (.busAccess (.unlistedOffset 0xD0)) := ⟨_, rfl, rfl⟩
theorem test_wrTdt_range : (after (.wrTdt 4) launch).refused = some .slotIndex := by decide +kernel
theorem test_wrEerd_noStart : (after (.wrEerd 0x100) launch).refused = some .eerdMisuse := by decide +kernel
theorem test_wrEerd_starts : (after (.wrEerd 0x101) launch).eePending = some 1 := by decide +kernel
theorem test_wrTctl_clear : (after (.wrTctl 0x00040108) launch).refused = some .enableCleared := by decide +kernel
theorem test_wrTdh_attached : (after (.wrTdh 0) launch).refused = some .ringWhileEnabled := by decide +kernel
/-- V15, 7 and 8. -/
theorem test_attach_fails : (after (.attach 0) { fresh with collab := ⟨true, false, false, false, 0⟩ }).results =
    [⟨.attach, .err .attachFailure⟩] := by decide +kernel
theorem test_attach_twice : (after (.attach 0) launch).refused = some .secondAttach := by decide +kernel
/-- R182. -/
theorem test_eeComplete : (after .eeComplete { fresh with eePending := some 1 }).reg .eerd = 0xCCDD0010 := by
  decide +kernel
/-- V16, 1, 3, 5 and 9. -/
theorem test_transmit : (armed.txTail, armed.tdt, armed.results) = (1, 1, [⟨.transmit, .ok⟩]) := by decide +kernel
theorem test_transmit_large : (after (.transmit (List.replicate 17 0)) full).results.getLast? =
    some ⟨.transmit, .err .payloadTooLarge⟩ := by decide +kernel
theorem test_transmit_full : (after (.transmit [0x14]) full).results.getLast? = some ⟨.transmit, .err .queueFull⟩ := by
  decide +kernel
/-- V17, 2, 5, 6, 7 and 9. -/
theorem test_txFetch : (fetched.tdh, fetched.txPending) = (1, 1) := by decide +kernel
theorem test_txFetch_hang : after .txFetch full = full := by decide +kernel
theorem test_txComplete : (after .txComplete fetched).wireOut = [[0xDE, 0xAD, 0xBE]] := by decide +kernel
theorem test_txComplete_wraps : ({ full with txPending := 4 } : State).txOldest = 0 := by decide +kernel
theorem test_txFetch_cmd : (after .txFetch (armed.setTxd 0 .cmd 1)).refused = some .txDescriptor := by decide +kernel
/-- V18, 1, 2, 8 and 9. -/
theorem test_receive : (after (.receive (List.replicate 16 0xEE)) filled).outBuffer =
    [0x01, 0x02] ++ List.replicate 14 0xEE := by decide +kernel
theorem test_receive_tail : ((after (.receive (List.replicate 16 0)) filled).rxTail,
    (after (.receive (List.replicate 16 0)) filled).rxFlag 0) = (0, false) := by decide +kernel
theorem test_receive_empty : (after (.receive (List.replicate 16 0)) launch).results =
    [⟨.receive, .err .queueEmpty⟩] := by
  decide +kernel
theorem test_receive_small : (after (.receive (List.replicate 15 0)) launch).refused = some .outBufferTooSmall := by
  decide +kernel
/-- V19, 2, 4 and 6. -/
theorem test_rxDeposit : ((after .rxDeposit { launch with wireIn := [[0x01, 0x02]] }).rdh,
    (after .rxDeposit { launch with wireIn := [[0x01, 0x02]] }).wireIn) = (1, []) := by decide +kernel
theorem test_rxDeposit_undrained : (after .rxDeposit { filled.setReg .rdh 0 with wireIn := [[0x05]] }).wireIn =
    [[0x05]] := by decide +kernel
theorem test_rxDrop : (after .rxDrop { launch with wireIn := [[0x01], [0x02]] }).wireIn = [[0x02]] := by decide +kernel
/-- V20, 2, 5, 9 and 11. -/
theorem test_outBridge : (after .outBridgeIter { launch with fromStack := [⟨.outputRequest, 5⟩] }).obPhase =
    .sending 5 := by decide +kernel
theorem test_outBridge_sends : Mem.readBytes (after .outBridgeIter (sending small page launch)).mem 0x00300000 2 =
    [0xA1, 0xA2] := by decide +kernel
theorem test_outBridge_tag :
    (after .outBridgeIter { launch with fromStack := [⟨.inputAvailable, 5⟩] }).obFatal =
    some (.protocolViolation .inputAvailable) := by decide +kernel
theorem test_inBridge : ((after .inBridgeIter (polled filled)).toStack,
    Mem.readBytes (after .inBridgeIter (polled filled)).mem (pageAt small 7) 20) =
    ([⟨.inputAvailable, 7⟩], [2, 0, 0, 0, 1, 2] ++ List.replicate 14 0xEE) := by decide +kernel
/-- R262: the pool goes round from ENV's choice, passing over pages in use; it never runs out. -/
theorem test_acquire :
    ({ launch with stackHeld := [7, 0, 3], collab := ⟨false, false, false, false, 15⟩ } : State).acquire = some 1 ∧
    ({ launch with stackHeld := List.range 8 } : State).acquire = some 8 ∧
    ({ launch with collab := ⟨false, true, false, false, 0⟩ } : State).acquire = none := by decide +kernel
/-- R262, R266: a page past those of host memory is filled and read back all the same. -/
theorem test_inBridge_far : (after .inBridgeIter { filled with ibPhase := .polling 9 }).msgFrame 9 = [0x01, 0x02] ∧
    (after .inBridgeIter { filled with ibPhase := .polling 9 }).farPages =
      [(9, [2, 0, 0, 0, 1, 2] ++ List.replicate 14 0)] := by decide +kernel
/-- V15: ATTACH of the small machine up to its first poll, 41 accesses; R84: a slot the hardware owns is not rewritten
under it. -/
theorem test_attach : (runOps (List.replicate 41 (.attach 0)) fresh).map (fun t =>
      (t.sw, t.eePending, [t.reg .tdlen, t.reg .tctl, t.reg .tipg], t.mem)) =
    some (.attaching 0 .spin0, some 0, [0x40, 0x0004010A, 0x0060200A], launch.mem) := by decide +kernel
theorem test_attach_owned :
    (after (.attach 0) { launch with attached := false, sw := .attaching 0 (.bindRx 0) }).refused =
    some .hardwareSlot := by decide +kernel
/-- R84, R203: nor is a fetched slot, the engine disabled, while another slot is; R205 still completes the fetched
one. -/
def halfFetched (st : AttachStage) : State :=
  { fetched.setReg .tctl 0x00040108 with attached := false, sw := .attaching 0 st }
theorem test_attach_fetched :
    (after (.attach 0) (halfFetched (.zeroTxDesc 0))).refused = some .hardwareSlot ∧
    (after (.attach 0) (halfFetched (.zeroTxDesc 1))).refused = none := by decide +kernel
/-- R58: before ATTACH no other operation; R143 on an attached block. -/
theorem test_unattached : (after .rdTdt fresh).refused = some .unattached ∧
    (after (.eerdReadWord 0) fresh).refused = some .unattached := by decide +kernel
theorem test_withFetchWord (s : State) (h : s.refused = none)
    (hc : s.cfg = Config.reference) : step (s.withFetchWord 24 0x23818) = exec (.wrTdt 0) s := by
  cases s
  subst h
  subst hc
  rfl

/-! ### Witnesses of the hypotheses of the statements of Certificates/Slice0, one theorem per statement that has any,
each clause at a boundary of its range -/

/-- The launch state with a frame to deposit; under the alternative rules. -/
def offered : State := { launch with wireIn := [[0x01, 0x02]] }
def otherOffered : State := { offered with cfg := other }

/-- The receive head at a slot whose frame is not drained. -/
def undrained : State := { filled.setReg .rdh 0 with wireIn := [[0x05]] }

/-- A state in which every owner of R54 has a buffer. -/
def owned : State := { launch with
  ibPhase := .polling 0, obPhase := .sending 1, toStack := [⟨.inputAvailable, 2⟩]
  fromStack := [⟨.outputRequest, 3⟩], stackHeld := [4, 7] }

theorem polled_ready {s : State} (h : s.SwReady) : (polled s).SwReady := by
  simpa [State.SwReady, polled] using h

/-- Inside ATTACH, before any write of it has been made. -/
def inside : State := { fresh with sw := .attaching 0 .start0 }

/-- The same, RAL written; RAH too. -/
def halfAddress : State := after (.wrRal 0xCCDDAABB) inside
def wholeAddress : State := after (.wrRah 0x8000EEFF) halfAddress
/-- R171, R172: each half is written once, RAH after RAL. -/
theorem test_station : (wholeAddress.reg .ral, wholeAddress.reg .rah, wholeAddress.refused) =
      (0xCCDDAABB, 0x8000EEFF, none) ∧
    (after (.wrRal 0) wholeAddress).refused = some .stationAddressWrite ∧
    (after (.wrRah 0) wholeAddress).refused = some .stationAddressWrite ∧
    (after (.wrRah 0x8000EEFF) inside).refused = some .stationAddressWrite := by decide +kernel

theorem launch_busReady : launch.BusReady := ⟨rfl, .inl ⟨rfl, rfl⟩⟩
theorem inside_busReady : inside.BusReady := ⟨rfl, .inr ⟨0, .start0, rfl⟩⟩
theorem half_busReady : halfAddress.BusReady := ⟨by decide +kernel, .inr ⟨0, .start0, by decide +kernel⟩⟩
theorem whole_busReady : wholeAddress.BusReady := ⟨by decide +kernel, .inr ⟨0, .start0, by decide +kernel⟩⟩

theorem test_hyp_DecodeOfEncodeIsIdentity :
    small.WF ∧ (Instr.wrTdt 0xFFFFFFFF).wellFormed = true ∧ (Instr.transmit []).wellFormed = true :=
  ⟨small_wf, by decide +kernel⟩
theorem test_hyp_DecodedRecordIsTheEncoding :
    small.WF ∧ decode small ⟨.mmio 4, [0x18, 0x38, 0x02, 0xFF, 0xFF, 0xFF, 0xFF]⟩ = .ok (.wrTdt 0xFFFFFFFF) :=
  ⟨small_wf, by rfl⟩

def badWidth : State := { launch with schedule := [.op ⟨.mmio 2, leBytes 3 0x3818 ++ []⟩] }
def misaligned : State := { launch with schedule := [.op ⟨.mmio 4, leBytes 3 0x20001 ++ [1, 2, 3, 4]⟩] }
def unlisted : State := { launch with schedule := [.op ⟨.mmio 4, leBytes 3 0x3FFFC ++ [1, 2, 3, 4]⟩] }
theorem test_hyp_BusAccessOutsideTheMapRefused :
    (badWidth.cfg.WF ∧ badWidth.refused = none ∧
      badWidth.schedule = .op ⟨.mmio 2, leBytes 3 0x3818 ++ []⟩ :: [] ∧ 0x3818 < 2 ^ 18 ∧ 2 ≠ 4) ∧
    (misaligned.refused = none ∧ misaligned.schedule = .op ⟨.mmio 4, leBytes 3 0x20001 ++ [1, 2, 3, 4]⟩ :: [] ∧
      0x20001 < 2 ^ 18 ∧ 0x20001 % 4 ≠ 0) ∧
    (unlisted.refused = none ∧ unlisted.schedule = .op ⟨.mmio 4, leBytes 3 0x3FFFC ++ [1, 2, 3, 4]⟩ :: [] ∧
      0x3FFFC < 2 ^ 18 ∧ ∀ r : Reg, r.offset unlisted.cfg ≠ 0x3FFFC % 2 ^ 17) :=
  ⟨⟨small_wf, by decide +kernel⟩, by decide +kernel, by decide +kernel, by decide +kernel, by decide +kernel,
    by intro r; cases r <;> decide⟩

def scheduled : State := { launch with schedule := [.op ⟨.opid, [0x12]⟩] }
theorem test_hyp_StepRunsTheDecodedInstruction :
    scheduled.refused = none ∧ scheduled.schedule = .op ⟨.opid, [0x12]⟩ :: [] ∧
    decode scheduled.cfg ⟨.opid, [0x12]⟩ = .ok .rxDeposit := ⟨rfl, rfl, rfl⟩
theorem test_hyp_StepWithoutAnInstruction :
    (launch.refused = none ∧ launch.schedule = []) ∧
    (({ launch with schedule := [.env .stackTake] } : State).schedule = .env .stackTake :: []) ∧
    (launch.refuse .slotIndex).refused = some .slotIndex := by decide +kernel
theorem test_hyp_EnvironmentMoves : owned.cfg.WF ∧
    (small.rxMinLen ≤ ([] : Frame).length ∧ ([] : Frame).length ≤ small.rxBufSize) ∧
    (small.rxMinLen ≤ (List.replicate 16 (0 : Byte)).length ∧ (List.replicate 16 (0 : Byte)).length ≤ small.rxBufSize) ∧
    (owned.attached = true ∧ page.length = owned.cfg.pageSize ∧ 7 < owned.cfg.poolPages ∧ 7 ∈ owned.stackHeld ∧
      owned.pageFree 6) ∧
    ({ launch with stackHeld := List.range 8 } : State).pageFree 9 ∧
    owned.toStack = ⟨.inputAvailable, 2⟩ :: [] := ⟨small_wf, by decide +kernel⟩
theorem test_hyp_StepsNotEnabledChangeNothing :
    (fresh.txEnabled = false ∧ fresh.rxEnabled = false ∧ fresh.txPending = 0 ∧ fresh.eePending = none ∧
      fresh.wireIn = []) ∧
    (full.txEnabled = true ∧ full.tdh < full.cfg.nTx ∧ full.tdt < full.cfg.nTx ∧ ¬ full.FetchEnabled) ∧
    (undrained.rxEnabled = true ∧ undrained.wireIn ≠ [] ∧ undrained.rdh < undrained.cfg.nRx ∧
      undrained.rdt < undrained.cfg.nRx ∧ ¬ undrained.DepositEnabled) ∧
    launch.attached = true ∧ (launch.raise .ib (.fatalIoError .acquireFailed)).ibFatal ≠ none ∧
    (launch.raise .ob (.fatalIoError .recvFailed)).obFatal ≠ none := by
  unfold State.FetchEnabled State.DepositEnabled
  decide +kernel

theorem test_hyp_ControlAndStatusRefused : launch.refused = none := rfl
theorem test_hyp_TransmitRegisterReads : launch.BusReady := launch_busReady
theorem test_hyp_ReceiveRegisterReads : launch.BusReady := launch_busReady
theorem test_hyp_OnlyNamedWritersChangeRegisters :
    exec (.wrTdt 1) launch = .next (launch.setReg .tdt 1) ∧ (launch.setReg .tdt 1).reg .tdt ≠ launch.reg .tdt :=
  ⟨next_eq (by decide +kernel) (by decide +kernel), by decide +kernel⟩
theorem test_hyp_RingBaseWrites :
    (inside.BusReady ∧ inside.txEnabled = false ∧ inside.rxEnabled = false ∧
      (0xFFFFFFF0 : Word).toNat % inside.cfg.ringAlign = 0 ∧ (0x00200001 : Word).toNat % inside.cfg.ringAlign ≠ 0) ∧
    (launch.BusReady ∧ launch.txEnabled = true ∧ launch.rxEnabled = true) :=
  ⟨⟨inside_busReady, by decide +kernel⟩, launch_busReady, by decide +kernel⟩
theorem test_hyp_RingLengthWrites :
    (inside.BusReady ∧ inside.cfg.WF ∧ inside.txEnabled = false ∧ inside.rxEnabled = false ∧
      (0x40 : Word).toNat * inside.cfg.ringUnit = inside.cfg.nTx * inside.cfg.descSize ∧
      (0x40 : Word).toNat * inside.cfg.ringUnit = inside.cfg.nRx * inside.cfg.descSize ∧
      (0x30 : Word).toNat * inside.cfg.ringUnit ≠ inside.cfg.nTx * inside.cfg.descSize ∧
      (0x41 : Word).toNat * inside.cfg.ringUnit ≠ inside.cfg.nRx * inside.cfg.descSize) ∧
    (launch.BusReady ∧ launch.cfg.WF ∧ launch.txEnabled = true ∧ launch.rxEnabled = true) :=
  ⟨⟨inside_busReady, small_wf, by decide +kernel⟩, launch_busReady, small_wf, by decide +kernel⟩
theorem test_hyp_HeadWrites :
    (inside.BusReady ∧ inside.txEnabled = false ∧ inside.rxEnabled = false ∧ inside.attached = false ∧
      (1 : Word) ≠ 0) ∧
    (launch.BusReady ∧ launch.attached = true ∧ launch.txEnabled = true ∧ launch.rxEnabled = true) :=
  ⟨⟨inside_busReady, by decide +kernel⟩, launch_busReady, by decide +kernel⟩
/-- `otherOffered` in the window between steps 8 and 9 of ATTACH (R187 c). -/
def windowed : State := { otherOffered with sw := .attaching 0 .wrRdt, attached := false }
theorem test_hyp_TailWrites :
    launch.BusReady ∧
    ((3 : Word).toNat < launch.cfg.nTx ∧ (3 : Word).toNat < launch.cfg.nRx ∧ (0 : Word) = launch.reg .tdt ∧
      launch.cfg.nTx ≤ (4 : Word).toNat ∧ launch.cfg.nRx ≤ (4 : Word).toNat ∧
      launch.cfg.txArmRule = .tailGated ∧ launch.txEnabled = true ∧ launch.cfg.rxOfferRule = .flagGated) ∧
    otherOffered.BusReady ∧
    (otherOffered.cfg.rxOfferRule = .tailGated ∧ otherOffered.rxEnabled = true ∧ otherOffered.wireIn ≠ [] ∧
      otherOffered.rxTailPublished = true ∧ otherOffered.rxFlag otherOffered.rdh = false) ∧
    windowed.BusReady ∧ (3 : Word).toNat < windowed.cfg.nRx ∧
    (windowed.cfg.rxOfferRule = .tailGated ∧ windowed.rxTailPublished = false ∧ windowed.reg .rdh ≠ 3) :=
  ⟨launch_busReady, by decide +kernel, ⟨rfl, .inl ⟨rfl, rfl⟩⟩, by decide +kernel, ⟨rfl, .inr ⟨0, .wrRdt, rfl⟩⟩,
    by decide +kernel, by decide +kernel⟩
/-- Enabling and keeping on at launch; a reserved bit; an enable too early inside ATTACH; an enable cleared. -/
theorem test_hyp_ControlWrites :
    launch.BusReady ∧ inside.BusReady ∧
    ((0x0004010A : Word) &&& reservedBits small.layout.tctlFields = 0 ∧ launch.txProgrammed = true ∧
      txEnBit small.layout 0x0004010A = true ∧ (0x00400000 : Word) &&& reservedBits small.layout.tctlFields ≠ 0 ∧
      (0x1 : Word) &&& reservedBits small.layout.tctlFields ≠ 0 ∧ txEnBit small.layout 0x2 = true ∧
      inside.txProgrammed = false ∧ launch.attached = true ∧ launch.txEnabled = true ∧
      txEnBit small.layout 0x0004010C = false) ∧
    ((0x3FFFFFFF : Word) &&& reservedBits small.layout.tipgFields = 0 ∧
      (0x40000000 : Word) &&& reservedBits small.layout.tipgFields ≠ 0) ∧
    (bsize small.layout 0x04000002 = small.bsizeCode ∧ (0x04000002 : Word) &&& reservedBits small.layout.rctlFields = 0 ∧
      rxEnBit small.layout 0x04000002 = true ∧ launch.rxProgrammed = true ∧ bsize small.layout 0x00010000 ≠ small.bsizeCode ∧
      (0x00040000 : Word) &&& reservedBits small.layout.rctlFields ≠ 0 ∧ inside.rxProgrammed = false ∧
      launch.rxEnabled = true ∧ rxEnBit small.layout 0x04000000 = false) :=
  ⟨launch_busReady, inside_busReady, by decide +kernel⟩
theorem test_hyp_StationAddressWrites :
    (inside.BusReady ∧ halfAddress.BusReady ∧ wholeAddress.BusReady ∧ launch.BusReady) ∧
    (inside.attached = false ∧ inside.station = .none ∧ inside.station ≠ .ral) ∧
    (halfAddress.attached = false ∧ halfAddress.station = .ral ∧ halfAddress.station ≠ .none ∧
      (0x8000FFFF : Word) &&& reservedBits small.layout.rahFields = 0 ∧
      (0x00010000 : Word) &&& reservedBits small.layout.rahFields ≠ 0) ∧
    (wholeAddress.station ≠ .none ∧ wholeAddress.station ≠ .ral) ∧ launch.attached = true :=
  ⟨⟨inside_busReady, half_busReady, whole_busReady, launch_busReady⟩, by decide +kernel⟩
def reading : State := { launch with eePending := some 1 }
theorem test_hyp_EerdWriteStartsARead :
    (launch.BusReady ∧ launch.cfg.WF ∧ (0x0000FF01 : Word) &&& reservedBits (eerdWriteFields small.layout) = 0 ∧
      eerdStart small.layout 0x0000FF01 = 1 ∧ launch.eePending = none ∧ eerdStart small.layout 0x0000FF00 ≠ 1 ∧
      (0x0000FF03 : Word) &&& reservedBits (eerdWriteFields small.layout) ≠ 0) ∧
    (reading.BusReady ∧ reading.eePending ≠ none) :=
  ⟨⟨launch_busReady, small_wf, by decide +kernel⟩, ⟨rfl, .inl ⟨rfl, rfl⟩⟩, by decide +kernel⟩
theorem launch_eepromRead : EepromRead launch := ⟨by decide +kernel, by decide +kernel⟩
theorem test_hyp_EerdRead : (launch.BusReady ∧ launch.cfg.WF ∧ launch.eeDone = 1 ∧ EepromRead launch) ∧
    (inside.BusReady ∧ inside.eeDone = 0) :=
  ⟨⟨launch_busReady, small_wf, by decide +kernel, launch_eepromRead⟩, inside_busReady, by decide +kernel⟩
theorem test_hyp_BlockedSoftwareIsRefused :
    (({ launch with attachFailed := true } : State).attachFailed = true ∧
      ({ launch with sw := .readingWord 0 } : State).sw = .readingWord 0 ∧ (1 : BitVec 8) ≠ 0 ∧
      inside.sw = .attaching 0 .start0 ∧ (1 : Addr) ≠ 0 ∧ fresh.sw = .idle ∧ fresh.attached = false) ∧
    (({ polled launch with sw := .readingWord 0 } : State).ibFatal = none ∧
      ({ polled launch with sw := .readingWord 0 } : State).ibPhase = .polling 7) ∧
    ({ owned with sw := .readingWord 0 } : State).obFatal = none ∧
    ({ owned with sw := .readingWord 0 } : State).obPhase = .sending 1 := by decide +kernel

/-- SW in the spin of a read of word 7. -/
def spinning : State := { launch.setReg .eerd 0x00000700 with eePending := some 7, sw := .readingWord 7 }
theorem test_hyp_EepromCompletion : reading.cfg.WF ∧ reading.eePending = some 1 := ⟨small_wf, rfl⟩
theorem test_hyp_EerdReadWordAccesses :
    (launch.cfg.WF ∧ launch.attachFailed = false) ∧
    (launch.sw = .idle ∧ launch.attached = true ∧ launch.eePending = none) ∧
    (reading.sw = .idle ∧ reading.attached = true ∧ reading.eePending ≠ none) ∧
    (spinning.sw = .readingWord 7 ∧ spinning.eeDone = 0) ∧
    (({ launch with sw := .readingWord 2 } : State).sw = .readingWord 2 ∧ launch.eeDone = 1) :=
  ⟨⟨small_wf, rfl⟩, by decide +kernel⟩
theorem test_hyp_EerdReadWordReturnsTheWord : launch.cfg.WF ∧ launch.SwReady ∧ launch.eePending = none :=
  ⟨small_wf, launch_ready, rfl⟩
theorem test_hyp_AttachMapsOrFails :
    (fresh.Unattached ∧ fresh.collab.mapFails = false ∧ 1 ≤ fresh.cfg.nTx) ∧
    ({ fresh with collab := ⟨true, false, false, false, 0⟩ } : State).collab.mapFails = true ∧
    launch.attached = true ∧ ({ fresh with attachFailed := true } : State).attachFailed = true :=
  ⟨⟨⟨rfl, rfl, rfl⟩, by decide +kernel⟩, rfl, rfl, rfl⟩
theorem test_hyp_AttachReachesLaunch :
    (fresh.cfg.WF ∧ fresh.Unattached ∧ fresh.Good) ∧ fresh.collab.mapFails = false ∧ fresh.eePending = none ∧
    fresh.txEnabled = false ∧ fresh.rxEnabled = false ∧ fresh.txPending = 0 ∧ fresh.wireOut = [] ∧
    fresh.toStack = [] ∧ fresh.fromStack = [] ∧ fresh.ibPhase = .acquire ∧ fresh.obPhase = .waiting ∧
    fresh.station = .none :=
  ⟨⟨small_wf, ⟨rfl, rfl, rfl⟩, rfl, rfl, rfl⟩, by decide +kernel⟩
/-- A frame of the largest size, lost, and one of the smallest, before the last steps of ATTACH, under either rule. -/
def waiting (c : Config) : State := { fresh with cfg := c, wireIn := [List.replicate 16 1, []] }
theorem test_hyp_AttachWithReceiveSteps :
    (small.WF ∧ other.WF ∧ (waiting small).Unattached ∧ (waiting small).Good ∧ other.rxOfferRule = .tailGated) ∧
    (fresh.collab.mapFails = false ∧ fresh.eePending = none ∧ fresh.txEnabled = false ∧ fresh.rxEnabled = false ∧
      fresh.txPending = 0 ∧ fresh.station = .none) ∧
    (∀ f ∈ (waiting small).wireIn, small.rxMinLen ≤ f.length ∧ f.length ≤ small.rxBufSize) ∧
    ∀ i ∈ [Instr.rxDrop] ++ [Instr.rxDeposit], i = .rxDeposit ∨ i = .rxDrop :=
  ⟨⟨small_wf, other_wf, ⟨rfl, rfl, rfl⟩, ⟨rfl, rfl, rfl⟩, rfl⟩, by decide +kernel, by decide +kernel, by decide⟩
/-- ATTACH about to zero the last receive buffer; the start of a read, which stores nothing; the mapping. -/
def zeroing : State := { fresh with sw := .attaching 0 (.zeroRxBuf 3) }
theorem test_hyp_AttachFrame :
    (zeroing.cfg.WF ∧ AttachStage.target zeroing.cfg (.zeroRxBuf 3) = some (0x00401800, 16)) ∧
    exec (.attach 0) zeroing = .next (after (.attach 0) zeroing) ∧
    (AttachStage.target inside.cfg .start0 = none ∧ exec (.attach 0) inside = .next (after (.attach 0) inside)) ∧
    (∀ st, fresh.sw ≠ .attaching 0 st) ∧ exec (.attach 0) fresh = .next (fresh.atStage 0 (.zeroTxDesc 0)) :=
  ⟨⟨small_wf, by decide +kernel⟩, next_after (by decide +kernel), ⟨by decide +kernel, next_after (by decide +kernel)⟩,
    (fun _ h => nomatch h), rfl⟩
/-- Its refusals: a slot past the ring, a slot the hardware owns, a fetched slot. -/
theorem test_hyp_AttachFrame_refuses :
    (small.nTx ≤ 4 ∧ small.nRx ≤ 4 ∧ fresh.attachFailed = false ∧ fresh.attached = false) ∧
    ((halfFetched (.bindTxAddr 0)).attachFailed = false ∧ (halfFetched (.bindTxAddr 0)).attached = false ∧
      (halfFetched (.bindTxAddr 0)).txFetched 0 = true) ∧
    (armed.txEnabled = true ∧ armed.txFlag 0 = false ∧ launch.rxEnabled = true ∧ launch.rxFlag 0 = false) ∧
    (after (.attach 0) { fresh with sw := .attaching 0 (.zeroTxBuf 4) }).refused ≠ none := by decide +kernel

theorem launch_launch : Launch launch where
  attached := rfl
  txTail := rfl
  rxTail := by decide +kernel
  tdbal := by decide +kernel
  tdbah := by decide +kernel
  rdbal := by decide +kernel
  rdbah := by decide +kernel
  tdlen := by decide +kernel
  rdlen := by decide +kernel
  tdh := by decide +kernel
  tdt := by decide +kernel
  rdh := by decide +kernel
  rdt := by decide +kernel
  tctl := by decide +kernel
  tipg := by decide +kernel
  rctl := by decide +kernel
  ral := by decide +kernel
  rah := by decide +kernel
  eerdAddr := by decide +kernel
  eerdData := by decide +kernel
  eerdDone := by decide +kernel
  eerdStart := by decide +kernel
  eePending := rfl
  txPending := rfl
  txDesc := by decide +kernel
  rxDesc := by decide +kernel
  txBuf := by decide +kernel
  rxBuf := by decide +kernel
  wireOut := rfl
  toStack := rfl
  fromStack := rfl
  ibPhase := rfl
  obPhase := rfl
  good := ⟨rfl, rfl, rfl⟩
theorem test_hyp_LaunchSatisfiesTheInvariants : launch.cfg.WF ∧ Launch launch := ⟨small_wf, launch_launch⟩
theorem test_hyp_EepromReadKept :
    (spinning.cfg.WF ∧ EepromRead spinning ∧ spinning.eePending = some 7 ∧ step spinning = .next spinning) ∧
    launch.cfg.WF ∧ EepromRead launch ∧ launch.eeDone = 1 ∧ step launch = .next launch :=
  ⟨⟨small_wf, ⟨by decide +kernel, by decide +kernel⟩, rfl, rfl⟩, small_wf, launch_eepromRead, by decide +kernel, rfl⟩
theorem test_hyp_StationAddressImmutable : (launch.attached = true ∧ step launch = .next launch) ∧
    (halfAddress.station ≠ .none ∧ step halfAddress = .next halfAddress) ∧
    wholeAddress.station = .both ∧ step wholeAddress = .next wholeAddress :=
  ⟨⟨rfl, rfl⟩, ⟨by decide +kernel, rfl⟩, by decide +kernel, rfl⟩

theorem test_hyp_TransmitEffect :
    (launch.SwReady ∧ launch.cfg.maxFrameLen < (List.replicate 17 (0 : Byte)).length) ∧
    (full.SwReady ∧ [(0 : Byte)].length ≤ full.cfg.maxFrameLen ∧ full.txTail < full.cfg.nTx ∧
      full.txFlag full.txTail = false) ∧
    ((List.replicate 16 (0 : Byte)).length ≤ launch.cfg.maxFrameLen ∧ ([] : Frame).length ≤ launch.cfg.maxFrameLen ∧
      launch.txTail < launch.cfg.nTx ∧ launch.txFlag launch.txTail = true ∧ launch.cfg.WF) :=
  ⟨⟨launch_ready, by decide +kernel⟩, ⟨full_ready, by decide +kernel⟩, by decide +kernel, by decide +kernel,
    by decide +kernel, by decide +kernel, small_wf⟩
theorem test_hyp_DriverOperationFrames : exec (.transmit [0xDE, 0xAD, 0xBE]) launch = .next armed ∧
    exec (.receive (List.replicate 16 0)) filled = .next (after (.receive (List.replicate 16 0)) filled) :=
  ⟨next_after (by decide +kernel), next_after (by decide +kernel)⟩
theorem test_hyp_TxFetchEffect :
    (armed.tdh < armed.cfg.nTx ∧ armed.tdt < armed.cfg.nTx ∧ armed.txRingSize ≠ 0 ∧ 
      armed.txCmd armed.tdh = cmdReportEop small.layout) ∧
    armed.FetchEnabled ∧ (armed.setTxd 0 .cmd 1).FetchEnabled ∧ 
    (armed.setTxd 0 .cmd 1).txCmd 0 ≠ cmdReportEop small.layout := by
  unfold State.FetchEnabled
  decide +kernel
/-- The head has wrapped past the oldest fetched slot, slot 3. -/
def wrapped : State := { launch with txPending := 1 }
theorem test_hyp_TxCompleteEffect :
    (fetched.cfg.WF ∧ wrapped.cfg.WF) ∧
    (fetched.txPending ≠ 0 ∧ fetched.tdh < fetched.cfg.nTx ∧ fetched.txRingSize ≠ 0 ∧
      ((0 : Nat) : Int) = ((fetched.tdh : Int) - fetched.txPending) % ((fetched.reg .tdlen).toNat / 16 : Nat)) ∧
    (wrapped.txPending ≠ 0 ∧ wrapped.tdh < wrapped.cfg.nTx ∧ wrapped.txRingSize ≠ 0 ∧
      ((3 : Nat) : Int) = ((wrapped.tdh : Int) - wrapped.txPending) % ((wrapped.reg .tdlen).toNat / 16 : Nat)) :=
  ⟨⟨fetched_cfg ▸ small_wf, small_wf⟩, by decide +kernel⟩

theorem test_hyp_ReceiveEffect :
    (launch.SwReady ∧ launch.rxTail < launch.cfg.nRx ∧ 0 = (launch.rxTail + 1) % launch.cfg.nRx ∧
      launch.rxFlag 0 = false) ∧
    (filled.SwReady ∧ filled.rxTail < filled.cfg.nRx ∧ 0 = (filled.rxTail + 1) % filled.cfg.nRx ∧
      2 = filled.rxd 0 .length ∧ filled.rxFlag 0 = true ∧ 2 ≤ filled.cfg.rxBufSize ∧
      (List.replicate 15 (0 : Byte)).length < filled.cfg.rxBufSize ∧
      filled.cfg.rxBufSize ≤ (List.replicate 16 (0 : Byte)).length) ∧
    ((filled.setRxd 0 .length 17).rxFlag 0 = true ∧ 17 = (filled.setRxd 0 .length 17).rxd 0 .length ∧
      filled.cfg.rxBufSize < 17) :=
  ⟨⟨launch_ready, by decide +kernel⟩, ⟨filled_ready, by decide +kernel⟩, by decide +kernel⟩
theorem test_hyp_RxDepositEffect :
    (offered.cfg.WF ∧ offered.rdh < offered.cfg.nRx ∧ offered.rdt < offered.cfg.nRx ∧ offered.rxRingSize ≠ 0) ∧
    (offered.DepositEnabled ∧ offered.wireIn = [0x01, 0x02] :: [] ∧
      offered.cfg.rxMinLen ≤ 2 ∧ 2 ≤ offered.cfg.rxBufSize ∧
      offered.rxd offered.rdh .addr = (offered.cfg.rxBufBase offered.rdh).toNat) ∧
    otherOffered.DepositEnabled :=
  ⟨⟨small_wf, by decide +kernel⟩, by unfold State.DepositEnabled; decide +kernel,
    by unfold State.DepositEnabled; decide +kernel⟩
theorem test_hyp_RxDropEffect : offered.wireIn = [0x01, 0x02] :: [] := rfl
theorem test_hyp_DepositNeverOverwritesAnUndrainedSlot :
    filled.cfg.WF ∧ 0 < filled.cfg.nRx ∧ filled.rxFlag 0 = true ∧
    (∀ j < filled.cfg.nRx, filled.rxd j .addr = (filled.cfg.rxBufBase j).toNat) ∧
    ∃ t, exec .rxDeposit { filled with wireIn := [[0x05]] } = .next t ∧ t.wireIn = [] :=
  ⟨small_wf, by decide +kernel, by decide +kernel, by decide +kernel, _, next_after (by decide +kernel),
    by decide +kernel⟩

theorem test_hyp_InputBridgeIteration :
    (launch.attached = true ∧ launch.ibFatal = none ∧ launch.ibPhase = .acquire ∧
      launch.collab.acquireFails = false ∧ 0 < launch.cfg.poolPages ∧ 0 ∉ launch.bufs) ∧
    ((polled launch).SwReady ∧ (polled filled).SwReady ∧ filled.cfg.WF) ∧
    ((polled launch).rxTail < small.nRx ∧ 0 = ((polled launch).rxTail + 1) % small.nRx ∧
      (polled launch).rxd 0 .length ≤ small.rxBufSize ∧
      (polled launch).rxFlag 0 = false) ∧
    ((polled filled).rxd 0 .length ≤ small.rxBufSize ∧ (polled filled).rxFlag 0 = true ∧
      (polled filled).collab.sendFails = false) :=
  ⟨by decide +kernel, ⟨polled_ready launch_ready, polled_ready filled_ready, small_wf⟩, by decide +kernel,
    by decide +kernel⟩
/-- Frames longer than a page's data; such a message. -/
theorem sending_ready {p : List Byte} {s : State} (h : s.SwReady) : (sending small p s).SwReady := by
  simpa [State.SwReady, sending] using h
def long : Config := { small with txBufSize := 32, maxFrameLen := 32 }
theorem long_wf : long.WF :=
  ⟨by decide +kernel, by decide +kernel, small_wf.map, small_wf.unit, by decide +kernel, layout_wf⟩
def beyond : List Byte := [17, 0, 0, 0] ++ page.drop 4
theorem test_hyp_OutputBridgeIteration :
    (launch.attached = true ∧ launch.obFatal = none ∧ launch.obPhase = .waiting ∧ launch.collab.recvFails = false ∧
      launch.fromStack = []) ∧
    ((({ launch with fromStack := [⟨.outputRequest, 5⟩] } : State).fromStack = ⟨.outputRequest, 5⟩ :: []) ∧
      launch.cfg.WF) ∧
    ((sending small page launch).SwReady ∧ (sending small page full).SwReady) ∧
    (5 < small.poolPages ∧ 2 = (sending small page launch).msgLen 5 ∧ 2 = (sending small page full).msgLen 5 ∧
      2 ≤ small.maxFrameLen ∧ small.msgLenBytes + 2 ≤ small.pageSize ∧
      launch.txTail < small.nTx ∧ launch.txFlag launch.txTail = true ∧ full.txTail < small.nTx ∧
      full.txFlag full.txTail = false) ∧
    (long.WF ∧ (sending long beyond launch).obPhase = .sending 5) ∧
    (17 = (sending long beyond launch).msgLen 5 ∧ 17 ≤ long.maxFrameLen ∧
      long.pageSize < long.msgLenBytes + 17) :=
  ⟨by decide +kernel, ⟨by decide +kernel, small_wf⟩, ⟨sending_ready launch_ready, sending_ready full_ready⟩,
    by decide +kernel, ⟨long_wf, rfl⟩, by decide +kernel⟩
/-- The input bridge polling, every later collaborator failing. -/
def failing (s : State) : State := { polled s with collab := ⟨false, true, true, true, 0⟩ }
theorem failing_ready {s : State} (h : s.SwReady) : (failing s).SwReady := by
  simpa [State.SwReady, failing, polled] using h
theorem test_hyp_FatalConditions :
    (launch.attached = true ∧ launch.ibFatal = none ∧ launch.obFatal = none ∧ launch.ibPhase = .acquire ∧
      launch.obPhase = .waiting) ∧
    (({ launch with collab := ⟨false, true, true, true, 0⟩ } : State).collab.acquireFails = true ∧
      ({ launch with collab := ⟨false, true, true, true, 0⟩ } : State).collab.recvFails = true) ∧
    (({ launch with fromStack := [⟨.other, 5⟩] } : State).fromStack = ⟨.other, 5⟩ :: [] ∧
      Tag.other ≠ .outputRequest) ∧
    ((sending small beyond launch).SwReady ∧ small.maxFrameLen < (sending small beyond launch).msgLen 5) ∧
    ((failing filled).SwReady ∧ filled.cfg.WF ∧
      filled.ibFatal = none ∧ filled.rxTail < filled.cfg.nRx ∧ 0 = (filled.rxTail + 1) % filled.cfg.nRx ∧
      (failing filled).rxd 0 .length ≤ filled.cfg.rxBufSize ∧
      (failing filled).rxFlag 0 = true) :=
  ⟨by decide +kernel, by decide +kernel, by decide +kernel, ⟨sending_ready launch_ready, by decide +kernel⟩,
    failing_ready filled_ready, small_wf, by decide +kernel⟩

theorem test_hyp_MemoryStaysCanonical : Mem.wf launch.mem ∧ step launch = .next launch := ⟨by decide +kernel, rfl⟩
theorem test_hyp_MarksStayAndWireOutGrows :
    step (launch.raise .ib (.fatalIoError .acquireFailed)) = .next (launch.raise .ib (.fatalIoError .acquireFailed)) ∧
    exec .rxDrop (launch.refuse .slotIndex) = .next (launch.refuse .slotIndex) ∧
    (launch.refuse .slotIndex).refused = some .slotIndex :=
  ⟨rfl, next_eq (by decide +kernel) (by decide +kernel), by decide +kernel⟩
theorem launch_owned : launch.BufsOwnedOnce := by unfold State.BufsOwnedOnce; decide +kernel
theorem test_hyp_BuffersKeepOneOwner : owned.BufsOwnedOnce ∧ step owned = .next owned :=
  ⟨by unfold State.BufsOwnedOnce; decide +kernel, rfl⟩
theorem launch_regs : AttachedRegs launch := by
  constructor <;> decide +kernel
theorem test_hyp_AttachedRegistersKept : launch.cfg.WF ∧ AttachedRegs launch ∧ step launch = .next launch :=
  ⟨small_wf, launch_regs, rfl⟩

theorem launch_txRing : TxRing launch 0 0 0 where
  oldest_lt := by decide +kernel
  fetched_le := by decide +kernel
  inFlight_le := by decide +kernel
  pending := by decide +kernel
  head := by decide +kernel
  tail := by decide +kernel
  published := by decide +kernel
  size := by decide +kernel
  flags := by decide +kernel
  armed := by decide +kernel
  commands := by decide +kernel
  bound := by decide +kernel
theorem armed_txRing : TxRing armed 0 1 0 where
  oldest_lt := by decide +kernel
  fetched_le := by decide +kernel
  inFlight_le := by decide +kernel
  pending := by decide +kernel
  head := by decide +kernel
  tail := by decide +kernel
  published := by decide +kernel
  size := by decide +kernel
  flags := by decide +kernel
  armed := by decide +kernel
  commands := by decide +kernel
  bound := by decide +kernel
theorem fetched_txRing : TxRing fetched 0 1 1 where
  oldest_lt := by decide +kernel
  fetched_le := by decide +kernel
  inFlight_le := by decide +kernel
  pending := by decide +kernel
  head := by decide +kernel
  tail := by decide +kernel
  published := by decide +kernel
  size := by decide +kernel
  flags := by decide +kernel
  armed := by decide +kernel
  commands := by decide +kernel
  bound := by decide +kernel
theorem full_txRing : TxRing full 0 4 0 where
  oldest_lt := by decide +kernel
  fetched_le := by decide +kernel
  inFlight_le := by decide +kernel
  pending := by decide +kernel
  head := by decide +kernel
  tail := by decide +kernel
  published := by decide +kernel
  size := by decide +kernel
  flags := by decide +kernel
  armed := by decide +kernel
  commands := by decide +kernel
  bound := by decide +kernel
theorem launch_rxRing : RxRing launch 0 where
  undrained_le := by decide +kernel
  tail_lt := by decide +kernel
  head := by decide +kernel
  published := by decide +kernel
  size := by decide +kernel
  flags := by decide +kernel
  lengths := by decide +kernel
  bound := by decide +kernel
theorem filled_rxRing : RxRing filled 1 where
  undrained_le := by decide +kernel
  tail_lt := by decide +kernel
  head := by decide +kernel
  published := by decide +kernel
  size := by decide +kernel
  flags := by decide +kernel
  lengths := by decide +kernel
  bound := by decide +kernel

theorem launch_rings : Rings launch := ⟨rfl, ⟨0, 0, 0, launch_txRing⟩, 0, launch_rxRing⟩
theorem test_hyp_RingInvariantsKept : Instr.isRegWrite .txFetch = false ∧ launch.cfg.WF ∧
    Rings launch ∧ exec .txFetch launch = .next launch := ⟨rfl, small_wf, launch_rings, rfl⟩
theorem test_hyp_NoRefusalUnderTheInvariants :
    (launch.cfg.WF ∧ Rings launch ∧ launch.SwReady) ∧
    (∀ f ∈ launch.wireIn, launch.cfg.rxMinLen ≤ f.length ∧ f.length ≤ launch.cfg.rxBufSize) ∧
    (∀ buf, launch.obPhase = .sending buf → launch.msgLen buf ≤ launch.cfg.maxFrameLen →
      launch.cfg.msgLenBytes + launch.msgLen buf ≤ launch.cfg.pageSize) ∧
    launch.cfg.rxBufSize ≤ (List.replicate 16 (0 : Byte)).length :=
  ⟨⟨small_wf, launch_rings, launch_ready⟩, by decide +kernel, (by intro _ h; cases h), by decide +kernel⟩

theorem test_hyp_TransmitRingIsAQueue :
    (launch.cfg.WF ∧ launch.SwReady ∧ TxRing launch 0 0 0 ∧ launch.txEnabled = true ∧
      (List.replicate 16 (0 : Byte)).length ≤ small.maxFrameLen ∧ 0 < small.nTx) ∧
    (armed.SwReady ∧ TxRing armed 0 1 0 ∧ armed.FetchEnabled) ∧
    (fetched.SwReady ∧ TxRing fetched 0 1 1 ∧ 0 < 1) ∧
    (full.SwReady ∧ TxRing full 0 4 0 ∧ 4 = full.cfg.nTx) :=
  ⟨⟨small_wf, launch_ready, launch_txRing, by decide +kernel⟩,
    ⟨armed_ready, armed_txRing, by unfold State.FetchEnabled; decide +kernel⟩,
    ⟨fetched_ready, fetched_txRing, by decide +kernel⟩, full_ready, full_txRing, by decide +kernel⟩
theorem test_hyp_ReceiveRingIsAQueue :
    (launch.cfg.WF ∧ launch.SwReady ∧ RxRing launch 0 ∧ launch.rxEnabled = true) ∧
    (offered.SwReady ∧ offered.DepositEnabled ∧ offered.wireIn = [0x01, 0x02] :: [] ∧
      small.rxMinLen ≤ 2 ∧ 2 ≤ small.rxBufSize) ∧
    (filled.cfg.WF ∧ filled.SwReady ∧ RxRing filled 1 ∧
      small.rxBufSize ≤ (List.replicate 16 (0 : Byte)).length ∧ 0 < 1) :=
  ⟨⟨small_wf, launch_ready, launch_rxRing, by decide +kernel⟩,
    ⟨⟨rfl, rfl, rfl⟩, by unfold State.DepositEnabled; decide +kernel⟩,
    small_wf, filled_ready, filled_rxRing, by decide +kernel⟩
theorem test_hyp_TransmitCapacity :
    launch.cfg.WF ∧ launch.SwReady ∧ TxRing launch 0 0 0 ∧
    ([[1], [], [2, 3], List.replicate 16 4] : List Frame).length = launch.cfg.nTx ∧
    (∀ f ∈ ([[1], [], [2, 3], List.replicate 16 4] : List Frame), f.length ≤ launch.cfg.maxFrameLen) ∧
    ([5] : Frame).length ≤ launch.cfg.maxFrameLen :=
  ⟨small_wf, launch_ready, launch_txRing, by decide +kernel⟩
theorem test_hyp_FullRingHang :
    (full.cfg.WF ∧ full.SwReady ∧ TxRing full 0 4 0 ∧ full.cfg.nTx = 4) ∧
    full.cfg.txArmRule = .tailGated ∧ other.txArmRule = .flagGated ∧ full.txEnabled = true ∧
    ([5] : Frame).length ≤ full.cfg.maxFrameLen :=
  ⟨⟨full_cfg ▸ small_wf, full_ready, full_txRing, by decide +kernel⟩, by decide +kernel⟩
theorem test_hyp_LoopbackRoundTrip :
    launch.cfg.WF ∧ launch.SwReady ∧ launch.txEnabled = true ∧ launch.rxEnabled = true ∧ TxRing launch 0 0 0 ∧
    RxRing launch 0 ∧ launch.wireIn = [] ∧ (List.replicate 16 (7 : Byte)).length ≤ launch.cfg.maxFrameLen ∧
    launch.cfg.rxMinLen ≤ (List.replicate 16 (7 : Byte)).length ∧
    (List.replicate 16 (7 : Byte)).length ≤ launch.cfg.rxBufSize ∧
    launch.cfg.rxBufSize ≤ (List.replicate 16 (0 : Byte)).length ∧
    2 ≤ launch.cfg.nTx ∧ launch.cfg.rxOfferRule = .flagGated :=
  ⟨small_wf, launch_ready, by decide +kernel, by decide +kernel, launch_txRing, launch_rxRing, by decide +kernel⟩

/-! ### Executions -/

/-- The state after one event, and the states of the run in which `ε n` happens at moment `n`. -/
def stepped (s : State) (e : Event) : State :=
  match step { s with schedule := [e] } with
  | .next t => t
  | .fault _ => s
  | .refused _ => s
def path (s : State) (ε : Nat → Event) : Nat → State
  | 0 => s
  | n + 1 => stepped (path s ε n) (ε n)

theorem stepped_eq {s t : State} {e : Event} (h : step { s with schedule := [e] } = .next t) : stepped s e = t := by
  unfold stepped; rw [h]

/-- Where one event leads from a state with nothing scheduled. -/
theorem step_op {s t : State} {r : Record} {i : Instr} (hs : s.schedule = []) (hr : s.refused = none)
    (hd : decode s.cfg r = .ok i) (he : exec i s = .next t) : step { s with schedule := [.op r] } = .next t := by
  cases s
  subst hs
  subst hr
  unfold step
  simp only [fetchRecord, hd]
  exact he

/-! A read of EEPROM word 7 over and over: EE_COMPLETE, the poll that returns, the start of the next. -/

def again (n : Nat) : Event := if n % 3 = 0 then .op ⟨.opid, [0x14]⟩ else .op ⟨.opid, [0x02, 7]⟩

def Phase (k : Nat) (s : State) : Prop :=
  s.cfg = small ∧ s.schedule = [] ∧ s.refused = none ∧ s.attached = true ∧ s.attachFailed = false ∧
  ((k = 0 ∧ s.sw = .readingWord 7 ∧ s.eePending = some 7 ∧ s.eeDone = 0) ∨
   (k = 1 ∧ s.sw = .readingWord 7 ∧ s.eePending = none ∧ s.eeDone = 1) ∨
   (k = 2 ∧ s.sw = .idle ∧ s.eePending = none))

theorem spinning_phase : Phase 0 spinning := by unfold Phase; decide +kernel

theorem phase_step {n : Nat} {s : State} (h : Phase (n % 3) s) :
    ∃ t, step { s with schedule := [again n] } = .next t ∧ Phase ((n + 1) % 3) t := by
  obtain ⟨hc, hs, hr, ha, hf, ⟨hk, hw, hp, hd⟩ | ⟨hk, hw, hp, hd⟩ | ⟨hk, hw, hp⟩⟩ := h
  · rw [again, if_pos hk, show (n + 1) % 3 = 1 by omega]
    have he : exec .eeComplete s = .next { s.setReg .eerd (setField (setField (s.reg .eerd)
        s.cfg.layout.eerdData (s.eepromWord 7)) s.cfg.layout.eerdDone 1#1) with eePending := none } := by
      simp only [exec, execEeComplete, hp]
    refine ⟨_, step_op hs hr rfl he, hc, hs, hr, ha, hf, .inr (.inl ⟨rfl, hw, rfl, ?_⟩)⟩
    exact (eerd_completed (hc ▸ layout_wf) _ _).2.1
  · rw [again, if_neg (by omega), show (n + 1) % 3 = 2 by omega]
    have he : exec (.eerdReadWord 7) s =
        .next { s.pollEerd.returns .eerdReadWord (.okWord s.eeData) with sw := .idle } := by
      simp [exec, execEerdReadWord, State.spin, hf, hw, hd]
    exact ⟨_, step_op hs hr rfl he, hc, hs, hr, ha, hf, .inr (.inr ⟨rfl, rfl, hp⟩)⟩
  · rw [again, if_neg (by omega), show (n + 1) % 3 = 0 by omega]
    have hl : s.cfg.layout.WF := hc ▸ layout_wf
    have he : exec (.eerdReadWord 7) s = .next { s.setReg .eerd (eerdReading s.cfg.layout
        (eerdAddr s.cfg.layout (eerdStartWord s.cfg.layout 7)) (Config.draw16 s.draws)) with
        eePending := some (eerdAddr s.cfg.layout (eerdStartWord s.cfg.layout 7)), draws := s.draws + 1,
        sw := .readingWord 7 } := by
      simp [exec, execEerdReadWord, hf, hw, ha, writeEerd, eerdStartWord_reserved, eerdStart_eerdStartWord hl, hp,
        Except.map, settle]
    refine ⟨_, step_op hs hr rfl he, hc, hs, hr, ha, hf, .inl ⟨rfl, rfl, ?_, eerdDone_eerdReading hl _ _⟩⟩
    exact congrArg some (eerdAddr_eerdStartWord hl 7)

theorem again_phase (n : Nat) : Phase (n % 3) (path spinning again n) := by
  induction n with
  | zero => exact spinning_phase
  | succ n ih =>
    obtain ⟨t, ht, hp⟩ := phase_step ih
    show Phase _ (stepped _ _)
    rw [stepped_eq ht]
    exact hp

theorem again_execution : Execution (path spinning again) again where
  chosen n := (again_phase n).2.1
  steps n := by
    obtain ⟨t, ht, -⟩ := phase_step (again_phase n)
    exact ht.trans (congrArg _ (stepped_eq ht).symm)

theorem again_runs (n : Nat) (c : Config) : (∃ r, again (3 * n) = .op r ∧ decode c r = .ok .eeComplete) ∧
    ∃ r, again (3 * n + 1) = .op r ∧ decode c r = .ok (.eerdReadWord 7) :=
  ⟨⟨_, if_pos (by omega), rfl⟩, _, if_neg (by omega), rfl⟩

theorem test_hyp_SpinTerminatesUnderFairness :
    (Execution (path spinning again) again ∧ FairEeu (path spinning again) again ∧ spinning.cfg.WF ∧
      spinning.eePending = some 7) ∧
    (spinning.Polls (.eerdReadWord 7) ∧ spinning.eeDone = 0 ∧
      (∀ k, 0 ≤ k → (path spinning again k).Polls (.eerdReadWord 7) →
        ∃ m, k ≤ m ∧ Runs (path spinning again) again m (.eerdReadWord 7)) ∧
      ∀ m v, ¬ Runs (path spinning again) again m (.wrEerd v)) ∧
    spinning.schedule = [] ∧ spinning.refused = none := by
  refine ⟨⟨again_execution, fun n => ⟨3 * n, by omega, fun _ => (again_runs n _).1⟩, small_wf, rfl⟩,
    ⟨⟨rfl, .inl ⟨7, rfl, rfl⟩⟩, by decide +kernel, fun k _ _ => ⟨3 * k + 1, by omega, (again_runs k _).2⟩, ?_⟩,
    rfl, rfl⟩
  rintro m v ⟨r, hr, hd⟩
  unfold again at hr
  split at hr <;> cases hr <;> cases hd

/-! One message handed over, sent and completed; then the empty wire drops nothing for ever. -/

def sendOne (n : Nat) : Event :=
  [.env (.stackSend .outputRequest 5 page), .op ⟨.opid, [0x21]⟩, .op ⟨.opid, [0x21]⟩, .op ⟨.opid, [0x10]⟩,
    .op ⟨.opid, [0x11]⟩].getD n (.op ⟨.opid, [0x13]⟩)
def sent (n : Nat) : State := path launch sendOne n

/-- The event of moment `n` answers a next state. -/
def answered (n : Nat) : Bool :=
  match step { sent n with schedule := [sendOne n] } with
  | .next _ => true
  | .fault _ => false
  | .refused _ => false
theorem step_answered {n : Nat} (h : answered n = true) :
    step { sent n with schedule := [sendOne n] } = .next (sent (n + 1)) := by
  show _ = Host.Outcome.next (stepped (sent n) (sendOne n))
  unfold stepped
  unfold answered at h
  split at h
  · next t ht => rw [ht]
  · cases h
  · cases h

theorem sent_after : ∀ n, 5 ≤ n → sent n = sent 5 := fun n hn => by
  induction n, hn using Nat.le_induction with
  | base => rfl
  | succ n hn ih =>
    have hq : (sent 5).schedule = [] ∧ (sent 5).refused = none ∧ (sent 5).wireIn = [] := by decide +kernel
    have hd : sendOne n = .op ⟨.opid, [0x13]⟩ := by unfold sendOne; rw [List.getD_eq_default _ _ (by simpa using hn)]
    have he : exec .rxDrop (sent 5) = .next (sent 5) := by
      show Host.Outcome.next { sent 5 with wireIn := (sent 5).wireIn.tail } = _
      rw [hq.2.2, List.tail_nil, ← hq.2.2]
    show stepped (sent n) (sendOne n) = _
    rw [ih, hd]
    exact stepped_eq (step_op hq.1 hq.2.1 rfl he)

/-- A claim about every moment of the run is six claims. -/
theorem sent_cases {P : State → Prop} (h : ∀ n < 6, P (sent n)) (n : Nat) : P (sent n) := by
  by_cases hn : n < 6
  · exact h n hn
  · rw [sent_after n (by omega)]
    exact h 5 (by omega)

/-- A completion of slot 0 leaves slot 1's flag. -/
theorem complete_flag {s : State} (hc : s.cfg = small) (hq : s.schedule = [] ∧ s.refused = none)
    (hp : s.txPending ≠ 0 ∧ s.tdh < s.cfg.nTx ∧ s.txRingSize ≠ 0 ∧ s.txOldest = 0) (hf : s.txFlag 1 = true) :
    (stepped s (.op ⟨.opid, [0x11]⟩)).txFlag 1 = true := by
  have he : exec .txComplete s = .next { s.setTxd s.txOldest .status
      (engineStatus s.cfg.layout.txDone (Config.draw8 s.draws)).toNat with
      wireOut := s.wireOut ++ [s.txFrame s.txOldest], txPending := s.txPending - 1, draws := s.draws + 1 } := by
    simp only [exec, execTxComplete]
    rw [if_neg hp.1, if_neg (Nat.not_le.mpr hp.2.1), if_neg hp.2.2.1]
  have hd : s.txdBase 0 = 0x200000 ∧ s.txdBase 1 = 0x200010 := by
    unfold State.txdBase; rw [hc]; decide
  have ho := State.txd_setTxd_other (s := s) (i := 0) (j := 1) (f := .status) (g := .status)
    (engineStatus s.cfg.layout.txDone (Config.draw8 s.draws)).toNat (.inl (by decide))
    (by rw [hc]; decide) (by rw [hd.1]; decide) (by rw [hd.2]; decide)
  rw [stepped_eq (step_op hq.1 hq.2 rfl he), hp.2.2.2]
  unfold State.txFlag State.txStatus at hf ⊢
  exact (congrArg (fun v => flagBit s.cfg.layout.txDone (BitVec.ofNat 8 v)) ho).trans hf
theorem sent_flag : (sent 5).txFlag 1 = true :=
  have h : (sent 4).txPending ≠ 0 ∧ (sent 4).tdh < (sent 4).cfg.nTx ∧ (sent 4).txRingSize ≠ 0 ∧
      (sent 4).txOldest = 0 := by decide +kernel
  complete_flag (s := sent 4) (by decide +kernel) (by decide +kernel) h (by decide +kernel)

theorem test_hyp_TransmitProgress :
    (Launch (sent 0) ∧ (sent 0).SwReady ∧ (sent 0).cfg.WF) ∧ Execution sent sendOne ∧ BridgesOnly sent sendOne ∧
    FairTxe sent sendOne ∧ FairOb sent sendOne ∧ (∀ n, (sent n).obFatal = none) ∧ (sent 0).BufsOwnedOnce ∧
    (∀ n d m p, TxRing (sent n) d m p → m - p < (sent 0).cfg.nTx) ∧
    offeredPayloads small sendOne 1 = [[0xA1, 0xA2]] := by
  have hq : (sent 5).schedule = [] ∧ (sent 5).refused = none ∧ (sent 5).txPending = 0 ∧ ¬ (sent 5).FetchEnabled ∧
      (sent 5).obPhase = .waiting ∧ (sent 5).fromStack = [] ∧ (sent 5).collab.recvFails = false := by
    unfold State.FetchEnabled; decide +kernel
  refine ⟨⟨launch_launch, launch_ready, small_wf⟩,
    ⟨sent_cases (P := fun s => s.schedule = []) (by decide +kernel), fun n => step_answered ?_⟩,
    fun n => ?_, ⟨fun n => ⟨n + 5, by omega, ?_⟩, fun n => ⟨n + 5, by omega, ?_⟩⟩, fun n => ⟨n + 5, by omega, ?_⟩,
    sent_cases (P := fun s => s.obFatal = none) (by decide +kernel), launch_owned, ?_, by decide +kernel⟩
  · by_cases hn : n < 5
    · exact (by decide +kernel : ∀ n < 5, answered n = true) n hn
    · have hd : sendOne n = .op ⟨.opid, [0x13]⟩ := by unfold sendOne; rw [List.getD_eq_default _ _ (by simpa using hn)]
      unfold answered
      rw [sent_after n (by omega), hd, step_op hq.1 hq.2.1 rfl rfl]
  · by_cases hn : n < 5
    · have : n = 0 ∨ n = 1 ∨ n = 2 ∨ n = 3 ∨ n = 4 := by omega
      rcases this with rfl | rfl | rfl | rfl | rfl
      · exact .inl ⟨_, rfl⟩
      · exact .inr ⟨.outBridgeIter, by simp, _, rfl, rfl⟩
      · exact .inr ⟨.outBridgeIter, by simp, _, rfl, rfl⟩
      · exact .inr ⟨.txFetch, by simp, _, rfl, rfl⟩
      · exact .inr ⟨.txComplete, by simp, _, rfl, rfl⟩
    · refine .inr ⟨.rxDrop, by simp, ⟨.opid, [0x13]⟩, ?_, rfl⟩
      unfold sendOne; rw [List.getD_eq_default _ _ (by simpa using hn)]
  · show (sent (n + 5)).FetchEnabled → _
    rw [sent_after _ (by omega)]; exact fun h => absurd h hq.2.2.2.1
  · show (sent (n + 5)).txPending ≠ 0 → _
    rw [sent_after _ (by omega)]; exact fun h => absurd hq.2.2.1 h
  · show _ ∧ _ ∧ ((∃ buf, (sent (n + 5)).obPhase = .sending buf) ∨ (sent (n + 5)).fromStack ≠ [] ∨
      (sent (n + 5)).collab.recvFails = true) → _
    rw [sent_after _ (by omega)]
    rintro ⟨-, -, ⟨buf, h⟩ | h | h⟩
    · rw [hq.2.2.2.2.1] at h; cases h
    · exact absurd hq.2.2.2.2.2.1 h
    · rw [hq.2.2.2.2.2.2] at h; cases h
  · intro n d m p
    have hc := sent_cases (P := fun s => s.cfg = small) (by decide +kernel) n
    revert d m p
    refine sent_cases (P := fun s => ∀ d m p, TxRing s d m p → m - p < 4) (fun n hn d m p h => ?_) n
    have hc := sent_cases (P := fun s => s.cfg = small) (by decide +kernel) n
    obtain ⟨h1, h2, h3, h4, h5, h6, h7, -, h9, -⟩ := h
    rw [hc] at h1 h3 h5 h6 h9
    have h1 : d < 4 := h1
    have h3 : m ≤ 4 := h3
    by_contra hlt
    obtain rfl : m = 4 := by omega
    obtain rfl : p = 0 := by omega
    have h9 := h9 0 (by decide)
    rw [Nat.add_zero, show d % small.nTx = d from Nat.mod_eq_of_lt h1] at h9
    have h6 : (sent n).txTail = d := h6.trans (by show (d + 4) % 4 = d; omega)
    have h5 : (sent n).tdh = d := h5.trans (by show (d + 0) % 4 = d; omega)
    have hx : n < 3 ∨ n = 3 ∨ n = 4 ∨ n = 5 := by omega
    rcases hx with hx | rfl | rfl | rfl
    · have := (by decide +kernel : ∀ n < 3, ∀ d < 4, (sent n).txFlag d = true) n hx d h1
      rw [this] at h9; cases h9
    · have := (by decide +kernel : (sent 3).txTail ≠ (sent 3).tdh)
      exact this (h6.trans h5.symm)
    · exact absurd h4 (by decide +kernel)
    · have ht := (by decide +kernel : (sent 5).txTail = 1)
      obtain rfl : d = 1 := h6.symm.trans ht
      rw [sent_flag] at h9; cases h9

/-! The input bridge alone, polling an empty ring for ever. -/

def poll (_ : Nat) : Event := .op ⟨.opid, [0x20]⟩

def Waits (s : State) : Prop :=
  s.cfg = small ∧ s.mem = launch.mem ∧ s.schedule = [] ∧ s.refused = none ∧ s.SwReady ∧ s.ibFatal = none ∧
  s.rxTail = 3 ∧ ((s.ibPhase = .acquire ∧ s.acquire = some 0) ∨ s.ibPhase = .polling 0)

theorem launch_waits : Waits launch := ⟨rfl, rfl, rfl, rfl, launch_ready, rfl, rfl, .inl ⟨rfl, by decide +kernel⟩⟩

theorem waits_step {s : State} {n : Nat} (h : Waits s) :
    ∃ t, step { s with schedule := [poll n] } = .next t ∧ Waits t := by
  obtain ⟨hc, hm, hs, hr, hw, hf, ht, ⟨hp, ha⟩ | hp⟩ := h
  · have he : exec .inBridgeIter s = .next { s with ibPhase := .polling 0 } := by
      simp [exec, execInBridgeIter, hw.1, hf, hp, ha]
    exact ⟨_, step_op hs hr rfl he, hc, hm, hs, hr, hw, hf, ht, .inr rfl⟩
  · have hcand : s.rxCandidate = 0 := by unfold State.rxCandidate; rw [ht, hc]; rfl
    have hflag : s.rxFlag s.rxCandidate = false := by
      have h0 : launch.rxFlag 0 = false := by decide +kernel
      rw [hcand]
      unfold State.rxFlag State.rxStatus at h0 ⊢
      rw [State.rxd_congr (s := launch) (show s.cfg = launch.cfg from hc) hm, hc]
      exact h0
    have hcap : s.cfg.rxBufSize ≤ (pageData s.cfg (s.msgPage 0)).length := by
      simp only [pageData, List.length_drop, State.msgPage_length, hc]; decide
    have he : exec .inBridgeIter s = .next (s.returns .receive (.err .queueEmpty)) := by
      simp [exec, execInBridgeIter, hw.1, hf, hp, hw.receiveOp_eq (by rw [ht, hc]; decide) hcap, hflag]
    exact ⟨_, step_op hs hr rfl he, hc, hm, hs, hr, hw, hf, ht, .inr hp⟩

theorem poll_waits (n : Nat) : Waits (path launch poll n) := by
  induction n with
  | zero => exact launch_waits
  | succ n ih =>
    obtain ⟨t, ht, hw⟩ := waits_step (n := n) ih
    show Waits (stepped _ _)
    rw [stepped_eq ht]
    exact hw

theorem test_hyp_ReceiveProgress :
    (Launch (path launch poll 0) ∧ (path launch poll 0).SwReady ∧ (path launch poll 0).cfg.WF ∧
      (path launch poll 0).BufsOwnedOnce ∧ (path launch poll 0).delivered = []) ∧
    Execution (path launch poll) poll ∧ BridgesOnly (path launch poll) poll ∧ FairIb (path launch poll) poll ∧
    ∀ n, (path launch poll n).ibFatal = none :=
  ⟨⟨launch_launch, launch_ready, small_wf, launch_owned, rfl⟩,
    ⟨fun n => (poll_waits n).2.2.1, fun n => by
      obtain ⟨t, ht, -⟩ := waits_step (n := n) (poll_waits n)
      exact ht.trans (congrArg _ (stepped_eq ht).symm)⟩,
    fun n => .inr ⟨.inBridgeIter, by simp, _, rfl, rfl⟩, fun n => ⟨n, Nat.le_refl _, fun _ => ⟨_, rfl, rfl⟩⟩,
    fun n => (poll_waits n).2.2.2.2.2.1⟩

end Sys2Proof.Tests
end

/-! ### What a step is, by what is scheduled (R8, R56, R320) -/

namespace Sys2Proof.Machine

theorem step_idle {s : State} (hr : s.refused = none) (hs : s.schedule = []) : step s = .next s := by
  simp [step, hr, hs]

theorem step_env {s : State} {m : EnvMove} {rest : List Event} (hr : s.refused = none)
    (hs : s.schedule = .env m :: rest) : step s = envMove m { s with schedule := rest } := by
  simp [step, hr, hs]

theorem step_marked {s : State} {e : Refuse} (hr : s.refused = some e) : step s = .refused (.markedRefused e) := by
  simp [step, hr]

theorem fetchRecord_of_decode {c : Config} {r : Record} {i : Instr} (h : decode c r = .ok i) :
    fetchRecord c r = .instr i := by simp [fetchRecord, h]

theorem step_instr {s : State} {r : Record} {rest : List Event} {i : Instr} (hr : s.refused = none)
    (hs : s.schedule = .op r :: rest) (hd : decode s.cfg r = .ok i) :
    step s = exec i { s with schedule := rest } := by
  simp [step, hr, hs, fetchRecord_of_decode hd]

/-- Settles O6: the scheduled record is fetched as the operation it decodes to. -/
theorem stepRunsTheDecodedInstruction : Obligations.StepRunsTheDecodedInstruction :=
  fun _ _ _ _ hr hs hd => step_instr hr hs hd

/-- Settles O7: the step by an empty schedule, by a move of ENV, and by a state that bears the mark. -/
theorem stepWithoutAnInstruction : Obligations.StepWithoutAnInstruction :=
  fun _ => ⟨step_idle, fun _ _ => step_env, fun _ => step_marked⟩

end Sys2Proof.Machine

/-! ### What decodes is what the encoder writes (R101, R120) -/

namespace Sys2Proof

theorem Reg.offset_of_ofOffset {c : Config} {o : Nat} {r : Reg} (h : Reg.ofOffset c o = some r) : r.offset c = o := by
  simpa using List.find?_some h

@[simp] theorem encode_readOp (c : Config) (r : Reg) : encode c r.readOp = encodeRead c r := by cases r <;> rfl
@[simp] theorem encode_writeOp (c : Config) (r : Reg) (v : Word) : encode c (r.writeOp v) = encodeWrite c r v := by
  cases r <;> rfl
@[simp] theorem Reg.readOp_wellFormed (r : Reg) : r.readOp.wellFormed = true := by cases r <;> rfl
@[simp] theorem Reg.writeOp_wellFormed (r : Reg) (v : Word) : (r.writeOp v).wellFormed = true := by cases r <;> rfl

/-- A word of `w` bits holds the number of a byte string that has exactly as many bits. -/
theorem toNat_ofNat_leValue {w n : Nat} {bs : List Byte} (hl : bs.length = n) (hw : 256 ^ n = 2 ^ w) :
    (BitVec.ofNat w (leValue bs)).toNat = leValue bs := by
  have := Machine.leValue_lt bs
  rw [BitVec.toNat_ofNat, Nat.mod_eq_of_lt]
  rwa [hl, hw] at this

/-- The bytes of a byte string's number, when their count is known under another name. -/
theorem leBytes_of_length {bs : List Byte} {n : Nat} (hl : bs.length = n) : leBytes n (leValue bs) = bs :=
  hl ▸ Machine.leBytes_leValue bs

/-- What decodes as a bus transaction: a selector in range, naming a register by its offset, and either no data after
it, a read, or a word of data, a write (R101, R175). -/
theorem decodeMmio_ok {c : Config} {width : Nat} {bs : List Byte} {i : Instr} (h : decodeMmio c width bs = .ok i) :
    width * 8 = c.regBits ∧ ∃ (sel data : List Byte) (r : Reg), bs = sel ++ data ∧ sel.length = 3 ∧
      ((leValue sel = r.offset c ∧ data = [] ∧ i = r.readOp) ∨
       (leValue sel = 2 ^ 17 + r.offset c ∧ data.length = width ∧ i = r.writeOp (BitVec.ofNat 32 (leValue data)))) := by
  unfold decodeMmio at h
  split at h
  case h_2 => cases h
  case h_1 b0 b1 b2 data =>
    simp only at h
    split at h
    · cases h
    next hrange =>
    split at h
    · cases h
    next hwidth =>
    split at h
    · cases h
    split at h
    · cases h
    next r hr =>
    have ho := Reg.offset_of_ofOffset hr
    refine ⟨not_not.1 hwidth, [b0, b1, b2], data, r, rfl, rfl, ?_⟩
    split_ifs at h with hrw hdata hdata
    · exact .inl ⟨by omega, hdata, (Except.ok.inj h).symm⟩
    · exact .inr ⟨by omega, hdata, (Except.ok.inj h).symm⟩

/-- A byte-string operand that decodes has its own length before it, so one of 64 bits (log 5). -/
theorem decodeCounted_ok {k : List Byte → Instr} {rest : List Byte} {i : Instr} (h : decodeCounted k rest = .ok i) :
    ∃ bs, i = k bs ∧ bs.length < addrSpace ∧ encodeCounted bs = rest := by
  unfold decodeCounted at h
  split_ifs at h with hc
  obtain ⟨h8, hlen⟩ := hc
  have ht : (rest.take 8).length = 8 := by simpa using h8
  refine ⟨rest.drop 8, (Except.ok.inj h).symm, ?_, ?_⟩
  · have := Machine.leValue_lt (rest.take 8)
    rw [hlen, ht] at this
    exact this
  · rw [encodeCounted, ← hlen, leBytes_of_length ht, List.take_append_drop]

theorem decodeBare_ok {i j : Instr} {rest : List Byte} (h : decodeBare j rest = .ok i) : i = j ∧ rest = [] := by
  unfold decodeBare at h
  split_ifs at h with hr
  exact ⟨(Except.ok.inj h).symm, hr⟩

/-- A bus transaction that decodes is the one the encoder writes for its register (R101). -/
theorem encode_of_decodeMmio {c : Config} (hw : c.WF) {width : Nat} {bs : List Byte} {i : Instr}
    (h : decodeMmio c width bs = .ok i) : i.wellFormed = true ∧ encode c i = ⟨.mmio width, bs⟩ := by
  obtain ⟨hwidth, sel, data, r, rfl, hsel, hi⟩ := decodeMmio_ok h
  obtain rfl : width = 4 := by rw [hw.regBits] at hwidth; omega
  rcases hi with ⟨ho, rfl, rfl⟩ | ⟨ho, hdata, rfl⟩
  · exact ⟨r.readOp_wellFormed, by simp [encodeRead, readRecord, ← ho, leBytes_of_length hsel]⟩
  · refine ⟨r.writeOp_wellFormed _, ?_⟩
    rw [encode_writeOp, encodeWrite, writeRecord, ← ho, leBytes_of_length hsel,
      toNat_ofNat_leValue hdata (by decide), leBytes_of_length hdata]

theorem encode_of_decodeCounted {c : Config} {k : List Byte → Instr} {id : Byte} {rest : List Byte} {i : Instr}
    (hk : ∀ bs, (k bs).wellFormed = decide (bs.length < addrSpace))
    (he : ∀ bs, encode c (k bs) = encodeOpid id (encodeCounted bs)) (h : decodeCounted k rest = .ok i) :
    i.wellFormed = true ∧ encode c i = ⟨.opid, id :: rest⟩ := by
  obtain ⟨bs, rfl, hlt, rfl⟩ := decodeCounted_ok h
  exact ⟨by simpa [hk] using hlt, he bs⟩

theorem encode_of_decodeBare {c : Config} {id : Byte} {rest : List Byte} {i j : Instr} (hj : j.wellFormed = true)
    (he : encode c j = encodeOpid id []) (h : decodeBare j rest = .ok i) :
    i.wellFormed = true ∧ encode c i = ⟨.opid, id :: rest⟩ := by
  obtain ⟨rfl, rfl⟩ := decodeBare_ok h
  exact ⟨hj, he⟩

/-- A record that decodes by its id is the one the encoder writes for that id (R120). -/
theorem encode_of_decodeOpid (c : Config) {bs : List Byte} {i : Instr} (h : decodeOpid bs = .ok i) :
    i.wellFormed = true ∧ encode c i = ⟨.opid, bs⟩ := by
  unfold decodeOpid at h
  split at h
  · cases h
  next op rest =>
  obtain ⟨hop, h⟩ | ⟨-, h⟩ := ite_eq_iff.1 h
  · obtain ⟨hl, h⟩ | ⟨-, h⟩ := ite_eq_iff.1 h
    · obtain rfl := Except.ok.inj h
      refine ⟨rfl, ?_⟩
      rw [hop, encode, encodeOpid, toNat_ofNat_leValue hl (by decide), leBytes_of_length hl]
    · cases h
  obtain ⟨hop, h⟩ | ⟨-, h⟩ := ite_eq_iff.1 h
  · obtain ⟨hl, h⟩ | ⟨-, h⟩ := ite_eq_iff.1 h
    · obtain rfl := Except.ok.inj h
      obtain ⟨b, rfl⟩ := List.length_eq_one_iff.1 hl
      exact ⟨rfl, by simp [hop, encode, encodeOpid, leValue]⟩
    · cases h
  iterate 2
    obtain ⟨hop, h⟩ | ⟨-, h⟩ := ite_eq_iff.1 h
    · exact hop ▸ encode_of_decodeCounted (fun _ => rfl) (fun _ => rfl) h
  iterate 7
    obtain ⟨hop, h⟩ | ⟨-, h⟩ := ite_eq_iff.1 h
    · exact hop ▸ encode_of_decodeBare rfl rfl h
  cases h

/-- Settles O2, by the two formats of a record. -/
theorem decodedRecordIsTheEncoding : Obligations.DecodedRecordIsTheEncoding := by
  rintro c ⟨format, bs⟩ i hw h
  cases format with
  | mmio width => exact encode_of_decodeMmio hw h
  | opid => exact encode_of_decodeOpid c h

end Sys2Proof

/-! ### The reference configuration and its words (R5, R104 to R110) -/

namespace Sys2Proof.Config

theorem reference_txBufRegion {i : Nat} (h : i < 64) :
    reference.txBufRegion i = (0x00300000 + 0x800 * i, 1518) := by
  have hlt : 0x00300000 + 0x800 * i < 2 ^ 64 := by omega
  simpa [txBufRegion, txBufBase, reference, h] using hlt

theorem reference_rxBufRegion {i : Nat} (h : i < 128) :
    reference.rxBufRegion i = (0x00400000 + 0x800 * i, 2048) := by
  have hlt : 0x00400000 + 0x800 * i < 2 ^ 64 := by omega
  simpa [rxBufRegion, rxBufBase, reference, h] using hlt

/-- The window, the two descriptor arrays and the packet buffers, with their numerals. -/
theorem reference_regions : reference.regions =
    (0xF0000000, 0x20000) :: (0x00200000, 0x400) :: (0x00201000, 0x800) ::
      ((List.range 64).map (fun i => (0x00300000 + 0x800 * i, 1518)) ++
       (List.range 128).map fun i => (0x00400000 + 0x800 * i, 2048)) := by
  rw [← List.map_congr_left fun i hi => reference_txBufRegion (List.mem_range.1 hi),
    ← List.map_congr_left fun i hi => reference_rxBufRegion (List.mem_range.1 hi)]
  rfl

theorem mem_reference_regions {r : Region} : r ∈ reference.regions ↔
    r = (0xF0000000, 0x20000) ∨ r = (0x00200000, 0x400) ∨ r = (0x00201000, 0x800) ∨
      (∃ i < 64, (0x00300000 + 0x800 * i, 1518) = r) ∨ ∃ i < 128, (0x00400000 + 0x800 * i, 2048) = r := by
  simp [reference_regions]

/-- Buffers of one kind, `stride` apart and no longer than that, do not meet. -/
theorem pairwise_disjoint_strided (base : Nat) {stride size : Nat} (n : Nat) (h : size ≤ stride) :
    ((List.range n).map fun i => (base + stride * i, size)).Pairwise Region.Disjoint := by
  refine List.pairwise_map.2 (List.pairwise_lt_range.imp fun {i j} hij => .inl ?_)
  have := Nat.mul_le_mul_left stride (Nat.succ_le_of_lt hij)
  rw [Nat.mul_succ] at this
  simp only
  omega

/-- The regions of R71 rise in the order of the list, and the window lies past them all. -/
theorem reference_regions_pairwise : reference.regions.Pairwise Region.Disjoint := by
  rw [reference_regions]
  simp only [List.pairwise_cons, List.pairwise_append, List.mem_cons, List.mem_append, List.mem_map, List.mem_range]
  refine ⟨?_, ?_, ?_, pairwise_disjoint_strided _ 64 (by decide), pairwise_disjoint_strided _ 128 (by decide), ?_⟩
  · rintro r (rfl | rfl | ⟨i, hi, rfl⟩ | ⟨i, hi, rfl⟩) <;> right <;> simp only <;> omega
  · rintro r (rfl | ⟨i, hi, rfl⟩ | ⟨i, hi, rfl⟩) <;> left <;> simp only <;> omega
  · rintro r (⟨i, hi, rfl⟩ | ⟨i, hi, rfl⟩) <;> left <;> simp only <;> omega
  · rintro _ ⟨i, hi, rfl⟩ _ ⟨j, hj, rfl⟩
    left
    simp only
    omega

/-- Every region ends below the first message page. -/
theorem reference_regions_end : ∀ r ∈ reference.regions, r.1 + r.2 ≤ 0x100000000 := by
  intro r hr
  rcases mem_reference_regions.1 hr with rfl | rfl | rfl | ⟨i, hi, rfl⟩ | ⟨i, hi, rfl⟩ <;> simp only <;> omega

theorem reference_sizesFit : reference.SizesFit :=
  ⟨by decide, by decide, by decide, by decide, by decide, by decide, by decide, reference_regions_pairwise⟩

theorem reference_rowsFit : reference.RowsFit :=
  ⟨by decide, by decide, by decide, by decide, by decide, by decide, by decide, by decide, by decide, by decide,
    rfl, rfl, fun r hr => (reference_regions_end r hr).trans (by decide), rfl, rfl⟩

/-- The message pages lie past every region. -/
theorem reference_poolFits : reference.PoolFits :=
  ⟨fun r hr => .inr (reference_regions_end r hr), by decide⟩

theorem reference_wf : reference.WF where
  sizes := reference_sizesFit
  rows := reference_rowsFit
  map := by decide
  unit := by decide
  pool := reference_poolFits
  fields := by constructor <;> decide

end Sys2Proof.Config

namespace Sys2Proof.Machine

/-- The word that starts an EEPROM read, at the reference positions (R104). -/
theorem eerdStartWord_reference (a : BitVec 8) : eerdStartWord Layout.reference a = (a.setWidth 32 <<< 8 ||| 1) := by
  simp [eerdStartWord, place, Layout.reference]

/-- The two bytes of a half word placed side by side are the half word placed. -/
theorem place_bytes (p : Nat) (w : Half) :
    place p (w.extractLsb' 0 8) ||| place (p + 8) (w.extractLsb' 8 8) = place p w := by
  apply BitVec.eq_of_getLsbD_eq
  intro i hi
  simp only [BitVec.getLsbD_or, getLsbD_place, BitVec.getLsbD_extractLsb']
  by_cases hlow : i < p + 8
  · simp [hi, show ¬ p + 8 ≤ i by omega, show i - p < 8 by omega]
  · by_cases hhigh : i < p + 16
    · simp [hi, show p ≤ i by omega, show p + 8 ≤ i by omega, show ¬ i - p < 8 by omega,
        show i - (p + 8) < 8 by omega, show 8 + (i - (p + 8)) = i - p by omega]
    · simp [show ¬ i - p < 8 by omega, show ¬ i - (p + 8) < 8 by omega, BitVec.getLsbD_of_ge w (i - p) (by omega)]

/-- Two half words placed side by side are their concatenation, the high one first. -/
theorem place_halves (low high : Half) : place 0 low ||| place 16 high = high ++ low := by
  apply BitVec.eq_of_getLsbD_eq
  intro i hi
  simp only [BitVec.getLsbD_or, getLsbD_place, BitVec.getLsbD_append]
  by_cases hlow : i < 16
  · simp [hi, hlow, show ¬ 16 ≤ i by omega]
  · simp [hi, hlow, show 16 ≤ i by omega]

/-- RAL at the reference positions (R109). -/
theorem ralWord_reference (w0 w1 : Half) : ralWord Layout.reference w0 w1 = w1 ++ w0 := by
  calc ralWord Layout.reference w0 w1
      = place 0 (w0.extractLsb' 0 8) ||| place (0 + 8) (w0.extractLsb' 8 8) |||
          (place 16 (w1.extractLsb' 0 8) ||| place (16 + 8) (w1.extractLsb' 8 8)) := (BitVec.or_assoc ..).symm
    _ = place 0 w0 ||| place 16 w1 := by rw [place_bytes, place_bytes]
    _ = w1 ++ w0 := place_halves w0 w1

/-- RAH at the reference positions: AV is its highest bit (R110). -/
theorem rahWord_reference (w2 : Half) : rahWord Layout.reference w2 = (0x8000 : Half) ++ w2 := by
  have hav : place 31 1#1 = place 16 (0x8000 : Half) := by decide
  calc rahWord Layout.reference w2
      = place 0 (w2.extractLsb' 0 8) ||| place (0 + 8) (w2.extractLsb' 8 8) ||| place 31 1#1 :=
        (BitVec.or_assoc ..).symm
    _ = place 0 w2 ||| place 16 (0x8000 : Half) := by rw [place_bytes, hav]
    _ = (0x8000 : Half) ++ w2 := place_halves w2 0x8000

/-- Settles O4: well-formedness region by region, the words over a free operand as bit vectors, the fixed words by
evaluation. -/
theorem referenceSizingAndLayout : Obligations.ReferenceSizingAndLayout := by
  refine ⟨Config.reference_wf, eerdStartWord_reference, ?_, rfl, ?_, rfl, rfl, ralWord_reference, rahWord_reference, ?_⟩
  all_goals decide

end Sys2Proof.Machine

/-! ### No step clears a mark (R50, R52, R56) -/

namespace Sys2Proof.Machine

/-- The parameters, the marks and `wire_out`, together. -/
def State.marks (s : State) : Config × Bool × Option Fatal × Option Fatal × Option Refuse × List Frame :=
  (s.cfg, s.attached, s.ibFatal, s.obFatal, s.refused, s.wireOut)

/-- From `s` to `t` the parameters stand, no mark is cleared or overwritten and `wire_out` only grows (R50, R52,
R56). -/
structure KeepsMarks (s t : State) : Prop where
  cfg : t.cfg = s.cfg
  attached : s.attached = true → t.attached = true
  ibFatal : ∀ f, s.ibFatal = some f → t.ibFatal = some f
  obFatal : ∀ f, s.obFatal = some f → t.obFatal = some f
  refused : ∀ e, s.refused = some e → t.refused = some e
  wireOut : s.wireOut <+: t.wireOut

theorem KeepsMarks.of_marks_eq {s t : State} (h : t.marks = s.marks) : KeepsMarks s t := by
  simp only [State.marks, Prod.mk.injEq] at h
  obtain ⟨hc, ha, hi, ho, hr, hw⟩ := h
  exact ⟨hc, fun h => ha ▸ h, fun _ h => hi ▸ h, fun _ h => ho ▸ h, fun _ h => hr ▸ h, hw ▸ List.prefix_rfl⟩

theorem KeepsMarks.trans {s t u : State} (h : KeepsMarks s t) (k : KeepsMarks t u) : KeepsMarks s u :=
  ⟨k.cfg.trans h.cfg, k.attached ∘ h.attached, fun _ e => k.ibFatal _ (h.ibFatal _ e),
    fun _ e => k.obFatal _ (h.obFatal _ e), fun _ e => k.refused _ (h.refused _ e), h.wireOut.trans k.wireOut⟩

theorem State.refuse_keepsMarks (s : State) (e : Refuse) : KeepsMarks s (s.refuse e) :=
  ⟨rfl, id, fun _ => id, fun _ => id, fun _ => s.refuse_refused_sticky e, List.prefix_rfl⟩

theorem State.raise_keepsMarks (s : State) (b : Bridge) (f : Fatal) : KeepsMarks s (s.raise b f) := by
  cases b
  case ib => exact ⟨rfl, id, fun g h => by simp [State.raise, h], fun _ => id, fun _ => id, List.prefix_rfl⟩
  case ob => exact ⟨rfl, id, fun _ => id, fun g h => by simp [State.raise, h], fun _ => id, List.prefix_rfl⟩

theorem regAccess_keepsMarks {i : Instr} {s t : State} (hi : i.isRegWrite = true ∨ ∃ r : Reg, i = r.readOp)
    (h : exec i s = .next t) : KeepsMarks s t := by
  rcases regAccess_cases h hi with ⟨e, rfl⟩ | ⟨v, n, rfl⟩ | ⟨r, v, p, n, st, -, -, -, rfl⟩
  · exact s.refuse_keepsMarks e
  · exact .of_marks_eq rfl
  · exact .of_marks_eq rfl

theorem AttachAccess.keepsMarks {st : AttachStage} {s t : State} (h : AttachAccess st s t) : KeepsMarks s t where
  cfg := (congrArg State.cfg h.rest).trans rfl
  attached := h.attached
  ibFatal _ hf := (congrArg State.ibFatal h.rest).trans hf
  obFatal _ hf := (congrArg State.obFatal h.rest).trans hf
  refused _ he := (congrArg State.refused h.rest).trans he
  wireOut := ((congrArg State.wireOut h.rest).trans rfl : t.wireOut = s.wireOut) ▸ List.prefix_rfl

theorem execAttach_keepsMarks {a : Addr} {s t : State} (h : execAttach a s = .next t) : KeepsMarks s t := by
  rcases execAttach_cases h with ⟨e, rfl⟩ | ⟨-, -, ⟨-, -, rfl⟩ | ⟨-, -, rfl⟩ | ⟨st, -, h⟩⟩
  · exact s.refuse_keepsMarks e
  · exact .of_marks_eq rfl
  · exact .of_marks_eq rfl
  · exact (attachStep_access h).keepsMarks

theorem execEerdReadWord_keepsMarks {a : BitVec 8} {s t : State} (h : execEerdReadWord a s = .next t) :
    KeepsMarks s t := by
  rcases execEerdReadWord_cases h with ⟨e, rfl⟩ | ⟨-, ⟨-, -, u, hu, rfl⟩ | ⟨-, -, rfl⟩ | ⟨-, -, rfl⟩⟩
  · exact s.refuse_keepsMarks e
  · obtain ⟨-, rfl⟩ := writeEerd_iff.1 hu
    exact .of_marks_eq rfl
  · exact .of_marks_eq rfl
  · exact .of_marks_eq rfl

theorem transmitOp_keepsMarks {len : Nat} {payload : Frame} {s t : State} {e : Option ErrKind}
    (h : transmitOp len payload s = .ok (e, t)) : KeepsMarks s t :=
  .of_marks_eq ((congrArg State.marks (transmitOp_frame h).1).trans rfl)

theorem receiveOp_keepsMarks {out : List Byte} {s t : State} {r : Option (Nat × List Byte)}
    (h : receiveOp out s = .ok (r, t)) : KeepsMarks s t :=
  .of_marks_eq ((congrArg State.marks (receiveOp_frame h).1).trans rfl)

theorem execTransmit_keepsMarks {payload : Frame} {s t : State} (h : execTransmit payload s = .next t) :
    KeepsMarks s t := by
  rcases execTransmit_cases h with ⟨e, rfl⟩ | ⟨e, h⟩
  · exact s.refuse_keepsMarks e
  · exact transmitOp_keepsMarks h

theorem execReceive_keepsMarks {out : List Byte} {s t : State} (h : execReceive out s = .next t) :
    KeepsMarks s t := by
  rcases execReceive_cases h with ⟨e, rfl⟩ | h | ⟨n, data, u, hu, rfl⟩
  · exact s.refuse_keepsMarks e
  · exact receiveOp_keepsMarks h
  · exact (receiveOp_keepsMarks hu).trans (.of_marks_eq rfl)

theorem execTxFetch_keepsMarks {s t : State} (h : execTxFetch s = .next t) : KeepsMarks s t := by
  rcases execTxFetch_cases h with rfl | ⟨e, rfl⟩ | ⟨-, -, -, -, -, -, rfl⟩
  · exact .of_marks_eq rfl
  · exact s.refuse_keepsMarks e
  · exact .of_marks_eq rfl

/-- The one operation that adds to `wire_out` (R52, R205). -/
theorem execTxComplete_keepsMarks {s t : State} (h : execTxComplete s = .next t) : KeepsMarks s t := by
  rcases execTxComplete_cases h with rfl | ⟨e, rfl⟩ | ⟨-, -, -, rfl⟩
  · exact .of_marks_eq rfl
  · exact s.refuse_keepsMarks e
  · exact ⟨rfl, id, fun _ => id, fun _ => id, fun _ => id, List.prefix_append _ _⟩

theorem execRxDeposit_keepsMarks {s t : State} (h : execRxDeposit s = .next t) : KeepsMarks s t := by
  rcases execRxDeposit_cases h with rfl | ⟨e, rfl⟩ | ⟨f, rest, -, -, -, -, -, -, -, rfl⟩
  · exact .of_marks_eq rfl
  · exact s.refuse_keepsMarks e
  · exact .of_marks_eq (by simp [State.marks])

theorem execRxDrop_keepsMarks {s t : State} (h : execRxDrop s = .next t) : KeepsMarks s t :=
  Host.Outcome.next.inj h ▸ .of_marks_eq rfl

theorem execEeComplete_keepsMarks {s t : State} (h : execEeComplete s = .next t) : KeepsMarks s t := by
  rcases execEeComplete_cases h with ⟨-, rfl⟩ | ⟨a, -, rfl⟩ <;> exact .of_marks_eq rfl

theorem State.fillMsg_keepsMarks (s : State) (b : Buf) (n : Nat) (data : List Byte) :
    KeepsMarks s (s.fillMsg b n data) :=
  .of_marks_eq ((congrArg State.marks (s.fillMsg_eq b n data)).trans rfl)

theorem execInBridgeIter_keepsMarks {s t : State} (h : execInBridgeIter s = .next t) : KeepsMarks s t := by
  rcases execInBridgeIter_cases h with rfl | ⟨e, rfl⟩ | ⟨-, -, -, rfl⟩ | ⟨b, -, -, -, rfl⟩ |
    ⟨b, r, u, -, -, hu, ⟨-, rfl⟩ | ⟨n, data, -, rfl | rfl⟩⟩
  · exact .of_marks_eq rfl
  · exact s.refuse_keepsMarks e
  · exact s.raise_keepsMarks _ _
  · exact .of_marks_eq rfl
  · exact receiveOp_keepsMarks hu
  · exact ((receiveOp_keepsMarks hu).trans (u.fillMsg_keepsMarks b n data)).trans (State.raise_keepsMarks _ _ _)
  · exact ((receiveOp_keepsMarks hu).trans (u.fillMsg_keepsMarks b n data)).trans (.of_marks_eq rfl)

theorem execOutBridgeIter_keepsMarks {s t : State} (h : execOutBridgeIter s = .next t) : KeepsMarks s t := by
  rcases execOutBridgeIter_cases h with rfl | ⟨e, rfl⟩ | ⟨-, rfl⟩ | ⟨msg, rest, -, -, -, ⟨-, rfl⟩ | ⟨-, rfl⟩⟩ |
    ⟨b, e, u, -, -, hu, ⟨-, rfl⟩ | ⟨-, rfl⟩ | ⟨k, -, -, rfl⟩⟩
  · exact .of_marks_eq rfl
  · exact s.refuse_keepsMarks e
  · exact s.raise_keepsMarks _ _
  · exact .of_marks_eq rfl
  · exact .trans (t := { s with fromStack := rest }) (.of_marks_eq rfl) (State.raise_keepsMarks _ _ _)
  · exact (transmitOp_keepsMarks hu).trans (.of_marks_eq rfl)
  · exact transmitOp_keepsMarks hu
  · exact (transmitOp_keepsMarks hu).trans (u.raise_keepsMarks _ _)

theorem exec_keepsMarks {i : Instr} {s t : State} (h : exec i s = .next t) : KeepsMarks s t := by
  rcases Instr.kinds i with hi | ⟨a, rfl⟩ | ⟨a, rfl⟩ | ⟨p, rfl⟩ | ⟨b, rfl⟩ | rfl | rfl | rfl | rfl | rfl | rfl | rfl
  · exact regAccess_keepsMarks hi h
  · exact execAttach_keepsMarks h
  · exact execEerdReadWord_keepsMarks h
  · exact execTransmit_keepsMarks h
  · exact execReceive_keepsMarks h
  · exact execTxFetch_keepsMarks h
  · exact execTxComplete_keepsMarks h
  · exact execRxDeposit_keepsMarks h
  · exact execRxDrop_keepsMarks h
  · exact execEeComplete_keepsMarks h
  · exact execInBridgeIter_keepsMarks h
  · exact execOutBridgeIter_keepsMarks h

theorem envMove_keepsMarks {m : EnvMove} {s t : State} (h : envMove m s = .next t) : KeepsMarks s t := by
  rcases envMove_cases h with rfl | ⟨f, -, -, rfl⟩ | ⟨tag, b, page, -, -, -, -, rfl⟩ | ⟨msg, rest, -, -, rfl⟩ |
    ⟨b, -, -, rfl⟩ | ⟨c, -, rfl⟩
  case inr.inr.inl =>
    have hp : KeepsMarks s (s.setPage b page) := .of_marks_eq ((congrArg State.marks (s.setPage_eq b page)).trans rfl)
    exact hp.trans (.of_marks_eq rfl)
  all_goals exact .of_marks_eq rfl

theorem step_keepsMarks {s t : State} (h : step s = .next t) : KeepsMarks s t := by
  rcases step_cases h with ⟨-, rfl⟩ | ⟨rest, -, h⟩
  · exact .of_marks_eq rfl
  · have hs : KeepsMarks s { s with schedule := rest } := .of_marks_eq rfl
    rcases h with ⟨e, rfl⟩ | ⟨i, h⟩ | ⟨m, h⟩
    · exact hs.trans (State.refuse_keepsMarks _ e)
    · exact hs.trans (exec_keepsMarks h)
    · exact hs.trans (envMove_keepsMarks h)

/-- Settles O49: every operation and every move of ENV keeps the marks. -/
theorem marksStayAndWireOutGrows : Obligations.MarksStayAndWireOutGrows :=
  ⟨fun _ _ h =>
    let k := step_keepsMarks h
    ⟨k.cfg, k.attached, k.ibFatal, k.obFatal, k.wireOut⟩,
    fun _ _ _ e h => (exec_keepsMarks h).refused e⟩

end Sys2Proof.Machine

/-! ### What an operation does to the registers, the EEPROM read and the station address (R25 to R40, R51) -/

namespace Sys2Proof.Machine

/-- The registers with the two pieces of state that go with them, the pending EEPROM read (R51) and the count of the
writes of the station address (R171, R172), and the parameters. -/
structure RegBlock where
  cfg : Config
  regs : RegFile
  eePending : Option (BitVec 8)
  station : StationWrites

def State.regBlock (s : State) : RegBlock := ⟨s.cfg, s.regs, s.eePending, s.station⟩

/-- From `s` to `t` the registers change by one of the writes of the rules, if at all, in a register that `may` admits:
a register with no other state beside it is stored, a read of the EEPROM starts (R143) or is completed (R182), a half
of the station address is written (R171, R172). -/
inductive RegChange (may : Reg → Bool) (s t : State) : Prop
  | keeps (ht : t.regBlock = s.regBlock)
  | stores (r : Reg) (v : Word) (hm : may r = true) (hr : r ≠ .eerd ∧ r ≠ .ral ∧ r ≠ .rah)
      (ht : t.regBlock = { s.regBlock with regs := s.regs.set r v })
  | startsRead (a : BitVec 8) (free : Half) (hm : may .eerd = true)
      (ht : t.regBlock = { s.regBlock with
        regs := s.regs.set .eerd (eerdReading s.cfg.layout a free), eePending := some a })
  | endsRead (a : BitVec 8) (hm : may .eerd = true) (ha : s.eePending = some a)
      (ht : t.regBlock = { s.regBlock with
        regs := s.regs.set .eerd
          (setField (setField (s.reg .eerd) s.cfg.layout.eerdData (s.eepromWord a)) s.cfg.layout.eerdDone 1#1),
        eePending := none })
  | writesRal (v : Word) (hm : may .ral = true) (ha : s.attached = false) (hs : s.station = .none)
      (ht : t.regBlock = { s.regBlock with regs := s.regs.set .ral v, station := .ral })
  | writesRah (v : Word) (hm : may .rah = true) (ha : s.attached = false) (hs : s.station = .ral)
      (ht : t.regBlock = { s.regBlock with regs := s.regs.set .rah v, station := .both })

section
variable {may : Reg → Bool} {s t u : State}

theorem RegChange.congr (h : RegChange may s u) (ht : t.regBlock = u.regBlock) : RegChange may s t := by
  cases h with
  | keeps hu => exact .keeps (ht.trans hu)
  | stores r v hm hr hu => exact .stores r v hm hr (ht.trans hu)
  | startsRead a free hm hu => exact .startsRead a free hm (ht.trans hu)
  | endsRead a hm ha hu => exact .endsRead a hm ha (ht.trans hu)
  | writesRal v hm ha hs hu => exact .writesRal v hm ha hs (ht.trans hu)
  | writesRah v hm ha hs hu => exact .writesRah v hm ha hs (ht.trans hu)

/-- What happens after an event is taken from the schedule happens from the state before. -/
theorem RegChange.of_schedule {rest : List Event} (h : RegChange may { s with schedule := rest } t) :
    RegChange may s t := by
  cases h with
  | keeps ht => exact .keeps ht
  | stores r v hm hr ht => exact .stores r v hm hr ht
  | startsRead a free hm ht => exact .startsRead a free hm ht
  | endsRead a hm ha ht => exact .endsRead a hm ha ht
  | writesRal v hm ha hs ht => exact .writesRal v hm ha hs ht
  | writesRah v hm ha hs ht => exact .writesRah v hm ha hs ht

theorem RegChange.setReg {r : Reg} {v : Word} (hm : may r = true) (hr : r ≠ .eerd ∧ r ≠ .ral ∧ r ≠ .rah)
    (ht : t = s.setReg r v) : RegChange may s t := .stores r v hm hr (ht ▸ rfl)

/-! The three writes that change more than their register. -/

theorem writeEerd_regChange {v : Word} (hm : may .eerd = true) (h : writeEerd v s = .ok t) : RegChange may s t := by
  obtain ⟨-, rfl⟩ := writeEerd_iff.1 h
  exact .startsRead _ _ hm rfl

theorem writeRal_regChange {v : Word} (hm : may .ral = true) (h : writeRal v s = .ok t) : RegChange may s t := by
  obtain ⟨⟨ha, hs⟩, rfl⟩ := writeRal_iff.1 h
  exact .writesRal v hm ha hs rfl

theorem writeRah_regChange {v : Word} (hm : may .rah = true) (h : writeRah v s = .ok t) : RegChange may s t := by
  obtain ⟨⟨-, ha, hs⟩, rfl⟩ := writeRah_iff.1 h
  exact .writesRah v hm ha hs rfl

/-! Register accesses by SW. -/

theorem busRead_regChange {r : Reg} (h : busRead r s = .next t) : RegChange may s t := by
  rcases busRead_cases h with ⟨-, rfl⟩ | ⟨e, rfl⟩ <;> exact .keeps rfl

theorem busWrite_regChange {w : State → Except Refuse State} (hw : ∀ u, w s = .ok u → RegChange may s u)
    (h : busWrite w s = .next t) : RegChange may s t := by
  rcases busWrite_cases h with ⟨-, h⟩ | ⟨e, rfl⟩
  · exact hw t h
  · exact .keeps rfl

theorem execRdEerd_regChange (h : execRdEerd s = .next t) : RegChange may s t := by
  unfold execRdEerd at h
  split at h <;> exact Host.Outcome.next.inj h ▸ .keeps rfl

theorem readOp_regChange {r : Reg} (h : exec r.readOp s = .next t) : RegChange may s t := by
  cases r
  case ctrl => exact Host.Outcome.next.inj h ▸ .keeps rfl
  case status => exact Host.Outcome.next.inj h ▸ .keeps rfl
  case eerd => exact execRdEerd_regChange h
  all_goals exact busRead_regChange h

theorem regWrite_regChange {i : Instr} (hi : i.isRegWrite = true) (h : exec i s = .next t) :
    RegChange i.mayWrite s t := by
  cases i
  case wrCtrl => exact Host.Outcome.next.inj h ▸ .keeps rfl
  case wrStatus => exact Host.Outcome.next.inj h ▸ .keeps rfl
  case wrEerd => exact busWrite_regChange (fun _ => writeEerd_regChange rfl) h
  case wrRal => exact busWrite_regChange (fun _ => writeRal_regChange rfl) h
  case wrRah => exact busWrite_regChange (fun _ => writeRah_regChange rfl) h
  case wrRctl => exact busWrite_regChange (fun _ h => .setReg rfl (by decide) (writeRctl_iff.1 h).2) h
  case wrTctl => exact busWrite_regChange (fun _ h => .setReg rfl (by decide) (writeTctl_iff.1 h).2) h
  case wrTipg => exact busWrite_regChange (fun _ h => .setReg rfl (by decide) (writeTipg_iff.1 h).2) h
  case wrRdbal => exact busWrite_regChange (fun _ h => .setReg rfl (by decide) (writeRdbal_iff.1 h).2) h
  case wrRdbah => exact busWrite_regChange (fun _ h => .setReg rfl (by decide) (writeRdbah_iff.1 h).2) h
  case wrRdlen => exact busWrite_regChange (fun _ h => .setReg rfl (by decide) (writeRdlen_iff.1 h).2) h
  case wrRdh => exact busWrite_regChange (fun _ h => .setReg rfl (by decide) (writeRdh_iff.1 h).2) h
  case wrRdt => exact busWrite_regChange (fun _ h => .setReg rfl (by decide) (writeRdt_iff.1 h).2) h
  case wrTdbal => exact busWrite_regChange (fun _ h => .setReg rfl (by decide) (writeTdbal_iff.1 h).2) h
  case wrTdbah => exact busWrite_regChange (fun _ h => .setReg rfl (by decide) (writeTdbah_iff.1 h).2) h
  case wrTdlen => exact busWrite_regChange (fun _ h => .setReg rfl (by decide) (writeTdlen_iff.1 h).2) h
  case wrTdh => exact busWrite_regChange (fun _ h => .setReg rfl (by decide) (writeTdh_iff.1 h).2) h
  case wrTdt => exact busWrite_regChange (fun _ h => .setReg rfl (by decide) (writeTdt_iff.1 h).2) h
  all_goals cases hi

/-! ATTACH and EERD_READ_WORD, which make the same accesses (R180, R186). -/

theorem State.zeroTarget_regBlock (s : State) (st : AttachStage) : (s.zeroTarget st).regBlock = s.regBlock := by
  simp [State.regBlock]

theorem attachTx_regChange {i : Nat} (hb : u.regBlock = s.regBlock) (h : attachTx s i u = .ok t) :
    RegChange may s t := by
  obtain ⟨-, -, rfl⟩ := attachTx_ok h
  exact .keeps hb

theorem attachRx_regChange {i : Nat} (hb : u.regBlock = s.regBlock) (h : attachRx s i u = .ok t) :
    RegChange may s t := by
  obtain ⟨-, -, rfl⟩ := attachRx_ok h
  exact .keeps hb

theorem State.spin_regChange {k : Half → State → State} (hk : ∀ w u, (k w u).regBlock = u.regBlock) :
    RegChange may s (s.spin k) := by
  unfold State.spin
  split
  · exact .keeps (hk _ _)
  · exact .keeps rfl

theorem RegChange.of_map {f : State → State} {e : Except Refuse State} (h : e.map f = .ok t)
    (hf : ∀ u, (f u).regBlock = u.regBlock) (hu : ∀ u, e = .ok u → RegChange may s u) : RegChange may s t := by
  obtain ⟨u, he, rfl⟩ := map_ok_cases h
  exact (hu u he).congr (hf u)

/-- An access of ATTACH, after which SW stands at the next stage. -/
theorem RegChange.of_stage {a : Addr} {next : AttachStage} {e : Except Refuse State}
    (h : e.map (·.atStage a next) = .ok t) (hu : ∀ u, e = .ok u → RegChange may s u) : RegChange may s t :=
  .of_map h (fun _ => rfl) hu

theorem attachStep_regChange {a : Addr} {st : AttachStage} (h : attachStep a st s = .ok t) :
    RegChange (Instr.attach a).mayWrite s t := by
  cases st <;> simp only [attachStep] at h
  case zeroTxDesc | zeroTxBuf => exact .of_stage h fun _ => attachTx_regChange (s.zeroTarget_regBlock _)
  case zeroRxDesc | zeroRxBuf => exact .of_stage h fun _ => attachRx_regChange (s.zeroTarget_regBlock _)
  case bindTxAddr | bindTxStatus => exact .of_stage h fun _ => attachTx_regChange rfl
  case bindRx => exact .of_stage h fun _ => attachRx_regChange rfl
  case spin0 | spin1 | spin2 => exact Except.ok.inj h ▸ State.spin_regChange fun _ _ => rfl
  case finish => exact Except.ok.inj h ▸ .keeps rfl
  case start0 | start1 | start2 => exact .of_stage h fun _ => writeEerd_regChange rfl
  case wrRal => exact .of_stage h fun _ => writeRal_regChange rfl
  case wrRah => exact .of_stage h fun _ => writeRah_regChange rfl
  case wrTdt =>
    exact .of_stage h fun _ h => .of_map h (fun _ => rfl) fun _ h => .setReg rfl (by decide) (writeTdt_iff.1 h).2
  case wrRdt =>
    exact .of_stage h fun _ h => .of_map h (fun _ => rfl) fun _ h => .setReg rfl (by decide) (writeRdt_iff.1 h).2
  case wrTdbal => exact .of_stage h fun _ h => .setReg rfl (by decide) (writeTdbal_iff.1 h).2
  case wrTdbah => exact .of_stage h fun _ h => .setReg rfl (by decide) (writeTdbah_iff.1 h).2
  case wrTdlen => exact .of_stage h fun _ h => .setReg rfl (by decide) (writeTdlen_iff.1 h).2
  case wrTdh => exact .of_stage h fun _ h => .setReg rfl (by decide) (writeTdh_iff.1 h).2
  case wrRdbal => exact .of_stage h fun _ h => .setReg rfl (by decide) (writeRdbal_iff.1 h).2
  case wrRdbah => exact .of_stage h fun _ h => .setReg rfl (by decide) (writeRdbah_iff.1 h).2
  case wrRdlen => exact .of_stage h fun _ h => .setReg rfl (by decide) (writeRdlen_iff.1 h).2
  case wrRdh => exact .of_stage h fun _ h => .setReg rfl (by decide) (writeRdh_iff.1 h).2
  case wrTctl => exact .of_stage h fun _ h => .setReg rfl (by decide) (writeTctl_iff.1 h).2
  case wrTipg => exact .of_stage h fun _ h => .setReg rfl (by decide) (writeTipg_iff.1 h).2
  case wrRctl => exact .of_stage h fun _ h => .setReg rfl (by decide) (writeRctl_iff.1 h).2

theorem execAttach_regChange {a : Addr} (h : execAttach a s = .next t) : RegChange (Instr.attach a).mayWrite s t := by
  rcases execAttach_cases h with ⟨e, rfl⟩ | ⟨-, -, ⟨-, -, rfl⟩ | ⟨-, -, rfl⟩ | ⟨st, -, h⟩⟩
  · exact .keeps rfl
  · exact .keeps rfl
  · exact .keeps rfl
  · exact attachStep_regChange h

theorem execEerdReadWord_regChange {a : BitVec 8} (h : execEerdReadWord a s = .next t) :
    RegChange (Instr.eerdReadWord a).mayWrite s t := by
  rcases execEerdReadWord_cases h with ⟨e, rfl⟩ | ⟨-, ⟨-, -, u, hu, rfl⟩ | ⟨-, -, rfl⟩ | ⟨-, -, rfl⟩⟩
  · exact .keeps rfl
  · exact (writeEerd_regChange rfl hu).congr rfl
  · exact .keeps rfl
  · exact .keeps rfl

/-! TRANSMIT and RECEIVE publish a tail, the engines move a head (R200, R204, R230, R234). -/

theorem transmitOp_regChange {len : Nat} {payload : Frame} {e : Option ErrKind} (hm : may .tdt = true)
    (h : transmitOp len payload s = .ok (e, t)) : RegChange may s t := by
  rcases (transmitOp_cases h).2 with ⟨-, -, rfl⟩ | ⟨-, -, -, -, rfl⟩ | ⟨-, -, -, -, rfl⟩
  · exact .keeps rfl
  · exact .keeps rfl
  · exact .stores .tdt _ hm (by decide) rfl

theorem receiveOp_regChange {out : List Byte} {r : Option (Nat × List Byte)} (hm : may .rdt = true)
    (h : receiveOp out s = .ok (r, t)) : RegChange may s t := by
  rcases (receiveOp_cases h).2.2.2 with ⟨-, -, rfl⟩ | ⟨-, -, -, rfl⟩
  · exact .keeps rfl
  · exact .stores .rdt _ hm (by decide) rfl

theorem execTransmit_regChange {payload : Frame} (h : execTransmit payload s = .next t) :
    RegChange (Instr.transmit payload).mayWrite s t := by
  rcases execTransmit_cases h with ⟨e, rfl⟩ | ⟨e, h⟩
  · exact .keeps rfl
  · exact transmitOp_regChange rfl h

theorem execReceive_regChange {out : List Byte} (h : execReceive out s = .next t) :
    RegChange (Instr.receive out).mayWrite s t := by
  rcases execReceive_cases h with ⟨e, rfl⟩ | h | ⟨n, data, u, hu, rfl⟩
  · exact .keeps rfl
  · exact receiveOp_regChange rfl h
  · exact (receiveOp_regChange rfl hu).congr rfl

theorem execTxFetch_regChange (h : execTxFetch s = .next t) : RegChange Instr.txFetch.mayWrite s t := by
  rcases execTxFetch_cases h with rfl | ⟨e, rfl⟩ | ⟨-, -, -, -, -, -, rfl⟩
  · exact .keeps rfl
  · exact .keeps rfl
  · exact .stores .tdh _ rfl (by decide) rfl

theorem execTxComplete_regChange (h : execTxComplete s = .next t) : RegChange may s t := by
  rcases execTxComplete_cases h with rfl | ⟨e, rfl⟩ | ⟨-, -, -, rfl⟩ <;> exact .keeps rfl

theorem execRxDeposit_regChange (h : execRxDeposit s = .next t) : RegChange Instr.rxDeposit.mayWrite s t := by
  rcases execRxDeposit_cases h with rfl | ⟨e, rfl⟩ | ⟨f, rest, -, -, -, -, -, -, -, rfl⟩
  · exact .keeps rfl
  · exact .keeps rfl
  · exact .stores .rdh _ rfl (by decide) rfl

theorem execEeComplete_regChange (h : execEeComplete s = .next t) : RegChange Instr.eeComplete.mayWrite s t := by
  rcases execEeComplete_cases h with ⟨-, rfl⟩ | ⟨a, ha, rfl⟩
  · exact .keeps rfl
  · exact .endsRead a rfl ha rfl

/-! The bridges. -/

theorem State.raise_regBlock (s : State) (b : Bridge) (f : Fatal) : (s.raise b f).regBlock = s.regBlock := by
  simp [State.regBlock]

theorem State.fillMsg_regBlock (s : State) (b : Buf) (n : Nat) (d : List Byte) :
    (s.fillMsg b n d).regBlock = s.regBlock := by
  simp [State.regBlock]

theorem execInBridgeIter_regChange (h : execInBridgeIter s = .next t) : RegChange Instr.inBridgeIter.mayWrite s t := by
  rcases execInBridgeIter_cases h with rfl | ⟨e, rfl⟩ | ⟨-, -, -, rfl⟩ | ⟨b, -, -, -, rfl⟩ |
    ⟨b, r, u, -, -, hu, ⟨-, rfl⟩ | ⟨n, data, -, rfl | rfl⟩⟩
  · exact .keeps rfl
  · exact .keeps rfl
  · exact .keeps rfl
  · exact .keeps rfl
  · exact receiveOp_regChange rfl hu
  · exact (receiveOp_regChange rfl hu).congr ((State.raise_regBlock _ _ _).trans (u.fillMsg_regBlock b n data))
  · exact (receiveOp_regChange rfl hu).congr (u.fillMsg_regBlock b n data)

theorem execOutBridgeIter_regChange (h : execOutBridgeIter s = .next t) :
    RegChange Instr.outBridgeIter.mayWrite s t := by
  rcases execOutBridgeIter_cases h with rfl | ⟨e, rfl⟩ | ⟨-, rfl⟩ | ⟨msg, rest, -, -, -, ⟨-, rfl⟩ | ⟨-, rfl⟩⟩ |
    ⟨b, e, u, -, -, hu, ⟨-, rfl⟩ | ⟨-, rfl⟩ | ⟨k, -, -, rfl⟩⟩
  · exact .keeps rfl
  · exact .keeps rfl
  · exact .keeps rfl
  · exact .keeps rfl
  · exact .keeps rfl
  · exact (transmitOp_regChange rfl hu).congr rfl
  · exact transmitOp_regChange rfl hu
  · exact (transmitOp_regChange rfl hu).congr rfl

theorem exec_regChange {i : Instr} (h : exec i s = .next t) : RegChange i.mayWrite s t := by
  rcases Instr.kinds i with (hi | ⟨r, rfl⟩) | ⟨a, rfl⟩ | ⟨a, rfl⟩ | ⟨p, rfl⟩ | ⟨b, rfl⟩ | rfl | rfl | rfl | rfl |
    rfl | rfl | rfl
  · exact regWrite_regChange hi h
  · exact readOp_regChange h
  · exact execAttach_regChange h
  · exact execEerdReadWord_regChange h
  · exact execTransmit_regChange h
  · exact execReceive_regChange h
  · exact execTxFetch_regChange h
  · exact execTxComplete_regChange h
  · exact execRxDeposit_regChange h
  · exact Host.Outcome.next.inj h ▸ .keeps rfl
  · exact execEeComplete_regChange h
  · exact execInBridgeIter_regChange h
  · exact execOutBridgeIter_regChange h

theorem envMove_regBlock {m : EnvMove} (h : envMove m s = .next t) : t.regBlock = s.regBlock := by
  rcases envMove_cases h with rfl | ⟨f, -, -, rfl⟩ | ⟨tag, b, page, -, -, -, -, rfl⟩ | ⟨msg, rest, -, -, rfl⟩ |
    ⟨b, -, -, rfl⟩ | ⟨c, -, rfl⟩
  case inr.inr.inl => simp [State.regBlock]
  all_goals rfl

/-- A step is, for the registers, one of the same changes. -/
theorem step_regChange (h : step s = .next t) : ∃ may, RegChange may s t := by
  rcases step_cases h with ⟨-, rfl⟩ | ⟨rest, -, ⟨e, rfl⟩ | ⟨i, h⟩ | ⟨m, h⟩⟩
  · exact ⟨fun _ => false, .keeps rfl⟩
  · exact ⟨fun _ => false, .keeps rfl⟩
  · exact ⟨i.mayWrite, (exec_regChange h).of_schedule⟩
  · exact ⟨fun _ => false, .of_schedule (.keeps (envMove_regBlock h))⟩

end

/-! ### EERD agrees with the pending read (R51, R144, R182) -/

/-- The invariant reads the parameters, EERD and the pending read alone. -/
theorem EepromRead.congr {s t : State} (h : EepromRead s) (hc : t.cfg = s.cfg) (he : t.reg .eerd = s.reg .eerd)
    (hp : t.eePending = s.eePending) : EepromRead t := by
  constructor
  · simpa [State.eeDone, hc, he, hp] using h.pending
  · simpa [State.eeDone, State.eeData, State.eepromWord, hc, he] using h.data

/-- A read that has just started is pending and not DONE (R143). -/
theorem EepromRead.of_started {s t : State} {a : BitVec 8} {free : Half} (hl : s.cfg.layout.WF) (hc : t.cfg = s.cfg)
    (he : t.reg .eerd = eerdReading s.cfg.layout a free) (hp : t.eePending = some a) : EepromRead t := by
  have hd : t.eeDone = 0 := by rw [State.eeDone, he, hc, eerdDone_eerdReading hl]
  refine ⟨fun b hb => ⟨hd, ?_⟩, fun h1 => ?_⟩
  · obtain rfl := Option.some.inj (hp.symm.trans hb)
    rw [he, hc, eerdAddr_eerdReading hl]
  · rw [hd] at h1
    cases h1

/-- Completing a read leaves ADDR (R182). -/
theorem eerdAddr_completed {l : Layout} (hl : l.WF) (v : Word) (d : Half) :
    eerdAddr l (setField (setField v l.eerdData d) l.eerdDone 1#1) = eerdAddr l v := by
  obtain ⟨-, -, -, -, -, -, -, hDone, -, hData⟩ := eerd_apart hl
  rw [eerdAddr, extract_setField_other _ _ (Or.symm hDone), extract_setField_other _ _ hData, eerdAddr]

/-- A completed read leaves the word ADDR names in DATA (R182). -/
theorem EepromRead.of_completed {s t : State} {a : BitVec 8} (h : EepromRead s) (hl : s.cfg.layout.WF)
    (ha : s.eePending = some a) (hc : t.cfg = s.cfg)
    (he : t.reg .eerd =
      setField (setField (s.reg .eerd) s.cfg.layout.eerdData (s.eepromWord a)) s.cfg.layout.eerdDone 1#1)
    (hp : t.eePending = none) : EepromRead t := by
  refine ⟨fun b hb => ?_, fun _ => ?_⟩
  · rw [hp] at hb
    cases hb
  · obtain ⟨-, haddr⟩ := h.pending a ha
    obtain ⟨hdata, -, -⟩ := eerd_completed hl (s.reg .eerd) (s.eepromWord a)
    simp only [State.eeData, State.eepromWord, hc, he, eerdAddr_completed hl, haddr]
    exact hdata

theorem RegChange.eepromRead {may : Reg → Bool} {s t : State} (h : RegChange may s t) (hl : s.cfg.layout.WF)
    (hs : EepromRead s) : EepromRead t := by
  cases h with
  | keeps ht =>
    exact hs.congr (congrArg RegBlock.cfg ht) (congrArg (·.regs.get .eerd) ht) (congrArg RegBlock.eePending ht)
  | stores r v hm hr ht =>
    exact hs.congr (congrArg RegBlock.cfg ht) ((congrArg (·.regs.get .eerd) ht).trans (RegFile.get_set_ne _ v hr.1.symm))
      (congrArg RegBlock.eePending ht)
  | startsRead a free hm ht =>
    exact .of_started hl (congrArg RegBlock.cfg ht) (congrArg (·.regs.get .eerd) ht) (congrArg RegBlock.eePending ht)
  | endsRead a hm ha ht =>
    exact hs.of_completed hl ha (congrArg RegBlock.cfg ht) (congrArg (·.regs.get .eerd) ht)
      (congrArg RegBlock.eePending ht)
  | writesRal v hm ha hst ht =>
    exact hs.congr (congrArg RegBlock.cfg ht) (congrArg (·.regs.get .eerd) ht) (congrArg RegBlock.eePending ht)
  | writesRah v hm ha hst ht =>
    exact hs.congr (congrArg RegBlock.cfg ht) (congrArg (·.regs.get .eerd) ht) (congrArg RegBlock.eePending ht)

/-- Settles O35, by what a step can do to the registers. -/
theorem eepromReadKept : Obligations.EepromReadKept := fun _ _ hw hs h =>
  let ⟨_, hc⟩ := step_regChange h
  hc.eepromRead hw.fields hs

end Sys2Proof.Machine

/-! ### Who writes a register (R25 to R40) -/

namespace Sys2Proof.Machine

/-- The register block stays or one register that `may` admits is stored. -/
theorem RegChange.regs_cases {may : Reg → Bool} {s t : State} (h : RegChange may s t) :
    t.regs = s.regs ∨ ∃ r v, may r = true ∧ t.regs = s.regs.set r v := by
  cases h with
  | keeps ht => exact .inl (congrArg RegBlock.regs ht)
  | stores r v hm _ ht => exact .inr ⟨r, v, hm, congrArg RegBlock.regs ht⟩
  | startsRead _ _ hm ht => exact .inr ⟨_, _, hm, congrArg RegBlock.regs ht⟩
  | endsRead _ hm _ ht => exact .inr ⟨_, _, hm, congrArg RegBlock.regs ht⟩
  | writesRal v hm _ _ ht => exact .inr ⟨_, v, hm, congrArg RegBlock.regs ht⟩
  | writesRah v hm _ _ ht => exact .inr ⟨_, v, hm, congrArg RegBlock.regs ht⟩

/-- Settles O16: the one register an operation stores is one that `Instr.mayWrite` lists for it. -/
theorem onlyNamedWritersChangeRegisters : Obligations.OnlyNamedWritersChangeRegisters := by
  intro i s t r h hne
  rcases (exec_regChange h).regs_cases with ht | ⟨q, v, hq, ht⟩
  · exact absurd (State.reg_congr ht r) hne
  · have hrq : r = q := by
      by_contra hrq
      exact hne ((congrArg (·.get r) ht).trans (RegFile.get_set_ne _ v hrq))
    exact hrq ▸ hq

/-! ### The station address is written once (R49, R171, R172, R191) -/

/-- The station address stays; or, before ATTACH has succeeded, RAL is written as the first half or RAH as the
second. -/
theorem RegChange.station_cases {may : Reg → Bool} {s t : State} (h : RegChange may s t) :
    (t.reg .ral = s.reg .ral ∧ t.reg .rah = s.reg .rah ∧ t.station = s.station) ∨
    (s.attached = false ∧ s.station = .none) ∨
    (s.attached = false ∧ s.station = .ral ∧ t.reg .ral = s.reg .ral ∧ t.station = .both) := by
  cases h with
  | keeps ht =>
    exact .inl ⟨congrArg (·.regs.get .ral) ht, congrArg (·.regs.get .rah) ht, congrArg RegBlock.station ht⟩
  | stores r v _ hr ht =>
    obtain ⟨-, hl, hh⟩ := hr
    exact .inl ⟨(congrArg (·.regs.get .ral) ht).trans (RegFile.get_set_ne _ v hl.symm),
      (congrArg (·.regs.get .rah) ht).trans (RegFile.get_set_ne _ v hh.symm), congrArg RegBlock.station ht⟩
  | startsRead _ _ _ ht =>
    exact .inl ⟨congrArg (·.regs.get .ral) ht, congrArg (·.regs.get .rah) ht, congrArg RegBlock.station ht⟩
  | endsRead _ _ _ ht =>
    exact .inl ⟨congrArg (·.regs.get .ral) ht, congrArg (·.regs.get .rah) ht, congrArg RegBlock.station ht⟩
  | writesRal _ _ ha hn _ => exact .inr (.inl ⟨ha, hn⟩)
  | writesRah _ _ ha hn ht =>
    exact .inr (.inr ⟨ha, hn, congrArg (·.regs.get .ral) ht, congrArg RegBlock.station ht⟩)

theorem State.stationAddr_congr {s t : State} (hc : t.cfg = s.cfg) (hl : t.reg .ral = s.reg .ral)
    (hh : t.reg .rah = s.reg .rah) : t.stationAddr = s.stationAddr := by
  simp [State.stationAddr, hc, hl, hh]

/-- Settles O36: the only writes of RAL and RAH are the first ones, before ATTACH has succeeded. -/
theorem stationAddressImmutable : Obligations.StationAddressImmutable := by
  intro s t h
  obtain ⟨_, hr⟩ := step_regChange h
  have hk := step_keepsMarks h
  rcases hr.station_cases with ⟨hl, hh, hst⟩ | ⟨ha, hn⟩ | ⟨ha, hn, hl, hst⟩
  · exact ⟨fun ha => ⟨hk.attached ha, hl, hh, State.stationAddr_congr hk.cfg hl hh⟩,
      fun hn => ⟨hst.trans_ne hn, hl⟩, fun hb => ⟨hst.trans hb, hh⟩⟩
  · simp [ha, hn]
  · simp [ha, hn, hl, hst]

end Sys2Proof.Machine

/-! ### Each message buffer keeps one owner (R54, R260, R262) -/

namespace Sys2Proof.Machine

/-- What holds message buffers: the two bridges, the channels and the network stack (R54). -/
def State.holders (s : State) : IbPhase × ObPhase × List Message × List Message × List Buf :=
  (s.ibPhase, s.obPhase, s.toStack, s.fromStack, s.stackHeld)

theorem State.bufs_congr {s t : State} (h : t.holders = s.holders) : t.bufs = s.bufs := by
  simp only [State.holders, Prod.mk.injEq] at h
  obtain ⟨hi, ho, ht, hf, hs⟩ := h
  simp only [State.bufs, hi, ho, ht, hf, hs]

theorem State.BufsOwnedOnce.congr {s t : State} (hs : s.BufsOwnedOnce) (h : t.holders = s.holders) :
    t.BufsOwnedOnce := by
  rwa [State.BufsOwnedOnce, State.bufs_congr h]

/-- How many owners a buffer has, by owner. -/
theorem State.count_bufs (s : State) (b : Buf) : s.bufs.count b =
    s.ibPhase.bufs.count b + s.obPhase.bufs.count b + (channelBufs s.toStack).count b +
      (channelBufs s.fromStack).count b + s.stackHeld.count b := by
  simp only [State.bufs, List.count_append, Nat.add_assoc]

/-! No operation but a bridge iteration touches a message buffer. -/

section
variable {s t : State}

theorem regAccess_holders {i : Instr} (hi : i.isRegWrite = true ∨ ∃ r : Reg, i = r.readOp)
    (h : exec i s = .next t) : t.holders = s.holders := by
  rcases regAccess_cases h hi with ⟨e, rfl⟩ | ⟨v, n, rfl⟩ | ⟨r, v, p, n, st, -, -, -, rfl⟩ <;> rfl

theorem execAttach_holders {a : Addr} (h : execAttach a s = .next t) : t.holders = s.holders := by
  rcases execAttach_cases h with ⟨e, rfl⟩ | ⟨-, -, ⟨-, -, rfl⟩ | ⟨-, -, rfl⟩ | ⟨st, -, h⟩⟩
  · rfl
  · rfl
  · rfl
  · exact (congrArg State.holders (attachStep_access h).rest).trans rfl

theorem execEerdReadWord_holders {a : BitVec 8} (h : execEerdReadWord a s = .next t) : t.holders = s.holders := by
  rcases execEerdReadWord_cases h with ⟨e, rfl⟩ | ⟨-, ⟨-, -, u, hu, rfl⟩ | ⟨-, -, rfl⟩ | ⟨-, -, rfl⟩⟩
  · rfl
  · obtain ⟨-, rfl⟩ := writeEerd_iff.1 hu
    rfl
  · rfl
  · rfl

theorem transmitOp_holders {len : Nat} {payload : Frame} {e : Option ErrKind}
    (h : transmitOp len payload s = .ok (e, t)) : t.holders = s.holders :=
  (congrArg State.holders (transmitOp_frame h).1).trans rfl

theorem receiveOp_holders {out : List Byte} {r : Option (Nat × List Byte)} (h : receiveOp out s = .ok (r, t)) :
    t.holders = s.holders :=
  (congrArg State.holders (receiveOp_frame h).1).trans rfl

theorem execTransmit_holders {payload : Frame} (h : execTransmit payload s = .next t) : t.holders = s.holders := by
  rcases execTransmit_cases h with ⟨e, rfl⟩ | ⟨e, h⟩
  · rfl
  · exact transmitOp_holders h

theorem execReceive_holders {out : List Byte} (h : execReceive out s = .next t) : t.holders = s.holders := by
  rcases execReceive_cases h with ⟨e, rfl⟩ | h | ⟨n, data, u, hu, rfl⟩
  · rfl
  · exact receiveOp_holders h
  · exact (receiveOp_holders hu :)

theorem execTxFetch_holders (h : execTxFetch s = .next t) : t.holders = s.holders := by
  rcases execTxFetch_cases h with rfl | ⟨e, rfl⟩ | ⟨-, -, -, -, -, -, rfl⟩ <;> rfl

theorem execTxComplete_holders (h : execTxComplete s = .next t) : t.holders = s.holders := by
  rcases execTxComplete_cases h with rfl | ⟨e, rfl⟩ | ⟨-, -, -, rfl⟩ <;> rfl

theorem execRxDeposit_holders (h : execRxDeposit s = .next t) : t.holders = s.holders := by
  rcases execRxDeposit_cases h with rfl | ⟨e, rfl⟩ | ⟨f, rest, -, -, -, -, -, -, -, rfl⟩ <;> rfl

theorem execEeComplete_holders (h : execEeComplete s = .next t) : t.holders = s.holders := by
  rcases execEeComplete_cases h with ⟨-, rfl⟩ | ⟨a, -, rfl⟩ <;> rfl

theorem State.raise_holders (s : State) (b : Bridge) (f : Fatal) : (s.raise b f).holders = s.holders := by
  simp [State.holders]

theorem State.fillMsg_holders (s : State) (b : Buf) (n : Nat) (d : List Byte) :
    (s.fillMsg b n d).holders = s.holders := by
  simp [State.holders]

/-! A buffer moves between owners, goes back to the pool, or is one that nobody had. -/

/-- One buffer that nobody had gains an owner. -/
theorem State.BufsOwnedOnce.of_gain {c : Buf} (hs : s.BufsOwnedOnce) (hc : c ∉ s.bufs)
    (h : ∀ b, t.bufs.count b ≤ s.bufs.count b + [c].count b) : t.BufsOwnedOnce := by
  refine hs.of_count fun b => ?_
  have hb := h b
  by_cases hbc : b = c
  · subst hbc
    rw [List.count_eq_zero_of_not_mem hc, List.count_singleton_self] at hb
    exact .inr hb
  · rw [List.count_eq_zero_of_not_mem (List.mem_singleton.not.2 hbc)] at hb
    exact .inl hb

/-- `acquire` (R262, R266). -/
theorem State.BufsOwnedOnce.acquired {c : Buf} (hs : s.BufsOwnedOnce) (hc : c ∉ s.bufs) :
    ({ s with ibPhase := .polling c } : State).BufsOwnedOnce := by
  refine hs.of_gain hc fun b => ?_
  simp only [State.count_bufs, IbPhase.bufs]
  omega

/-- The input bridge sends its page to the stack (R263, R266). -/
theorem State.BufsOwnedOnce.sentToStack {c : Buf} (hs : s.BufsOwnedOnce) (hp : s.ibPhase = .polling c) :
    ({ s.sendToStack c with ibPhase := .acquire } : State).BufsOwnedOnce := by
  refine hs.of_count fun b => .inl ?_
  simp only [State.count_bufs, hp, IbPhase.bufs, State.sendToStack, channelBufs, List.map_append, List.map_cons,
    List.map_nil, List.count_append, List.count_nil]
  omega

/-- The output bridge takes a message to send it (R269). -/
theorem State.BufsOwnedOnce.taken {msg : Message} {rest : List Message} (hs : s.BufsOwnedOnce)
    (hp : s.obPhase = .waiting) (hf : s.fromStack = msg :: rest) :
    ({ s with fromStack := rest, obPhase := .sending msg.buf } : State).BufsOwnedOnce := by
  refine hs.of_count fun b => .inl ?_
  simp only [State.count_bufs, hp, hf, ObPhase.bufs, channelBufs, List.map_cons, List.count_cons, List.count_nil]
  omega

/-- The buffer of a wrongly tagged message is dropped (R295; log 17). -/
theorem State.BufsOwnedOnce.dropped {msg : Message} {rest : List Message} (hs : s.BufsOwnedOnce)
    (hf : s.fromStack = msg :: rest) : ({ s with fromStack := rest } : State).BufsOwnedOnce := by
  refine hs.of_count fun b => .inl ?_
  simp only [State.count_bufs, hf, channelBufs, List.map_cons, List.count_cons]
  omega

/-- The output bridge is done with its buffer (R269; log 16). -/
theorem State.BufsOwnedOnce.sent (hs : s.BufsOwnedOnce) :
    ({ s with obPhase := .waiting } : State).BufsOwnedOnce := by
  refine hs.of_count fun b => .inl ?_
  simp only [State.count_bufs, ObPhase.bufs, List.count_nil]
  omega

/-- The stack sends a message in a buffer it holds or the pool has (R261, R262). -/
theorem State.BufsOwnedOnce.stackSent {c : Buf} (hs : s.BufsOwnedOnce) (tag : Tag)
    (hc : c ∈ s.stackHeld ∨ c ∉ s.bufs) :
    ({ s with fromStack := s.fromStack ++ [⟨tag, c⟩], stackHeld := s.stackHeld.erase c } : State).BufsOwnedOnce := by
  rcases hc with hc | hc
  · refine hs.of_count fun b => .inl ?_
    have hperm := (List.perm_cons_erase hc).count_eq b
    simp only [List.count_cons] at hperm
    simp only [State.count_bufs, channelBufs, List.map_append, List.map_cons, List.map_nil, List.count_append,
      List.count_cons, List.count_nil]
    omega
  · refine hs.of_gain hc fun b => ?_
    have hsub : (s.stackHeld.erase c).count b ≤ s.stackHeld.count b := List.erase_sublist.count_le b
    simp only [State.count_bufs, channelBufs, List.map_append, List.map_cons, List.map_nil, List.count_append]
    omega

/-- The stack takes the oldest message (R54). -/
theorem State.BufsOwnedOnce.stackTook {msg : Message} {rest : List Message} {frames : List Frame}
    (hs : s.BufsOwnedOnce) (ht : s.toStack = msg :: rest) :
    ({ s with toStack := rest, stackHeld := s.stackHeld ++ [msg.buf], delivered := frames } : State).BufsOwnedOnce := by
  refine hs.of_count fun b => .inl ?_
  simp only [State.count_bufs, ht, channelBufs, List.map_cons, List.count_append, List.count_cons, List.count_nil]
  omega

/-- The stack returns a buffer to the pool (R262). -/
theorem State.BufsOwnedOnce.stackReleased (hs : s.BufsOwnedOnce) (c : Buf) :
    ({ s with stackHeld := s.stackHeld.erase c } : State).BufsOwnedOnce := by
  refine hs.of_count fun b => .inl ?_
  have hsub : (s.stackHeld.erase c).count b ≤ s.stackHeld.count b := List.erase_sublist.count_le b
  simp only [State.count_bufs]
  omega

/-! Every step. -/

theorem execInBridgeIter_bufsOwnedOnce (hs : s.BufsOwnedOnce) (h : execInBridgeIter s = .next t) :
    t.BufsOwnedOnce := by
  rcases execInBridgeIter_cases h with rfl | ⟨e, rfl⟩ | ⟨-, -, -, rfl⟩ | ⟨b, -, -, hb, rfl⟩ |
    ⟨b, r, u, hp, -, hu, ⟨-, rfl⟩ | ⟨n, data, -, rfl | rfl⟩⟩
  · exact hs
  · exact hs.congr rfl
  · exact hs.congr (s.raise_holders _ _)
  · exact hs.acquired (State.acquire_some hb).1
  · exact hs.congr (receiveOp_holders hu)
  · have hf := (u.fillMsg_holders b n data).trans (receiveOp_holders hu)
    exact hs.congr ((State.raise_holders _ _ _).trans hf)
  · have hf := (u.fillMsg_holders b n data).trans (receiveOp_holders hu)
    exact (hs.congr hf).sentToStack ((congrArg Prod.fst hf).trans hp)

theorem execOutBridgeIter_bufsOwnedOnce (hs : s.BufsOwnedOnce) (h : execOutBridgeIter s = .next t) :
    t.BufsOwnedOnce := by
  rcases execOutBridgeIter_cases h with rfl | ⟨e, rfl⟩ | ⟨-, rfl⟩ |
    ⟨msg, rest, hp, -, hf, ⟨-, rfl⟩ | ⟨-, rfl⟩⟩ | ⟨b, e, u, -, -, hu, ⟨-, rfl⟩ | ⟨-, rfl⟩ | ⟨k, -, -, rfl⟩⟩
  · exact hs
  · exact hs.congr rfl
  · exact hs.congr (s.raise_holders _ _)
  · exact hs.taken hp hf
  · exact (hs.dropped hf).congr (State.raise_holders _ _ _)
  · exact (hs.congr (transmitOp_holders hu)).sent
  · exact hs.congr (transmitOp_holders hu)
  · exact hs.congr ((u.raise_holders _ _).trans (transmitOp_holders hu))

theorem exec_bufsOwnedOnce {i : Instr} (hs : s.BufsOwnedOnce) (h : exec i s = .next t) : t.BufsOwnedOnce := by
  rcases Instr.kinds i with hi | ⟨a, rfl⟩ | ⟨a, rfl⟩ | ⟨p, rfl⟩ | ⟨b, rfl⟩ | rfl | rfl | rfl | rfl | rfl | rfl | rfl
  · exact hs.congr (regAccess_holders hi h)
  · exact hs.congr (execAttach_holders h)
  · exact hs.congr (execEerdReadWord_holders h)
  · exact hs.congr (execTransmit_holders h)
  · exact hs.congr (execReceive_holders h)
  · exact hs.congr (execTxFetch_holders h)
  · exact hs.congr (execTxComplete_holders h)
  · exact hs.congr (execRxDeposit_holders h)
  · exact Host.Outcome.next.inj h ▸ hs.congr rfl
  · exact hs.congr (execEeComplete_holders h)
  · exact execInBridgeIter_bufsOwnedOnce hs h
  · exact execOutBridgeIter_bufsOwnedOnce hs h

theorem envMove_bufsOwnedOnce {m : EnvMove} (hs : s.BufsOwnedOnce) (h : envMove m s = .next t) :
    t.BufsOwnedOnce := by
  rcases envMove_cases h with rfl | ⟨f, -, -, rfl⟩ | ⟨tag, b, page, -, -, -, hb, rfl⟩ | ⟨msg, rest, -, ht, rfl⟩ |
    ⟨b, -, -, rfl⟩ | ⟨c, -, rfl⟩
  · exact hs
  · exact hs.congr rfl
  · refine (hs.stackSent tag (hb.imp_right And.left)).congr ?_
    simp [State.holders]
  · exact hs.stackTook ht
  · exact hs.stackReleased b
  · exact hs.congr rfl

/-- Settles O50: a step leaves the owners of the buffers, or is one of the moves of one buffer. -/
theorem buffersKeepOneOwner : Obligations.BuffersKeepOneOwner := by
  intro s t hs h
  rcases step_cases h with ⟨-, rfl⟩ | ⟨rest, -, ⟨e, rfl⟩ | ⟨i, h⟩ | ⟨m, h⟩⟩
  · exact hs
  · exact hs.congr rfl
  · exact exec_bufsOwnedOnce (s := { s with schedule := rest }) hs h
  · exact envMove_bufsOwnedOnce (s := { s with schedule := rest }) hs h

end

end Sys2Proof.Machine

/-! ### The moves of ENV (R53, R54, R261, R262) -/

namespace Sys2Proof.Machine

/-- A page that host memory holds is read there as `msgPage` says (R70, R117). -/
theorem State.readBytes_setPage_same {s : State} (h : s.cfg.WF) {b : Buf} {page : List Byte}
    (hb : b < s.cfg.poolPages) (hp : page.length = s.cfg.pageSize) :
    Mem.readBytes (s.setPage b page).mem (pageAt s.cfg b) s.cfg.pageSize = page := by
  have hnear : (s.setPage b page).msgPage b = Mem.readBytes (s.setPage b page).mem (pageAt s.cfg b) s.cfg.pageSize := by
    simpa using State.msgPage_near (s := s.setPage b page) (by simpa using hb)
  exact hnear ▸ State.setPage_msgPage_same h b hp

theorem envMove_offerFrame {s : State} {f : Frame} (hmin : s.cfg.rxMinLen ≤ f.length)
    (hmax : f.length ≤ s.cfg.rxBufSize) :
    envMove (.offerFrame f) s = .next { s with wireIn := s.wireIn ++ [f] } := by
  simp [envMove, frameAdmitted, hmin, hmax]

theorem envMove_stackSend {s : State} {tag : Tag} {b : Buf} {page : List Byte} (ha : s.attached = true)
    (hp : page.length = s.cfg.pageSize) (hb : b ∈ s.stackHeld ∨ s.pageFree b) :
    envMove (.stackSend tag b page) s =
      .next { s.setPage b page with
        fromStack := s.fromStack ++ [⟨tag, b⟩], stackHeld := s.stackHeld.erase b } :=
  if_pos ⟨ha, hp, hb⟩

theorem envMove_stackTake {s : State} {msg : Message} {rest : List Message} (h : s.toStack = msg :: rest) :
    envMove .stackTake s = .next { s with
      toStack := rest, stackHeld := s.stackHeld ++ [msg.buf], delivered := s.delivered ++ [s.msgFrame msg.buf] } := by
  simp [envMove, h]

/-- Settles O8: one move after the other; what a sent message stores is what `setPage` does. -/
theorem environmentMoves : Obligations.EnvironmentMoves := by
  refine fun s => ⟨fun f => envMove_offerFrame, fun tag b page hw ha hp hb => ?_, fun msg rest => envMove_stackTake,
    fun b hb => if_pos hb⟩
  have hpage := State.setPage_msgPage_same hw b hp
  obtain ⟨hothers, hmem⟩ := State.setPage_onlyPage hw b hp
  refine ⟨_, envMove_stackSend ha hp hb, hpage, fun hnear => State.readBytes_setPage_same hw hnear hp,
    fun a h => s.setPage_get_outside b page a (hp ▸ h), ⟨hothers, hmem⟩, ?_⟩
  rw [s.setPage_eq]

/-! ### Reset (R54, R55, R70, R320) -/

/-- Settles O12: the fields at reset. -/
theorem resetSatisfiesTheInvariants : Obligations.ResetSatisfiesTheInvariants :=
  ⟨Mem.wf_nil, rfl, List.nodup_nil, fun _ h => (nomatch h), fun h => absurd h (by decide)⟩

/-! ### Software that may not enter (R58, R188, R294, R307, R320) -/

theorem State.swBlocked_some {s : State} (h : s.attachFailed = true ∨ s.sw ≠ .idle ∨ s.attached = false) :
    ∃ e, s.swBlocked = some e := by
  refine Option.ne_none_iff_exists'.1 fun hn => ?_
  obtain ⟨ha, hs, hf⟩ := State.swBlocked_eq_none.1 hn
  simp [ha, hs, hf] at h

theorem State.busBlocked_some {s : State}
    (h : s.attachFailed = true ∨ (∃ a, s.sw = .readingWord a) ∨ (s.sw = .idle ∧ s.attached = false)) :
    ∃ e, s.busBlocked = some e := by
  refine Option.ne_none_iff_exists'.1 fun hn => ?_
  obtain ⟨hf, ⟨hs, ha⟩ | ⟨a, st, hs⟩⟩ := State.busBlocked_eq_none.1 hn
  · simp [hf, hs, ha] at h
  · simp [hf, hs] at h

theorem transmitOp_blocked {s : State} {e : Refuse} (h : s.swBlocked = some e) (len : Nat) (payload : Frame) :
    transmitOp len payload s = .error e := by
  simp [transmitOp, h]

theorem receiveOp_blocked {s : State} {e : Refuse} (h : s.swBlocked = some e) (out : List Byte) :
    receiveOp out s = .error e := by
  simp [receiveOp, h]

theorem busRead_blocked {s : State} {e : Refuse} (h : s.busBlocked = some e) (r : Reg) :
    busRead r s = .next (s.refuse e) := by
  simp [busRead, h]

theorem busWrite_blocked {s : State} {e : Refuse} (h : s.busBlocked = some e) (w : State → Except Refuse State) :
    busWrite w s = .next (s.refuse e) := by
  simp [busWrite, h]

theorem readOp_refuses {s : State} {e : Refuse} (h : s.busBlocked = some e) (r : Reg) : Refuses r.readOp s := by
  cases r
  case ctrl => exact ⟨_, rfl⟩
  case status => exact ⟨_, rfl⟩
  case eerd => exact ⟨e, by simp [Reg.readOp, exec, execRdEerd, h]⟩
  all_goals exact ⟨e, busRead_blocked h _⟩

theorem writeOp_refuses {s : State} {e : Refuse} (h : s.busBlocked = some e) (r : Reg) (v : Word) :
    Refuses (r.writeOp v) s := by
  cases r
  case ctrl => exact ⟨_, rfl⟩
  case status => exact ⟨_, rfl⟩
  all_goals exact ⟨e, busWrite_blocked h _⟩

theorem eerdReadWord_refuses {s : State} {a : BitVec 8}
    (h : s.attachFailed = true ∨ (∃ b, a ≠ b ∧ s.sw = .readingWord b) ∨ (∃ h st, s.sw = .attaching h st) ∨
      (s.sw = .idle ∧ s.attached = false)) : Refuses (.eerdReadWord a) s := by
  unfold Refuses
  simp only [exec, execEerdReadWord]
  by_cases hf : s.attachFailed = true
  · exact ⟨_, if_pos hf⟩
  rw [if_neg hf]
  rcases h with h | ⟨b, hb, hs⟩ | ⟨_, _, hs⟩ | ⟨hs, ha⟩
  · exact absurd h hf
  · simp only [hs, if_neg hb]
    exact ⟨_, rfl⟩
  · simp only [hs]
    exact ⟨_, rfl⟩
  · simp only [hs, ha]
    exact ⟨_, rfl⟩

theorem attach_refuses {s : State} {a : Addr}
    (h : (∃ b, s.sw = .readingWord b) ∨ ∃ a' st, a ≠ a' ∧ s.sw = .attaching a' st) : Refuses (.attach a) s := by
  unfold Refuses
  simp only [exec, execAttach]
  by_cases hf : s.attachFailed = true
  · exact ⟨_, if_pos hf⟩
  by_cases ha : s.attached = true
  · exact ⟨_, by rw [if_neg hf, if_pos ha]⟩
  rw [if_neg hf, if_neg ha]
  rcases h with ⟨b, hs⟩ | ⟨a', st, hne, hs⟩
  · simp only [hs]
    exact ⟨_, rfl⟩
  · simp only [hs, if_neg hne]
    exact ⟨_, rfl⟩

theorem inBridgeIter_unattached {s : State} (h : s.attached = false) : Refuses .inBridgeIter s :=
  ⟨.unattached, by simp [exec, execInBridgeIter, h]⟩

theorem outBridgeIter_unattached {s : State} (h : s.attached = false) : Refuses .outBridgeIter s :=
  ⟨.unattached, by simp [exec, execOutBridgeIter, h]⟩

/-- A bridge that polls calls RECEIVE, and is refused where RECEIVE is (R266). -/
theorem inBridgeIter_refuses {s : State} {e : Refuse} {b : Buf} (h : s.swBlocked = some e) (hf : s.ibFatal = none)
    (hp : s.ibPhase = .polling b) : Refuses .inBridgeIter s := by
  cases ha : s.attached
  case false => exact inBridgeIter_unattached ha
  case true => exact ⟨e, by simp [exec, execInBridgeIter, ha, hf, hp, receiveOp_blocked h]⟩

/-- A bridge that sends calls TRANSMIT, unless its message runs past its page, and is refused where TRANSMIT is
(R269). -/
theorem outBridgeIter_refuses {s : State} {e : Refuse} {b : Buf} (h : s.swBlocked = some e) (hf : s.obFatal = none)
    (hp : s.obPhase = .sending b) : Refuses .outBridgeIter s := by
  cases ha : s.attached
  case false => exact outBridgeIter_unattached ha
  case true =>
    by_cases hbeyond : s.msgLen b ≤ s.cfg.maxFrameLen ∧ s.cfg.pageSize - s.cfg.msgLenBytes < s.msgLen b
    · exact ⟨.messageBeyondPage, by simp [exec, execOutBridgeIter, ha, hf, hp, hbeyond]⟩
    · exact ⟨e, by simp [exec, execOutBridgeIter, ha, hf, hp, hbeyond, transmitOp_blocked h]⟩

/-- Settles O25, operation by operation. -/
theorem blockedSoftwareIsRefused : Obligations.BlockedSoftwareIsRefused := by
  refine fun s => ⟨fun h payload out => ?_, fun h r v => ?_, fun _ => eerdReadWord_refuses, fun _ => attach_refuses,
    fun ha => ?_, fun h => ?_⟩
  · obtain ⟨e, he⟩ := State.swBlocked_some h
    exact ⟨⟨e, by simp [exec, execTransmit, transmitOp_blocked he, Except.map]⟩,
      ⟨e, by simp [exec, execReceive, receiveOp_blocked he, Except.map]⟩⟩
  · obtain ⟨e, he⟩ := State.busBlocked_some h
    exact ⟨readOp_refuses he r, writeOp_refuses he r v⟩
  · exact ⟨inBridgeIter_unattached ha, outBridgeIter_unattached ha⟩
  · obtain ⟨e, he⟩ := State.swBlocked_some (h.imp_right .inl)
    exact ⟨fun _ hf hp => inBridgeIter_refuses he hf hp, fun _ hf hp => outBridgeIter_refuses he hf hp⟩

end Sys2Proof.Machine

/-! ### Memory stays canonical (R70; log 7) -/

namespace Sys2Proof.Machine

theorem State.fillMsg_wf {s : State} (b : Buf) (n : Nat) (data : List Byte) (hs : Mem.wf s.mem) :
    Mem.wf (s.fillMsg b n data).mem :=
  State.setPage_wf b _ hs

section
variable {s t : State}

/-! Every operation. -/

theorem regAccess_mem {i : Instr} (hi : i.isRegWrite = true ∨ ∃ r : Reg, i = r.readOp) (h : exec i s = .next t) :
    t.mem = s.mem := by
  rcases regAccess_cases h hi with ⟨e, rfl⟩ | ⟨v, n, rfl⟩ | ⟨r, v, p, n, st, -, -, -, rfl⟩ <;> rfl

theorem execEerdReadWord_mem {a : BitVec 8} (h : execEerdReadWord a s = .next t) : t.mem = s.mem := by
  rcases execEerdReadWord_cases h with ⟨e, rfl⟩ | ⟨-, ⟨-, -, u, hu, rfl⟩ | ⟨-, -, rfl⟩ | ⟨-, -, rfl⟩⟩
  · rfl
  · obtain ⟨-, rfl⟩ := writeEerd_iff.1 hu
    rfl
  · rfl
  · rfl

theorem execTxFetch_mem (h : execTxFetch s = .next t) : t.mem = s.mem := by
  rcases execTxFetch_cases h with rfl | ⟨e, rfl⟩ | ⟨-, -, -, -, -, -, rfl⟩ <;> rfl

theorem execEeComplete_mem (h : execEeComplete s = .next t) : t.mem = s.mem := by
  rcases execEeComplete_cases h with ⟨-, rfl⟩ | ⟨a, -, rfl⟩ <;> rfl

theorem execAttach_wf {a : Addr} (hs : Mem.wf s.mem) (h : execAttach a s = .next t) : Mem.wf t.mem := by
  rcases execAttach_cases h with ⟨e, rfl⟩ | ⟨-, -, ⟨-, -, rfl⟩ | ⟨-, -, rfl⟩ | ⟨st, -, h⟩⟩
  · exact hs
  · exact hs
  · exact hs
  · exact (attachStep_access h).wf hs

theorem transmitOp_wf {len : Nat} {payload : Frame} {e : Option ErrKind} (hs : Mem.wf s.mem)
    (h : transmitOp len payload s = .ok (e, t)) : Mem.wf t.mem := by
  rcases (transmitOp_cases h).2 with ⟨-, -, rfl⟩ | ⟨-, -, -, -, rfl⟩ | ⟨-, -, -, -, rfl⟩
  · exact hs
  · exact hs
  · rw [State.returns_mem]
    exact State.armSlot_wf len payload hs

theorem receiveOp_wf {out : List Byte} {r : Option (Nat × List Byte)} (hs : Mem.wf s.mem)
    (h : receiveOp out s = .ok (r, t)) : Mem.wf t.mem := by
  rcases (receiveOp_cases h).2.2.2 with ⟨-, -, rfl⟩ | ⟨-, -, -, rfl⟩
  · exact hs
  · rw [State.returns_mem]
    exact State.drainSlot_wf _ hs

theorem execTransmit_wf {payload : Frame} (hs : Mem.wf s.mem) (h : execTransmit payload s = .next t) :
    Mem.wf t.mem := by
  rcases execTransmit_cases h with ⟨e, rfl⟩ | ⟨e, h⟩
  · exact hs
  · exact transmitOp_wf hs h

theorem execReceive_wf {out : List Byte} (hs : Mem.wf s.mem) (h : execReceive out s = .next t) : Mem.wf t.mem := by
  rcases execReceive_cases h with ⟨e, rfl⟩ | h | ⟨n, data, u, hu, rfl⟩
  · exact hs
  · exact receiveOp_wf hs h
  · exact (receiveOp_wf hs hu :)

theorem execTxComplete_wf (hs : Mem.wf s.mem) (h : execTxComplete s = .next t) : Mem.wf t.mem := by
  rcases execTxComplete_cases h with rfl | ⟨e, rfl⟩ | ⟨-, -, -, rfl⟩
  · exact hs
  · exact hs
  · exact Mem.write_wf _ _ _ hs

theorem execRxDeposit_wf (hs : Mem.wf s.mem) (h : execRxDeposit s = .next t) : Mem.wf t.mem := by
  rcases execRxDeposit_cases h with rfl | ⟨e, rfl⟩ | ⟨f, rest, -, -, -, -, -, -, -, rfl⟩
  · exact hs
  · exact hs
  · rw [State.setReg_mem]
    exact State.depositInto_wf _ f hs

theorem execInBridgeIter_wf (hs : Mem.wf s.mem) (h : execInBridgeIter s = .next t) : Mem.wf t.mem := by
  rcases execInBridgeIter_cases h with rfl | ⟨e, rfl⟩ | ⟨-, -, -, rfl⟩ | ⟨b, -, -, -, rfl⟩ |
    ⟨b, r, u, -, -, hu, ⟨-, rfl⟩ | ⟨n, data, -, rfl | rfl⟩⟩
  · exact hs
  · exact hs
  · exact hs
  · exact hs
  · exact receiveOp_wf hs hu
  · exact (State.fillMsg_wf b n data (receiveOp_wf hs hu) :)
  · exact (State.fillMsg_wf b n data (receiveOp_wf hs hu) :)

theorem execOutBridgeIter_wf (hs : Mem.wf s.mem) (h : execOutBridgeIter s = .next t) : Mem.wf t.mem := by
  rcases execOutBridgeIter_cases h with rfl | ⟨e, rfl⟩ | ⟨-, rfl⟩ | ⟨msg, rest, -, -, -, ⟨-, rfl⟩ | ⟨-, rfl⟩⟩ |
    ⟨b, e, u, -, -, hu, ⟨-, rfl⟩ | ⟨-, rfl⟩ | ⟨k, -, -, rfl⟩⟩
  · exact hs
  · exact hs
  · exact hs
  · exact hs
  · exact hs
  · exact (transmitOp_wf hs hu :)
  · exact transmitOp_wf hs hu
  · exact (transmitOp_wf hs hu :)

theorem exec_wf {i : Instr} (hs : Mem.wf s.mem) (h : exec i s = .next t) : Mem.wf t.mem := by
  rcases Instr.kinds i with hi | ⟨a, rfl⟩ | ⟨a, rfl⟩ | ⟨p, rfl⟩ | ⟨b, rfl⟩ | rfl | rfl | rfl | rfl | rfl | rfl | rfl
  · exact regAccess_mem hi h ▸ hs
  · exact execAttach_wf hs h
  · exact execEerdReadWord_mem h ▸ hs
  · exact execTransmit_wf hs h
  · exact execReceive_wf hs h
  · exact execTxFetch_mem h ▸ hs
  · exact execTxComplete_wf hs h
  · exact execRxDeposit_wf hs h
  · exact Host.Outcome.next.inj h ▸ hs
  · exact execEeComplete_mem h ▸ hs
  · exact execInBridgeIter_wf hs h
  · exact execOutBridgeIter_wf hs h

/-- Of ENV's moves only a sent message stores, the page it is in (R261). -/
theorem envMove_wf {m : EnvMove} (hs : Mem.wf s.mem) (h : envMove m s = .next t) : Mem.wf t.mem := by
  rcases envMove_cases h with rfl | ⟨f, -, -, rfl⟩ | ⟨tag, b, page, -, -, -, -, rfl⟩ | ⟨msg, rest, -, -, rfl⟩ |
    ⟨b, -, -, rfl⟩ | ⟨c, -, rfl⟩
  case inr.inr.inl => exact State.setPage_wf b page hs
  all_goals exact hs

end

/-- Settles O48: whatever a step stores, it stores by `Mem.writeBytes`, `Mem.write` or `Mem.zeroFill`, each of which
keeps the canonical form. -/
theorem memoryStaysCanonical : Obligations.MemoryStaysCanonical := by
  intro s t hs h
  rcases step_cases h with ⟨-, rfl⟩ | ⟨rest, -, ⟨e, rfl⟩ | ⟨i, h⟩ | ⟨m, h⟩⟩
  · exact hs
  · exact hs
  · exact exec_wf (s := { s with schedule := rest }) hs h
  · exact envMove_wf (s := { s with schedule := rest }) hs h

end Sys2Proof.Machine

/-! ### Decoding what the encoder writes (R101, R102, R120) -/

namespace Sys2Proof

/-- Every bus write is the write operation of its register (R102). -/
theorem Instr.eq_writeOp {i : Instr} (h : i.isRegWrite = true) : ∃ (r : Reg) (v : Word), i = r.writeOp v := by
  cases i
  case wrCtrl v => exact ⟨.ctrl, v, rfl⟩
  case wrStatus v => exact ⟨.status, v, rfl⟩
  case wrEerd v => exact ⟨.eerd, v, rfl⟩
  case wrRctl v => exact ⟨.rctl, v, rfl⟩
  case wrTctl v => exact ⟨.tctl, v, rfl⟩
  case wrTipg v => exact ⟨.tipg, v, rfl⟩
  case wrRdbal v => exact ⟨.rdbal, v, rfl⟩
  case wrRdbah v => exact ⟨.rdbah, v, rfl⟩
  case wrRdlen v => exact ⟨.rdlen, v, rfl⟩
  case wrRdh v => exact ⟨.rdh, v, rfl⟩
  case wrRdt v => exact ⟨.rdt, v, rfl⟩
  case wrTdbal v => exact ⟨.tdbal, v, rfl⟩
  case wrTdbah v => exact ⟨.tdbah, v, rfl⟩
  case wrTdlen v => exact ⟨.tdlen, v, rfl⟩
  case wrTdh v => exact ⟨.tdh, v, rfl⟩
  case wrTdt v => exact ⟨.tdt, v, rfl⟩
  case wrRal v => exact ⟨.ral, v, rfl⟩
  case wrRah v => exact ⟨.rah, v, rfl⟩
  all_goals cases h

theorem Reg.mem_all (r : Reg) : r ∈ Reg.all := by cases r <;> decide

theorem Reg.map_offset_all (c : Config) : Reg.all.map (Reg.offset c) = c.offsets := rfl

theorem Reg.offset_mem (c : Config) (r : Reg) : r.offset c ∈ c.offsets :=
  Reg.map_offset_all c ▸ List.mem_map_of_mem r.mem_all

/-- The offsets of a well-formed map lie in the window, which 17 bits reach, and are word-aligned (R75, R101). -/
theorem Config.WF.offset_lt {c : Config} (h : c.WF) (r : Reg) : r.offset c < 2 ^ 17 :=
  (h.map.2.1 _ (r.offset_mem c)).2.trans_le h.map.2.2

theorem Config.WF.offset_aligned {c : Config} (h : c.WF) (r : Reg) : r.offset c % 4 = 0 :=
  (h.map.2.1 _ (r.offset_mem c)).1

theorem Config.WF.offset_injective {c : Config} (h : c.WF) {r q : Reg} (e : r.offset c = q.offset c) : r = q :=
  List.inj_on_of_nodup_map (Reg.map_offset_all c ▸ h.map.1) r.mem_all q.mem_all e

/-- A register is found at its own offset, the offsets being distinct (R102). -/
theorem Reg.ofOffset_offset {c : Config} (h : c.WF) (r : Reg) : Reg.ofOffset c (r.offset c) = some r := by
  cases hq : Reg.ofOffset c (r.offset c) with
  | none => simpa using List.find?_eq_none.1 hq r r.mem_all
  | some q => rw [h.offset_injective (Reg.offset_of_ofOffset hq)]

/-- What a bus transaction decodes to whose selector is in range and names register `r`: `rw` and the data decide
(R101). -/
theorem decodeMmio_selector {c : Config} (h : c.WF) {sel : Nat} {r : Reg} (hs : sel < 2 ^ 18)
    (ho : sel % 2 ^ 17 = r.offset c) (data : List Byte) :
    decodeMmio c 4 (leBytes 3 sel ++ data) =
      if sel / 2 ^ 17 = 0 then if data = [] then .ok r.readOp else .error .operandLength
      else if data.length = 4 then .ok (r.writeOp (BitVec.ofNat 32 (leValue data))) else .error .operandLength := by
  have hv : leValue (leBytes 3 sel) = sel := by
    rw [Machine.leValue_leBytes, Nat.mod_eq_of_lt (by omega)]
  simp only [leBytes] at hv
  simp only [leBytes, List.cons_append, List.nil_append, decodeMmio, hv, ho, Reg.ofOffset_offset h]
  rw [if_neg (by omega), if_neg (by simp [h.regBits]), if_neg (by simp [h.offset_aligned])]

theorem decode_encodeRead {c : Config} (h : c.WF) (r : Reg) : decode c (encodeRead c r) = .ok r.readOp := by
  have ho := h.offset_lt r
  have hd := decodeMmio_selector h (sel := r.offset c) (by omega) (Nat.mod_eq_of_lt ho) []
  rw [List.append_nil, if_pos (Nat.div_eq_of_lt ho), if_pos rfl] at hd
  exact hd

/-- A word is the number of its own bytes, when these have exactly its bits. -/
theorem ofNat_leValue_leBytes {w n : Nat} (hw : 256 ^ n = 2 ^ w) (v : BitVec w) :
    BitVec.ofNat w (leValue (leBytes n v.toNat)) = v := by
  rw [Machine.leValue_leBytes, hw, Nat.mod_eq_of_lt v.isLt, BitVec.ofNat_toNat, BitVec.setWidth_eq]

theorem decode_encodeWrite {c : Config} (h : c.WF) (r : Reg) (v : Word) :
    decode c (encodeWrite c r v) = .ok (r.writeOp v) := by
  have ho := h.offset_lt r
  have hd := decodeMmio_selector h (sel := 2 ^ 17 + r.offset c) (r := r) (by omega) (by omega) (leBytes 4 v.toNat)
  rw [if_neg (by omega), if_pos (Machine.leBytes_length 4 _), ofNat_leValue_leBytes (by decide)] at hd
  exact hd

/-- A byte-string operand is read back behind its length, which eight bytes hold (R70; log 5). -/
theorem decodeCounted_encodeCounted (k : List Byte → Instr) {bs : List Byte} (h : bs.length < addrSpace) :
    decodeCounted k (encodeCounted bs) = .ok (k bs) := by
  have hl : (leBytes 8 bs.length).length = 8 := Machine.leBytes_length 8 _
  have hv : leValue (leBytes 8 bs.length) = bs.length := by
    rw [Machine.leValue_leBytes]
    exact Nat.mod_eq_of_lt h
  simp [decodeCounted, encodeCounted, List.take_left' hl, List.drop_left' hl, hv]

theorem decode_encode_attach (c : Config) (a : Addr) : decode c (encode c (.attach a)) = .ok (.attach a) := by
  have hl : (leBytes 8 a.toNat).length = 8 := Machine.leBytes_length 8 _
  simp [decode, encode, encodeOpid, decodeOpid, hl, ofNat_leValue_leBytes]

theorem decode_encode_eerdReadWord (c : Config) (a : BitVec 8) :
    decode c (encode c (.eerdReadWord a)) = .ok (.eerdReadWord a) := by
  simp [decode, encode, encodeOpid, decodeOpid, leValue]

theorem decode_encode_transmit (c : Config) {payload : Frame} (h : payload.length < addrSpace) :
    decode c (encode c (.transmit payload)) = .ok (.transmit payload) := by
  simp [decode, encode, encodeOpid, decodeOpid, decodeCounted_encodeCounted _ h]

theorem decode_encode_receive (c : Config) {out : List Byte} (h : out.length < addrSpace) :
    decode c (encode c (.receive out)) = .ok (.receive out) := by
  simp [decode, encode, encodeOpid, decodeOpid, decodeCounted_encodeCounted _ h]

/-- Settles O1: a bus transaction by its selector and data, an operation id by its operand bytes. -/
theorem decodeOfEncodeIsIdentity : Obligations.DecodeOfEncodeIsIdentity := by
  intro c i hw hi
  rcases Machine.Instr.kinds i with (hr | ⟨r, rfl⟩) | ⟨a, rfl⟩ | ⟨a, rfl⟩ | ⟨bs, rfl⟩ | ⟨bs, rfl⟩ | rfl | rfl | rfl |
    rfl | rfl | rfl | rfl
  · obtain ⟨r, v, rfl⟩ := i.eq_writeOp hr
    rw [encode_writeOp, decode_encodeWrite hw]
  · rw [encode_readOp, decode_encodeRead hw]
  · exact decode_encode_attach c a
  · exact decode_encode_eerdReadWord c a
  · exact decode_encode_transmit c (of_decide_eq_true hi)
  · exact decode_encode_receive c (of_decide_eq_true hi)
  all_goals rfl

/-- Settles O3: each record is the one the encoder writes for its operation (R102, R120). -/
theorem sampleWordsDecode : Obligations.SampleWordsDecode :=
  have h (i : Instr) (hi : i.wellFormed = true) := decodeOfEncodeIsIdentity Config.reference i Config.reference_wf hi
  ⟨h .rdTdbal rfl, h (.wrTdt 0x3F) rfl, h (.wrRah 0x8000EEFF) rfl, h (.eerdReadWord 0xFF) rfl,
    h (.transmit [0xDE, 0xAD, 0xBE]) rfl, h .rxDeposit rfl, h .outBridgeIter rfl⟩

end Sys2Proof

/-! ### What an operation answers (R122, R215, R240, R241) -/

namespace Sys2Proof.Machine

/-- The answer is a next state whose mark `refused` is that of `s`: the operation met no situation without meaning. -/
def Unrefused (o : Out) (s : State) : Prop := ∃ t, o = .next t ∧ t.refused = s.refused

section
variable {s t : State}

theorem Unrefused.isNext {o : Out} (h : Unrefused o s) : ∃ t, o = .next t := by
  obtain ⟨t, h, -⟩ := h
  exact ⟨t, h⟩

/-! Register accesses, ATTACH and EERD_READ_WORD: always a next state. -/

theorem busRead_isNext (r : Reg) (s : State) : ∃ t, busRead r s = .next t := by
  unfold busRead
  split <;> exact ⟨_, rfl⟩

theorem busWrite_isNext (w : State → Except Refuse State) (s : State) : ∃ t, busWrite w s = .next t := by
  unfold busWrite
  split
  · exact ⟨_, rfl⟩
  · exact settle_isNext _ _

theorem readOp_isNext (r : Reg) (s : State) : ∃ t, exec r.readOp s = .next t := by
  cases r
  case ctrl => exact ⟨_, rfl⟩
  case status => exact ⟨_, rfl⟩
  case eerd =>
    simp only [Reg.readOp, exec, execRdEerd]
    split <;> exact ⟨_, rfl⟩
  all_goals exact busRead_isNext _ s

theorem writeOp_isNext (r : Reg) (v : Word) (s : State) : ∃ t, exec (r.writeOp v) s = .next t := by
  cases r
  case ctrl => exact ⟨_, rfl⟩
  case status => exact ⟨_, rfl⟩
  all_goals exact busWrite_isNext _ s

theorem execAttach_isNext (h : Addr) (s : State) : ∃ t, execAttach h s = .next t := by
  unfold execAttach
  split
  · exact ⟨_, rfl⟩
  split
  · exact ⟨_, rfl⟩
  split
  · split <;> exact ⟨_, rfl⟩
  · split
    · exact settle_isNext _ _
    · exact ⟨_, rfl⟩
  · exact ⟨_, rfl⟩

theorem execEerdReadWord_isNext (a : BitVec 8) (s : State) : ∃ t, execEerdReadWord a s = .next t := by
  unfold execEerdReadWord
  split
  · exact ⟨_, rfl⟩
  split
  · split
    · exact settle_isNext _ _
    · exact ⟨_, rfl⟩
  · split <;> exact ⟨_, rfl⟩
  · exact ⟨_, rfl⟩

/-! What refuses TRANSMIT and RECEIVE of software that may enter. -/

theorem transmitOp_error {len : Nat} {payload : Frame} {e : Refuse} (hr : s.SwReady)
    (h : transmitOp len payload s = .error e) : s.cfg.nTx ≤ s.txTail := by
  rw [hr.transmitOp_eq] at h
  split_ifs at h with _ ht
  exact ht

theorem receiveOp_error {out : List Byte} {e : Refuse} (hr : s.SwReady) (ho : s.cfg.rxBufSize ≤ out.length)
    (ht : s.rxTail < s.cfg.nRx) (h : receiveOp out s = .error e) :
    s.rxFlag s.rxCandidate = true ∧ s.cfg.rxBufSize < s.rxd s.rxCandidate .length := by
  rw [hr.receiveOp_eq ht ho] at h
  split_ifs at h with hf hl
  exact ⟨by simpa using hf, hl⟩

theorem transmitOp_refused {len : Nat} {payload : Frame} {e : Option ErrKind}
    (h : transmitOp len payload s = .ok (e, t)) : t.refused = s.refused :=
  (congrArg State.refused (transmitOp_frame h).1).trans rfl

theorem receiveOp_refused {out : List Byte} {r : Option (Nat × List Byte)}
    (h : receiveOp out s = .ok (r, t)) : t.refused = s.refused :=
  (congrArg State.refused (receiveOp_frame h).1).trans rfl

/-! Every answer of the other operations: what refuses them, what faults. -/

theorem execTransmit_answer (payload : Frame) (s : State) :
    Unrefused (execTransmit payload s) s ∨
    ∃ e, transmitOp payload.length payload s = .error e ∧ execTransmit payload s = .next (s.refuse e) := by
  unfold execTransmit
  cases h : transmitOp payload.length payload s with
  | error e => exact .inr ⟨e, rfl, rfl⟩
  | ok r => exact .inl ⟨r.2, rfl, transmitOp_refused h⟩

theorem execReceive_answer (out : List Byte) (s : State) :
    Unrefused (execReceive out s) s ∨
    ∃ e, receiveOp out s = .error e ∧ execReceive out s = .next (s.refuse e) := by
  unfold execReceive
  rcases h : receiveOp out s with e | ⟨_ | ⟨n, data⟩, t⟩
  · exact .inr ⟨e, rfl, rfl⟩
  · exact .inl ⟨t, rfl, receiveOp_refused h⟩
  · exact .inl ⟨_, rfl, receiveOp_refused (t := t) h⟩

theorem execTxFetch_answer (s : State) :
    Unrefused (execTxFetch s) s ∨
    ((s.cfg.nTx ≤ s.tdh ∨ s.cfg.nTx ≤ s.tdt) ∧ execTxFetch s = .next (s.refuse .slotIndex)) ∨
    (s.txRingSize = 0 ∧ execTxFetch s = .fault .ringSizeZero) ∨
    (s.FetchEnabled ∧ s.txCmd s.tdh ≠ cmdReportEop s.cfg.layout ∧
      execTxFetch s = .next (s.refuse .txDescriptor)) := by
  unfold execTxFetch
  split_ifs with hen hidx harm hsize hcmd
  · exact .inl ⟨s, rfl, rfl⟩
  · exact .inr (.inl ⟨hidx, rfl⟩)
  · exact .inl ⟨s, rfl, rfl⟩
  · exact .inr (.inr (.inl ⟨hsize, rfl⟩))
  · exact .inr (.inr (.inr ⟨(State.txArmed_iff (by simpa using hen)).1 (by simpa using harm), hcmd, rfl⟩))
  · exact .inl ⟨_, rfl, rfl⟩

theorem execTxComplete_answer (s : State) :
    Unrefused (execTxComplete s) s ∨
    (s.cfg.nTx ≤ s.tdh ∧ execTxComplete s = .next (s.refuse .slotIndex)) ∨
    (s.txRingSize = 0 ∧ execTxComplete s = .fault .ringSizeZero) := by
  unfold execTxComplete
  split_ifs with hp hidx hsize
  · exact .inl ⟨s, rfl, rfl⟩
  · exact .inr (.inl ⟨hidx, rfl⟩)
  · exact .inr (.inr ⟨hsize, rfl⟩)
  · exact .inl ⟨_, rfl, rfl⟩

theorem execRxDeposit_answer (s : State) :
    Unrefused (execRxDeposit s) s ∨
    ((s.cfg.nRx ≤ s.rdh ∨ s.cfg.nRx ≤ s.rdt) ∧ execRxDeposit s = .next (s.refuse .slotIndex)) ∨
    (∃ f ∈ s.wireIn, (f.length < s.cfg.rxMinLen ∨ s.cfg.rxBufSize < f.length) ∧
      execRxDeposit s = .next (s.refuse .frameLength)) ∨
    (s.rxRingSize = 0 ∧ execRxDeposit s = .fault .ringSizeZero) := by
  unfold execRxDeposit
  split
  · exact .inl ⟨s, rfl, rfl⟩
  split
  · exact .inl ⟨s, rfl, rfl⟩
  next f rest hw =>
  split_ifs with hidx hoff hlen hsize
  · exact .inr (.inl ⟨hidx.imp_right fun h => h.2.2, rfl⟩)
  · exact .inl ⟨s, rfl, rfl⟩
  · exact .inr (.inr (.inl ⟨f, by simp [hw], hlen, rfl⟩))
  · exact .inr (.inr (.inr ⟨hsize, rfl⟩))
  · exact .inl ⟨_, rfl, rfl⟩

theorem execRxDrop_unrefused (s : State) : Unrefused (execRxDrop s) s := ⟨_, rfl, rfl⟩

theorem execEeComplete_unrefused (s : State) : Unrefused (execEeComplete s) s := by
  unfold execEeComplete
  split <;> exact ⟨_, rfl, rfl⟩

theorem execInBridgeIter_answer (s : State) :
    Unrefused (execInBridgeIter s) s ∨
    (s.attached = false ∧ execInBridgeIter s = .next (s.refuse .unattached)) ∨
    ∃ b e, receiveOp (pageData s.cfg (s.msgPage b)) s = .error e ∧ execInBridgeIter s = .next (s.refuse e) := by
  unfold execInBridgeIter
  split
  · next ha => exact .inr (.inl ⟨by simpa using ha, rfl⟩)
  split
  · exact .inl ⟨s, rfl, rfl⟩
  split
  · split
    · exact .inl ⟨_, rfl, State.raise_refused _ _ _⟩
    · exact .inl ⟨_, rfl, rfl⟩
  next b hb =>
  split
  · next e he => exact .inr (.inr ⟨b, e, he, rfl⟩)
  · next t ht => exact .inl ⟨t, rfl, receiveOp_refused ht⟩
  · next n data t ht =>
    have hr : (t.fillMsg b n data).refused = s.refused := (t.fillMsg_refused b n data).trans (receiveOp_refused ht)
    simp only
    split
    · exact .inl ⟨_, rfl, (State.raise_refused _ _ _).trans hr⟩
    · exact .inl ⟨_, rfl, hr⟩

theorem execOutBridgeIter_answer (s : State) :
    Unrefused (execOutBridgeIter s) s ∨
    (s.attached = false ∧ execOutBridgeIter s = .next (s.refuse .unattached)) ∨
    (∃ b, s.obPhase = .sending b ∧ s.msgLen b ≤ s.cfg.maxFrameLen ∧
      s.cfg.pageSize - s.cfg.msgLenBytes < s.msgLen b ∧
      execOutBridgeIter s = .next (s.refuse .messageBeyondPage)) ∨
    ∃ b e, transmitOp (s.msgLen b) (s.msgFrame b) s = .error e ∧ execOutBridgeIter s = .next (s.refuse e) := by
  unfold execOutBridgeIter
  split
  · next ha => exact .inr (.inl ⟨by simpa using ha, rfl⟩)
  split
  · exact .inl ⟨s, rfl, rfl⟩
  split
  · split
    · exact .inl ⟨_, rfl, State.raise_refused _ _ _⟩
    split
    · exact .inl ⟨s, rfl, rfl⟩
    simp only
    split
    · exact .inl ⟨_, rfl, rfl⟩
    · exact .inl ⟨_, rfl, State.raise_refused _ _ _⟩
  next b hb =>
  simp only
  split
  · next hlen => exact .inr (.inr (.inl ⟨b, hb, hlen.1, hlen.2, rfl⟩))
  split
  · next e he => exact .inr (.inr (.inr ⟨b, e, he, rfl⟩))
  · next t ht => exact .inl ⟨_, rfl, transmitOp_refused (t := t) ht⟩
  · next t ht => exact .inl ⟨t, rfl, transmitOp_refused ht⟩
  · next k t _ ht => exact .inl ⟨_, rfl, (State.raise_refused _ _ _).trans (transmitOp_refused ht)⟩

end

/-- Settles O9, operation by operation: every meaning but the three that divide by a ring size answers a next state. -/
theorem execAnswersNextOrRingSizeFault : Obligations.ExecAnswersNextOrRingSizeFault := by
  intro i s
  rcases Instr.kinds i with (hi | ⟨r, rfl⟩) | ⟨a, rfl⟩ | ⟨a, rfl⟩ | ⟨p, rfl⟩ | ⟨b, rfl⟩ | rfl | rfl | rfl | rfl | rfl |
    rfl | rfl
  · obtain ⟨r, v, rfl⟩ := i.eq_writeOp hi
    exact .inl (writeOp_isNext r v s)
  · exact .inl (readOp_isNext r s)
  · exact .inl (execAttach_isNext a s)
  · exact .inl (execEerdReadWord_isNext a s)
  · exact .inl (settle_isNext s _)
  · exact .inl (settle_isNext s _)
  · rcases execTxFetch_answer s with h | ⟨-, h⟩ | ⟨hz, h⟩ | ⟨-, -, h⟩
    · exact .inl h.isNext
    · exact .inl ⟨_, h⟩
    · exact .inr ⟨h, .inl ⟨rfl, hz⟩⟩
    · exact .inl ⟨_, h⟩
  · rcases execTxComplete_answer s with h | ⟨-, h⟩ | ⟨hz, h⟩
    · exact .inl h.isNext
    · exact .inl ⟨_, h⟩
    · exact .inr ⟨h, .inr (.inl ⟨rfl, hz⟩)⟩
  · rcases execRxDeposit_answer s with h | ⟨-, h⟩ | ⟨f, -, -, h⟩ | ⟨hz, h⟩
    · exact .inl h.isNext
    · exact .inl ⟨_, h⟩
    · exact .inl ⟨_, h⟩
    · exact .inr ⟨h, .inr (.inr ⟨rfl, hz⟩)⟩
  · exact .inl (execRxDrop_unrefused s).isNext
  · exact .inl (execEeComplete_unrefused s).isNext
  · rcases execInBridgeIter_answer s with h | ⟨-, h⟩ | ⟨b, e, -, h⟩
    · exact .inl h.isNext
    · exact .inl ⟨_, h⟩
    · exact .inl ⟨_, h⟩
  · rcases execOutBridgeIter_answer s with h | ⟨-, h⟩ | ⟨b, -, -, -, h⟩ | ⟨b, e, -, h⟩
    · exact .inl h.isNext
    · exact .inl ⟨_, h⟩
    · exact .inl ⟨_, h⟩
    · exact .inl ⟨_, h⟩

/-! ### The ring invariants exclude every refusal (R208, R238) -/

section
variable {s : State} {d m p k : Nat}

theorem TxRing.slot_lt (h : TxRing s d m p) (j : Nat) : (d + j) % s.cfg.nTx < s.cfg.nTx :=
  Nat.mod_lt _ (Nat.zero_lt_of_lt h.oldest_lt)

theorem TxRing.tdh_lt (h : TxRing s d m p) : s.tdh < s.cfg.nTx := h.head ▸ h.slot_lt p
theorem TxRing.txTail_lt (h : TxRing s d m p) : s.txTail < s.cfg.nTx := h.tail ▸ h.slot_lt m
theorem TxRing.tdt_lt (h : TxRing s d m p) : s.tdt < s.cfg.nTx := h.published ▸ h.txTail_lt

theorem TxRing.txRingSize_ne (h : TxRing s d m p) (hw : s.cfg.WF) : s.txRingSize ≠ 0 := by
  have := hw.nTx_pos
  rw [State.txRingSize_eq h.size hw]
  omega

/-- Where the engine may fetch, the slot at its head is in flight: armed and not yet fetched (R207, R208). -/
theorem TxRing.fetched_lt_of_enabled (h : TxRing s d m p) (he : s.FetchEnabled) : p < m := by
  rcases he.2 with ⟨-, hne⟩ | ⟨-, hflag, hp⟩
  · refine Nat.lt_of_le_of_ne h.fetched_le fun hpm => hne (BitVec.eq_of_toNat_eq ?_)
    exact h.head.trans (hpm ▸ (h.published.trans h.tail).symm)
  · rw [h.head, h.flags p (h.pending ▸ hp)] at hflag
    simpa using hflag

theorem TxRing.txCmd_of_enabled (h : TxRing s d m p) (he : s.FetchEnabled) :
    s.txCmd s.tdh = cmdReportEop s.cfg.layout :=
  h.head ▸ (h.armed p (h.fetched_lt_of_enabled he)).1

theorem RxRing.slot_lt (h : RxRing s k) (j : Nat) : (s.rxCandidate + j) % s.cfg.nRx < s.cfg.nRx :=
  Nat.mod_lt _ (Nat.zero_lt_of_lt h.tail_lt)

theorem RxRing.rdh_lt (h : RxRing s k) : s.rdh < s.cfg.nRx := h.head ▸ h.slot_lt k
theorem RxRing.rdt_lt (h : RxRing s k) : s.rdt < s.cfg.nRx := h.published ▸ h.tail_lt

theorem RxRing.rxRingSize_ne (h : RxRing s k) (hw : s.cfg.WF) : s.rxRingSize ≠ 0 := by
  have := hw.nRx_pos
  rw [State.rxRingSize_eq h.size hw]
  omega

/-- A frame that RECEIVE finds fits a receive buffer (R238, R241). -/
theorem RxRing.length_le_of_flag (h : RxRing s k) (hf : s.rxFlag s.rxCandidate = true) :
    s.rxd s.rxCandidate .length ≤ s.cfg.rxBufSize := by
  have hpos : 0 < s.cfg.nRx := Nat.zero_lt_of_lt h.tail_lt
  have hc : (s.rxCandidate + 0) % s.cfg.nRx = s.rxCandidate := Nat.mod_eq_of_lt (nextIndex_lt hpos)
  have hk : 0 < k := of_decide_eq_true (by rw [← h.flags 0 hpos, hc, hf])
  exact hc ▸ h.lengths 0 hk

theorem transmitOp_not_error (h : TxRing s d m p) (hr : s.SwReady) {len : Nat} {payload : Frame} {e : Refuse} :
    transmitOp len payload s ≠ .error e :=
  fun he => absurd (transmitOp_error hr he) (Nat.not_le_of_lt h.txTail_lt)

theorem receiveOp_not_error (h : RxRing s k) (hr : s.SwReady) {out : List Byte} {e : Refuse}
    (ho : s.cfg.rxBufSize ≤ out.length) : receiveOp out s ≠ .error e := fun he => by
  obtain ⟨hf, hl⟩ := receiveOp_error hr ho h.tail_lt he
  exact absurd (h.length_le_of_flag hf) (Nat.not_le_of_lt hl)

/-- A page has room for a receive buffer behind its length (R117). -/
theorem rxBufSize_le_pageData (hw : s.cfg.WF) (b : Buf) :
    s.cfg.rxBufSize ≤ (pageData s.cfg (s.msgPage b)).length := by
  have := hw.page_le
  rw [pageData, List.length_drop, State.msgPage_length]
  omega

theorem execTxFetch_unrefused (h : TxRing s d m p) (hw : s.cfg.WF) : Unrefused (execTxFetch s) s := by
  rcases execTxFetch_answer s with hu | ⟨hidx, -⟩ | ⟨hz, -⟩ | ⟨he, hcmd, -⟩
  · exact hu
  · exact absurd hidx (by have := h.tdh_lt; have := h.tdt_lt; omega)
  · exact absurd hz (h.txRingSize_ne hw)
  · exact absurd (h.txCmd_of_enabled he) hcmd

theorem execTxComplete_unrefused (h : TxRing s d m p) (hw : s.cfg.WF) : Unrefused (execTxComplete s) s := by
  rcases execTxComplete_answer s with hu | ⟨hidx, -⟩ | ⟨hz, -⟩
  · exact hu
  · exact absurd hidx (Nat.not_le_of_lt h.tdh_lt)
  · exact absurd hz (h.txRingSize_ne hw)

theorem execRxDeposit_unrefused (h : RxRing s k) (hw : s.cfg.WF)
    (hf : ∀ f ∈ s.wireIn, s.cfg.rxMinLen ≤ f.length ∧ f.length ≤ s.cfg.rxBufSize) :
    Unrefused (execRxDeposit s) s := by
  rcases execRxDeposit_answer s with hu | ⟨hidx, -⟩ | ⟨f, hmem, hlen, -⟩ | ⟨hz, -⟩
  · exact hu
  · exact absurd hidx (by have := h.rdh_lt; have := h.rdt_lt; omega)
  · exact absurd hlen (by have := hf f hmem; omega)
  · exact absurd hz (h.rxRingSize_ne hw)

theorem execInBridgeIter_unrefused (h : RxRing s k) (hw : s.cfg.WF) (hr : s.SwReady) :
    Unrefused (execInBridgeIter s) s := by
  rcases execInBridgeIter_answer s with hu | ⟨ha, -⟩ | ⟨b, e, he, -⟩
  · exact hu
  · exact absurd hr.1 (by simp [ha])
  · exact absurd he (receiveOp_not_error h hr (rxBufSize_le_pageData hw b))

theorem execOutBridgeIter_unrefused (h : TxRing s d m p) (hr : s.SwReady)
    (hm : ∀ buf, s.obPhase = .sending buf → s.msgLen buf ≤ s.cfg.maxFrameLen →
      s.cfg.msgLenBytes + s.msgLen buf ≤ s.cfg.pageSize) : Unrefused (execOutBridgeIter s) s := by
  rcases execOutBridgeIter_answer s with hu | ⟨ha, -⟩ | ⟨b, hb, hlen, hbeyond, -⟩ | ⟨b, e, he, -⟩
  · exact hu
  · exact absurd hr.1 (by simp [ha])
  · exact absurd hbeyond (by have := hm b hb hlen; omega)
  · exact absurd he (transmitOp_not_error h hr)

end

/-- Settles O53: each situation that an operation refuses contradicts an invariant or a condition on its operands. -/
theorem noRefusalUnderTheInvariants : Obligations.NoRefusalUnderTheInvariants := by
  rintro s i hw ⟨-, ⟨d, m, p, htx⟩, k, hrx⟩ hr hwire hmsg hi
  rcases hi with ⟨payload, rfl⟩ | ⟨out, rfl, ho⟩ | rfl | rfl | rfl | rfl | rfl | rfl | rfl
  · exact (execTransmit_answer payload s).resolve_right fun ⟨_, he, _⟩ => transmitOp_not_error htx hr he
  · exact (execReceive_answer out s).resolve_right fun ⟨_, he, _⟩ => receiveOp_not_error hrx hr ho he
  · exact execTxFetch_unrefused htx hw
  · exact execTxComplete_unrefused htx hw
  · exact execRxDeposit_unrefused hrx hw hwire
  · exact execRxDrop_unrefused s
  · exact execEeComplete_unrefused s
  · exact execInBridgeIter_unrefused hrx hw hr
  · exact execOutBridgeIter_unrefused htx hr hmsg

end Sys2Proof.Machine

/-! ### Attached registers: what every step keeps (R145, R152, R159, R164, R215) -/

namespace Sys2Proof.Machine

theorem State.txProgrammed_iff {s : State} : s.txProgrammed = true ↔
    s.reg .tdbal = baseLow s.cfg.txDescBase ∧ s.reg .tdbah = baseHigh s.cfg.txDescBase ∧
    s.reg .tdlen = ringLength s.cfg s.cfg.nTx ∧ s.tdh < s.cfg.nTx ∧ s.tdt < s.cfg.nTx := by
  simp [State.txProgrammed, and_assoc]

theorem State.rxProgrammed_iff {s : State} : s.rxProgrammed = true ↔
    s.reg .rdbal = baseLow s.cfg.rxDescBase ∧ s.reg .rdbah = baseHigh s.cfg.rxDescBase ∧
    s.reg .rdlen = ringLength s.cfg s.cfg.nRx ∧ s.rdh < s.cfg.nRx ∧
    s.reg .ral = ralWord s.cfg.layout (s.eepromWord s.cfg.macWord0) (s.eepromWord s.cfg.macWord1) ∧
    s.reg .rah = rahWord s.cfg.layout (s.eepromWord s.cfg.macWord2) := by
  simp [State.rxProgrammed, and_assoc]

/-- What AttachedRegs asks of the value of one register, the others aside. -/
def AttachedValue (c : Config) (r : Reg) (v : Word) : Prop :=
  match r with
  | .ctrl | .status | .eerd | .tipg => True
  | .tctl => txEnBit c.layout v = true
  | .rctl => rxEnBit c.layout v = true
  | .tdbal => v = baseLow c.txDescBase
  | .tdbah => v = baseHigh c.txDescBase
  | .tdlen => v = ringLength c c.nTx
  | .rdbal => v = baseLow c.rxDescBase
  | .rdbah => v = baseHigh c.rxDescBase
  | .rdlen => v = ringLength c c.nRx
  | .tdh | .tdt => v.toNat < c.nTx
  | .rdh | .rdt => v.toNat < c.nRx
  | .ral =>
    v = ralWord c.layout (c.eeprom[c.macWord0.toNat]'c.macWord0.isLt) (c.eeprom[c.macWord1.toNat]'c.macWord1.isLt)
  | .rah => v = rahWord c.layout (c.eeprom[c.macWord2.toNat]'c.macWord2.isLt)

/-- AttachedRegs, register by register. -/
theorem attachedRegs_iff {s : State} : AttachedRegs s ↔
    s.attached = true ∧ (∀ r, AttachedValue s.cfg r (s.reg r)) ∧ s.txTail < s.cfg.nTx ∧ s.rxTail < s.cfg.nRx := by
  constructor
  · intro h
    obtain ⟨htbal, htbah, htlen, htdh, htdt⟩ := State.txProgrammed_iff.1 h.txProgrammed
    obtain ⟨hrbal, hrbah, hrlen, hrdh, hral, hrah⟩ := State.rxProgrammed_iff.1 h.rxProgrammed
    refine ⟨h.attached, fun r => ?_, h.txTail_lt, h.rxTail_lt⟩
    cases r
    case ctrl | status | eerd | tipg => trivial
    case tctl => exact h.txEnabled
    case rctl => exact h.rxEnabled
    case rdt => exact h.rdt_lt
    all_goals assumption
  · rintro ⟨ha, hv, htx, hrx⟩
    exact {
      attached := ha
      txEnabled := hv .tctl
      rxEnabled := hv .rctl
      txProgrammed := State.txProgrammed_iff.2 ⟨hv .tdbal, hv .tdbah, hv .tdlen, hv .tdh, hv .tdt⟩
      rxProgrammed := State.rxProgrammed_iff.2 ⟨hv .rdbal, hv .rdbah, hv .rdlen, hv .rdh, hv .ral, hv .rah⟩
      rdt_lt := hv .rdt
      txTail_lt := htx
      rxTail_lt := hrx }

theorem AttachedRegs.value {s : State} (h : AttachedRegs s) (r : Reg) : AttachedValue s.cfg r (s.reg r) :=
  (attachedRegs_iff.1 h).2.1 r

/-- The state that AttachedRegs reads. -/
def State.attachBlock (s : State) : Config × Bool × RegFile × Nat × Nat :=
  (s.cfg, s.attached, s.regs, s.txTail, s.rxTail)

section
variable {s t : State}

theorem AttachedRegs.congr (hs : AttachedRegs s) (h : t.attachBlock = s.attachBlock) : AttachedRegs t := by
  simp only [State.attachBlock, Prod.mk.injEq] at h
  obtain ⟨hc, ha, hr, htx, hrx⟩ := h
  exact attachedRegs_iff.2 ⟨ha ▸ hs.attached, fun r => hc ▸ State.reg_congr hr r ▸ hs.value r,
    hc ▸ htx ▸ hs.txTail_lt, hc ▸ hrx ▸ hs.rxTail_lt⟩

/-- One register stored with a value that AttachedRegs admits there, and the software tails moved in range. -/
theorem AttachedRegs.stored (hs : AttachedRegs s) {r : Reg} {v : Word} {i j : Nat} (hv : AttachedValue s.cfg r v)
    (hi : i < s.cfg.nTx) (hj : j < s.cfg.nRx) (h : t.attachBlock = (s.cfg, s.attached, s.regs.set r v, i, j)) :
    AttachedRegs t := by
  simp only [State.attachBlock, Prod.mk.injEq] at h
  obtain ⟨hc, ha, hr, htx, hrx⟩ := h
  refine attachedRegs_iff.2 ⟨ha ▸ hs.attached, fun q => ?_, hc ▸ htx ▸ hi, hc ▸ hrx ▸ hj⟩
  have hq : t.reg q = (s.regs.set r v).get q := congrArg (·.get q) hr
  rw [hc, hq]
  by_cases hqr : q = r
  · rwa [hqr, RegFile.get_set_same]
  · rw [RegFile.get_set_ne _ _ hqr]
    exact hs.value q

theorem AttachedRegs.setReg (hs : AttachedRegs s) {r : Reg} {v : Word} (hv : AttachedValue s.cfg r v) :
    AttachedRegs (s.setReg r v) := hs.stored hv hs.txTail_lt hs.rxTail_lt rfl

/-! Register accesses by SW. -/

theorem busWrite_attachedRegs {w : State → Except Refuse State} (hs : AttachedRegs s)
    (hw : ∀ u, w s = .ok u → AttachedRegs u) (h : busWrite w s = .next t) : AttachedRegs t := by
  rcases busWrite_cases h with ⟨-, h⟩ | ⟨e, rfl⟩
  · exact hw t h
  · exact hs.congr rfl

theorem AttachedRegs.writeEerd (hs : AttachedRegs s) {v : Word} (h : writeEerd v s = .ok t) : AttachedRegs t := by
  obtain ⟨-, rfl⟩ := writeEerd_iff.1 h
  exact (hs.setReg (r := .eerd) trivial).congr rfl

theorem readOp_attachedRegs (hs : AttachedRegs s) {r : Reg} (h : exec r.readOp s = .next t) : AttachedRegs t := by
  rcases regAccess_cases h (.inr ⟨r, rfl⟩) with ⟨e, rfl⟩ | ⟨v, n, rfl⟩ | ⟨q, v, p, n, st, hm, -⟩
  · exact hs.congr rfl
  · exact hs.congr rfl
  · cases r <;> cases hm

/-- A register write that an attached block with both engines enabled admits stores a value in range: an enable, a
tail below the ring size, TIPG or EERD (R145 to R150, R152, R159 to R164, R171, R172). -/
theorem writeOp_attachedRegs (hs : AttachedRegs s) {r : Reg} {v : Word} (h : exec (r.writeOp v) s = .next t) :
    AttachedRegs t := by
  have hatt := hs.attached
  have htx := hs.txEnabled
  have hrx := hs.rxEnabled
  cases r
  case ctrl => exact Host.Outcome.next.inj h ▸ hs.congr rfl
  case status => exact Host.Outcome.next.inj h ▸ hs.congr rfl
  case eerd => exact busWrite_attachedRegs hs (fun _ => hs.writeEerd) h
  all_goals refine busWrite_attachedRegs hs (fun u hu => ?_) h
  case tctl =>
    obtain ⟨⟨-, -, hen⟩, rfl⟩ := writeTctl_iff.1 hu
    exact hs.setReg (hen (by simp [hatt, htx]))
  case rctl =>
    obtain ⟨⟨-, -, -, hen⟩, rfl⟩ := writeRctl_iff.1 hu
    exact hs.setReg (hen (by simp [hatt, hrx]))
  case tipg =>
    obtain ⟨-, rfl⟩ := writeTipg_iff.1 hu
    exact hs.setReg trivial
  case tdt =>
    obtain ⟨hlt, rfl⟩ := writeTdt_iff.1 hu
    exact hs.setReg hlt
  case rdt =>
    obtain ⟨hlt, rfl⟩ := writeRdt_iff.1 hu
    exact hs.setReg hlt
  case tdbal => simp [writeTdbal_iff, htx] at hu
  case tdbah => simp [writeTdbah_iff, htx] at hu
  case tdlen => simp [writeTdlen_iff, htx] at hu
  case tdh => simp [writeTdh_iff, htx] at hu
  case rdbal => simp [writeRdbal_iff, hrx] at hu
  case rdbah => simp [writeRdbah_iff, hrx] at hu
  case rdlen => simp [writeRdlen_iff, hrx] at hu
  case rdh => simp [writeRdh_iff, hrx] at hu
  case ral => simp [writeRal_iff, hatt] at hu
  case rah => simp [writeRah_iff, hatt] at hu

/-! The driver operations. -/

/-- ATTACH of an attached device is refused (R190). -/
theorem execAttach_attachedRegs (hs : AttachedRegs s) {a : Addr} (h : execAttach a s = .next t) : AttachedRegs t := by
  rcases execAttach_cases h with ⟨e, rfl⟩ | ⟨ha, -⟩
  · exact hs.congr rfl
  · cases hs.attached.symm.trans ha

theorem execEerdReadWord_attachedRegs (hs : AttachedRegs s) {a : BitVec 8} (h : execEerdReadWord a s = .next t) :
    AttachedRegs t := by
  rcases execEerdReadWord_cases h with ⟨e, rfl⟩ | ⟨-, ⟨-, -, u, hu, rfl⟩ | ⟨-, -, rfl⟩ | ⟨-, -, rfl⟩⟩
  · exact hs.congr rfl
  · exact (hs.writeEerd hu).congr rfl
  · exact hs.congr rfl
  · exact hs.congr rfl

/-- The index after a slot index is one, and a register holds it (R107, R215). -/
theorem indexWord_nextIndex_lt {n : Nat} (hpos : 1 ≤ n) (hle : n ≤ 2 ^ 16) (i : Nat) :
    (indexWord (nextIndex i n)).toNat < n := by
  have hlt := nextIndex_lt (i := i) hpos
  rwa [indexWord_toNat (by omega)]

theorem transmitOp_attachedRegs (hw : s.cfg.WF) (hs : AttachedRegs s) {len : Nat} {payload : Frame}
    {e : Option ErrKind} (h : transmitOp len payload s = .ok (e, t)) : AttachedRegs t := by
  rcases (transmitOp_cases h).2 with ⟨-, -, rfl⟩ | ⟨-, -, -, -, rfl⟩ | ⟨-, -, -, -, rfl⟩
  · exact hs.congr rfl
  · exact hs.congr rfl
  · exact hs.stored (r := .tdt) (indexWord_nextIndex_lt hw.nTx_pos hw.nTx_le s.txTail) (nextIndex_lt hw.nTx_pos)
      hs.rxTail_lt rfl

theorem receiveOp_attachedRegs (hw : s.cfg.WF) (hs : AttachedRegs s) {out : List Byte} {r : Option (Nat × List Byte)}
    (h : receiveOp out s = .ok (r, t)) : AttachedRegs t := by
  rcases (receiveOp_cases h).2.2.2 with ⟨-, -, rfl⟩ | ⟨-, -, -, rfl⟩
  · exact hs.congr rfl
  · exact hs.stored (r := .rdt) (indexWord_nextIndex_lt hw.nRx_pos hw.nRx_le s.rxTail) hs.txTail_lt
      (nextIndex_lt hw.nRx_pos) rfl

theorem execTransmit_attachedRegs (hw : s.cfg.WF) (hs : AttachedRegs s) {payload : Frame}
    (h : execTransmit payload s = .next t) : AttachedRegs t := by
  rcases execTransmit_cases h with ⟨e, rfl⟩ | ⟨e, h⟩
  · exact hs.congr rfl
  · exact transmitOp_attachedRegs hw hs h

theorem execReceive_attachedRegs (hw : s.cfg.WF) (hs : AttachedRegs s) {out : List Byte}
    (h : execReceive out s = .next t) : AttachedRegs t := by
  rcases execReceive_cases h with ⟨e, rfl⟩ | h | ⟨n, data, u, hu, rfl⟩
  · exact hs.congr rfl
  · exact receiveOp_attachedRegs hw hs h
  · exact (receiveOp_attachedRegs hw hs hu).congr rfl

/-! The engines: the head moves on in a ring of the configured size (R204, R234). -/

theorem AttachedRegs.txRingSize (hs : AttachedRegs s) (hw : s.cfg.WF) : s.txRingSize = s.cfg.nTx :=
  State.txRingSize_eq (hs.value .tdlen) hw

theorem AttachedRegs.rxRingSize (hs : AttachedRegs s) (hw : s.cfg.WF) : s.rxRingSize = s.cfg.nRx :=
  State.rxRingSize_eq (hs.value .rdlen) hw

theorem execTxFetch_attachedRegs (hw : s.cfg.WF) (hs : AttachedRegs s) (h : execTxFetch s = .next t) :
    AttachedRegs t := by
  rcases execTxFetch_cases h with rfl | ⟨e, rfl⟩ | ⟨-, -, -, -, -, -, rfl⟩
  · exact hs
  · exact hs.congr rfl
  · rw [hs.txRingSize hw]
    exact (hs.setReg (r := .tdh) (indexWord_nextIndex_lt hw.nTx_pos hw.nTx_le s.tdh)).congr rfl

theorem execTxComplete_attachedRegs (hs : AttachedRegs s) (h : execTxComplete s = .next t) : AttachedRegs t := by
  rcases execTxComplete_cases h with rfl | ⟨e, rfl⟩ | ⟨-, -, -, rfl⟩ <;> exact hs.congr rfl

theorem execRxDeposit_attachedRegs (hw : s.cfg.WF) (hs : AttachedRegs s) (h : execRxDeposit s = .next t) :
    AttachedRegs t := by
  rcases execRxDeposit_cases h with rfl | ⟨e, rfl⟩ | ⟨f, rest, -, -, -, -, -, -, -, rfl⟩
  · exact hs
  · exact hs.congr rfl
  · rw [hs.rxRingSize hw]
    exact (hs.setReg (r := .rdh) (indexWord_nextIndex_lt hw.nRx_pos hw.nRx_le s.rdh)).congr rfl

theorem execEeComplete_attachedRegs (hs : AttachedRegs s) (h : execEeComplete s = .next t) : AttachedRegs t := by
  rcases execEeComplete_cases h with ⟨-, rfl⟩ | ⟨a, -, rfl⟩
  · exact hs
  · exact (hs.setReg (r := .eerd) trivial).congr rfl

/-! The bridges. -/

theorem State.raise_attachBlock (s : State) (b : Bridge) (f : Fatal) : (s.raise b f).attachBlock = s.attachBlock := by
  simp [State.attachBlock]

theorem State.fillMsg_attachBlock (s : State) (b : Buf) (n : Nat) (d : List Byte) :
    (s.fillMsg b n d).attachBlock = s.attachBlock := by
  simp [State.attachBlock]

theorem execInBridgeIter_attachedRegs (hw : s.cfg.WF) (hs : AttachedRegs s) (h : execInBridgeIter s = .next t) :
    AttachedRegs t := by
  rcases execInBridgeIter_cases h with rfl | ⟨e, rfl⟩ | ⟨-, -, -, rfl⟩ | ⟨b, -, -, -, rfl⟩ |
    ⟨b, r, u, -, -, hu, ⟨-, rfl⟩ | ⟨n, data, -, rfl | rfl⟩⟩
  · exact hs
  · exact hs.congr rfl
  · exact hs.congr rfl
  · exact hs.congr rfl
  · exact receiveOp_attachedRegs hw hs hu
  · exact (receiveOp_attachedRegs hw hs hu).congr
      ((State.raise_attachBlock _ _ _).trans (u.fillMsg_attachBlock b n data))
  · exact (receiveOp_attachedRegs hw hs hu).congr (u.fillMsg_attachBlock b n data)

theorem execOutBridgeIter_attachedRegs (hw : s.cfg.WF) (hs : AttachedRegs s) (h : execOutBridgeIter s = .next t) :
    AttachedRegs t := by
  rcases execOutBridgeIter_cases h with rfl | ⟨e, rfl⟩ | ⟨-, rfl⟩ | ⟨msg, rest, -, -, -, ⟨-, rfl⟩ | ⟨-, rfl⟩⟩ |
    ⟨b, e, u, -, -, hu, ⟨-, rfl⟩ | ⟨-, rfl⟩ | ⟨k, -, -, rfl⟩⟩
  · exact hs
  · exact hs.congr rfl
  · exact hs.congr rfl
  · exact hs.congr rfl
  · exact hs.congr rfl
  · exact (transmitOp_attachedRegs hw hs hu).congr rfl
  · exact transmitOp_attachedRegs hw hs hu
  · exact (transmitOp_attachedRegs hw hs hu).congr rfl

theorem exec_attachedRegs {i : Instr} (hw : s.cfg.WF) (hs : AttachedRegs s) (h : exec i s = .next t) :
    AttachedRegs t := by
  rcases Instr.kinds i with (hi | ⟨r, rfl⟩) | ⟨a, rfl⟩ | ⟨a, rfl⟩ | ⟨p, rfl⟩ | ⟨b, rfl⟩ | rfl | rfl | rfl | rfl |
    rfl | rfl | rfl
  · obtain ⟨r, v, rfl⟩ := Instr.eq_writeOp hi
    exact writeOp_attachedRegs hs h
  · exact readOp_attachedRegs hs h
  · exact execAttach_attachedRegs hs h
  · exact execEerdReadWord_attachedRegs hs h
  · exact execTransmit_attachedRegs hw hs h
  · exact execReceive_attachedRegs hw hs h
  · exact execTxFetch_attachedRegs hw hs h
  · exact execTxComplete_attachedRegs hs h
  · exact execRxDeposit_attachedRegs hw hs h
  · exact Host.Outcome.next.inj h ▸ hs.congr rfl
  · exact execEeComplete_attachedRegs hs h
  · exact execInBridgeIter_attachedRegs hw hs h
  · exact execOutBridgeIter_attachedRegs hw hs h

theorem envMove_attachedRegs {m : EnvMove} (hs : AttachedRegs s) (h : envMove m s = .next t) : AttachedRegs t := by
  rcases envMove_cases h with rfl | ⟨f, -, -, rfl⟩ | ⟨tag, b, page, -, -, -, -, rfl⟩ | ⟨msg, rest, -, -, rfl⟩ |
    ⟨b, -, -, rfl⟩ | ⟨c, -, rfl⟩
  case inr.inr.inl => exact hs.congr (by simp [State.attachBlock])
  all_goals exact hs.congr rfl

end

/-- Settles O51: an operation leaves what the invariant reads, or stores one register with a value in range. -/
theorem attachedRegistersKept : Obligations.AttachedRegistersKept := by
  intro s t hw hs h
  rcases step_cases h with ⟨-, rfl⟩ | ⟨rest, -, ⟨e, rfl⟩ | ⟨i, h⟩ | ⟨m, h⟩⟩
  · exact hs
  · exact hs.congr rfl
  · exact exec_attachedRegs (s := { s with schedule := rest }) hw (hs.congr rfl) h
  · exact envMove_attachedRegs (s := { s with schedule := rest }) (hs.congr rfl) h

end Sys2Proof.Machine

/-! ### A bus access outside the register map (R175) -/

namespace Sys2Proof

theorem Reg.ofOffset_none {c : Config} {o : Nat} (h : ∀ r : Reg, r.offset c ≠ o) : Reg.ofOffset c o = none :=
  List.find?_eq_none.2 fun r _ => by simpa using h r

/-- Why a bus transaction with a selector in range names no register: its width is looked at first, then its alignment,
then the map (R101, R102, R175). -/
theorem decodeMmio_outsideTheMap {c : Config} (hw : c.WF) {width sel : Nat} (hs : sel < 2 ^ 18) (data : List Byte)
    (h : width ≠ 4 ∨ sel % 4 ≠ 0 ∨ ∀ r : Reg, r.offset c ≠ sel % 2 ^ 17) :
    ∃ e, decodeMmio c width (leBytes 3 sel ++ data) = .error e ∧
      (e = .accessWidth width ∨ e = .misaligned (sel % 2 ^ 17) ∨ e = .unlistedOffset (sel % 2 ^ 17)) := by
  have hv : leValue (leBytes 3 sel) = sel := by
    rw [Machine.leValue_leBytes, Nat.mod_eq_of_lt (by omega)]
  simp only [leBytes] at hv
  simp only [leBytes, List.cons_append, List.nil_append, decodeMmio, hv]
  rw [if_neg (by omega)]
  by_cases hwidth : width = 4
  · rw [if_neg (by simp [hwidth, hw.regBits])]
    by_cases halign : sel % 4 = 0
    · have hoff : ∀ r : Reg, r.offset c ≠ sel % 2 ^ 17 :=
        (h.resolve_left (not_not.2 hwidth)).resolve_left (not_not.2 halign)
      rw [if_neg (by omega), Reg.ofOffset_none hoff]
      exact ⟨_, rfl, .inr (.inr rfl)⟩
    · rw [if_pos (by omega)]
      exact ⟨_, rfl, .inr (.inl rfl)⟩
  · rw [if_pos (by rw [hw.regBits]; omega)]
    exact ⟨_, rfl, .inl rfl⟩

end Sys2Proof

namespace Sys2Proof.Machine

/-- Such an access is fetched as a bad one (R175). -/
theorem fetchRecord_outsideTheMap {c : Config} (hw : c.WF) {width sel : Nat} (hs : sel < 2 ^ 18) (data : List Byte)
    (h : width ≠ 4 ∨ sel % 4 ≠ 0 ∨ ∀ r : Reg, r.offset c ≠ sel % 2 ^ 17) :
    ∃ e, fetchRecord c ⟨.mmio width, leBytes 3 sel ++ data⟩ = .badAccess (.busAccess e) := by
  obtain ⟨e, hd, rfl | rfl | rfl⟩ := decodeMmio_outsideTheMap hw hs data h
  · exact ⟨.accessWidth width, by simp [fetchRecord, decode, hd]⟩
  · exact ⟨.misaligned (sel % 2 ^ 17), by simp [fetchRecord, decode, hd]⟩
  · exact ⟨.unlistedOffset (sel % 2 ^ 17), by simp [fetchRecord, decode, hd]⟩

theorem State.refuse_of_unmarked {s : State} (e : Refuse) (h : s.refused = none) :
    s.refuse e = { s with refused := some e } := by
  simp [State.refuse, h]

theorem step_badAccess {s : State} {r : Record} {rest : List Event} {e : Refuse} (hr : s.refused = none)
    (hs : s.schedule = .op r :: rest) (hf : fetchRecord s.cfg r = .badAccess e) :
    step s = .next ({ s with schedule := rest }.refuse e) := by
  simp [step, hr, hs, hf]

/-- Settles O5: the record is fetched as a bad access, which only marks the state. -/
theorem busAccessOutsideTheMapRefused : Obligations.BusAccessOutsideTheMapRefused := by
  intro s width sel data rest hw hr hsch hs h
  obtain ⟨e, he⟩ := fetchRecord_outsideTheMap hw hs data h
  exact ⟨e, (step_badAccess hr hsch he).trans (congrArg _ (State.refuse_of_unmarked _ hr))⟩

end Sys2Proof.Machine

/-! ### Register reads (R141, R142, R151 to R158, R165 to R170, R173, R174) -/

namespace Sys2Proof.Machine

/-- Settles O13: both directions of both registers mean the mark alone. -/
theorem controlAndStatusRefused : Obligations.ControlAndStatusRefused :=
  ⟨rfl, fun _ => rfl, rfl, fun _ => rfl, fun _ _ => ⟨rfl, rfl, rfl, rfl, fun h =>
    ⟨State.refuse_of_unmarked _ h, State.refuse_of_unmarked _ h⟩⟩⟩

theorem State.BusReady.busRead {s : State} (h : s.BusReady) (r : Reg) :
    busRead r s = .next { s with busData := s.reg r } := busRead_ready r h.busBlocked

/-- Settles O14: each is the read of one register by SW. -/
theorem transmitRegisterReads : Obligations.TransmitRegisterReads :=
  ⟨⟨rfl, rfl, rfl, rfl, rfl, rfl, rfl⟩, fun _ h =>
    ⟨h.busRead .tctl, h.busRead .tipg, h.busRead .tdbal, h.busRead .tdbah, h.busRead .tdlen, h.busRead .tdh,
      h.busRead .tdt⟩⟩

/-- Settles O15: each is the read of one register by SW. -/
theorem receiveRegisterReads : Obligations.ReceiveRegisterReads :=
  ⟨⟨rfl, rfl, rfl, rfl, rfl, rfl, rfl, rfl⟩, fun _ h =>
    ⟨h.busRead .rctl, h.busRead .rdbal, h.busRead .rdbah, h.busRead .rdlen, h.busRead .rdh, h.busRead .rdt,
      h.busRead .ral, h.busRead .rah⟩⟩

/-! ### Register writes (R143 to R150, R152, R159 to R164, R171, R172) -/

/-- A register write by SW whose effect is `u` under the condition `P` and is refused otherwise. -/
structure WriteOutcome (i : Instr) (s : State) (P : Prop) (u : State) : Prop where
  stores : P → exec i s = .next u
  refuses : ¬ P → Refuses i s

/-- A register's own rule says when a write of it by SW is stored (R140). -/
theorem writeOutcome_of_iff {s u : State} (h : s.BusReady) {i : Instr} {w : State → Except Refuse State} {P : Prop}
    (hi : exec i s = busWrite w s) (hw : ∀ {t}, w s = .ok t ↔ P ∧ t = u) : WriteOutcome i s P u := by
  have hx : exec i s = settle s (w s) := hi.trans (busWrite_ready h.busBlocked)
  constructor
  · intro hp
    rw [hx, hw.2 ⟨hp, rfl⟩, settle_ok]
  · intro hp
    cases he : w s with
    | ok t => exact absurd (hw.1 he).1 hp
    | error e => exact ⟨e, by rw [hx, he, settle_error]⟩

/-- The low base half is aligned to 16 bytes when its four low bits are 0 (R147, R160). -/
theorem toNat_mod_16_iff (v : Word) : v.toNat % 16 = 0 ↔ v.extractLsb' 0 4 = 0 := by
  rw [← BitVec.toNat_inj, BitVec.extractLsb'_toNat]
  rfl

/-- Settles O17: the four rules of the ring bases. -/
theorem ringBaseWrites : Obligations.RingBaseWrites := by
  refine ⟨fun _ => ⟨rfl, rfl, rfl, rfl⟩, toNat_mod_16_iff, fun s v hr => ?_⟩
  have hal : baseAligned s.cfg v = true ↔ v.toNat % s.cfg.ringAlign = 0 := by simp [baseAligned]
  have tdbal := writeOutcome_of_iff hr (i := .wrTdbal v) rfl writeTdbal_iff
  have tdbah := writeOutcome_of_iff hr (i := .wrTdbah v) rfl writeTdbah_iff
  have rdbal := writeOutcome_of_iff hr (i := .wrRdbal v) rfl writeRdbal_iff
  have rdbah := writeOutcome_of_iff hr (i := .wrRdbah v) rfl writeRdbah_iff
  rw [hal] at tdbal rdbal
  exact ⟨fun hd ha => tdbal.stores ⟨hd, ha⟩, fun hn => tdbal.refuses (by simpa [imp_iff_not_or] using hn),
    tdbah.stores, fun hn => tdbah.refuses (by simp [hn]),
    fun hd ha => rdbal.stores ⟨hd, ha⟩, fun hn => rdbal.refuses (by simpa [imp_iff_not_or] using hn),
    rdbah.stores, fun hn => rdbah.refuses (by simp [hn])⟩

/-- A word is a ring length register's when, counted in its unit, it is the bytes of the ring (R107). -/
theorem eq_ringLength_iff {c : Config} (hw : c.WF) {n : Nat} (hn : n * c.descSize < 2 ^ 32) (v : Word) :
    v = ringLength c n ↔ v.toNat * c.ringUnit = n * c.descSize := by
  rw [← ringLength_bytes hw hn, Nat.mul_right_cancel_iff hw.unit_pos, BitVec.toNat_inj]

/-- Settles O18: the two rules of the ring lengths, the length counted in its unit. -/
theorem ringLengthWrites : Obligations.RingLengthWrites := by
  refine ⟨fun _ => ⟨rfl, rfl⟩, rfl, rfl, fun s v hr hw => ?_⟩
  have tdlen := writeOutcome_of_iff hr (i := .wrTdlen v) rfl writeTdlen_iff
  have rdlen := writeOutcome_of_iff hr (i := .wrRdlen v) rfl writeRdlen_iff
  rw [eq_ringLength_iff hw hw.txLength_lt] at tdlen
  rw [eq_ringLength_iff hw hw.rxLength_lt] at rdlen
  exact ⟨fun hd hv => ⟨tdlen.stores ⟨hd, hv⟩, rfl⟩, fun hn => tdlen.refuses (by simpa [imp_iff_not_or] using hn),
    fun hd hv => ⟨rdlen.stores ⟨hd, hv⟩, rfl⟩, fun hn => rdlen.refuses (by simpa [imp_iff_not_or] using hn)⟩

/-- Settles O19: the two rules of the heads. -/
theorem headWrites : Obligations.HeadWrites := by
  refine ⟨fun _ => ⟨rfl, rfl⟩, fun s v hr => ?_⟩
  have tdh := writeOutcome_of_iff hr (i := .wrTdh v) rfl writeTdh_iff
  have rdh := writeOutcome_of_iff hr (i := .wrRdh v) rfl writeRdh_iff
  exact ⟨fun hd ha hv => hv ▸ tdh.stores ⟨hd, ha, hv⟩, fun hn => tdh.refuses (by simpa [imp_iff_not_or] using hn),
    fun hd ha hv => hv ▸ rdh.stores ⟨hd, ha, hv⟩, fun hn => rdh.refuses (by simpa [imp_iff_not_or] using hn)⟩

/-! What a tail write arms or offers (R187, R207, R237). -/

theorem State.setReg_reg (s : State) (r : Reg) : s.setReg r (s.reg r) = s := by cases r <;> rfl

theorem fetchEnabled_setReg_tdt {s : State} {v : Word} (hr : s.cfg.txArmRule = .tailGated)
    (he : s.txEnabled = true) : (s.setReg .tdt v).FetchEnabled ↔ s.reg .tdh ≠ v := by
  have hen : (s.setReg .tdt v).txEnabled = true := he
  simp [State.FetchEnabled, hen, hr]

theorem depositEnabled_setReg_rdt (s : State) (v : Word) : (s.setReg .rdt v).DepositEnabled ↔
    s.rxEnabled = true ∧ s.wireIn ≠ [] ∧ s.rxFlag s.rdh = false ∧
    (s.cfg.rxOfferRule = .flagGated ∨ (s.rxTailPublished = true ∧ s.reg .rdh ≠ v)) := Iff.rfl

/-- Settles O20: the two rules of the tails, and the engines' conditions after them. -/
theorem tailWrites : Obligations.TailWrites := by
  refine ⟨fun _ => ⟨rfl, rfl⟩, fun s v hr => ?_⟩
  have tdt := writeOutcome_of_iff hr (i := .wrTdt v) rfl writeTdt_iff
  have rdt := writeOutcome_of_iff hr (i := .wrRdt v) rfl writeRdt_iff
  refine ⟨fun hv => ⟨tdt.stores hv, fun h => h ▸ s.setReg_reg .tdt, fetchEnabled_setReg_tdt⟩,
    fun hv => tdt.refuses (by omega), fun hv => ⟨rdt.stores hv, ?_, ?_, ?_⟩, fun hv => rdt.refuses (by omega)⟩
  · intro hrule
    rw [depositEnabled_setReg_rdt]
    simp [State.DepositEnabled, hrule]
  · intro hrule hpub hen hwire hflag
    simp [depositEnabled_setReg_rdt, hrule, hpub, hen, hwire, hflag]
  · intro hrule hpub
    simp [depositEnabled_setReg_rdt, hrule, hpub]

/-- Settles O21: the rules of TCTL, TIPG and RCTL. -/
theorem controlWrites : Obligations.ControlWrites := by
  intro s v hr
  have tctl := writeOutcome_of_iff hr (i := .wrTctl v) rfl writeTctl_iff
  have tipg := writeOutcome_of_iff hr (i := .wrTipg v) rfl writeTipg_iff
  have rctl := writeOutcome_of_iff hr (i := .wrRctl v) rfl writeRctl_iff
  rw [Bool.and_eq_true, and_imp] at tctl rctl
  refine ⟨fun hres hprog hclr => tctl.stores ⟨hres, hprog, hclr⟩, fun hn => tctl.refuses ?_,
    tipg.stores, tipg.refuses, fun hb hres hprog hclr => rctl.stores ⟨hb, hres, hprog, hclr⟩,
    fun hn => rctl.refuses ?_⟩
  · rintro ⟨hres, hprog, hclr⟩
    rcases hn with h | ⟨hen, h⟩ | ⟨ha, hen, h⟩
    · exact h hres
    · cases h.symm.trans (hprog hen)
    · cases h.symm.trans (hclr ha hen)
  · rintro ⟨hb, hres, hprog, hclr⟩
    rcases hn with h | h | ⟨hen, h⟩ | ⟨ha, hen, h⟩
    · exact h hb
    · exact h hres
    · cases h.symm.trans (hprog hen)
    · cases h.symm.trans (hclr ha hen)

/-- Settles O22: the two rules of the station address, the count of its writes beside them. -/
theorem stationAddressWrites : Obligations.StationAddressWrites := by
  refine ⟨fun _ => ⟨rfl, rfl⟩, fun s v hr => ?_⟩
  have ral := writeOutcome_of_iff hr (i := .wrRal v) rfl writeRal_iff
  have rah := writeOutcome_of_iff hr (i := .wrRah v) rfl writeRah_iff
  refine ⟨fun ha hst => ral.stores ⟨ha, hst⟩, fun hn => ral.refuses (by simpa [imp_iff_not_or] using hn),
    fun ha hst hres => rah.stores ⟨hres, ha, hst⟩, fun hn => rah.refuses ?_⟩
  rintro ⟨hres, ha, hst⟩
  simp [hres, ha, hst] at hn

/-! ### EERD (R143, R144) -/

/-- Settles O23: the rule of EERD, the fields read from the word it leaves. -/
theorem eerdWriteStartsARead : Obligations.EerdWriteStartsARead := by
  refine ⟨fun _ => rfl, fun s v hr hw => ?_⟩
  have eerd := writeOutcome_of_iff hr (i := .wrEerd v) rfl writeEerd_iff
  refine ⟨fun hres hst hp => ⟨_, _, eerd.stores ⟨hres, hst, hp⟩, eerdAddr_eerdReading hw.fields _ _,
    eerdDone_eerdReading hw.fields _ _, eerdStart_eerdReading hw.fields _ _, rfl⟩, fun hn => eerd.refuses ?_⟩
  rintro ⟨hres, hst, hp⟩
  simp [hres, hst, hp] at hn

theorem State.BusReady.execRdEerd {s : State} (h : s.BusReady) : execRdEerd s = .next s.pollEerd := by
  simp [Machine.execRdEerd, h.busBlocked]

/-- Settles O24: the read shows every field of EERD that is not free, and DATA as the invariant has it. -/
theorem eerdRead : Obligations.EerdRead := by
  refine ⟨rfl, fun s hr hw => ⟨s.pollEerd, hr.execRdEerd, rfl, eerdDone_readValue hw.fields,
    eerdAddr_readValue hw.fields, eerdStart_readValue hw.fields, eerdData_readValue hw.fields, fun he hd => ?_⟩⟩
  calc eerdData s.cfg.layout s.eerdReadValue
      = s.eeData := eerdData_readValue hw.fields hd
    _ = s.eepromWord (eerdAddr s.cfg.layout (s.reg .eerd)) := he.data hd
    _ = s.eepromWord (eerdAddr s.cfg.layout s.eerdReadValue) := by rw [eerdAddr_readValue hw.fields]

end Sys2Proof.Machine

/-! ### Steps that are not enabled (R182, R204, R205, R234, R235, R273, R298, R299, R320) -/

namespace Sys2Proof.Machine

section
variable {s : State}

theorem execTxFetch_disabled (h : s.txEnabled = false) : execTxFetch s = .next s := by simp [execTxFetch, h]

theorem execTxFetch_not_enabled (hh : s.tdh < s.cfg.nTx) (ht : s.tdt < s.cfg.nTx) (h : ¬ s.FetchEnabled) :
    execTxFetch s = .next s := by
  cases hen : s.txEnabled
  case false => exact execTxFetch_disabled hen
  case true =>
    have harm : s.txArmed = false := by simpa using mt (State.txArmed_iff hen).1 h
    simp [execTxFetch, hen, harm, Nat.not_le_of_lt hh, Nat.not_le_of_lt ht]

theorem execRxDeposit_disabled (h : s.rxEnabled = false) : execRxDeposit s = .next s := by simp [execRxDeposit, h]

theorem execRxDeposit_not_offered (hh : s.rdh < s.cfg.nRx)
    (ht : s.cfg.rxOfferRule = .tailGated → s.rxTailPublished = true → s.rdt < s.cfg.nRx)
    (h : s.rxOffered = false) : execRxDeposit s = .next s := by
  unfold execRxDeposit
  split
  · rfl
  split
  · rfl
  rw [if_neg (by rintro (hc | ⟨hr, hp, hc⟩)
                 · omega
                 · exact absurd (ht hr hp) (Nat.not_lt_of_le hc)), if_pos (by simp [h])]

theorem execRxDeposit_not_enabled (hh : s.rdh < s.cfg.nRx) (ht : s.rdt < s.cfg.nRx) (h : ¬ s.DepositEnabled) :
    execRxDeposit s = .next s := by
  cases hen : s.rxEnabled
  case false => exact execRxDeposit_disabled hen
  case true =>
    by_cases hw : s.wireIn = []
    · simp [execRxDeposit, hw]
    · exact execRxDeposit_not_offered hh (fun _ _ => ht) (by simpa using mt (State.rxOffered_iff hen hw).1 h)

theorem execRxDrop_empty (h : s.wireIn = []) : execRxDrop s = .next s := by
  have ht : s.wireIn.tail = s.wireIn := by rw [h]; rfl
  rw [execRxDrop, ht]

theorem execEeComplete_idle (h : s.eePending = none) : execEeComplete s = .next s := by simp [execEeComplete, h]

theorem execInBridgeIter_ended (ha : s.attached = true) (h : s.ibFatal ≠ none) : execInBridgeIter s = .next s := by
  simp [execInBridgeIter, ha, Option.isSome_iff_ne_none.2 h]

theorem execOutBridgeIter_ended (ha : s.attached = true) (h : s.obFatal ≠ none) : execOutBridgeIter s = .next s := by
  simp [execOutBridgeIter, ha, Option.isSome_iff_ne_none.2 h]

end

/-- Settles O11, step by step. -/
theorem stepsNotEnabledChangeNothing : Obligations.StepsNotEnabledChangeNothing := fun _ =>
  ⟨execTxFetch_disabled, execTxFetch_not_enabled, fun h => if_pos h, execRxDeposit_disabled, execRxDeposit_not_enabled,
    execRxDrop_empty, execEeComplete_idle, execInBridgeIter_ended, execOutBridgeIter_ended⟩

end Sys2Proof.Machine

/-! ### Reading a word of the EEPROM, access by access (R143, R180, R182) -/

namespace Sys2Proof.Machine

/-- EERD once the read of word `a` is completed (R182). -/
def State.eerdCompleted (s : State) (a : BitVec 8) : Word :=
  setField (setField (s.reg .eerd) s.cfg.layout.eerdData (s.eepromWord a)) s.cfg.layout.eerdDone 1#1

/-- The state once the pending read of word `a` is completed (R182). -/
def State.completeRead (s : State) (a : BitVec 8) : State :=
  { s.setReg .eerd (s.eerdCompleted a) with eePending := none }

theorem execEeComplete_pending {s : State} {a : BitVec 8} (h : s.eePending = some a) :
    execEeComplete s = .next (s.completeRead a) := by
  simp [execEeComplete, h, State.completeRead, State.eerdCompleted]

/-- Settles O26, by what a completed EERD holds. -/
theorem eepromCompletion : Obligations.EepromCompletion :=
  ⟨rfl, fun s a hw ha => ⟨_, execEeComplete_pending ha, eerd_completed hw.fields (s.reg .eerd) (s.eepromWord a)⟩⟩

/-- SW stands elsewhere. -/
def State.atPlace (s : State) (p : SwPhase) : State := { s with sw := p }

/-- Polls of EERD have read `v` last; `n` free values have been drawn. -/
def State.polled (s : State) (v : Word) (n : Nat) : State := { s with busData := v, draws := n }

/-- The state after the write that starts the read of word `a` (R143, R180). -/
def State.startRead (s : State) (a : BitVec 8) : State :=
  { s.setReg .eerd (eerdReading s.cfg.layout a (Config.draw16 s.draws)) with
    eePending := some a, draws := s.draws + 1 }

theorem writeEerd_start {s : State} (hl : s.cfg.layout.WF) (hp : s.eePending = none) (a : BitVec 8) :
    writeEerd (eerdStartWord s.cfg.layout a) s = .ok (s.startRead a) :=
  writeEerd_iff.2 ⟨⟨eerdStartWord_reserved _ a, eerdStart_eerdStartWord hl a, hp⟩, by
    rw [eerdAddr_eerdStartWord hl]; rfl⟩

theorem writeEerd_pending {s : State} (hp : s.eePending ≠ none) (v : Word) : ∃ e, writeEerd v s = .error e := by
  cases h : writeEerd v s with
  | error e => exact ⟨e, rfl⟩
  | ok t =>
    obtain ⟨⟨-, -, hn⟩, -⟩ := writeEerd_iff.1 h
    exact absurd hn hp

theorem exec_eerdReadWord_start {s : State} (hl : s.cfg.layout.WF) (h : s.SwReady) (hp : s.eePending = none)
    (a : BitVec 8) : exec (.eerdReadWord a) s = .next ((s.startRead a).atPlace (.readingWord a)) := by
  obtain ⟨ha, hs, hf⟩ := h
  simp [exec, execEerdReadWord, ha, hs, hf, writeEerd_start hl hp, Except.map, State.atPlace]

theorem exec_eerdReadWord_pending {s : State} (h : s.SwReady) (hp : s.eePending ≠ none) (a : BitVec 8) :
    Refuses (.eerdReadWord a) s := by
  obtain ⟨ha, hs, hf⟩ := h
  obtain ⟨e, he⟩ := writeEerd_pending hp (eerdStartWord s.cfg.layout a)
  exact ⟨e, by simp [exec, execEerdReadWord, ha, hs, hf, he, Except.map]⟩

theorem State.spin_again {s : State} {k : Half → State → State} (hd : s.eeDone ≠ 1) : s.spin k = s.pollEerd := if_neg hd

theorem State.spin_done {s : State} {k : Half → State → State} (hd : s.eeDone = 1) :
    s.spin k = k s.eeData (s.pollEerd.returns .eerdReadWord (.okWord s.eeData)) := if_pos hd

/-- A poll that does not see DONE is one read of EERD, in either spin. -/
theorem State.Polls.exec_again {s : State} {i : Instr} (h : s.Polls i) (hd : s.eeDone ≠ 1) :
    exec i s = .next s.pollEerd := by
  obtain ⟨hf, ⟨a, rfl, hs⟩ | ⟨h, st, rfl, ha, hs, hst⟩⟩ := h
  · simp [exec, execEerdReadWord, hf, hs, State.spin_again hd]
  · rcases hst with rfl | ⟨w0, rfl⟩ | ⟨w0, w1, rfl⟩ <;>
      simp [exec, execAttach, attachStep, hf, ha, hs, State.spin_again hd]

theorem exec_eerdReadWord_done {s : State} {a : BitVec 8} (hf : s.attachFailed = false) (hs : s.sw = .readingWord a)
    (hd : s.eeDone = 1) : exec (.eerdReadWord a) s =
      .next ((s.pollEerd.returns .eerdReadWord (.okWord s.eeData)).atPlace .idle) := by
  simp [exec, execEerdReadWord, State.spin_done hd, State.atPlace, hf, hs]

/-- Settles O27: the start, its refusal, the poll and the return. -/
theorem eerdReadWordAccesses : Obligations.EerdReadWordAccesses := by
  refine fun s a hw hf => ⟨fun hs ha hp => ?_, fun hs ha hp => exec_eerdReadWord_pending ⟨ha, hs, hf⟩ hp a,
    fun hs hd => ?_, fun hs hd => ⟨_, exec_eerdReadWord_done hf hs hd⟩⟩
  · exact ⟨_, _, exec_eerdReadWord_start hw.fields ⟨ha, hs, hf⟩ hp a, eerdAddr_eerdReading hw.fields _ _,
      eerdDone_eerdReading hw.fields _ _, rfl⟩
  · exact ⟨_, State.Polls.exec_again ⟨hf, .inl ⟨a, rfl, hs⟩⟩ (by simp [hd])⟩

/-! ### Running a list of operations -/

theorem runOps_cons_next {i : Instr} {is : List Instr} {s t : State} (h : exec i s = .next t) :
    runOps (i :: is) s = runOps is t := by simp [runOps, h]

theorem runOps_append (is js : List Instr) (s : State) : runOps (is ++ js) s = (runOps is s).bind (runOps js) := by
  induction is generalizing s with
  | nil => rfl
  | cons i is ih =>
    simp only [List.cons_append, runOps]
    split
    · exact ih _
    · rfl
    · rfl

theorem runOps_append_some {is : List Instr} (js : List Instr) {s t : State} (h : runOps is s = some t) :
    runOps (is ++ js) s = runOps js t := by rw [runOps_append, h]; rfl

/-! ### The spin of a read, however many polls it takes (R180, R181) -/

/-- After any number of polls that do not see DONE. -/
theorem State.Polls.runOps_replicate {s : State} {i : Instr} (h : s.Polls i) (hd : s.eeDone ≠ 1) (n : Nat) :
    ∃ v k, runOps (List.replicate n i) s = some (s.polled v k) := by
  induction n generalizing s with
  | zero => exact ⟨s.busData, s.draws, rfl⟩
  | succ n ih =>
    obtain ⟨v, k, hv⟩ := ih (s := s.pollEerd) h hd
    exact ⟨v, k, (runOps_cons_next (h.exec_again hd)).trans hv⟩

/-- The operations of a read by `i` that is answered after `p` polls: the start, the polls, EE_COMPLETE and the poll
that sees DONE. -/
def readRound (i : Instr) (p : Nat) : List Instr := List.replicate (1 + p) i ++ [.eeComplete, i]

/-- A read of word `a` that `i` has started reaches its last poll with the read completed. -/
theorem runOps_readRound {s u : State} {i : Instr} {a : BitVec 8} (hstart : exec i s = .next u) (hp : u.Polls i)
    (ha : u.eePending = some a) (hd : u.eeDone ≠ 1) (p : Nat) :
    ∃ v n, runOps (readRound i p) s = runOps [i] ((u.polled v n).completeRead a) := by
  obtain ⟨v, n, hv⟩ := hp.runOps_replicate hd p
  refine ⟨v, n, ?_⟩
  have hc : exec .eeComplete (u.polled v n) = .next ((u.polled v n).completeRead a) := execEeComplete_pending ha
  rw [readRound, Nat.add_comm, List.replicate_succ, List.cons_append, runOps_cons_next hstart,
    runOps_append_some _ hv, runOps_cons_next hc]

/-- EERD holds the answer to a read of word `a`: DONE, the word in DATA, its address in ADDR, START clear (R143, R144,
R182). -/
structure HoldsWord (c : Config) (a : BitVec 8) (w : Word) : Prop where
  done : eerdDone c.layout w = 1
  data : eerdData c.layout w = c.eeprom[a.toNat]'a.isLt
  addr : eerdAddr c.layout w = a
  start : eerdStart c.layout w = 0

/-- Completing a read leaves START (R182). -/
theorem eerdStart_completed {l : Layout} (hl : l.WF) (v : Word) (d : Half) :
    eerdStart l (setField (setField v l.eerdData d) l.eerdDone 1#1) = eerdStart l v := by
  obtain ⟨-, -, -, -, hDone, -, hData, -⟩ := eerd_apart hl
  rw [eerdStart, extract_setField_other _ _ hDone, extract_setField_other _ _ hData, eerdStart]

theorem holdsWord_eerdCompleted {s : State} (hl : s.cfg.layout.WF) (a : BitVec 8) :
    HoldsWord s.cfg a ((s.startRead a).eerdCompleted a) := by
  obtain ⟨hdata, hdone, -⟩ := eerd_completed hl ((s.startRead a).reg .eerd) (s.eepromWord a)
  refine ⟨hdone, hdata, ?_, ?_⟩
  · exact (eerdAddr_completed hl _ _).trans (eerdAddr_eerdReading hl _ _)
  · exact (eerdStart_completed hl _ _).trans (eerdStart_eerdReading hl _ _)

/-- A read of word `a` that is over: EERD is `w`, the word is among the results. -/
def State.wordRead (s : State) (a : BitVec 8) (w v : Word) (n : Nat) : State :=
  { s.setReg .eerd w with
    eePending := none, busData := v, draws := n,
    results := s.results ++ [⟨.eerdReadWord, .okWord (s.eepromWord a)⟩] }

/-- A read of word `a` that `i` starts from `s`: `p` is SW's place while it spins, `q` its place after the poll that
sees DONE. -/
theorem runOps_readRound_returns {s : State} {i : Instr} {a : BitVec 8} {p q : SwPhase} (hl : s.cfg.layout.WF)
    (hstart : exec i s = .next ((s.startRead a).atPlace p)) (hp : ((s.startRead a).atPlace p).Polls i)
    (hend : ∀ u : State, u.attachFailed = s.attachFailed → u.attached = s.attached → u.sw = p → u.eeDone = 1 →
      u.eeData = s.eepromWord a →
      exec i u = .next ((u.pollEerd.returns .eerdReadWord (.okWord (s.eepromWord a))).atPlace q))
    (polls : Nat) : ∃ w v n, HoldsWord s.cfg a w ∧
      runOps (readRound i polls) s = some ((s.wordRead a w v n).atPlace q) := by
  have hd : eerdDone s.cfg.layout (eerdReading s.cfg.layout a (Config.draw16 s.draws)) ≠ 1 := by
    simp [eerdDone_eerdReading hl]
  obtain ⟨v, n, hrun⟩ := runOps_readRound hstart hp rfl hd polls
  have hw := holdsWord_eerdCompleted hl a
  have hlast := hend ((((s.startRead a).atPlace p).polled v n).completeRead a) rfl rfl rfl hw.done hw.data
  exact ⟨_, _, _, hw, hrun.trans (runOps_cons_next hlast)⟩

/-- Settles O28: the round of a read by EERD_READ_WORD, from idle back to idle. -/
theorem eerdReadWordReturnsTheWord : Obligations.EerdReadWordReturnsTheWord := by
  intro s a polls hw hr hp
  obtain ⟨ha, hs, hf⟩ := hr
  obtain ⟨w, v, n, hword, hrun⟩ :=
    runOps_readRound_returns (q := .idle) hw.fields (exec_eerdReadWord_start hw.fields ⟨ha, hs, hf⟩ hp a)
      ⟨hf, .inl ⟨a, rfl, rfl⟩⟩
      (fun u hu _ hus hd hdata => hdata ▸ exec_eerdReadWord_done (hu.trans hf) hus hd) polls
  refine ⟨_, w, v, hrun, hword.done, hword.data, hword.addr, ?_⟩
  simp [State.wordRead, State.atPlace, State.setReg, hp, hs]

end Sys2Proof.Machine

/-! ### ATTACH: the mapping, the refused stores, the frame of one access (R71, R83, R84, R122, R186 to R190, R203) -/

namespace Sys2Proof.Machine

theorem exec_attach_mapFails {s : State} (h : s.Unattached) (hm : s.collab.mapFails = true) (a : Addr) :
    exec (.attach a) s = .next ({ s with attachFailed := true }.returns .attach (.err .attachFailure)) := by
  obtain ⟨ha, hs, hf⟩ := h
  simp [exec, execAttach, ha, hs, hf, hm]

theorem exec_attach_maps {s : State} (h : s.Unattached) (hm : s.collab.mapFails = false) (a : Addr) :
    exec (.attach a) s = .next (s.atStage a (zeroTxFrom s.cfg 0)) := by
  obtain ⟨ha, hs, hf⟩ := h
  simp [exec, execAttach, ha, hs, hf, hm]

theorem exec_attach_again {s : State} (h : s.attached = true ∨ s.attachFailed = true) (a : Addr) :
    Refuses (.attach a) s := by
  by_cases hf : s.attachFailed = true
  · exact ⟨_, if_pos hf⟩
  · exact ⟨_, (if_neg hf).trans (if_pos (h.resolve_right hf))⟩

/-- Settles O30: the first step of ATTACH, by what ENV chose. -/
theorem attachMapsOrFails : Obligations.AttachMapsOrFails := by
  refine fun s a => ⟨fun h hm => exec_attach_mapFails h hm a, fun h hm hn => ?_, fun h => exec_attach_again h a⟩
  have hfirst : zeroTxFrom s.cfg 0 = .zeroTxDesc 0 := if_pos hn
  exact hfirst ▸ exec_attach_maps h hm a

/-- SW stands at stage `st` of an ATTACH of `h` that has neither succeeded nor failed. -/
structure State.Attaching (s : State) (h : Addr) (st : AttachStage) : Prop where
  attached : s.attached = false
  attachFailed : s.attachFailed = false
  sw : s.sw = .attaching h st

theorem State.Attaching.exec_eq {s : State} {h : Addr} {st : AttachStage} (hs : s.Attaching h st) :
    exec (.attach h) s = settle s (attachStep h st s) := by
  obtain ⟨ha, hf, hs⟩ := hs
  simp [exec, execAttach, ha, hf, hs]

theorem State.Attaching.exec_ok {s t : State} {h : Addr} {st : AttachStage} (hs : s.Attaching h st)
    (ht : attachStep h st s = .ok t) : exec (.attach h) s = .next t := by rw [hs.exec_eq, ht, settle_ok]

/-- A stage that stores into slot `i` of the transmit ring. -/
def AttachStage.StoresTx (st : AttachStage) (i : Nat) : Prop :=
  st = .zeroTxDesc i ∨ st = .zeroTxBuf i ∨ st = .bindTxAddr i ∨ st = .bindTxStatus i

/-- A stage that stores into slot `i` of the receive ring. -/
def AttachStage.StoresRx (st : AttachStage) (i : Nat) : Prop :=
  st = .zeroRxDesc i ∨ st = .zeroRxBuf i ∨ st = .bindRx i

/-- A stage that stores is a store into a slot of one of the rings. -/
theorem AttachStage.stores_of_target {c : Config} {st : AttachStage} {q : Region} (h : st.target c = some q) :
    ∃ i, st.StoresTx i ∨ st.StoresRx i := by
  cases st <;> simp [AttachStage.target] at h <;> simp [AttachStage.StoresTx, AttachStage.StoresRx]

theorem attachStep_storesTx {s : State} (h : Addr) {st : AttachStage} {i : Nat} (hst : st.StoresTx i) :
    ∃ next t, attachStep h st s = (attachTx s i t).map (·.atStage h next) := by
  rcases hst with rfl | rfl | rfl | rfl <;> exact ⟨_, _, rfl⟩

theorem attachStep_storesRx {s : State} (h : Addr) {st : AttachStage} {i : Nat} (hst : st.StoresRx i) :
    ∃ next t, attachStep h st s = (attachRx s i t).map (·.atStage h next) := by
  rcases hst with rfl | rfl | rfl <;> exact ⟨_, _, rfl⟩

theorem attachTx_error {s t : State} {i : Nat}
    (h : s.cfg.nTx ≤ i ∨ (s.txEnabled = true ∧ s.txFlag i = false) ∨ s.txFetched i = true) :
    ∃ e, attachTx s i t = .error e := by
  cases he : attachTx s i t with
  | error e => exact ⟨e, rfl⟩
  | ok u =>
    obtain ⟨hi, ⟨hflag, hfetch⟩, -⟩ := attachTx_ok he
    rcases h with h | ⟨hen, h⟩ | h
    · omega
    · simp [hflag hen] at h
    · simp [hfetch] at h

theorem attachRx_error {s t : State} {i : Nat} (h : s.cfg.nRx ≤ i ∨ (s.rxEnabled = true ∧ s.rxFlag i = false)) :
    ∃ e, attachRx s i t = .error e := by
  cases he : attachRx s i t with
  | error e => exact ⟨e, rfl⟩
  | ok u =>
    obtain ⟨hi, hflag, -⟩ := attachRx_ok he
    rcases h with h | ⟨hen, h⟩
    · omega
    · simp [hflag hen] at h

/-- An access whose check fails refuses. -/
theorem State.Attaching.refuses {s : State} {h : Addr} {st : AttachStage} (hs : s.Attaching h st)
    {e : Except Refuse State} {f : State → State} (hst : attachStep h st s = e.map f) (he : ∃ r, e = .error r) :
    Refuses (.attach h) s := by
  obtain ⟨r, rfl⟩ := he
  exact ⟨r, by rw [hs.exec_eq, hst]; rfl⟩

theorem State.Attaching.refuses_tx {s : State} {h : Addr} {st : AttachStage} {i : Nat} (hs : s.Attaching h st)
    (hst : st.StoresTx i)
    (hi : s.cfg.nTx ≤ i ∨ (s.txEnabled = true ∧ s.txFlag i = false) ∨ s.txFetched i = true) :
    Refuses (.attach h) s := by
  obtain ⟨next, t, he⟩ := attachStep_storesTx (s := s) h hst
  exact hs.refuses he (attachTx_error hi)

theorem State.Attaching.refuses_rx {s : State} {h : Addr} {st : AttachStage} {i : Nat} (hs : s.Attaching h st)
    (hst : st.StoresRx i) (hi : s.cfg.nRx ≤ i ∨ (s.rxEnabled = true ∧ s.rxFlag i = false)) :
    Refuses (.attach h) s := by
  obtain ⟨next, t, he⟩ := attachStep_storesRx (s := s) h hst
  exact hs.refuses he (attachRx_error hi)

/-- The slot of an access of ATTACH that stores is one of its ring (R122). -/
theorem attachStep_slot_lt {s t : State} {h : Addr} {st : AttachStage} (he : attachStep h st s = .ok t) {i : Nat} :
    (st.StoresTx i → i < s.cfg.nTx) ∧ (st.StoresRx i → i < s.cfg.nRx) := by
  constructor <;> intro hst
  · obtain ⟨next, u, hu⟩ := attachStep_storesTx (s := s) h hst
    obtain ⟨v, hv, -⟩ := map_ok_cases (hu ▸ he)
    exact (attachTx_ok hv).1
  · obtain ⟨next, u, hu⟩ := attachStep_storesRx (s := s) h hst
    obtain ⟨v, hv, -⟩ := map_ok_cases (hu ▸ he)
    exact (attachRx_ok hv).1

/-- Region `q` lies in region `r`. -/
abbrev Region.Within (q r : Region) : Prop := r.1 ≤ q.1 ∧ q.1 + q.2 ≤ r.1 + r.2

theorem Mem.Outside.of_within {q r : Region} (h : Region.Within q r) {b : Nat} (hb : Mem.Outside r.1 r.2 b) :
    Mem.Outside q.1 q.2 b := fun k hk => by
  have := hb (q.1 - r.1 + k) (by omega)
  rwa [show r.1 + (q.1 - r.1 + k) = q.1 + k by omega] at this

/-- What lies in a slot's descriptor lies in the descriptor array. -/
theorem within_txDesc {c : Config} {i : Nat} (hi : i < c.nTx) {o n : Nat} (h : o + n ≤ c.descSize) :
    Region.Within (txdAt c i + o, n) c.txDescRegion := by
  have := Config.slot_end (d := c.descSize) hi
  simp only [Region.Within, Config.txDescRegion, txdAt]
  omega

theorem within_rxDesc {c : Config} {i : Nat} (hi : i < c.nRx) {o n : Nat} (h : o + n ≤ c.descSize) :
    Region.Within (rxdAt c i + o, n) c.rxDescRegion := by
  have := Config.slot_end (d := c.descSize) hi
  simp only [Region.Within, Config.rxDescRegion, rxdAt]
  omega

/-- What a stage stores into a slot of the transmit ring lies in a region of R71. -/
theorem target_within_tx {c : Config} (hw : c.WF) {st : AttachStage} {i : Nat} (hi : i < c.nTx)
    (hst : st.StoresTx i) {q : Region} (hq : st.target c = some q) :
    ∃ r ∈ c.ringRegions, Region.Within q r := by
  have hdesc : c.txDescRegion ∈ c.ringRegions := by simp [Config.ringRegions]
  have hbuf : c.txBufRegion i ∈ c.ringRegions := by simp [Config.ringRegions]; exact .inr (.inr (.inl ⟨i, hi, rfl⟩))
  have hd := hw.descSize_le
  rcases hst with rfl | rfl | rfl | rfl <;> obtain rfl := Option.some.inj hq
  · exact ⟨_, hdesc, within_txDesc (o := 0) hi (by omega)⟩
  · exact ⟨_, hbuf, Nat.le_refl _, Nat.le_refl _⟩
  · exact ⟨_, hdesc, within_txDesc hi (TxField.addr.width_le.trans hd)⟩
  · exact ⟨_, hdesc, within_txDesc hi (TxField.status.width_le.trans hd)⟩

theorem target_within_rx {c : Config} (hw : c.WF) {st : AttachStage} {i : Nat} (hi : i < c.nRx)
    (hst : st.StoresRx i) {q : Region} (hq : st.target c = some q) :
    ∃ r ∈ c.ringRegions, Region.Within q r := by
  have hdesc : c.rxDescRegion ∈ c.ringRegions := by simp [Config.ringRegions]
  have hbuf : c.rxBufRegion i ∈ c.ringRegions := by simp [Config.ringRegions]; exact .inr (.inr (.inr ⟨i, hi, rfl⟩))
  have hd := hw.descSize_le
  rcases hst with rfl | rfl | rfl <;> obtain rfl := Option.some.inj hq
  · exact ⟨_, hdesc, within_rxDesc (o := 0) hi (by omega)⟩
  · exact ⟨_, hbuf, Nat.le_refl _, Nat.le_refl _⟩
  · exact ⟨_, hdesc, within_rxDesc hi (RxField.addr.width_le.trans hd)⟩

/-- An access of ATTACH stores nothing outside the regions of R71. -/
theorem attachStep_get_outside {s t : State} {h : Addr} {st : AttachStage} (hw : s.cfg.WF)
    (he : attachStep h st s = .ok t) {b : Nat} (hb : ∀ q ∈ s.cfg.ringRegions, Mem.Outside q.1 q.2 b) :
    Mem.get t.mem b = Mem.get s.mem b := by
  have hacc := attachStep_access he
  cases hq : st.target s.cfg with
  | none => rw [hacc.mem hq]
  | some q =>
    obtain ⟨r, hr, hin⟩ : ∃ r ∈ s.cfg.ringRegions, Region.Within q r := by
      obtain ⟨i, hst | hst⟩ := AttachStage.stores_of_target hq
      · exact target_within_tx hw ((attachStep_slot_lt he).1 hst) hst hq
      · exact target_within_rx hw ((attachStep_slot_lt he).2 hst) hst hq
    exact hacc.outside q hq b (.of_within hin (hb r hr))

/-- Settles O33: the refusals by the check of the slot, the frame by what an access may change. -/
theorem attachFrame : Obligations.AttachFrame := by
  constructor
  · refine fun s h i hf ha => ⟨?_, ?_⟩
    · rintro (hs | hs | hs | hs) hi <;>
        exact State.Attaching.refuses_tx ⟨ha, hf, hs⟩ (by simp [AttachStage.StoresTx]) hi
    · rintro (hs | hs | hs) hi <;>
        exact State.Attaching.refuses_rx ⟨ha, hf, hs⟩ (by simp [AttachStage.StoresRx]) hi
  · intro s t h he
    rcases execAttach_cases he with ⟨e, rfl⟩ | ⟨ha, hf, ⟨hs, hm, rfl⟩ | ⟨-, -, rfl⟩ | ⟨st, hs, hst⟩⟩
    · exact ⟨fun _ => rfl, fun _ _ _ _ _ _ => rfl, fun _ _ _ => rfl, fun _ => rfl, fun _ _ _ => rfl, .inl rfl, rfl⟩
    · exact ⟨fun hr => absurd rfl hr, fun _ _ _ _ _ _ => rfl, fun _ _ _ => rfl, fun _ => rfl, fun _ _ _ => rfl,
        .inr ⟨⟨ha, hs, hf⟩, hm⟩, rfl⟩
    · exact ⟨fun hr => absurd rfl hr, fun _ _ _ _ _ _ => rfl, fun _ _ _ => rfl, fun _ => rfl, fun _ _ _ => rfl,
        .inl rfl, rfl⟩
    · have hacc := attachStep_access hst
      have hsame : ∀ {st'}, s.sw = .attaching h st' → st' = st := fun h' => by simpa using h'.symm.trans hs
      have hrefused : t.refused = s.refused := (congrArg State.refused hacc.rest).trans rfl
      have hfailed : t.attachFailed = s.attachFailed := (congrArg State.attachFailed hacc.rest).trans rfl
      refine ⟨fun hr => absurd hrefused hr, fun st' q hs' hq => hacc.outside q (hsame hs' ▸ hq),
        fun st' hs' hq => hacc.mem (hsame hs' ▸ hq), fun hn => absurd hs (hn st),
        fun hw b hb => attachStep_get_outside hw hst hb, .inl hfailed, ?_⟩
      rw [hrefused, hfailed]
      exact hacc.rest

end Sys2Proof.Machine

/-! ### Fresh rings and the launch state (R47, R49, R183, R184, R189, R208, R238, R321) -/

namespace Sys2Proof.Machine

/-- A field of transmit descriptor `i` as ATTACH leaves it (R189). -/
def TxField.fresh (c : Config) (i : Nat) : TxField → Nat
  | .addr => (c.txBufBase i).toNat
  | .status => (bitByte c.layout.txDone).toNat
  | .length | .cso | .cmd | .css | .special => 0

/-- A field of receive descriptor `i` as ATTACH leaves it (R189). -/
def RxField.fresh (c : Config) (i : Nat) : RxField → Nat
  | .addr => (c.rxBufBase i).toNat
  | .length | .checksum | .status | .errors | .special => 0

/-- Every transmit descriptor is as ATTACH leaves it. -/
def State.TxFresh (s : State) : Prop := ∀ i < s.cfg.nTx, ∀ f, s.txd i f = f.fresh s.cfg i

/-- Every receive descriptor is as ATTACH leaves it. -/
def State.RxFresh (s : State) : Prop := ∀ i < s.cfg.nRx, ∀ f, s.rxd i f = f.fresh s.cfg i

section
variable {s : State}

theorem State.TxFresh.txFlag (h : s.TxFresh) (hl : s.cfg.layout.WF) {i : Nat} (hi : i < s.cfg.nTx) :
    s.txFlag i = true := by
  have hst : s.txStatus i = bitByte s.cfg.layout.txDone := by
    rw [State.txStatus, h i hi .status, TxField.fresh, BitVec.ofNat_toNat, BitVec.setWidth_eq]
  rw [State.txFlag, hst, flagBit_bitByte hl.txDone]

theorem State.TxFresh.txCmd (h : s.TxFresh) {i : Nat} (hi : i < s.cfg.nTx) : s.txCmd i = 0 := by
  rw [State.txCmd, h i hi .cmd]
  rfl

theorem State.RxFresh.rxFlag (h : s.RxFresh) {i : Nat} (hi : i < s.cfg.nRx) : s.rxFlag i = false := by
  have hst : s.rxStatus i = 0 := by
    rw [State.rxStatus, h i hi .status]
    rfl
  simp [State.rxFlag, hst, flagBit]

/-- A fresh transmit ring has nothing in flight (R208). -/
theorem TxRing.of_fresh (hw : s.cfg.WF) (h : s.TxFresh) (hp : s.txPending = 0) (htail : s.txTail = 0)
    (hh : s.reg .tdh = 0) (ht : s.reg .tdt = 0) (hlen : s.reg .tdlen = ringLength s.cfg s.cfg.nTx) :
    TxRing s 0 0 0 where
  oldest_lt := hw.nTx_pos
  fetched_le := Nat.le_refl 0
  inFlight_le := Nat.zero_le _
  pending := hp
  head := by rw [State.tdh, hh]; exact (Nat.zero_mod _).symm
  tail := by rw [htail]; exact (Nat.zero_mod _).symm
  published := by rw [State.tdt, ht, htail]; rfl
  size := hlen
  flags j hj := by
    rw [Nat.zero_add, Nat.mod_eq_of_lt hj, h.txFlag hw.fields hj, decide_eq_true (Nat.zero_le j)]
  armed j hj := absurd hj (Nat.not_lt_zero j)
  commands i hi := .inl (h.txCmd hi)
  bound i hi := h i hi .addr

/-- The receive ring holds `k` deposited frames from slot 0 on: R238 as it stands while the receive tail is at the last
slot, whether published or not (R187 c, R189). -/
structure Deposited (s : State) (k : Nat) : Prop where
  count_le : k ≤ s.cfg.nRx
  head : s.rdh = k % s.cfg.nRx
  size : s.reg .rdlen = ringLength s.cfg s.cfg.nRx
  flags : ∀ j < s.cfg.nRx, s.rxFlag j = decide (j < k)
  lengths : ∀ j < k, s.rxd j .length ≤ s.cfg.rxBufSize
  bound : ∀ i < s.cfg.nRx, s.rxd i .addr = (s.cfg.rxBufBase i).toNat

theorem Deposited.of_fresh (h : s.RxFresh) (hh : s.reg .rdh = 0) (hlen : s.reg .rdlen = ringLength s.cfg s.cfg.nRx) :
    Deposited s 0 where
  count_le := Nat.zero_le _
  head := by rw [State.rdh, hh]; exact (Nat.zero_mod _).symm
  size := hlen
  flags j hj := by rw [h.rxFlag hj, decide_eq_false (Nat.not_lt_zero j)]
  lengths j hj := absurd hj (Nat.not_lt_zero j)
  bound i hi := h i hi .addr

/-- With the receive tail at the last slot the candidate is slot 0 (R231). -/
theorem rxCandidate_of_lastSlot (hw : s.cfg.WF) (ht : s.rxTail = s.cfg.nRx - 1) : s.rxCandidate = 0 := by
  have := hw.nRx_pos
  rw [State.rxCandidate, nextIndex, ht, Nat.sub_add_cancel this, Nat.mod_self]

/-- With the receive tail published at the last slot it is the invariant of R238. -/
theorem Deposited.rxRing {k : Nat} (h : Deposited s k) (hw : s.cfg.WF) (ht : s.rxTail = s.cfg.nRx - 1)
    (hp : s.rdt = s.rxTail) : RxRing s k := by
  have hpos := hw.nRx_pos
  have hcand := rxCandidate_of_lastSlot hw ht
  have hslot : ∀ j < s.cfg.nRx, (s.rxCandidate + j) % s.cfg.nRx = j := fun j hj => by
    rw [hcand, Nat.zero_add, Nat.mod_eq_of_lt hj]
  exact {
    undrained_le := h.count_le
    tail_lt := by omega
    head := by rw [hcand, Nat.zero_add]; exact h.head
    published := hp
    size := h.size
    flags := fun j hj => by rw [hslot j hj]; exact h.flags j hj
    lengths := fun j hj => by rw [hslot j (Nat.lt_of_lt_of_le hj h.count_le)]; exact h.lengths j hj
    bound := h.bound }

/-- The deposited frames, oldest first. -/
def State.depositedUpTo (s : State) (k : Nat) : List Frame := (List.range k).map s.rxFrame

theorem Deposited.rxFrames_eq {k : Nat} (h : Deposited s k) (hw : s.cfg.WF) (ht : s.rxTail = s.cfg.nRx - 1) :
    rxFrames s k = s.depositedUpTo k := by
  refine List.map_congr_left fun j hj => ?_
  have hlt : j < s.cfg.nRx := (List.mem_range.1 hj).trans_le h.count_le
  rw [rxCandidate_of_lastSlot hw ht, Nat.zero_add, Nat.mod_eq_of_lt hlt]

/-- The index of the last slot, as a register holds it. -/
theorem lastSlot_toNat {n : Nat} (hle : n ≤ 2 ^ 16) : (indexWord (n - 1)).toNat = n - 1 := indexWord_toNat (by omega)

theorem Launch.txFresh (h : Launch s) : s.TxFresh := fun i hi f => by
  obtain ⟨haddr, hlength, hcso, hcmd, hstatus, hcss, hspecial⟩ := h.txDesc i hi
  cases f with
  | addr => exact haddr
  | length => exact hlength
  | cso => exact hcso
  | cmd => exact hcmd
  | status => exact hstatus
  | css => exact hcss
  | special => exact hspecial

theorem Launch.rxFresh (h : Launch s) : s.RxFresh := fun i hi f => by
  obtain ⟨haddr, hlength, hchecksum, hstatus, herrors, hspecial⟩ := h.rxDesc i hi
  cases f with
  | addr => exact haddr
  | length => exact hlength
  | checksum => exact hchecksum
  | status => exact hstatus
  | errors => exact herrors
  | special => exact hspecial

/-- The word ATTACH leaves in a register it writes, EERD aside (R186, R189). -/
def attachWord (c : Config) : Reg → Option Word
  | .ctrl | .status | .eerd => none
  | .tdbal => some (baseLow c.txDescBase)
  | .tdbah => some (baseHigh c.txDescBase)
  | .tdlen => some (ringLength c c.nTx)
  | .rdbal => some (baseLow c.rxDescBase)
  | .rdbah => some (baseHigh c.rxDescBase)
  | .rdlen => some (ringLength c c.nRx)
  | .tdh | .tdt | .rdh => some 0
  | .rdt => some (indexWord (c.nRx - 1))
  | .tctl => some (tctlAttachWord c)
  | .tipg => some c.tipgValue
  | .rctl => some (rctlAttachWord c)
  | .ral => some (ralWord c.layout (c.eeprom[c.macWord0.toNat]'c.macWord0.isLt)
      (c.eeprom[c.macWord1.toNat]'c.macWord1.isLt))
  | .rah => some (rahWord c.layout (c.eeprom[c.macWord2.toNat]'c.macWord2.isLt))

/-- What ATTACH leaves in a register is what AttachedRegs asks of it. -/
theorem attachedValue_of_attachWord {c : Config} (hw : c.WF) {r : Reg} {w : Word} (h : attachWord c r = some w) :
    AttachedValue c r w := by
  have hlast := lastSlot_toNat hw.nRx_le
  have hpos := hw.nRx_pos
  cases r <;> cases h
  case tctl => exact txEnBit_tctlAttachWord hw.fields
  case rctl => exact rxEnBit_rctlAttachWord hw.fields
  case tdh | tdt => exact hw.nTx_pos
  case rdh => exact hpos
  case rdt => exact hlast.trans_lt (by omega)
  case tipg => trivial
  all_goals rfl

/-- With every register as ATTACH leaves it, but the receive head anywhere in its ring, AttachedRegs holds. -/
theorem AttachedRegs.of_attachWord (hw : s.cfg.WF) (ha : s.attached = true)
    (hr : ∀ r w, r ≠ .rdh → attachWord s.cfg r = some w → s.reg r = w) (hh : s.rdh < s.cfg.nRx)
    (ht : s.txTail = 0) (hrt : s.rxTail = s.cfg.nRx - 1) : AttachedRegs s := by
  have htx := hw.nTx_pos
  have hrx := hw.nRx_pos
  refine attachedRegs_iff.2 ⟨ha, fun r => ?_, by omega, by omega⟩
  by_cases hrdh : r = .rdh
  · exact hrdh ▸ hh
  cases hword : attachWord s.cfg r with
  | some w => exact hr r w hrdh hword ▸ attachedValue_of_attachWord hw hword
  | none => cases r <;> trivial

theorem Launch.reg_eq (h : Launch s) {r : Reg} {w : Word} (hword : attachWord s.cfg r = some w) : s.reg r = w := by
  cases r <;> cases hword
  case tdbal => exact h.tdbal
  case tdbah => exact h.tdbah
  case tdlen => exact h.tdlen
  case rdbal => exact h.rdbal
  case rdbah => exact h.rdbah
  case rdlen => exact h.rdlen
  case tdh => exact h.tdh
  case tdt => exact h.tdt
  case rdh => exact h.rdh
  case rdt => exact h.rdt
  case tctl => exact h.tctl
  case tipg => exact h.tipg
  case rctl => exact h.rctl
  case ral => exact h.ral
  case rah => exact h.rah

theorem Launch.attachedRegs (hw : s.cfg.WF) (h : Launch s) : AttachedRegs s :=
  .of_attachWord hw h.attached (fun _ _ _ => h.reg_eq) (by rw [State.rdh, h.rdh]; exact hw.nRx_pos) h.txTail h.rxTail

theorem Launch.eepromRead (h : Launch s) : EepromRead s where
  pending a ha := by rw [h.eePending] at ha; cases ha
  data _ := by rw [h.eerdData, h.eerdAddr]

theorem Launch.rxRing (hw : s.cfg.WF) (h : Launch s) : RxRing s 0 :=
  (Deposited.of_fresh h.rxFresh h.rdh h.rdlen).rxRing hw h.rxTail (by
    rw [State.rdt, h.rdt, lastSlot_toNat hw.nRx_le, h.rxTail])

/-- The station address of the launch state, low byte of each word first (R183, R184). -/
theorem Launch.stationAddr (hw : s.cfg.WF) (h : Launch s) : s.stationAddr =
    [(s.eepromWord s.cfg.macWord0).extractLsb' 0 8, (s.eepromWord s.cfg.macWord0).extractLsb' 8 8,
     (s.eepromWord s.cfg.macWord1).extractLsb' 0 8, (s.eepromWord s.cfg.macWord1).extractLsb' 8 8,
     (s.eepromWord s.cfg.macWord2).extractLsb' 0 8, (s.eepromWord s.cfg.macWord2).extractLsb' 8 8] := by
  obtain ⟨h0, h1, h2, h3⟩ :=
    ralWord_bytes hw.fields (s.eepromWord s.cfg.macWord0) (s.eepromWord s.cfg.macWord1)
  obtain ⟨h4, h5⟩ := rahWord_bytes hw.fields (s.eepromWord s.cfg.macWord2)
  simp only [State.stationAddr, h.ral, h.rah, h0, h1, h2, h3, h4, h5]

end

/-- Settles O34, invariant by invariant. -/
theorem launchSatisfiesTheInvariants : Obligations.LaunchSatisfiesTheInvariants := fun _ hw h =>
  ⟨.of_fresh hw h.txFresh h.txPending h.txTail h.tdh h.tdt h.tdlen, h.rxRing hw, h.attachedRegs hw, h.eepromRead,
    h.stationAddr hw, h.rah ▸ avBit_rahWord hw.fields _⟩

end Sys2Proof.Machine

/-! ### ATTACH, steps 2 and 3: the rings are zeroed and bound (R186) -/

namespace Sys2Proof.Machine

/-- The `n` bytes from `a` on are 0. -/
def Mem.Zero (m : List Host.Cell) (a n : Nat) : Prop := ∀ k < n, Mem.get m (a + k) = 0

theorem Mem.Zero.sub {m : List Host.Cell} {a n : Nat} (h : Mem.Zero m a n) {o k : Nat} (hk : o + k ≤ n) :
    Mem.Zero m (a + o) k := fun j hj => by
  rw [Nat.add_assoc]
  exact h (o + j) (by omega)

/-- Zero filling takes no zero away. -/
theorem Mem.Zero.zeroFill {m : List Host.Cell} {a n : Nat} (h : Mem.Zero m a n) (b l : Nat) :
    Mem.Zero (Mem.zeroFill m b l) a n := fun k hk => by
  rw [Mem.get_zeroFill]
  split
  · rfl
  · exact h k hk

theorem Mem.zero_zeroFill (m : List Host.Cell) {a n : Nat} (h : a + n ≤ addrSpace) :
    Mem.Zero (Mem.zeroFill m a n) a n := fun k hk => by
  have hlt : a + k < addrSpace := by omega
  rw [Mem.get_zeroFill, Nat.mod_eq_of_lt hlt, if_pos ((Mem.inRange_iff h hlt).2 (by omega))]

theorem Mem.readBytes_eq_replicate_iff {m : List Host.Cell} {a n : Nat} :
    Mem.readBytes m a n = List.replicate n 0 ↔ Mem.Zero m a n := by
  constructor
  · intro h k hk
    rw [← Mem.readBytes_getElem m a n k (by simpa using hk)]
    simp [h]
  · intro h
    refine List.ext_getElem (by simp) fun k hk _ => ?_
    rw [Mem.readBytes_getElem, List.getElem_replicate]
    exact h k (by simpa using hk)

theorem leValue_replicate_zero (n : Nat) : leValue (List.replicate n 0) = 0 := by
  induction n with
  | zero => rfl
  | succ n ih => rw [List.replicate_succ, leValue, ih]; rfl

theorem Mem.Zero.read {m : List Host.Cell} {a n : Nat} (h : Mem.Zero m a n) : Mem.read m a n = 0 := by
  rw [Mem.read, Mem.readBytes_eq_replicate_iff.2 h, leValue_replicate_zero]

/-- Nothing keeps ATTACH from its stores: it has neither succeeded nor failed, both engines are disabled and no slot is
fetched. -/
structure State.Quiet (s : State) : Prop where
  attached : s.attached = false
  attachFailed : s.attachFailed = false
  txEnabled : s.txEnabled = false
  rxEnabled : s.rxEnabled = false
  txPending : s.txPending = 0

section
variable {s : State} {h : Addr}

theorem State.Quiet.setMem (hs : s.Quiet) (m : List Host.Cell) : (s.setMem m).Quiet :=
  ⟨hs.attached, hs.attachFailed, hs.txEnabled, hs.rxEnabled, hs.txPending⟩

theorem State.Quiet.atStage (hs : s.Quiet) (st : AttachStage) : (s.atStage h st).Quiet :=
  ⟨hs.attached, hs.attachFailed, hs.txEnabled, hs.rxEnabled, hs.txPending⟩

theorem State.Quiet.attaching (hs : s.Quiet) (st : AttachStage) : (s.atStage h st).Attaching h st :=
  ⟨hs.attached, hs.attachFailed, rfl⟩

theorem State.Quiet.attachTx (hs : s.Quiet) {i : Nat} (hi : i < s.cfg.nTx) (t : State) : attachTx s i t = .ok t := by
  simp [Machine.attachTx, State.txFetched, hs.txEnabled, hs.txPending, Nat.not_le_of_lt hi]

theorem State.Quiet.attachRx (hs : s.Quiet) {i : Nat} (hi : i < s.cfg.nRx) (t : State) : attachRx s i t = .ok t := by
  simp [Machine.attachRx, hs.rxEnabled, Nat.not_le_of_lt hi]

/-- An access of ATTACH that stores into a slot of the transmit ring. -/
theorem State.Quiet.exec_storeTx (hs : s.Quiet) {st next : AttachStage} {i : Nat} (hi : i < s.cfg.nTx) {t : State}
    (hst : attachStep h st (s.atStage h st) =
      (Machine.attachTx (s.atStage h st) i t).map (·.atStage h next)) :
    exec (.attach h) (s.atStage h st) = .next (t.atStage h next) :=
  (hs.attaching st).exec_ok (by rw [hst, (hs.atStage st).attachTx (by exact hi)]; rfl)

theorem State.Quiet.exec_storeRx (hs : s.Quiet) {st next : AttachStage} {i : Nat} (hi : i < s.cfg.nRx) {t : State}
    (hst : attachStep h st (s.atStage h st) =
      (Machine.attachRx (s.atStage h st) i t).map (·.atStage h next)) :
    exec (.attach h) (s.atStage h st) = .next (t.atStage h next) :=
  (hs.attaching st).exec_ok (by rw [hst, (hs.atStage st).attachRx (by exact hi)]; rfl)

/-- Memory with a slot's descriptor at `d` and its buffer `q` zeroed. -/
def State.zeroSlot (s : State) (d : Nat) (q : Region) : List Host.Cell :=
  Mem.zeroFill (Mem.zeroFill s.mem d s.cfg.descSize) q.1 q.2

/-- Slot `i` bound to its buffer, its completion flag set (R186, step 3). -/
def State.bindTx (s : State) (i : Nat) : State :=
  (s.setTxd i .addr (s.cfg.txBufBase i).toNat).setTxd i .status (bitByte s.cfg.layout.txDone).toNat

/-- Slot `i` bound to its buffer (R186, step 3). -/
def State.bindRx (s : State) (i : Nat) : State := s.setRxd i .addr (s.cfg.rxBufBase i).toNat

theorem runOps_zeroTxSlot (hs : s.Quiet) {i : Nat} (hi : i < s.cfg.nTx) :
    runOps (List.replicate 2 (.attach h)) (s.atStage h (zeroTxFrom s.cfg i)) =
      some ((s.setMem (s.zeroSlot (txdAt s.cfg i) (s.cfg.txBufRegion i))).atStage h (zeroTxFrom s.cfg (i + 1))) := by
  have hfrom : zeroTxFrom s.cfg i = .zeroTxDesc i := if_pos hi
  rw [hfrom]
  have h1 := hs.exec_storeTx (h := h) (st := .zeroTxDesc i) hi rfl
  have h2 := (hs.setMem (Mem.zeroFill s.mem (txdAt s.cfg i) s.cfg.descSize)).exec_storeTx (h := h)
    (st := .zeroTxBuf i) hi rfl
  exact (runOps_cons_next h1).trans (runOps_cons_next h2)

theorem runOps_zeroRxSlot (hs : s.Quiet) {i : Nat} (hi : i < s.cfg.nRx) :
    runOps (List.replicate 2 (.attach h)) (s.atStage h (zeroRxFrom s.cfg i)) =
      some ((s.setMem (s.zeroSlot (rxdAt s.cfg i) (s.cfg.rxBufRegion i))).atStage h (zeroRxFrom s.cfg (i + 1))) := by
  have hfrom : zeroRxFrom s.cfg i = .zeroRxDesc i := if_pos hi
  rw [hfrom]
  have h1 := hs.exec_storeRx (h := h) (st := .zeroRxDesc i) hi rfl
  have h2 := (hs.setMem (Mem.zeroFill s.mem (rxdAt s.cfg i) s.cfg.descSize)).exec_storeRx (h := h)
    (st := .zeroRxBuf i) hi rfl
  exact (runOps_cons_next h1).trans (runOps_cons_next h2)

theorem runOps_bindTxSlot (hs : s.Quiet) {i : Nat} (hi : i < s.cfg.nTx) :
    runOps (List.replicate 2 (.attach h)) (s.atStage h (bindTxFrom s.cfg i)) =
      some ((s.setMem (s.bindTx i).mem).atStage h (bindTxFrom s.cfg (i + 1))) := by
  have hfrom : bindTxFrom s.cfg i = .bindTxAddr i := if_pos hi
  rw [hfrom]
  have h1 := hs.exec_storeTx (h := h) (st := .bindTxAddr i) hi rfl
  have h2 := (hs.setMem (s.setTxd i .addr (s.cfg.txBufBase i).toNat).mem).exec_storeTx (h := h)
    (st := .bindTxStatus i) hi rfl
  exact (runOps_cons_next h1).trans (runOps_cons_next h2)

theorem runOps_bindRxSlot (hs : s.Quiet) {i : Nat} (hi : i < s.cfg.nRx) :
    runOps (List.replicate 1 (.attach h)) (s.atStage h (bindRxFrom s.cfg i)) =
      some ((s.setMem (s.bindRx i).mem).atStage h (bindRxFrom s.cfg (i + 1))) := by
  have hfrom : bindRxFrom s.cfg i = .bindRx i := if_pos hi
  rw [hfrom]
  have h1 := hs.exec_storeRx (h := h) (st := .bindRx i) hi rfl
  exact runOps_cons_next h1

/-- A loop of ATTACH over `n` slots, `w` accesses each, that keeps `P`. -/
theorem runOps_slots {w n : Nat} {loop : Nat → AttachStage} {P : Nat → State → Prop} (hs : s.Quiet)
    (hstep : ∀ i < n, ∀ u : State, u.Quiet → u.cfg = s.cfg → P i u → ∃ m,
      runOps (List.replicate w (.attach h)) (u.atStage h (loop i)) = some ((u.setMem m).atStage h (loop (i + 1))) ∧
      P (i + 1) (u.setMem m)) (h0 : P 0 s) :
    ∃ m, runOps (List.replicate (w * n) (.attach h)) (s.atStage h (loop 0)) = some ((s.setMem m).atStage h (loop n)) ∧
      P n (s.setMem m) := by
  induction n with
  | zero => exact ⟨s.mem, rfl, h0⟩
  | succ n ih =>
    obtain ⟨m, hrun, hm⟩ := ih fun i hi => hstep i (Nat.lt_succ_of_lt hi)
    obtain ⟨m', hrun', hm'⟩ := hstep n (Nat.lt_succ_self n) (s.setMem m) (hs.setMem m) rfl hm
    refine ⟨m', ?_, hm'⟩
    rw [Nat.mul_succ, List.replicate_add, runOps_append_some _ hrun]
    exact hrun'

/-- The first `i` slots of the transmit ring are zeroed. -/
def State.TxZeroed (s : State) (i : Nat) : Prop :=
  ∀ n < i, Mem.Zero s.mem (txdAt s.cfg n) s.cfg.descSize ∧ Mem.Zero s.mem (s.cfg.txBufBase n).toNat s.cfg.txBufSize

/-- The first `i` slots of the receive ring are zeroed. -/
def State.RxZeroed (s : State) (i : Nat) : Prop :=
  ∀ n < i, Mem.Zero s.mem (rxdAt s.cfg n) s.cfg.descSize ∧ Mem.Zero s.mem (s.cfg.rxBufBase n).toNat s.cfg.rxBufSize

theorem Mem.Zero.zeroSlot {a n : Nat} (hz : Mem.Zero s.mem a n) (d : Nat) (q : Region) :
    Mem.Zero (s.zeroSlot d q) a n := (hz.zeroFill _ _).zeroFill _ _

theorem zero_zeroSlot {d : Nat} {q : Region} (hd : d + s.cfg.descSize ≤ addrSpace) (hq : q.1 + q.2 ≤ addrSpace) :
    Mem.Zero (s.zeroSlot d q) d s.cfg.descSize ∧ Mem.Zero (s.zeroSlot d q) q.1 q.2 :=
  ⟨(Mem.zero_zeroFill _ hd).zeroFill _ _, Mem.zero_zeroFill _ hq⟩

theorem State.TxZeroed.zeroSlot {i : Nat} (hz : s.TxZeroed i) (d : Nat) (q : Region) :
    (s.setMem (s.zeroSlot d q)).TxZeroed i := fun n hn => ⟨(hz n hn).1.zeroSlot d q, (hz n hn).2.zeroSlot d q⟩

theorem State.RxZeroed.zeroSlot {i : Nat} (hz : s.RxZeroed i) (d : Nat) (q : Region) :
    (s.setMem (s.zeroSlot d q)).RxZeroed i := fun n hn => ⟨(hz n hn).1.zeroSlot d q, (hz n hn).2.zeroSlot d q⟩

theorem State.TxZeroed.succ (hw : s.cfg.WF) {i : Nat} (hi : i < s.cfg.nTx) (hz : s.TxZeroed i) :
    (s.setMem (s.zeroSlot (txdAt s.cfg i) (s.cfg.txBufRegion i))).TxZeroed (i + 1) := by
  have hslot := Config.slot_end (d := s.cfg.descSize) hi
  have hend := hw.txDesc_end
  intro n hn
  rcases Nat.lt_succ_iff_lt_or_eq.1 hn with hn | rfl
  · exact hz.zeroSlot _ _ n hn
  · exact zero_zeroSlot (by rw [txdAt]; omega) (hw.txBuf_end hi)

theorem State.RxZeroed.succ (hw : s.cfg.WF) {i : Nat} (hi : i < s.cfg.nRx) (hz : s.RxZeroed i) :
    (s.setMem (s.zeroSlot (rxdAt s.cfg i) (s.cfg.rxBufRegion i))).RxZeroed (i + 1) := by
  have hslot := Config.slot_end (d := s.cfg.descSize) hi
  have hend := hw.rxDesc_end
  intro n hn
  rcases Nat.lt_succ_iff_lt_or_eq.1 hn with hn | rfl
  · exact hz.zeroSlot _ _ n hn
  · exact zero_zeroSlot (by rw [rxdAt]; omega) (hw.rxBuf_end hi)

/-- The first `i` transmit and `j` receive descriptors are as ATTACH leaves them, the others and every buffer 0. -/
structure RingsBound (s : State) (i j : Nat) : Prop where
  tx : ∀ n < s.cfg.nTx, ∀ f, s.txd n f = if n < i then f.fresh s.cfg n else 0
  rx : ∀ n < s.cfg.nRx, ∀ f, s.rxd n f = if n < j then f.fresh s.cfg n else 0
  txBuf : ∀ n < s.cfg.nTx, Mem.readBytes s.mem (s.cfg.txBufBase n).toNat s.cfg.txBufSize =
    List.replicate s.cfg.txBufSize 0
  rxBuf : ∀ n < s.cfg.nRx, Mem.readBytes s.mem (s.cfg.rxBufBase n).toNat s.cfg.rxBufSize =
    List.replicate s.cfg.rxBufSize 0

theorem RingsBound.of_zeroed (hw : s.cfg.WF) (htx : s.TxZeroed s.cfg.nTx) (hrx : s.RxZeroed s.cfg.nRx) :
    RingsBound s 0 0 where
  tx n hn f := ((htx n hn).1.sub (f.width_le.trans hw.descSize_le)).read
  rx n hn f := ((hrx n hn).1.sub (f.width_le.trans hw.descSize_le)).read
  txBuf n hn := Mem.readBytes_eq_replicate_iff.2 (htx n hn).2
  rxBuf n hn := Mem.readBytes_eq_replicate_iff.2 (hrx n hn).2

theorem State.txd_bindTx_other (hw : s.cfg.WF) {i n : Nat} (hi : i < s.cfg.nTx) (hn : n < s.cfg.nTx) {f : TxField}
    (h : i ≠ n ∨ (TxField.addr ≠ f ∧ TxField.status ≠ f)) : (s.bindTx i).txd n f = s.txd n f := by
  have hei := State.txdBase_end hw hi
  have hen := State.txdBase_end hw hn
  have h1 := State.txd_setTxd_other (s := s) (s.cfg.txBufBase i).toNat (h.imp_right And.left) hw.descSize_le hei hen
  have h2 := State.txd_setTxd_other (s := s.setTxd i .addr (s.cfg.txBufBase i).toNat)
    (bitByte s.cfg.layout.txDone).toNat (h.imp_right And.right) hw.descSize_le hei hen
  exact h2.trans h1

theorem State.txd_bindTx_same (hw : s.cfg.WF) {i : Nat} (hi : i < s.cfg.nTx) (hz : ∀ f, s.txd i f = 0)
    (f : TxField) : (s.bindTx i).txd i f = f.fresh s.cfg i := by
  have he := State.txdBase_end hw hi
  cases f
  case addr =>
    have h1 := State.txd_setTxd_same s i .addr (s.cfg.txBufBase i).toNat
    have h2 := State.txd_setTxd_other (s := s.setTxd i .addr (s.cfg.txBufBase i).toNat) (f := .status) (g := .addr)
      (bitByte s.cfg.layout.txDone).toNat (.inr (by decide)) hw.descSize_le he he
    exact (h2.trans h1).trans (Nat.mod_eq_of_lt (s.txBuf_addr_lt i))
  case status =>
    rw [State.bindTx, State.txd_setTxd_same]
    exact Nat.mod_eq_of_lt (bitByte s.cfg.layout.txDone).isLt
  all_goals
    rw [State.txd_bindTx_other hw hi hi (.inr (by decide)), hz]
    rfl

theorem State.rxd_bindRx_same (hw : s.cfg.WF) {i : Nat} (hi : i < s.cfg.nRx) (hz : ∀ f, s.rxd i f = 0)
    (f : RxField) : (s.bindRx i).rxd i f = f.fresh s.cfg i := by
  have he := State.rxdBase_end hw hi
  cases f
  case addr =>
    rw [State.bindRx, State.rxd_setRxd_same]
    exact Nat.mod_eq_of_lt (s.cfg.rxBufBase i).isLt
  all_goals
    rw [State.bindRx, State.rxd_setRxd_other _ (.inr (by decide)) hw.descSize_le he he, hz]
    rfl

theorem RingsBound.bindTx (hw : s.cfg.WF) {i j : Nat} (hi : i < s.cfg.nTx) (hb : RingsBound s i j) :
    RingsBound (s.bindTx i) (i + 1) j where
  tx n hn f := by
    by_cases hne : i = n
    · subst hne
      rw [if_pos (Nat.lt_succ_self i)]
      exact State.txd_bindTx_same hw hi (fun g => (hb.tx i hi g).trans (if_neg (Nat.lt_irrefl i))) f
    · have hiff : n < i + 1 ↔ n < i := by omega
      rw [State.txd_bindTx_other hw hi hn (.inl hne), hb.tx n hn f]
      simp only [hiff]
      rfl
  rx n hn f := by
    have h1 := State.setTxd_rxd hw hi hn .addr f (s.cfg.txBufBase i).toNat
    have h2 := State.setTxd_rxd (s := s.setTxd i .addr (s.cfg.txBufBase i).toNat) hw hi hn .status f
      (bitByte s.cfg.layout.txDone).toNat
    exact (h2.trans h1).trans (hb.rx n hn f)
  txBuf n hn := by
    have h1 := State.setTxd_txBuf hw hi hn (Nat.le_refl _) .addr (s.cfg.txBufBase i).toNat
    have h2 := State.setTxd_txBuf (s := s.setTxd i .addr (s.cfg.txBufBase i).toNat) hw hi hn (Nat.le_refl _) .status
      (bitByte s.cfg.layout.txDone).toNat
    exact (h2.trans h1).trans (hb.txBuf n hn)
  rxBuf n hn := by
    have h1 := State.setTxd_rxBuf hw hi hn (Nat.le_refl _) .addr (s.cfg.txBufBase i).toNat
    have h2 := State.setTxd_rxBuf (s := s.setTxd i .addr (s.cfg.txBufBase i).toNat) hw hi hn (Nat.le_refl _) .status
      (bitByte s.cfg.layout.txDone).toNat
    exact (h2.trans h1).trans (hb.rxBuf n hn)

theorem RingsBound.bindRx (hw : s.cfg.WF) {i j : Nat} (hj : j < s.cfg.nRx) (hb : RingsBound s i j) :
    RingsBound (s.bindRx j) i (j + 1) where
  tx n hn f := (State.setRxd_txd hw hj hn .addr f _).trans (hb.tx n hn f)
  rx n hn f := by
    by_cases hne : j = n
    · subst hne
      rw [if_pos (Nat.lt_succ_self j)]
      exact State.rxd_bindRx_same hw hj (fun g => (hb.rx j hj g).trans (if_neg (Nat.lt_irrefl j))) f
    · have hiff : n < j + 1 ↔ n < j := by omega
      rw [State.bindRx, State.rxd_setRxd_other _ (.inl hne) hw.descSize_le (State.rxdBase_end hw hj)
        (State.rxdBase_end hw hn), hb.rx n hn f]
      simp only [hiff]
      rfl
  txBuf n hn := (State.setRxd_txBuf hw hj hn (Nat.le_refl _) .addr _).trans (hb.txBuf n hn)
  rxBuf n hn := (State.setRxd_rxBuf hw hj hn (Nat.le_refl _) .addr _).trans (hb.rxBuf n hn)

theorem runOps_zeroTx (hw : s.cfg.WF) (hs : s.Quiet) : ∃ m,
    runOps (List.replicate (2 * s.cfg.nTx) (.attach h)) (s.atStage h (zeroTxFrom s.cfg 0)) =
      some ((s.setMem m).atStage h (zeroRxFrom s.cfg 0)) ∧ (s.setMem m).TxZeroed s.cfg.nTx := by
  have hend : zeroTxFrom s.cfg s.cfg.nTx = zeroRxFrom s.cfg 0 := if_neg (Nat.lt_irrefl _)
  rw [← hend]
  refine runOps_slots (P := fun i u => u.TxZeroed i) hs (fun i hi u hu hc hz => ?_)
    fun n hn => absurd hn (Nat.not_lt_zero n)
  rw [← hc] at hi hw ⊢
  exact ⟨_, runOps_zeroTxSlot hu hi, hz.succ hw hi⟩

theorem runOps_zeroRx (hw : s.cfg.WF) (hs : s.Quiet) (htx : s.TxZeroed s.cfg.nTx) : ∃ m,
    runOps (List.replicate (2 * s.cfg.nRx) (.attach h)) (s.atStage h (zeroRxFrom s.cfg 0)) =
      some ((s.setMem m).atStage h (bindTxFrom s.cfg 0)) ∧ RingsBound (s.setMem m) 0 0 := by
  have hend : zeroRxFrom s.cfg s.cfg.nRx = bindTxFrom s.cfg 0 := if_neg (Nat.lt_irrefl _)
  rw [← hend]
  obtain ⟨m, hrun, hz, hrx⟩ := runOps_slots (n := s.cfg.nRx) (h := h) (loop := zeroRxFrom s.cfg)
    (P := fun i u => u.TxZeroed u.cfg.nTx ∧ u.RxZeroed i) hs (fun i hi u hu hc hz => by
      rw [← hc] at hi hw ⊢
      exact ⟨_, runOps_zeroRxSlot hu hi, hz.1.zeroSlot _ _, hz.2.succ hw hi⟩)
    ⟨htx, fun n hn => absurd hn (Nat.not_lt_zero n)⟩
  exact ⟨m, hrun, .of_zeroed hw hz hrx⟩

theorem runOps_bindTx (hw : s.cfg.WF) (hs : s.Quiet) (hb : RingsBound s 0 0) : ∃ m,
    runOps (List.replicate (2 * s.cfg.nTx) (.attach h)) (s.atStage h (bindTxFrom s.cfg 0)) =
      some ((s.setMem m).atStage h (bindRxFrom s.cfg 0)) ∧ RingsBound (s.setMem m) s.cfg.nTx 0 := by
  have hend : bindTxFrom s.cfg s.cfg.nTx = bindRxFrom s.cfg 0 := if_neg (Nat.lt_irrefl _)
  rw [← hend]
  refine runOps_slots (P := fun i u => RingsBound u i 0) hs (fun i hi u hu hc hb => ?_) hb
  rw [← hc] at hi hw ⊢
  exact ⟨_, runOps_bindTxSlot hu hi, hb.bindTx hw hi⟩

theorem runOps_bindRx (hw : s.cfg.WF) (hs : s.Quiet) (hb : RingsBound s s.cfg.nTx 0) : ∃ m,
    runOps (List.replicate (1 * s.cfg.nRx) (.attach h)) (s.atStage h (bindRxFrom s.cfg 0)) =
      some ((s.setMem m).atStage h .wrTdbal) ∧ RingsBound (s.setMem m) s.cfg.nTx s.cfg.nRx := by
  have hend : bindRxFrom s.cfg s.cfg.nRx = .wrTdbal := if_neg (Nat.lt_irrefl _)
  rw [← hend]
  refine runOps_slots (P := fun i u => RingsBound u s.cfg.nTx i) hs (fun i hi u hu hc hb => ?_) hb
  rw [← hc] at hi hw hb ⊢
  exact ⟨_, runOps_bindRxSlot hu hi, hb.bindRx hw hi⟩

/-- Steps 2 and 3 of ATTACH: every descriptor bound, every buffer 0, whatever memory held. -/
theorem runOps_storeRings (hw : s.cfg.WF) (hs : s.Quiet) : ∃ m,
    runOps (List.replicate (4 * s.cfg.nTx + 3 * s.cfg.nRx) (.attach h)) (s.atStage h (zeroTxFrom s.cfg 0)) =
      some ((s.setMem m).atStage h .wrTdbal) ∧ RingsBound (s.setMem m) s.cfg.nTx s.cfg.nRx := by
  have hsum : 4 * s.cfg.nTx + 3 * s.cfg.nRx =
      2 * s.cfg.nTx + (2 * s.cfg.nRx + (2 * s.cfg.nTx + 1 * s.cfg.nRx)) := by omega
  obtain ⟨m1, hrun1, hz⟩ := runOps_zeroTx (h := h) hw hs
  obtain ⟨m2, hrun2, hb2⟩ := runOps_zeroRx (s := s.setMem m1) (h := h) hw (hs.setMem m1) hz
  obtain ⟨m3, hrun3, hb3⟩ := runOps_bindTx (s := s.setMem m2) (h := h) hw (hs.setMem m2) hb2
  obtain ⟨m4, hrun4, hb4⟩ := runOps_bindRx (s := s.setMem m3) (h := h) hw (hs.setMem m3) hb3
  refine ⟨m4, ?_, hb4⟩
  rw [hsum, List.replicate_add, List.replicate_add, List.replicate_add]
  exact (runOps_append_some _ hrun1).trans <| (runOps_append_some _ hrun2).trans <|
    (runOps_append_some _ hrun3).trans hrun4

end

end Sys2Proof.Machine

/-! ### ATTACH, steps 4 to 8: registers, station address, enables; and the whole run (R186, R189, R192) -/

namespace Sys2Proof.Machine

/-- ATTACH has written its words to the registers of `rs`, the last one first (R186). -/
def State.wrote (s : State) (rs : List Reg) : State :=
  { s with regs := rs.foldr (fun r g => g.set r ((attachWord s.cfg r).getD 0)) s.regs }

/-- RDT as step 9 of ATTACH publishes it (R186, R187 c). -/
def State.published (s : State) : State :=
  { s.setReg .rdt (indexWord (s.cfg.nRx - 1)) with rxTail := s.cfg.nRx - 1 }

section
variable {s : State} {h : Addr}

theorem State.wrote_cons {r : Reg} {w : Word} (hw : attachWord s.cfg r = some w) (rs : List Reg) :
    s.wrote (r :: rs) = (s.wrote rs).setReg r w := by
  rw [State.wrote, List.foldr_cons, hw]
  rfl

theorem State.reg_wrote_of_not_mem {r : Reg} {rs : List Reg} (hr : r ∉ rs) : (s.wrote rs).reg r = s.reg r := by
  induction rs with
  | nil => rfl
  | cons q rs ih =>
    obtain ⟨hne, hr⟩ := List.ne_and_not_mem_of_not_mem_cons hr
    exact (RegFile.get_set_ne _ _ hne).trans (ih hr)

theorem State.reg_wrote_of_mem {r : Reg} {w : Word} {rs : List Reg} (hr : r ∈ rs) (hw : attachWord s.cfg r = some w) :
    (s.wrote rs).reg r = w := by
  induction rs with
  | nil => cases hr
  | cons q rs ih =>
    by_cases hq : r = q
    · subst hq
      rw [State.wrote_cons hw, State.reg_setReg_same]
    · exact (RegFile.get_set_ne _ _ hq).trans (ih ((List.mem_cons.1 hr).resolve_left hq))

theorem State.Quiet.wrote (hs : s.Quiet) {rs : List Reg} (htx : .tctl ∉ rs) (hrx : .rctl ∉ rs) :
    (s.wrote rs).Quiet where
  attached := hs.attached
  attachFailed := hs.attachFailed
  txEnabled := by
    rw [State.txEnabled, State.reg_wrote_of_not_mem htx]
    exact hs.txEnabled
  rxEnabled := by
    rw [State.rxEnabled, State.reg_wrote_of_not_mem hrx]
    exact hs.rxEnabled
  txPending := hs.txPending

/-- An access of ATTACH that is accepted leads to the stage after it. -/
theorem State.Attaching.exec_go {st next : AttachStage} {e : Except Refuse State} {t : State} (hs : s.Attaching h st)
    (hst : attachStep h st s = e.map (·.atStage h next)) (he : e = .ok t) :
    exec (.attach h) s = .next (t.atStage h next) := hs.exec_ok (by rw [hst, he]; rfl)

/-- An access of ATTACH that writes a register and changes nothing else. -/
theorem runOps_attachWrite {st next : AttachStage} {r : Reg} {w : Word} {rs : List Reg}
    {write : Word → State → Except Refuse State} {n : Nat} (ha : s.attached = false) (hf : s.attachFailed = false)
    (hword : attachWord s.cfg r = some w)
    (hst : attachStep h st ((s.wrote rs).atStage h st) =
      (write w ((s.wrote rs).atStage h st)).map (·.atStage h next))
    (he : write w ((s.wrote rs).atStage h st) = .ok (((s.wrote rs).atStage h st).setReg r w)) :
    runOps (List.replicate (n + 1) (.attach h)) ((s.wrote rs).atStage h st) =
      runOps (List.replicate n (.attach h)) ((s.wrote (r :: rs)).atStage h next) := by
  rw [State.wrote_cons hword]
  have hgo := State.Attaching.exec_go (s := (s.wrote rs).atStage h st) ⟨ha, hf, rfl⟩ hst he
  exact runOps_cons_next hgo

theorem attachStep_wrTdt (hn : 0 < s.cfg.nTx) : attachStep h .wrTdt s =
    .ok (State.atStage { s.setReg .tdt 0 with txTail := 0 } h .wrRdbal) := by
  have hok : writeTdt 0 s = .ok (s.setReg .tdt 0) := writeTdt_iff.2 ⟨hn, rfl⟩
  rw [attachStep, hok]
  rfl

theorem attachStep_wrRdt (hw : s.cfg.WF) : attachStep h .wrRdt s = .ok (s.published.atStage h .finish) := by
  have hpos := hw.nRx_pos
  have hlast := lastSlot_toNat hw.nRx_le
  have hok : writeRdt (indexWord (s.cfg.nRx - 1)) s = .ok (s.setReg .rdt (indexWord (s.cfg.nRx - 1))) :=
    writeRdt_iff.2 ⟨by omega, rfl⟩
  rw [attachStep, hok]
  rfl

/-- The transmit ring's registers (R186, step 4). -/
theorem runOps_programTx (hw : s.cfg.WF) (hs : s.Quiet) (n : Nat) :
    runOps (List.replicate (n + 5) (.attach h)) (s.atStage h .wrTdbal) = runOps (List.replicate n (.attach h))
      ((State.wrote { s with txTail := 0 } [.tdt, .tdh, .tdlen, .tdbah, .tdbal]).atStage h .wrRdbal) := by
  have hq : ∀ {rs}, Reg.tctl ∉ rs → Reg.rctl ∉ rs → ∀ st, ((s.wrote rs).atStage h st).Quiet := fun ht hr st =>
    (hs.wrote ht hr).atStage st
  have hbal := (hq (rs := []) (by decide) (by decide) .wrTdbal).txEnabled
  have hbah := (hq (rs := [.tdbal]) (by decide) (by decide) .wrTdbah).txEnabled
  have hlen := (hq (rs := [.tdbah, .tdbal]) (by decide) (by decide) .wrTdlen).txEnabled
  have hhead := (hq (rs := [.tdlen, .tdbah, .tdbal]) (by decide) (by decide) .wrTdh).txEnabled
  calc runOps (List.replicate (n + 5) (.attach h)) (s.atStage h .wrTdbal)
    _ = runOps (List.replicate (n + 4) (.attach h)) ((s.wrote [.tdbal]).atStage h .wrTdbah) :=
      runOps_attachWrite (rs := []) (write := writeTdbal) hs.attached hs.attachFailed rfl rfl
        (writeTdbal_iff.2 ⟨⟨hbal, baseAligned_baseLow hw hw.txAligned⟩, rfl⟩)
    _ = runOps (List.replicate (n + 3) (.attach h)) ((s.wrote [.tdbah, .tdbal]).atStage h .wrTdlen) :=
      runOps_attachWrite (write := writeTdbah) hs.attached hs.attachFailed rfl rfl (writeTdbah_iff.2 ⟨hbah, rfl⟩)
    _ = runOps (List.replicate (n + 2) (.attach h)) ((s.wrote [.tdlen, .tdbah, .tdbal]).atStage h .wrTdh) :=
      runOps_attachWrite (write := writeTdlen) hs.attached hs.attachFailed rfl rfl
        (writeTdlen_iff.2 ⟨⟨hlen, rfl⟩, rfl⟩)
    _ = runOps (List.replicate (n + 1) (.attach h)) ((s.wrote [.tdh, .tdlen, .tdbah, .tdbal]).atStage h .wrTdt) :=
      runOps_attachWrite (write := writeTdh) hs.attached hs.attachFailed rfl rfl
        (writeTdh_iff.2 ⟨⟨hhead, hs.attached, rfl⟩, rfl⟩)
    _ = _ := runOps_cons_next (((hs.wrote (by decide) (by decide)).attaching .wrTdt).exec_ok
        (attachStep_wrTdt hw.nTx_pos))

/-- The receive ring's registers (R186, step 4). -/
theorem runOps_programRx (hw : s.cfg.WF) (ha : s.attached = false) (hf : s.attachFailed = false) {rs : List Reg}
    (hrx : s.rxEnabled = false) (hrs : .rctl ∉ rs) (n : Nat) :
    runOps (List.replicate (n + 4) (.attach h)) ((s.wrote rs).atStage h .wrRdbal) =
      runOps (List.replicate n (.attach h))
        ((s.wrote (.rdh :: .rdlen :: .rdbah :: .rdbal :: rs)).atStage h .wrTctl) := by
  have hen : ∀ {qs : List Reg}, .rctl ∉ qs → ∀ st, ((s.wrote (qs ++ rs)).atStage h st).rxEnabled = false :=
    fun hq st => (congrArg (rxEnBit s.cfg.layout) (State.reg_wrote_of_not_mem (by simp [hq, hrs]))).trans hrx
  have hbal := hen (qs := []) (by decide) .wrRdbal
  have hbah := hen (qs := [.rdbal]) (by decide) .wrRdbah
  have hlen := hen (qs := [.rdbah, .rdbal]) (by decide) .wrRdlen
  have hhead := hen (qs := [.rdlen, .rdbah, .rdbal]) (by decide) .wrRdh
  calc runOps (List.replicate (n + 4) (.attach h)) ((s.wrote rs).atStage h .wrRdbal)
    _ = runOps (List.replicate (n + 3) (.attach h)) ((s.wrote (.rdbal :: rs)).atStage h .wrRdbah) :=
      runOps_attachWrite (write := writeRdbal) ha hf rfl rfl
        (writeRdbal_iff.2 ⟨⟨hbal, baseAligned_baseLow hw hw.rxAligned⟩, rfl⟩)
    _ = runOps (List.replicate (n + 2) (.attach h)) ((s.wrote (.rdbah :: .rdbal :: rs)).atStage h .wrRdlen) :=
      runOps_attachWrite (write := writeRdbah) ha hf rfl rfl (writeRdbah_iff.2 ⟨hbah, rfl⟩)
    _ = runOps (List.replicate (n + 1) (.attach h)) ((s.wrote (.rdlen :: .rdbah :: .rdbal :: rs)).atStage h .wrRdh) :=
      runOps_attachWrite (write := writeRdlen) ha hf rfl rfl (writeRdlen_iff.2 ⟨⟨hlen, rfl⟩, rfl⟩)
    _ = _ := runOps_attachWrite (write := writeRdh) ha hf rfl rfl (writeRdh_iff.2 ⟨⟨hhead, ha, rfl⟩, rfl⟩)

/-- With the transmit ring's registers written TCTL may enable the engine (R145). -/
theorem State.txProgrammed_wrote (hw : s.cfg.WF) {rs : List Reg}
    (hrs : ∀ r ∈ [Reg.tdbal, .tdbah, .tdlen, .tdh, .tdt], r ∈ rs) : (s.wrote rs).txProgrammed = true := by
  have hreg : ∀ {r w}, r ∈ [Reg.tdbal, .tdbah, .tdlen, .tdh, .tdt] → attachWord s.cfg r = some w →
    (s.wrote rs).reg r = w := fun hr => State.reg_wrote_of_mem (hrs _ hr)
  have htdh : (s.wrote rs).tdh = 0 := congrArg BitVec.toNat (hreg (r := .tdh) (by decide) rfl)
  have htdt : (s.wrote rs).tdt = 0 := congrArg BitVec.toNat (hreg (r := .tdt) (by decide) rfl)
  exact State.txProgrammed_iff.2 ⟨hreg (by decide) rfl, hreg (by decide) rfl, hreg (by decide) rfl,
    htdh ▸ hw.nTx_pos, htdt ▸ hw.nTx_pos⟩

/-- TCTL and TIPG (R186, steps 5 and 6). -/
theorem runOps_enableTx (hw : s.cfg.WF) (ha : s.attached = false) (hf : s.attachFailed = false) {rs : List Reg}
    (hrs : ∀ r ∈ [Reg.tdbal, .tdbah, .tdlen, .tdh, .tdt], r ∈ rs) :
    runOps (List.replicate 2 (.attach h)) ((s.wrote rs).atStage h .wrTctl) =
      some ((s.wrote (.tipg :: .tctl :: rs)).atStage h .start0) := by
  have hen := txEnBit_tctlAttachWord hw.fields
  calc runOps (List.replicate 2 (.attach h)) ((s.wrote rs).atStage h .wrTctl)
    _ = runOps (List.replicate 1 (.attach h)) ((s.wrote (.tctl :: rs)).atStage h .wrTipg) :=
      runOps_attachWrite (write := writeTctl) ha hf rfl rfl
        (writeTctl_iff.2 ⟨⟨tctlAttachWord_reserved s.cfg, fun _ => State.txProgrammed_wrote hw hrs, fun _ => hen⟩, rfl⟩)
    _ = _ := runOps_attachWrite (write := writeTipg) (n := 0) ha hf rfl rfl
        (writeTipg_iff.2 ⟨tipgValue_reserved hw, rfl⟩)

/-- The registers ATTACH writes in its steps 4 to 6, the last one first (R186). -/
def ringRegs : List Reg :=
  [.tipg, .tctl, .rdh, .rdlen, .rdbah, .rdbal, .tdt, .tdh, .tdlen, .tdbah, .tdbal]

/-- The registers ATTACH writes in its steps 7 and 8, the last one first (R186). -/
def stationRegs : List Reg := [.rctl, .rah, .ral]

/-- Steps 4 to 6 of ATTACH. -/
theorem runOps_programRings (hw : s.cfg.WF) (hs : s.Quiet) : ∃ g : RegFile,
    runOps (List.replicate 11 (.attach h)) (s.atStage h .wrTdbal) =
      some (State.atStage { s with regs := g, txTail := 0 } h .start0) ∧
    ∀ r ∈ ringRegs, ∀ w, attachWord s.cfg r = some w → g.get r = w :=
  ⟨_, (runOps_programTx hw hs 6).trans <|
      (runOps_programRx (s := { s with txTail := 0 }) hw hs.attached hs.attachFailed hs.rxEnabled (by decide)
        2).trans <|
      runOps_enableTx (s := { s with txTail := 0 }) hw hs.attached hs.attachFailed (by decide),
    fun _ hr _ hword => State.reg_wrote_of_mem (s := { s with txTail := 0 }) hr hword⟩

/-- One of ATTACH's reads: `st` its start, `sp` its spin, `k` the stage after it. -/
theorem runOps_attachRead {st sp : AttachStage} {k : Half → AttachStage} {a : BitVec 8} (hl : s.cfg.layout.WF)
    (ha : s.attached = false) (hf : s.attachFailed = false) (hp : s.eePending = none)
    (hstart : attachStep h st (s.atStage h st) =
      (writeEerd (eerdStartWord s.cfg.layout a) (s.atStage h st)).map (·.atStage h sp))
    (hspin : ∀ u : State, attachStep h sp u = .ok (u.spin fun w t => t.atStage h (k w)))
    (hsp : sp = .spin0 ∨ (∃ w0, sp = .spin1 w0) ∨ ∃ w0 w1, sp = .spin2 w0 w1) (polls : Nat) :
    ∃ w v n, HoldsWord s.cfg a w ∧ runOps (readRound (.attach h) polls) (s.atStage h st) =
      some ((s.wordRead a w v n).atStage h (k (s.eepromWord a))) := by
  have hgo := State.Attaching.exec_go (s := s.atStage h st) ⟨ha, hf, rfl⟩ hstart
    (writeEerd_start (s := s.atStage h st) hl hp a)
  refine runOps_readRound_returns (s := s.atStage h st) (p := .attaching h sp)
    (q := .attaching h (k (s.eepromWord a))) hl hgo ⟨hf, .inr ⟨h, sp, rfl, ha, rfl, hsp⟩⟩
    (fun u huf hua hus hd hdata => ?_) polls
  have hlast := State.Attaching.exec_ok ⟨hua.trans ha, huf.trans hf, hus⟩ (hspin u)
  rw [hlast, State.spin_done hd, hdata]
  rfl

/-- The three words of the station address are read: EERD is `w`, the words are among the results. -/
def State.wordsRead (s : State) (w v : Word) (n : Nat) : State :=
  { s.setReg .eerd w with
    eePending := none, busData := v, draws := n,
    results := s.results ++ [⟨.eerdReadWord, .okWord (s.eepromWord s.cfg.macWord0)⟩,
      ⟨.eerdReadWord, .okWord (s.eepromWord s.cfg.macWord1)⟩,
      ⟨.eerdReadWord, .okWord (s.eepromWord s.cfg.macWord2)⟩] }

/-- The stage at which ATTACH writes RAL, with the words it has read. -/
def State.ralStage (s : State) : AttachStage :=
  .wrRal (s.eepromWord s.cfg.macWord0) (s.eepromWord s.cfg.macWord1) (s.eepromWord s.cfg.macWord2)

/-- The three reads of step 7, whatever number of polls each takes. -/
theorem runOps_attachReads (hl : s.cfg.layout.WF) (ha : s.attached = false) (hf : s.attachFailed = false)
    (hp : s.eePending = none) (p0 p1 p2 : Nat) : ∃ w v n, HoldsWord s.cfg s.cfg.macWord2 w ∧
    runOps (readRound (.attach h) p0 ++ (readRound (.attach h) p1 ++ readRound (.attach h) p2)) (s.atStage h .start0) =
      some ((s.wordsRead w v n).atStage h s.ralStage) := by
  obtain ⟨x0, v0, n0, -, hrun0⟩ := runOps_attachRead (s := s) (h := h) (st := .start0) hl ha hf hp rfl (fun _ => rfl)
    (.inl rfl) p0
  obtain ⟨x1, v1, n1, -, hrun1⟩ := runOps_attachRead (s := s.wordRead s.cfg.macWord0 x0 v0 n0) (h := h)
    (st := .start1 (s.eepromWord s.cfg.macWord0)) hl ha hf rfl rfl (fun _ => rfl) (.inr (.inl ⟨_, rfl⟩)) p1
  obtain ⟨x2, v2, n2, hword, hrun2⟩ := runOps_attachRead
    (s := (s.wordRead s.cfg.macWord0 x0 v0 n0).wordRead s.cfg.macWord1 x1 v1 n1) (h := h)
    (st := .start2 (s.eepromWord s.cfg.macWord0) (s.eepromWord s.cfg.macWord1)) hl ha hf rfl rfl (fun _ => rfl)
    (.inr (.inr ⟨_, _, rfl⟩)) p2
  refine ⟨x2, v2, n2, hword, ?_⟩
  rw [runOps_append_some _ hrun0]
  refine (runOps_append_some _ hrun1).trans (hrun2.trans ?_)
  simp [State.wordRead, State.wordsRead, State.setReg, State.eepromWord, RegFile.set, State.atStage, State.ralStage]

theorem attachStep_wrRal (ha : s.attached = false) (hstation : s.station = .none) :
    attachStep h s.ralStage (s.atStage h s.ralStage) = .ok
      ((State.wrote { s with station := .ral } [.ral]).atStage h (.wrRah (s.eepromWord s.cfg.macWord2))) := by
  have hok := (writeRal_iff (v := ralWord s.cfg.layout (s.eepromWord s.cfg.macWord0) (s.eepromWord s.cfg.macWord1))
    (s := s.atStage h s.ralStage)).2 ⟨⟨ha, hstation⟩, rfl⟩
  exact congrArg (Except.map _) hok

theorem attachStep_wrRah (ha : s.attached = false) : attachStep h (.wrRah (s.eepromWord s.cfg.macWord2))
    ((State.wrote { s with station := .ral } [.ral]).atStage h (.wrRah (s.eepromWord s.cfg.macWord2))) =
      .ok ((State.wrote { s with station := .both } [.rah, .ral]).atStage h .wrRctl) := by
  have hok := (writeRah_iff (v := rahWord s.cfg.layout (s.eepromWord s.cfg.macWord2))
    (s := (State.wrote { s with station := .ral } [.ral]).atStage h (.wrRah (s.eepromWord s.cfg.macWord2)))).2
    ⟨⟨rahWord_reserved s.cfg.layout _, ha, rfl⟩, rfl⟩
  exact congrArg (Except.map _) hok

/-- With the receive ring's registers and the station address written RCTL may enable the engine (R159). -/
theorem State.rxProgrammed_of_attachWord (hw : s.cfg.WF)
    (hr : ∀ r ∈ [Reg.rdbal, .rdbah, .rdlen, .rdh, .ral, .rah], ∀ w, attachWord s.cfg r = some w → s.reg r = w) :
    s.rxProgrammed = true := by
  have hrdh : s.rdh = 0 := congrArg BitVec.toNat (hr .rdh (by decide) _ rfl)
  exact State.rxProgrammed_iff.2 ⟨hr _ (by decide) _ rfl, hr _ (by decide) _ rfl, hr _ (by decide) _ rfl,
    hrdh ▸ hw.nRx_pos, hr _ (by decide) _ rfl, hr _ (by decide) _ rfl⟩

/-- Steps 7 and 8 of ATTACH from the write of RAL on. -/
theorem runOps_enableRx (hw : s.cfg.WF) (ha : s.attached = false) (hf : s.attachFailed = false)
    (hstation : s.station = .none)
    (hr : ∀ r ∈ [Reg.rdbal, .rdbah, .rdlen, .rdh], ∀ w, attachWord s.cfg r = some w → s.reg r = w) : ∃ g : RegFile,
    runOps (List.replicate 3 (.attach h)) (s.atStage h s.ralStage) =
      some (State.atStage { s with regs := g, station := .both } h .wrRdt) ∧
    (∀ r ∈ stationRegs, ∀ w, attachWord s.cfg r = some w → g.get r = w) ∧ ∀ r ∉ stationRegs, g.get r = s.reg r := by
  have hen := rxEnBit_rctlAttachWord hw.fields
  have hral := State.Attaching.exec_ok (s := s.atStage h s.ralStage) ⟨ha, hf, rfl⟩ (attachStep_wrRal ha hstation)
  have hrah := State.Attaching.exec_ok
    (s := (State.wrote { s with station := .ral } [.ral]).atStage h (.wrRah (s.eepromWord s.cfg.macWord2)))
    ⟨ha, hf, rfl⟩ (attachStep_wrRah ha)
  have hprog :
      State.rxProgrammed ((State.wrote { s with station := .both } [.rah, .ral]).atStage h .wrRctl) = true := by
    refine State.rxProgrammed_of_attachWord hw fun r hmem w hword => ?_
    by_cases hst : r ∈ [Reg.rah, .ral]
    · exact State.reg_wrote_of_mem (s := { s with station := .both }) hst hword
    · refine (State.reg_wrote_of_not_mem (s := { s with station := .both }) hst).trans (hr r ?_ w hword)
      revert hmem hst
      cases r <;> decide
  have hrctl := runOps_attachWrite (s := { s with station := .both }) (write := writeRctl) (n := 0) ha hf rfl rfl
    (writeRctl_iff.2 ⟨⟨bsize_rctlAttachWord hw.fields, rctlAttachWord_reserved s.cfg, fun _ => hprog, fun _ => hen⟩,
      rfl⟩)
  exact ⟨_, (runOps_cons_next hral).trans ((runOps_cons_next hrah).trans hrctl),
    fun _ hmem _ hword => State.reg_wrote_of_mem (s := { s with station := .both }) hmem hword,
    fun _ hmem => State.reg_wrote_of_not_mem (s := { s with station := .both }) hmem⟩

/-- `s` with what the accesses of ATTACH up to RCTL may leave in it (R186, steps 1 to 8). -/
def State.rxEnabling (s : State) (g : RegFile) (m : List Host.Cell) (v : Word) (n : Nat) : State :=
  { s with
    regs := g, mem := m, txTail := 0, eePending := none, station := .both, busData := v, draws := n,
    results := s.results ++ [⟨.eerdReadWord, .okWord (s.eepromWord s.cfg.macWord0)⟩,
      ⟨.eerdReadWord, .okWord (s.eepromWord s.cfg.macWord1)⟩,
      ⟨.eerdReadWord, .okWord (s.eepromWord s.cfg.macWord2)⟩] }

/-- Steps 2 to 8 of ATTACH are done: the registers but RDT, the answer in EERD, the rings. -/
structure Programmed (s : State) : Prop where
  regs : ∀ r ≠ .rdt, ∀ w, attachWord s.cfg r = some w → s.reg r = w
  word : HoldsWord s.cfg s.cfg.macWord2 (s.reg .eerd)
  rings : RingsBound s s.cfg.nTx s.cfg.nRx

theorem attachToEnable_eq (c : Config) (p0 p1 p2 : Nat) : attachToEnable c h p0 p1 p2 =
    .attach h :: (List.replicate (4 * c.nTx + 3 * c.nRx) (.attach h) ++ (List.replicate 11 (.attach h) ++
      ((readRound (.attach h) p0 ++ (readRound (.attach h) p1 ++ readRound (.attach h) p2)) ++
        List.replicate 3 (.attach h)))) := by
  have hcount : 13 + 4 * c.nTx + 3 * c.nRx + p0 = (4 * c.nTx + 3 * c.nRx + (11 + (1 + p0))) + 1 := by omega
  have hp : ∀ p, 2 + p = 1 + p + 1 := fun p => by omega
  simp only [attachToEnable, readRound, hcount, hp, List.replicate_succ, List.replicate_add, List.append_assoc,
    List.cons_append, List.nil_append]

/-- A register ATTACH writes before RDT is written in steps 4 to 6 or in steps 7 and 8, and is not EERD. -/
theorem mem_of_attachWord {c : Config} {r : Reg} {w : Word} (hr : r ≠ .rdt) (hw : attachWord c r = some w) :
    r ∈ stationRegs ∨ (r ∉ stationRegs ∧ r ∈ ringRegs ∧ r ≠ .eerd) := by
  have hall : r ∈ [Reg.ctrl, .status, .eerd, .rdt] ∨ r ∈ stationRegs ∨
      (r ∉ stationRegs ∧ r ∈ ringRegs ∧ r ≠ .eerd) := by cases r <;> decide
  refine hall.resolve_left fun hmem => ?_
  simp only [List.mem_cons, List.not_mem_nil, or_false] at hmem
  rcases hmem with rfl | rfl | rfl | rfl
  · cases hw
  · cases hw
  · cases hw
  · exact hr rfl

/-- ATTACH up to its step 8, from a disabled block with nothing in flight. -/
theorem runOps_attachToEnable (hw : s.cfg.WF) (hu : s.Unattached) (hm : s.collab.mapFails = false)
    (hee : s.eePending = none) (htx : s.txEnabled = false) (hrx : s.rxEnabled = false) (hp : s.txPending = 0)
    (hstation : s.station = .none) (p0 p1 p2 : Nat) : ∃ g m v n,
    runOps (attachToEnable s.cfg h p0 p1 p2) s = some ((s.rxEnabling g m v n).atStage h .wrRdt) ∧
    Programmed (s.rxEnabling g m v n) := by
  have hq : s.Quiet := ⟨hu.1, hu.2.2, htx, hrx, hp⟩
  obtain ⟨m, hrun1, hrings⟩ := runOps_storeRings (h := h) hw hq
  obtain ⟨g1, hrun2, hg1⟩ := runOps_programRings (s := s.setMem m) (h := h) hw (hq.setMem m)
  obtain ⟨w, v, n, hword, hrun3⟩ := runOps_attachReads (s := { s.setMem m with regs := g1, txTail := 0 }) (h := h)
    hw.fields hq.attached hq.attachFailed hee p0 p1 p2
  have hbase : ∀ r ≠ .eerd,
      State.reg (State.wordsRead { s.setMem m with regs := g1, txTail := 0 } w v n) r = g1.get r :=
    fun r hr => RegFile.get_set_ne _ _ hr
  obtain ⟨g2, hrun4, hg2, hkeep⟩ := runOps_enableRx
    (s := State.wordsRead { s.setMem m with regs := g1, txTail := 0 } w v n) (h := h) hw hq.attached hq.attachFailed
    hstation (fun r hmem x hx => (hbase r (by revert hmem; cases r <;> decide)).trans
      (hg1 r (by revert hmem; cases r <;> decide) x hx))
  refine ⟨g2, m, v, n, ?_, ?_⟩
  · rw [attachToEnable_eq, runOps_cons_next (exec_attach_maps hu hm h), runOps_append_some _ hrun1,
      runOps_append_some _ hrun2, runOps_append_some _ hrun3]
    exact hrun4
  · refine ⟨fun r hr x hx => ?_, ?_, ⟨hrings.tx, hrings.rx, hrings.txBuf, hrings.rxBuf⟩⟩
    · rcases mem_of_attachWord hr hx with hst | ⟨hst, hring, hne⟩
      · exact hg2 r hst x hx
      · exact (hkeep r hst).trans ((hbase r hne).trans (hg1 r hring x hx))
    · have heerd : g2.get .eerd = w := (hkeep .eerd (by decide)).trans (RegFile.get_set_same g1 .eerd w)
      exact (heerd.symm ▸ hword : HoldsWord s.cfg s.cfg.macWord2 (g2.get .eerd))

theorem exec_attach_wrRdt (hw : s.cfg.WF) (ha : s.attached = false) (hf : s.attachFailed = false) :
    exec (.attach h) (s.atStage h .wrRdt) = .next (s.published.atStage h .finish) :=
  State.Attaching.exec_ok ⟨ha, hf, rfl⟩ (attachStep_wrRdt hw)

/-- ATTACH has succeeded (R186, step 10). -/
def State.finished (s : State) : State := State.returns { s with attached := true, sw := .idle } .attach .ok

theorem exec_attach_finish (ha : s.attached = false) (hf : s.attachFailed = false) :
    exec (.attach h) (s.atStage h .finish) = .next s.finished :=
  State.Attaching.exec_ok ⟨ha, hf, rfl⟩ rfl

/-- With RDT written every register is as ATTACH leaves it. -/
theorem Programmed.published_reg (hs : Programmed s) {r : Reg} {w : Word} (hw : attachWord s.cfg r = some w) :
    s.published.reg r = w := by
  by_cases hr : r = .rdt
  · subst hr
    cases hw
    exact RegFile.get_set_same s.regs .rdt _
  · exact (State.reg_setReg_ne s _ hr).trans (hs.regs r hr w hw)

theorem RingsBound.txFresh (hb : RingsBound s s.cfg.nTx s.cfg.nRx) : s.TxFresh := fun i hi f =>
  (hb.tx i hi f).trans (if_pos hi)

theorem RingsBound.rxFresh (hb : RingsBound s s.cfg.nTx s.cfg.nRx) : s.RxFresh := fun i hi f =>
  (hb.rx i hi f).trans (if_pos hi)

/-- After steps 9 and 10 of ATTACH the launch state is reached, if nothing was in flight before (R189). -/
theorem Programmed.launch {g : RegFile} {m : List Host.Cell} {v : Word} {n : Nat}
    (hs : Programmed (s.rxEnabling g m v n)) (hp : s.txPending = 0) (hwire : s.wireOut = []) (hto : s.toStack = [])
    (hfrom : s.fromStack = []) (hib : s.ibPhase = .acquire) (hob : s.obPhase = .waiting) (hgood : s.Good) :
    Launch (s.rxEnabling g m v n).published.finished := by
  have hreg : ∀ {r w}, attachWord s.cfg r = some w → (s.rxEnabling g m v n).published.finished.reg r = w :=
    hs.published_reg
  have htx := hs.rings.txFresh
  have hrx := hs.rings.rxFresh
  obtain ⟨hdone, hdata, haddr, hstart⟩ := hs.word
  exact {
    attached := rfl
    txTail := rfl
    rxTail := rfl
    tdbal := hreg rfl
    tdbah := hreg rfl
    rdbal := hreg rfl
    rdbah := hreg rfl
    tdlen := hreg rfl
    rdlen := hreg rfl
    tdh := hreg rfl
    tdt := hreg rfl
    rdh := hreg rfl
    rdt := hreg rfl
    tctl := hreg rfl
    tipg := hreg rfl
    rctl := hreg rfl
    ral := hreg rfl
    rah := hreg rfl
    eerdAddr := haddr
    eerdData := hdata
    eerdDone := hdone
    eerdStart := hstart
    eePending := rfl
    txPending := hp
    txDesc := fun i hi => ⟨htx i hi .addr, htx i hi .length, htx i hi .cso, htx i hi .cmd, htx i hi .status,
      htx i hi .css, htx i hi .special⟩
    rxDesc := fun i hi => ⟨hrx i hi .addr, hrx i hi .length, hrx i hi .checksum, hrx i hi .status, hrx i hi .errors,
      hrx i hi .special⟩
    txBuf := fun i hi => Mem.readBytes_eq_replicate_iff.1 (hs.rings.txBuf i hi)
    rxBuf := fun i hi => Mem.readBytes_eq_replicate_iff.1 (hs.rings.rxBuf i hi)
    wireOut := hwire
    toStack := hto
    fromStack := hfrom
    ibPhase := hib
    obPhase := hob
    good := hgood }

end

/-- Settles O31: the run to step 8, then steps 9 and 10. -/
theorem attachReachesLaunch : Obligations.AttachReachesLaunch := by
  intro s h p0 p1 p2 hw hu hm hee htx hrx hp hwire hto hfrom hib hob hstation hgood
  obtain ⟨g, m, v, n, hrun, hprog⟩ := runOps_attachToEnable (h := h) hw hu hm hee htx hrx hp hstation p0 p1 p2
  obtain ⟨ha, -, hf⟩ := hu
  have hwrite := exec_attach_wrRdt (s := s.rxEnabling g m v n) (h := h) hw ha hf
  have hlast := exec_attach_finish (s := (s.rxEnabling g m v n).published) (h := h) ha hf
  refine ⟨_, ?_, hprog.launch hp hwire hto hfrom hib hob hgood, rfl, List.append_assoc ..⟩
  rw [attachRun, runOps_append_some _ hrun, runOps_cons_next hwrite, runOps_cons_next hlast]
  rfl

end Sys2Proof.Machine

/-! ### ATTACH with steps of the receive engine before its last accesses (R187, R189, R234, R235, R238) -/

namespace Sys2Proof.Machine

section
variable {s t u : State} {k : Nat}

theorem Deposited.congr (hs : Deposited s k) (hc : t.cfg = s.cfg) (hm : t.mem = s.mem) (hh : t.reg .rdh = s.reg .rdh)
    (hl : t.reg .rdlen = s.reg .rdlen) : Deposited t k := by
  have hrxd : ∀ i f, t.rxd i f = s.rxd i f := State.rxd_congr hc hm
  exact {
    count_le := hc ▸ hs.count_le
    head := by rw [State.rdh, hh, hc]; exact hs.head
    size := by rw [hl, hc]; exact hs.size
    flags := fun j hj => by
      rw [State.rxFlag, State.rxStatus, hrxd, hc]
      exact hs.flags j (hc ▸ hj)
    lengths := fun j hj => by rw [hrxd, hc]; exact hs.lengths j hj
    bound := fun i hi => by rw [hrxd, hc]; exact hs.bound i (hc ▸ hi) }

/-- A frame in bounds at the head of the wire goes into an offered slot (R234). -/
theorem execRxDeposit_offered {f : Frame} {rest : List Frame} (hwire : s.wireIn = f :: rest) (hen : s.rxEnabled = true)
    (hh : s.rdh < s.cfg.nRx) (ht : s.cfg.rxOfferRule = .tailGated → s.rxTailPublished = true → s.rdt < s.cfg.nRx)
    (ho : s.rxOffered = true) (hf : s.cfg.rxMinLen ≤ f.length ∧ f.length ≤ s.cfg.rxBufSize)
    (hsize : s.rxRingSize ≠ 0) : execRxDeposit s =
      .next (({ s with wireIn := rest }.depositInto s.rdh f).setReg .rdh
        (indexWord (nextIndex s.rdh s.rxRingSize))) := by
  have hidx : ¬ (s.cfg.nRx ≤ s.rdh ∨
      (s.cfg.rxOfferRule = .tailGated ∧ s.rxTailPublished = true ∧ s.cfg.nRx ≤ s.rdt)) := by
    rintro (hc | ⟨hr, hp, hc⟩)
    · omega
    · exact absurd (ht hr hp) (Nat.not_lt_of_le hc)
  have hlen : ¬ (f.length < s.cfg.rxMinLen ∨ s.cfg.rxBufSize < f.length) := by omega
  unfold execRxDeposit
  rw [if_neg (by simp [hen])]
  simp only [hwire, if_neg hidx, ho, Bool.not_true, Bool.false_eq_true, if_false, if_neg hlen, if_neg hsize]

/-- An offered slot is the one after the deposited frames, and there is one. -/
theorem Deposited.rdh_eq (hs : Deposited s k) (hpos : 0 < s.cfg.nRx) (hflag : s.rxFlag s.rdh = false) :
    k < s.cfg.nRx ∧ s.rdh = k := by
  have hhead := hs.head
  rcases Nat.lt_or_ge k s.cfg.nRx with hlt | hge
  · exact ⟨hlt, hhead.trans (Nat.mod_eq_of_lt hlt)⟩
  · have hk : k = s.cfg.nRx := Nat.le_antisymm hs.count_le hge
    rw [hk, Nat.mod_self] at hhead
    have hfull := hs.flags 0 hpos
    rw [← hhead, hflag] at hfull
    simp at hfull
    omega

/-- What a deposit into the slot after `k` deposited frames leaves (R234, R238). -/
structure Deposit (s t : State) (k : Nat) (f : Frame) : Prop where
  cfg : t.cfg = s.cfg
  rdh : t.reg .rdh = indexWord (nextIndex k s.cfg.nRx)
  rdlen : t.reg .rdlen = s.reg .rdlen
  slot : FilledSlot s t k f
  rxd : ∀ j < s.cfg.nRx, k ≠ j → ∀ g, t.rxd j g = s.rxd j g
  rxBuf : ∀ j < s.cfg.nRx, k ≠ j → ∀ n ≤ s.cfg.rxBufSize,
    Mem.readBytes t.mem (s.cfg.rxBufBase j).toNat n = Mem.readBytes s.mem (s.cfg.rxBufBase j).toNat n

theorem Deposited.succ {f : Frame} (hs : Deposited s k) (hw : s.cfg.WF) (hk : k < s.cfg.nRx)
    (hl : f.length ≤ s.cfg.rxBufSize) (ht : Deposit s t k f) : Deposited t (k + 1) := by
  have hle := hw.nRx_le
  have hnext := nextIndex_lt (i := k) hw.nRx_pos
  exact {
    count_le := by rw [ht.cfg]; exact hk
    head := by
      rw [State.rdh, ht.rdh, ht.cfg, indexWord_toNat (by omega)]
      rfl
    size := by rw [ht.rdlen, ht.cfg]; exact hs.size
    flags := fun j hj => by
      rw [ht.cfg] at hj
      by_cases hkj : k = j
      · rw [← hkj, ht.slot.flag, decide_eq_true (Nat.lt_succ_self k)]
      · have hiff : j < k + 1 ↔ j < k := by omega
        rw [State.rxFlag, State.rxStatus, ht.rxd j hj hkj, ht.cfg, decide_eq_decide.2 hiff]
        exact hs.flags j hj
    lengths := fun j hj => by
      rw [ht.cfg]
      by_cases hkj : k = j
      · rw [← hkj, ht.slot.length]
        exact hl
      · rw [ht.rxd j (by omega) hkj]
        exact hs.lengths j (by omega)
    bound := fun j hj => by
      rw [ht.cfg] at hj ⊢
      by_cases hkj : k = j
      · rw [← hkj, ht.slot.addr]
        exact hs.bound k hk
      · rw [ht.rxd j hj hkj]
        exact hs.bound j hj }

theorem Deposited.depositedUpTo_succ {f : Frame} (hs : Deposited s k) (hk : k < s.cfg.nRx) (ht : Deposit s t k f) :
    t.depositedUpTo (k + 1) = s.depositedUpTo k ++ [f] := by
  rw [State.depositedUpTo, List.range_succ, List.map_append]
  congr 1
  · refine List.map_congr_left fun j hj => ?_
    have hj := List.mem_range.1 hj
    rw [State.rxFrame, ht.rxd j (by omega) (by omega), ht.cfg,
      ht.rxBuf j (by omega) (by omega) _ (hs.lengths j hj)]
    rfl
  · rw [List.map_singleton, State.rxFrame, ht.slot.length, ht.cfg, ht.slot.buffer]

/-- What steps of the receive engine may change: the receive head, memory outside the transmit descriptors, the wire,
of which they take frames, and the draw counter. -/
structure RxMoves (s t : State) : Prop where
  rest : t = { s with regs := t.regs, mem := t.mem, wireIn := t.wireIn, draws := t.draws }
  regs : ∀ r ≠ .rdh, t.reg r = s.reg r
  txd : ∀ i < s.cfg.nTx, ∀ f, t.txd i f = s.txd i f
  wire : t.wireIn.Sublist s.wireIn

theorem RxMoves.refl (s : State) : RxMoves s s := ⟨rfl, fun _ _ => rfl, fun _ _ _ => rfl, .refl _⟩

theorem RxMoves.cfg (h : RxMoves s t) : t.cfg = s.cfg := (congrArg State.cfg h.rest).trans rfl

theorem RxMoves.trans (h : RxMoves s t) (h' : RxMoves t u) : RxMoves s u where
  rest := by
    have h1 := h.rest
    have h2 := h'.rest
    rw [h1] at h2
    exact h2
  regs r hr := (h'.regs r hr).trans (h.regs r hr)
  txd i hi f := (h'.txd i (h.cfg ▸ hi) f).trans (h.txd i hi f)
  wire := h'.wire.trans h.wire

/-- The first frame taken from the wire, deposited or lost. -/
theorem RxMoves.takeFrame {f : Frame} {rest : List Frame} (h : s.wireIn = f :: rest) :
    RxMoves s { s with wireIn := rest } :=
  ⟨rfl, fun _ _ => rfl, fun _ _ _ => rfl, h ▸ List.sublist_cons_self f rest⟩

theorem State.depositInto_rest (s : State) (i : Nat) (f : Frame) :
    s.depositInto i f = { s with mem := (s.depositInto i f).mem, draws := s.draws + 4 } := rfl

theorem FilledSlot.congr {i : Nat} {f : Frame} (hs : FilledSlot s u i f) (hc : t.cfg = u.cfg) (hm : t.mem = u.mem) :
    FilledSlot s t i f where
  length := (State.rxd_congr hc hm i .length).trans hs.length
  flag := by
    rw [State.rxFlag, State.rxStatus, State.rxd_congr hc hm, hc]
    exact hs.flag
  addr := (State.rxd_congr hc hm i .addr).trans hs.addr
  buffer := hm ▸ hs.buffer

/-- A deposit leaves what `Deposit` says and nothing but what the engine may change. -/
theorem Deposited.deposit {f : Frame} (hs : Deposited s k) (hw : s.cfg.WF) (hk : k < s.cfg.nRx)
    (hl : f.length ≤ s.cfg.rxBufSize)
    (ht : t = (s.depositInto k f).setReg .rdh (indexWord (nextIndex k s.cfg.nRx))) : Deposit s t k f ∧ RxMoves s t := by
  have hb := hs.bound k hk
  have hcfg : t.cfg = (s.depositInto k f).cfg := by rw [ht, State.setReg_cfg]
  have hmem : t.mem = (s.depositInto k f).mem := by rw [ht, State.setReg_mem]
  have hreg : ∀ r ≠ .rdh, t.reg r = s.reg r := fun r hr => by
    rw [ht, State.reg_setReg_ne _ _ hr, State.reg, State.depositInto_regs, State.reg]
  refine ⟨⟨hcfg, by rw [ht, State.reg_setReg_same], hreg _ (by decide),
    (State.depositInto_spec hw hk hl hb).congr hcfg hmem, fun j hj hne g => ?_, fun j hj hne n hn => ?_⟩,
    ⟨?_, hreg, fun i hi g => ?_, ?_⟩⟩
  · exact (State.rxd_congr hcfg hmem j g).trans (State.depositInto_rxd_other hw hk hj hne hl hb g)
  · rw [hmem]
    exact State.depositInto_rxBuf_other hw hk hj hne hl hb hn
  · rw [ht, State.depositInto_rest]
    rfl
  · exact (State.txd_congr hcfg hmem i g).trans (State.depositInto_txd hw hk hi hl hb g)
  · rw [ht, State.setReg_wireIn, State.depositInto_wireIn]

/-- Frames on the wire the receive engine admits (R53). -/
def State.WireFits (s : State) : Prop := ∀ f ∈ s.wireIn, s.cfg.rxMinLen ≤ f.length ∧ f.length ≤ s.cfg.rxBufSize

/-- The receive engine is enabled over a ring that holds `k` deposited frames, and its next step is not refused. -/
structure RxReady (s : State) (k : Nat) : Prop where
  wf : s.cfg.WF
  enabled : s.rxEnabled = true
  tail : s.cfg.rxOfferRule = .tailGated → s.rxTailPublished = true → s.rdt < s.cfg.nRx
  wire : s.WireFits
  ring : Deposited s k

theorem RxReady.moves {k' : Nat} (hs : RxReady s k) (hm : RxMoves s t) (hd : Deposited t k') : RxReady t k' where
  wf := hm.cfg ▸ hs.wf
  enabled := by
    rw [State.rxEnabled, hm.cfg, hm.regs _ (by decide)]
    exact hs.enabled
  tail hr hp := by
    have hsw : t.sw = s.sw := (congrArg State.sw hm.rest).trans rfl
    rw [State.rdt, hm.regs _ (by decide), hm.cfg]
    rw [hm.cfg] at hr
    rw [State.rxTailPublished, hsw] at hp
    exact hs.tail hr hp
  wire f hf := by
    rw [hm.cfg]
    exact hs.wire f (hm.wire.subset hf)
  ring := hd

/-- One step of the receive engine: the frames deposited and those on the wire are those before it, in order, but for
one that may be lost. -/
theorem RxReady.step (hs : RxReady s k) {i : Instr} (hi : i = .rxDeposit ∨ i = .rxDrop) : ∃ t k',
    exec i s = .next t ∧ RxMoves s t ∧ Deposited t k' ∧
    (t.depositedUpTo k' ++ t.wireIn).Sublist (s.depositedUpTo k ++ s.wireIn) := by
  obtain ⟨hw, hen, htail, hwire, hring⟩ := hs
  have hpos := hw.nRx_pos
  have hrdh : s.rdh < s.cfg.nRx := hring.head ▸ Nat.mod_lt _ hpos
  have hsize : s.rxRingSize = s.cfg.nRx := State.rxRingSize_eq hring.size hw
  rcases hi with rfl | rfl
  · by_cases hoff : s.rxOffered = true ∧ s.wireIn ≠ []
    · obtain ⟨ho, hne⟩ := hoff
      obtain ⟨f, rest, hfr⟩ := List.exists_cons_of_ne_nil hne
      obtain ⟨hk, hk'⟩ := hring.rdh_eq hpos (State.rxOffered_flag ho)
      obtain ⟨hmin, hmax⟩ := hwire f (hfr ▸ List.mem_cons_self)
      have hexec := execRxDeposit_offered hfr hen hrdh htail ho ⟨hmin, hmax⟩ (by omega)
      rw [hk', hsize] at hexec
      have htaken : Deposited { s with wireIn := rest } k := hring.congr rfl rfl rfl rfl
      obtain ⟨hdep, hmoves⟩ := htaken.deposit hw hk hmax rfl
      refine ⟨_, k + 1, hexec, (RxMoves.takeFrame hfr).trans hmoves, htaken.succ hw hk hmax hdep, ?_⟩
      rw [htaken.depositedUpTo_succ hk hdep, hfr, List.append_assoc]
      exact .refl _
    · refine ⟨s, k, ?_, .refl s, hring, .refl _⟩
      by_cases hnil : s.wireIn = []
      · exact (by simp [execRxDeposit, hnil] : execRxDeposit s = .next s)
      · exact execRxDeposit_not_offered hrdh htail (by simpa [hnil] using hoff)
  · refine ⟨{ s with wireIn := s.wireIn.tail }, k, rfl, ⟨rfl, fun _ _ => rfl, fun _ _ _ => rfl, s.wireIn.tail_sublist⟩,
      hring.congr rfl rfl rfl rfl, ?_⟩
    exact (List.Sublist.refl _).append s.wireIn.tail_sublist

/-- Any steps of the receive engine. -/
theorem RxReady.run (hs : RxReady s k) {d : List Instr} (hd : ∀ i ∈ d, i = .rxDeposit ∨ i = .rxDrop) : ∃ t k',
    runOps d s = some t ∧ RxMoves s t ∧ Deposited t k' ∧
    (t.depositedUpTo k' ++ t.wireIn).Sublist (s.depositedUpTo k ++ s.wireIn) := by
  induction d generalizing s k with
  | nil => exact ⟨s, k, rfl, .refl s, hs.ring, .refl _⟩
  | cons i d ih =>
    obtain ⟨hi, hd⟩ := List.forall_mem_cons.1 hd
    obtain ⟨t, k1, hexec, hmoves, hdep, hsub⟩ := hs.step hi
    obtain ⟨u, k2, hrun, hmoves', hdep', hsub'⟩ := ih (hs.moves hmoves hdep) hd
    exact ⟨u, k2, (runOps_cons_next hexec).trans hrun, hmoves.trans hmoves', hdep', hsub'.trans hsub⟩

/-- Under `tail_gated`, before the tail is published, they change nothing but the wire (R187 c). -/
theorem runOps_rxSteps_unpublished (hrule : s.cfg.rxOfferRule = .tailGated) (hp : s.rxTailPublished = false)
    (hh : s.rdh < s.cfg.nRx) {d : List Instr} (hd : ∀ i ∈ d, i = .rxDeposit ∨ i = .rxDrop)
    (hrun : runOps d s = some t) : t = { s with wireIn := t.wireIn } := by
  induction d generalizing s with
  | nil => exact Option.some.inj hrun ▸ rfl
  | cons i d ih =>
    obtain ⟨hi, hds⟩ := List.forall_mem_cons.1 hd
    rcases hi with rfl | rfl
    · have hoff : s.rxOffered = false := by simp [State.rxOffered, hrule, hp]
      have hexec : exec .rxDeposit s = .next s := execRxDeposit_not_offered hh (fun _ hpub => by simp [hp] at hpub) hoff
      exact ih hrule hp hh hds ((runOps_cons_next hexec).symm.trans hrun)
    · exact ih (s := { s with wireIn := s.wireIn.tail }) hrule hp hh hds hrun

theorem RxMoves.attaching {h : Addr} {st : AttachStage} (hm : RxMoves s t) (hs : s.Attaching h st) :
    t.Attaching h st where
  attached := ((congrArg State.attached hm.rest).trans rfl).trans hs.attached
  attachFailed := ((congrArg State.attachFailed hm.rest).trans rfl).trans hs.attachFailed
  sw := ((congrArg State.sw hm.rest).trans rfl).trans hs.sw

/-- What ATTACH has done by its last accesses, whatever the receive engine does beside it: the registers but RDT and the
receive head, the transmit ring, and no mark set. -/
structure AttachPrepared (s : State) : Prop where
  regs : ∀ r, r ≠ .rdt → r ≠ .rdh → ∀ w, attachWord s.cfg r = some w → s.reg r = w
  txFresh : s.TxFresh
  txPending : s.txPending = 0
  txTail : s.txTail = 0
  good : s.Good

theorem AttachPrepared.moves (hs : AttachPrepared s) (hm : RxMoves s t) : AttachPrepared t where
  regs r hr hh w hw := by
    rw [hm.cfg] at hw
    exact (hm.regs r hh).trans (hs.regs r hr hh w hw)
  txFresh i hi f := by
    rw [hm.cfg] at hi ⊢
    exact (hm.txd i hi f).trans (hs.txFresh i hi f)
  txPending := ((congrArg State.txPending hm.rest).trans rfl).trans hs.txPending
  txTail := ((congrArg State.txTail hm.rest).trans rfl).trans hs.txTail
  good := by
    obtain ⟨hr, hib, hob⟩ := hs.good
    exact ⟨((congrArg State.refused hm.rest).trans rfl).trans hr, ((congrArg State.ibFatal hm.rest).trans rfl).trans hib,
      ((congrArg State.obFatal hm.rest).trans rfl).trans hob⟩

theorem Programmed.prepared {h : Addr} {g : RegFile} {m : List Host.Cell} {v : Word} {n : Nat}
    (hs : Programmed (s.rxEnabling g m v n)) (hp : s.txPending = 0) (hgood : s.Good) :
    AttachPrepared ((s.rxEnabling g m v n).atStage h .wrRdt) :=
  ⟨fun r hr _ => hs.regs r hr, hs.rings.txFresh, hp, rfl, hgood⟩

theorem Programmed.rxReady {h : Addr} (hs : Programmed s) (hw : s.cfg.WF) (hwire : s.WireFits) :
    RxReady (s.atStage h .wrRdt) 0 where
  wf := hw
  enabled := (congrArg (rxEnBit s.cfg.layout) (hs.regs .rctl (by decide) _ rfl)).trans
    (rxEnBit_rctlAttachWord hw.fields)
  tail _ hp := by cases hp
  wire := hwire
  ring := .of_fresh hs.rings.rxFresh (hs.regs .rdh (by decide) _ rfl) (hs.regs .rdlen (by decide) _ rfl)

theorem AttachPrepared.published {h : Addr} (hs : AttachPrepared s) : AttachPrepared (s.published.atStage h .finish) :=
  ⟨fun r hr hh w hw => (RegFile.get_set_ne _ _ hr).trans (hs.regs r hr hh w hw), hs.txFresh, hs.txPending, hs.txTail,
    hs.good⟩

/-- RDT published over the deposits made so far (R186, step 9). -/
theorem RxReady.published {h : Addr} (hs : RxReady s k) : RxReady (s.published.atStage h .finish) k where
  wf := hs.wf
  enabled := hs.enabled
  tail _ _ := by
    have hpos := hs.wf.nRx_pos
    have hlast := lastSlot_toNat hs.wf.nRx_le
    exact (hlast.trans_lt (by omega) : (indexWord (s.cfg.nRx - 1)).toNat < s.cfg.nRx)
  wire := hs.wire
  ring := hs.ring.congr rfl rfl rfl rfl

/-- The last access of ATTACH leaves both ring invariants and the register invariant (R189, R208, R238). -/
theorem AttachPrepared.finished (hs : AttachPrepared s) (hw : s.cfg.WF) (hd : Deposited s k)
    (ht : s.rxTail = s.cfg.nRx - 1) (hr : s.reg .rdt = indexWord (s.cfg.nRx - 1)) :
    AttachedRegs s.finished ∧ TxRing s.finished 0 0 0 ∧ RxRing s.finished k ∧
      rxFrames s.finished k = s.depositedUpTo k := by
  have hring : Deposited s.finished k := hd.congr rfl rfl rfl rfl
  have hreg : ∀ {r w}, r ≠ .rdh → attachWord s.cfg r = some w → s.finished.reg r = w := fun {r w} hh hword => by
    by_cases hrdt : r = .rdt
    · subst hrdt
      cases hword
      exact hr
    · exact hs.regs r hrdt hh w hword
  have hrdt : s.finished.rdt = s.cfg.nRx - 1 := (congrArg BitVec.toNat hr).trans (lastSlot_toNat hw.nRx_le)
  exact ⟨.of_attachWord hw rfl (fun _ _ => hreg) (hd.head.trans_lt (Nat.mod_lt _ hw.nRx_pos)) hs.txTail ht,
    .of_fresh hw hs.txFresh hs.txPending hs.txTail (hreg (by decide) rfl) (hreg (by decide) rfl) (hreg (by decide) rfl),
    hring.rxRing hw ht (hrdt.trans ht.symm), hring.rxFrames_eq hw ht⟩

end

/-- Settles O32: the receive engine's steps around the last accesses of ATTACH. -/
theorem attachWithReceiveSteps : Obligations.AttachWithReceiveSteps := by
  intro s h p0 p1 p2 d1 d2 hw hu hm hee htx hrx hp hstation hgood hwire hd
  obtain ⟨hd1, hd2⟩ := List.forall_mem_append.1 hd
  obtain ⟨g, m, v, n, hrun, hprog⟩ := runOps_attachToEnable (h := h) hw hu hm hee htx hrx hp hstation p0 p1 p2
  obtain ⟨ha, -, hf⟩ := hu
  have hready := hprog.rxReady (h := h) hw hwire
  obtain ⟨b, k1, hrun1, hmoves1, hdep1, hsub1⟩ := hready.run hd1
  have hready1 := hready.moves hmoves1 hdep1
  have hprep1 := (hprog.prepared (h := h) hp hgood).moves hmoves1
  have hatt := hmoves1.attaching ⟨ha, hf, rfl⟩
  have hwrite := hatt.exec_ok (attachStep_wrRdt hready1.wf)
  obtain ⟨c, k2, hrun2, hmoves2, hdep2, hsub2⟩ := (hready1.published (h := h)).run hd2
  have hcfg : c.cfg = b.cfg := hmoves2.cfg
  have hlast := (hmoves2.attaching ⟨hatt.attached, hatt.attachFailed, rfl⟩).exec_ok (t := c.finished) rfl
  have hdone := (hprep1.published (h := h)).moves hmoves2
  have htail : c.rxTail = c.cfg.nRx - 1 := hcfg ▸ (congrArg State.rxTail hmoves2.rest).trans rfl
  have hrdt : c.reg .rdt = indexWord (c.cfg.nRx - 1) :=
    hcfg ▸ (hmoves2.regs .rdt (by decide)).trans (RegFile.get_set_same b.regs .rdt _)
  obtain ⟨hregs, htxr, hrxr, hframes⟩ := hdone.finished (hcfg ▸ hready1.wf) hdep2 htail hrdt
  refine ⟨_, b, c.finished, k2, hrun, hrun1, ?_, fun hrule => ?_, rfl, hdone.good, hregs, htxr, hrxr, ?_⟩
  · rw [runOps_cons_next hwrite, runOps_append_some _ hrun2, runOps_cons_next hlast]
    rfl
  · exact runOps_rxSteps_unpublished hrule rfl (hready.ring.head.trans_lt (Nat.mod_lt _ hw.nRx_pos)) hd1 hrun1
  · rw [hframes]
    exact (List.sublist_append_left _ _).trans (hsub2.trans hsub1)

end Sys2Proof.Machine

/-! ### The spin of a read in an execution (R181, R182, R336) -/

namespace Sys2Proof.Machine

/-! What an operation does to a pending read and to the place of SW. -/

section
variable {s t : State}

/-- A change of the registers by an operation that may not write EERD leaves the read. -/
theorem RegChange.keepsRead {may : Reg → Bool} (h : RegChange may s t) (hm : may .eerd = false) :
    t.reg .eerd = s.reg .eerd ∧ t.eePending = s.eePending := by
  have hkeeps : ∀ {b : RegBlock}, t.regBlock = b → b.regs.get .eerd = s.reg .eerd → b.eePending = s.eePending →
      t.reg .eerd = s.reg .eerd ∧ t.eePending = s.eePending := fun ht hr hp =>
    ⟨(congrArg (·.regs.get .eerd) ht).trans hr, (congrArg (·.eePending) ht).trans hp⟩
  cases h with
  | keeps ht => exact hkeeps ht rfl rfl
  | stores r v _ hr ht => exact hkeeps ht (RegFile.get_set_ne _ _ hr.1.symm) rfl
  | startsRead _ _ hm' => simp [hm] at hm'
  | endsRead _ hm' => simp [hm] at hm'
  | writesRal v _ _ _ ht => exact hkeeps ht (RegFile.get_set_ne (r := .ral) _ v (by decide)) rfl
  | writesRah v _ _ _ ht => exact hkeeps ht (RegFile.get_set_ne (r := .rah) _ v (by decide)) rfl

/-- A read starts only where none is pending (R143). -/
theorem eePending_of_writeEerd {v : Word} (h : writeEerd v s = .ok t) : s.eePending = none := by
  obtain ⟨⟨-, -, hp⟩, -⟩ := writeEerd_iff.1 h
  exact hp

theorem eePending_of_stage {h : Addr} {next : AttachStage} {e : Except Refuse State}
    (he : e.map (·.atStage h next) = .ok t) (hu : ∀ u, e = .ok u → u.eePending = s.eePending) :
    t.eePending = s.eePending := by
  obtain ⟨u, hu', rfl⟩ := map_ok_cases he
  exact hu u hu'

theorem State.spin_eePending {k : Half → AttachStage} {h : Addr} :
    (s.spin fun w t => t.atStage h (k w)).eePending = s.eePending := by
  unfold State.spin
  split <;> rfl

/-- No access of ATTACH takes a pending read back: one that would start another is refused (R143). -/
theorem attachStep_eePending {h : Addr} {st : AttachStage} (he : attachStep h st s = .ok t) (hp : s.eePending ≠ none) :
    t.eePending = s.eePending := by
  cases st <;> simp only [attachStep] at he
  case zeroTxDesc | zeroTxBuf =>
    exact eePending_of_stage he fun _ hu => (attachTx_ok hu).2.2 ▸ s.zeroTarget_eePending _
  case zeroRxDesc | zeroRxBuf =>
    exact eePending_of_stage he fun _ hu => (attachRx_ok hu).2.2 ▸ s.zeroTarget_eePending _
  case bindTxAddr | bindTxStatus => exact eePending_of_stage he fun _ hu => (attachTx_ok hu).2.2 ▸ rfl
  case bindRx => exact eePending_of_stage he fun _ hu => (attachRx_ok hu).2.2 ▸ rfl
  case spin0 | spin1 | spin2 => exact Except.ok.inj he ▸ State.spin_eePending
  case finish => exact Except.ok.inj he ▸ rfl
  case start0 | start1 | start2 => exact eePending_of_stage he fun _ hu => absurd (eePending_of_writeEerd hu) hp
  case wrTdt =>
    refine eePending_of_stage he fun _ hu => ?_
    obtain ⟨v, hv, rfl⟩ := map_ok_cases hu
    exact (writeTdt_iff.1 hv).2 ▸ rfl
  case wrRdt =>
    refine eePending_of_stage he fun _ hu => ?_
    obtain ⟨v, hv, rfl⟩ := map_ok_cases hu
    exact (writeRdt_iff.1 hv).2 ▸ rfl
  case wrRal => exact eePending_of_stage he fun _ hu => (writeRal_iff.1 hu).2 ▸ rfl
  case wrRah => exact eePending_of_stage he fun _ hu => (writeRah_iff.1 hu).2 ▸ rfl
  case wrTdbal => exact eePending_of_stage he fun _ hu => (writeTdbal_iff.1 hu).2 ▸ rfl
  case wrTdbah => exact eePending_of_stage he fun _ hu => (writeTdbah_iff.1 hu).2 ▸ rfl
  case wrTdlen => exact eePending_of_stage he fun _ hu => (writeTdlen_iff.1 hu).2 ▸ rfl
  case wrTdh => exact eePending_of_stage he fun _ hu => (writeTdh_iff.1 hu).2 ▸ rfl
  case wrRdbal => exact eePending_of_stage he fun _ hu => (writeRdbal_iff.1 hu).2 ▸ rfl
  case wrRdbah => exact eePending_of_stage he fun _ hu => (writeRdbah_iff.1 hu).2 ▸ rfl
  case wrRdlen => exact eePending_of_stage he fun _ hu => (writeRdlen_iff.1 hu).2 ▸ rfl
  case wrRdh => exact eePending_of_stage he fun _ hu => (writeRdh_iff.1 hu).2 ▸ rfl
  case wrTctl => exact eePending_of_stage he fun _ hu => (writeTctl_iff.1 hu).2 ▸ rfl
  case wrTipg => exact eePending_of_stage he fun _ hu => (writeTipg_iff.1 hu).2 ▸ rfl
  case wrRctl => exact eePending_of_stage he fun _ hu => (writeRctl_iff.1 hu).2 ▸ rfl

/-- The operations that may write EERD (R25). -/
theorem Instr.mayWrite_eerd (i : Instr) : i.mayWrite .eerd = false ∨ i = .eeComplete ∨ (∃ v, i = .wrEerd v) ∨
    (∃ a, i = .eerdReadWord a) ∨ ∃ h, i = .attach h := by cases i <;> simp [Instr.mayWrite]

/-- A pending read stays pending until EE_COMPLETE (R143, R182). -/
theorem exec_eePending {i : Instr} (h : exec i s = .next t) (hp : s.eePending ≠ none) (hi : i ≠ .eeComplete) :
    t.eePending = s.eePending := by
  rcases Instr.mayWrite_eerd i with hm | rfl | ⟨v, rfl⟩ | ⟨a, rfl⟩ | ⟨a, rfl⟩
  · exact ((exec_regChange h).keepsRead hm).2
  · exact absurd rfl hi
  · rcases busWrite_cases h with ⟨-, hw⟩ | ⟨e, rfl⟩
    · exact absurd (eePending_of_writeEerd hw) hp
    · rfl
  · rcases execEerdReadWord_cases h with ⟨e, rfl⟩ | ⟨-, ⟨-, -, u, hu, -⟩ | ⟨-, -, rfl⟩ | ⟨-, -, rfl⟩⟩
    · rfl
    · exact absurd (eePending_of_writeEerd hu) hp
    · rfl
    · rfl
  · rcases execAttach_cases h with ⟨e, rfl⟩ | ⟨-, -, ⟨-, -, rfl⟩ | ⟨-, -, rfl⟩ | ⟨st, -, hst⟩⟩
    · rfl
    · rfl
    · rfl
    · exact attachStep_eePending hst hp

/-- Where SW stands, and whether ATTACH has succeeded or failed. -/
def State.place (s : State) : SwPhase × Bool × Bool := (s.sw, s.attached, s.attachFailed)

theorem transmitOp_place {len : Nat} {payload : Frame} {e : Option ErrKind}
    (h : transmitOp len payload s = .ok (e, t)) : t.place = s.place :=
  (congrArg State.place (transmitOp_frame h).1).trans rfl

theorem receiveOp_place {out : List Byte} {r : Option (Nat × List Byte)} (h : receiveOp out s = .ok (r, t)) :
    t.place = s.place := (congrArg State.place (receiveOp_frame h).1).trans rfl

theorem State.raise_place (s : State) (b : Bridge) (f : Fatal) : (s.raise b f).place = s.place := by cases b <;> rfl

theorem State.fillMsg_place (s : State) (b : Buf) (n : Nat) (data : List Byte) : (s.fillMsg b n data).place = s.place :=
  (congrArg State.place (s.fillMsg_eq b n data)).trans rfl

theorem regAccess_place {i : Instr} (hi : i.isRegWrite = true ∨ ∃ r : Reg, i = r.readOp) (h : exec i s = .next t) :
    t.place = s.place := by
  rcases regAccess_cases h hi with ⟨e, rfl⟩ | ⟨v, n, rfl⟩ | ⟨r, v, p, n, st, -, -, -, rfl⟩ <;> rfl

theorem execInBridgeIter_place (h : execInBridgeIter s = .next t) : t.place = s.place := by
  rcases execInBridgeIter_cases h with rfl | ⟨e, rfl⟩ | ⟨-, -, -, rfl⟩ | ⟨b, -, -, -, rfl⟩ |
    ⟨b, r, u, -, -, hu, ⟨-, rfl⟩ | ⟨n, data, -, rfl | rfl⟩⟩
  · rfl
  · rfl
  · rfl
  · rfl
  · exact receiveOp_place hu
  · exact (State.raise_place _ _ _).trans ((u.fillMsg_place b n data).trans (receiveOp_place hu))
  · exact (u.fillMsg_place b n data).trans (receiveOp_place hu)

theorem execOutBridgeIter_place (h : execOutBridgeIter s = .next t) : t.place = s.place := by
  rcases execOutBridgeIter_cases h with rfl | ⟨e, rfl⟩ | ⟨-, rfl⟩ | ⟨msg, rest, -, -, -, ⟨-, rfl⟩ | ⟨-, rfl⟩⟩ |
    ⟨b, e, u, -, -, hu, ⟨-, rfl⟩ | ⟨-, rfl⟩ | ⟨k, -, -, rfl⟩⟩
  · rfl
  · rfl
  · rfl
  · rfl
  · rfl
  · exact (transmitOp_place hu : u.place = s.place)
  · exact transmitOp_place hu
  · exact (u.raise_place _ _).trans (transmitOp_place hu)

/-- SW moves by ATTACH and EERD_READ_WORD alone. -/
theorem exec_place {i : Instr} (h : exec i s = .next t) (ha : ∀ a, i ≠ .attach a) (he : ∀ a, i ≠ .eerdReadWord a) :
    t.place = s.place := by
  rcases Instr.kinds i with hi | ⟨a, rfl⟩ | ⟨a, rfl⟩ | ⟨p, rfl⟩ | ⟨b, rfl⟩ | rfl | rfl | rfl | rfl | rfl | rfl | rfl
  · exact regAccess_place hi h
  · exact absurd rfl (ha a)
  · exact absurd rfl (he a)
  · rcases execTransmit_cases h with ⟨e, rfl⟩ | ⟨e, h⟩
    · rfl
    · exact transmitOp_place h
  · rcases execReceive_cases h with ⟨e, rfl⟩ | h | ⟨n, data, u, hu, rfl⟩
    · rfl
    · exact receiveOp_place h
    · exact (receiveOp_place hu : u.place = s.place)
  · rcases execTxFetch_cases h with rfl | ⟨e, rfl⟩ | ⟨-, -, -, -, -, -, rfl⟩ <;> rfl
  · rcases execTxComplete_cases h with rfl | ⟨e, rfl⟩ | ⟨-, -, -, rfl⟩ <;> rfl
  · rcases execRxDeposit_cases h with rfl | ⟨e, rfl⟩ | ⟨f, rest, -, -, -, -, -, -, -, rfl⟩ <;> rfl
  · exact Host.Outcome.next.inj h ▸ rfl
  · rcases execEeComplete_cases h with ⟨-, rfl⟩ | ⟨a, -, rfl⟩ <;> rfl
  · exact execInBridgeIter_place h
  · exact execOutBridgeIter_place h

/-- The state of a read as the software that spins on it sees it. -/
def State.readView (s : State) : Config × (SwPhase × Bool × Bool) × Word × Option (BitVec 8) :=
  (s.cfg, s.place, s.reg .eerd, s.eePending)

theorem State.Polls.congr {i : Instr} (h : s.Polls i) (hp : t.place = s.place) : t.Polls i := by
  simp only [State.place, Prod.mk.injEq] at hp
  obtain ⟨hsw, ha, hf⟩ := hp
  simpa only [State.Polls, hsw, ha, hf] using h

theorem State.refuse_ne_none (s : State) (e : Refuse) : (s.refuse e).refused ≠ none := by
  cases hr : s.refused with
  | none => simp [State.refuse_refused e hr]
  | some q => simp [State.refuse_refused_sticky e hr]

/-- While SW spins an operation that is not refused is its poll, EE_COMPLETE, a write of EERD by the context inside
ATTACH, or leaves the read and SW as they are. -/
theorem State.Polls.exec_cases {i j : Instr} (h : s.Polls i) (he : exec j s = .next t) (ht : t.refused = none) :
    j = i ∨ j = .eeComplete ∨ (∃ v, j = .wrEerd v) ∨ t.readView = s.readView := by
  have hrefuse : ∀ {e}, t ≠ s.refuse e := fun {e} heq => s.refuse_ne_none e (heq ▸ ht)
  have hidle : s.sw ≠ .idle := by
    obtain ⟨-, ⟨a, -, hs⟩ | ⟨a, st, -, -, hs, -⟩⟩ := h <;> simp [hs]
  have hother : (∀ a, j ≠ .attach a) → (∀ a, j ≠ .eerdReadWord a) → j.mayWrite .eerd = false →
      t.readView = s.readView := fun ha hr hm => by
    obtain ⟨hreg, hpend⟩ := (exec_regChange he).keepsRead hm
    rw [State.readView, (exec_keepsMarks he).cfg, exec_place he ha hr, hreg, hpend, State.readView]
  rcases Instr.mayWrite_eerd j with hm | rfl | ⟨v, rfl⟩ | ⟨b, rfl⟩ | ⟨b, rfl⟩
  · exact .inr (.inr (.inr (hother (fun a hj => by subst hj; cases hm) (fun a hj => by subst hj; cases hm) hm)))
  · exact .inr (.inl rfl)
  · exact .inr (.inr (.inl ⟨v, rfl⟩))
  · left
    have hs : s.sw = .readingWord b := by
      rcases execEerdReadWord_cases he with ⟨e, ht⟩ | ⟨-, ⟨hs, -⟩ | ⟨hs, -⟩ | ⟨hs, -⟩⟩
      · exact absurd ht hrefuse
      · exact absurd hs hidle
      · exact hs
      · exact hs
    obtain ⟨-, ⟨a, rfl, hs'⟩ | ⟨a, st, -, -, hs', -⟩⟩ := h
    · rw [hs] at hs'
      cases hs'
      rfl
    · rw [hs] at hs'
      cases hs'
  · left
    obtain ⟨st, hs⟩ : ∃ st, s.sw = .attaching b st := by
      rcases execAttach_cases he with ⟨e, ht⟩ | ⟨-, -, ⟨hs, -⟩ | ⟨hs, -⟩ | ⟨st, hs, -⟩⟩
      · exact absurd ht hrefuse
      · exact absurd hs hidle
      · exact absurd hs hidle
      · exact ⟨st, hs⟩
    obtain ⟨-, ⟨a, -, hs'⟩ | ⟨a, st', rfl, -, hs', -⟩⟩ := h
    · rw [hs] at hs'
      cases hs'
    · rw [hs] at hs'
      cases hs'
      rfl

/-- The poll that sees DONE returns DATA and ends the spin (R180). -/
theorem State.Polls.exec_done {i : Instr} (h : s.Polls i) (hd : s.eeDone = 1) (he : exec i s = .next t) :
    ¬ t.Polls i ∧ t.results = s.results ++ [⟨.eerdReadWord, .okWord s.eeData⟩] := by
  obtain ⟨hf, ⟨a, rfl, hs⟩ | ⟨h, st, rfl, ha, hs, hst⟩⟩ := h
  · obtain rfl := Host.Outcome.next.inj ((exec_eerdReadWord_done hf hs hd).symm.trans he)
    exact ⟨by simp [State.Polls, State.atPlace], rfl⟩
  · have hatt : s.Attaching h st := ⟨ha, hf, hs⟩
    rcases hst with rfl | ⟨w0, rfl⟩ | ⟨w0, w1, rfl⟩ <;>
    · have hstep := hatt.exec_ok rfl
      rw [State.spin_done hd] at hstep
      obtain rfl := Host.Outcome.next.inj (hstep.symm.trans he)
      exact ⟨by simp [State.Polls, State.atStage], rfl⟩

end

/-! Executions. -/

section
variable {σ : Nat → State} {ε : Nat → Event} {n : Nat}

theorem State.withSchedule_nil {s : State} (h : s.schedule = []) (q : List Event) :
    { { s with schedule := q } with schedule := [] } = s := by
  cases s
  simpa using h.symm

/-- No state of an execution is marked refused (R56). -/
theorem Execution.unmarked (h : Execution σ ε) (n : Nat) : (σ n).refused = none := by
  cases hr : (σ n).refused with
  | none => rfl
  | some e =>
    have hstep := h.steps n
    rw [step_marked (s := { σ n with schedule := [ε n] }) hr] at hstep
    cases hstep

theorem decode_of_fetchRecord {c : Config} {r : Record} {i : Instr} (h : fetchRecord c r = .instr i) :
    decode c r = .ok i := by
  unfold fetchRecord at h
  split at h
  · next hd => exact hd.trans (congrArg _ (Fetched.instr.inj h))
  all_goals cases h

/-- What happens at a moment: a move of ENV, or the operation that runs. -/
theorem Execution.next (h : Execution σ ε) (n : Nat) :
    (∃ m, envMove m (σ n) = .next (σ (n + 1))) ∨ ∃ i, Runs σ ε n i ∧ exec i (σ n) = .next (σ (n + 1)) := by
  have hstep := h.steps n
  have hr := h.unmarked n
  have hnil := State.withSchedule_nil (h.chosen n) [ε n]
  cases he : ε n with
  | env m =>
    rw [he] at hstep hnil
    rw [step_env (s := { σ n with schedule := [.env m] }) hr rfl, hnil] at hstep
    exact .inl ⟨m, hstep⟩
  | op r =>
    rw [he] at hstep hnil
    cases hf : fetchRecord (σ n).cfg r with
    | instr i =>
      have hd := decode_of_fetchRecord hf
      rw [step_instr (s := { σ n with schedule := [.op r] }) hr rfl hd, hnil] at hstep
      exact .inr ⟨i, ⟨r, he, hd⟩, hstep⟩
    | badAccess e =>
      rw [step_badAccess (s := { σ n with schedule := [.op r] }) hr rfl hf, hnil] at hstep
      exact absurd (h.unmarked (n + 1)) (Host.Outcome.next.inj hstep ▸ (σ n).refuse_ne_none e)
    | undecodable e => simp [step, hr, hf] at hstep

theorem Execution.exec_of_runs (h : Execution σ ε) {i : Instr} (hi : Runs σ ε n i) :
    exec i (σ n) = .next (σ (n + 1)) := by
  obtain ⟨r, hr, hd⟩ := hi
  have hstep := h.steps n
  rw [hr, step_instr (s := { σ n with schedule := [.op r] }) (h.unmarked n) rfl hd,
    State.withSchedule_nil (h.chosen n)] at hstep
  exact hstep

theorem Execution.cfg_eq (h : Execution σ ε) {m : Nat} (hm : n ≤ m) : (σ m).cfg = (σ n).cfg := by
  induction m, hm using Nat.le_induction with
  | base => rfl
  | succ m _ ih => exact ((step_keepsMarks (h.steps m)).cfg.trans rfl).trans ih

/-- `P` holds from `n` on until `Q`, and at some moment `P` only with `Q`: so `Q` comes, with `P` up to it. -/
theorem exists_until {P Q : Nat → Prop} {n m : Nat} (hm : n ≤ m) (hn : P n)
    (hstep : ∀ k, n ≤ k → P k → ¬ Q k → P (k + 1)) (hq : P m → Q m) :
    ∃ k, n ≤ k ∧ Q k ∧ ∀ j, n ≤ j → j ≤ k → P j := by
  by_contra hnone
  have hall : ∀ k, n ≤ k → ∀ j, n ≤ j → j ≤ k → P j := by
    intro k hk
    induction k, hk using Nat.le_induction with
    | base => exact fun j hj hjn => Nat.le_antisymm hj hjn ▸ hn
    | succ k hk ih =>
      have hk1 : P (k + 1) := hstep k hk (ih k hk (Nat.le_refl k)) fun hqk => hnone ⟨k, hk, hqk, ih⟩
      exact fun j hj hjk => (Nat.le_succ_iff.1 hjk).elim (ih j hj) fun hje => hje ▸ hk1
  exact hnone ⟨m, hm, hq (hall m hm m hm (Nat.le_refl m)), hall m hm⟩

theorem readView_eq_iff {s t : State} : t.readView = s.readView ↔
    t.cfg = s.cfg ∧ t.place = s.place ∧ t.reg .eerd = s.reg .eerd ∧ t.eePending = s.eePending := by
  simp only [State.readView, Prod.mk.injEq]

theorem envMove_readView {s t : State} {m : EnvMove} (h : envMove m s = .next t) : t.readView = s.readView := by
  rcases envMove_cases h with rfl | ⟨f, -, -, rfl⟩ | ⟨tag, b, page, -, -, -, -, rfl⟩ | ⟨msg, rest, -, -, rfl⟩ |
    ⟨b, -, -, rfl⟩ | ⟨c, -, rfl⟩
  case inr.inr.inl => exact (congrArg State.readView (s.setPage_eq b page)).trans rfl
  all_goals rfl

/-- A pending read stays pending for as long as EE_COMPLETE does not run. -/
theorem Execution.eePending (h : Execution σ ε) (hn : ¬ Runs σ ε n .eeComplete) (hp : (σ n).eePending ≠ none) :
    (σ (n + 1)).eePending = (σ n).eePending := by
  rcases h.next n with ⟨m, hm⟩ | ⟨i, hi, he⟩
  · obtain ⟨-, -, -, hpend⟩ := readView_eq_iff.1 (envMove_readView hm)
    exact hpend
  · exact exec_eePending he hp fun heq => hn (heq ▸ hi)

theorem State.completeRead_spec {s : State} (hl : s.cfg.layout.WF) (a : BitVec 8) :
    (s.completeRead a).eeDone = 1 ∧ (s.completeRead a).eeData = s.eepromWord a := by
  obtain ⟨hdata, hdone, -⟩ := eerd_completed hl (s.reg .eerd) (s.eepromWord a)
  exact ⟨hdone, hdata⟩

theorem State.eepromWord_congr {s t : State} (h : t.cfg = s.cfg) (a : BitVec 8) : t.eepromWord a = s.eepromWord a := by
  simp only [State.eepromWord, h]

/-- Where EE_COMPLETE runs on a pending read, the read is completed (R182). -/
theorem Execution.completeRead {a : BitVec 8} (h : Execution σ ε) (hn : Runs σ ε n .eeComplete)
    (ha : (σ n).eePending = some a) : σ (n + 1) = (σ n).completeRead a :=
  Host.Outcome.next.inj ((h.exec_of_runs hn).symm.trans (execEeComplete_pending ha))

/-- In an execution fair to EEU a pending read is completed, nothing taking it back meanwhile (R181). -/
theorem Execution.read_completes {a : BitVec 8} (h : Execution σ ε) (hfair : FairEeu σ ε) (hw : (σ n).cfg.WF)
    (ha : (σ n).eePending = some a) :
    ∃ m, n ≤ m ∧ (∀ k, n ≤ k → k ≤ m → (σ k).eePending = some a) ∧ (σ (m + 1)).eePending = none ∧
      (σ (m + 1)).eeDone = 1 ∧ (σ (m + 1)).eeData = (σ n).eepromWord a := by
  obtain ⟨m, hm, hmade⟩ := hfair n
  obtain ⟨k, hk, hrun, hall⟩ := exists_until (P := fun k => (σ k).eePending = some a)
    (Q := fun k => Runs σ ε k .eeComplete) hm ha
    (fun k _ hk hno => (h.eePending hno (by simp [hk])).trans hk) fun hp => hmade (by simp [hp])
  have hcfg := h.cfg_eq hk
  obtain ⟨hdone, hdata⟩ := State.completeRead_spec (s := σ k) (hcfg ▸ hw.fields) a
  refine ⟨k, hk, hall, ?_⟩
  rw [h.completeRead hrun (hall k hk (Nat.le_refl k))]
  exact ⟨rfl, hdone, hdata.trans (State.eepromWord_congr hcfg a)⟩

/-- Software spins on a read that is under way. -/
def Spins (i : Instr) (a : BitVec 8) (s : State) : Prop := s.Polls i ∧ s.eePending = some a ∧ s.eeDone = 0

/-- Software spins on a read that is over. -/
def SpinsDone (i : Instr) (d : Half) (s : State) : Prop :=
  s.Polls i ∧ s.eePending = none ∧ s.eeDone = 1 ∧ s.eeData = d

theorem Spins.congr {i : Instr} {a : BitVec 8} {s t : State} (h : Spins i a s) (ht : t.readView = s.readView) :
    Spins i a t := by
  obtain ⟨hpolls, hp, hd⟩ := h
  obtain ⟨hc, hplace, hreg, hpend⟩ := readView_eq_iff.1 ht
  exact ⟨hpolls.congr hplace, hpend.trans hp, by rw [State.eeDone, hc, hreg]; exact hd⟩

theorem SpinsDone.congr {i : Instr} {d : Half} {s t : State} (h : SpinsDone i d s) (ht : t.readView = s.readView) :
    SpinsDone i d t := by
  obtain ⟨hpolls, hp, hd, hdata⟩ := h
  obtain ⟨hc, hplace, hreg, hpend⟩ := readView_eq_iff.1 ht
  exact ⟨hpolls.congr hplace, hpend.trans hp, by rw [State.eeDone, hc, hreg]; exact hd,
    by rw [State.eeData, hc, hreg]; exact hdata⟩

section
variable {i : Instr} (h : Execution σ ε) (hno : ∀ v, ¬ Runs σ ε n (.wrEerd v))
include h hno

/-- One moment of a spin: the poll, EE_COMPLETE, or nothing the spin sees. -/
theorem Execution.spin_next (hs : (σ n).Polls i) :
    Runs σ ε n i ∨ Runs σ ε n .eeComplete ∨ (σ (n + 1)).readView = (σ n).readView := by
  rcases h.next n with ⟨m, hm⟩ | ⟨j, hj, he⟩
  · exact .inr (.inr (envMove_readView hm))
  · rcases hs.exec_cases he (h.unmarked (n + 1)) with rfl | rfl | ⟨v, rfl⟩ | hview
    · exact .inl hj
    · exact .inr (.inl hj)
    · exact absurd hj (hno v)
    · exact .inr (.inr hview)

theorem Execution.spins {a : BitVec 8} (hs : Spins i a (σ n)) (hn : ¬ Runs σ ε n .eeComplete) :
    Spins i a (σ (n + 1)) := by
  obtain ⟨hpolls, hp, hd⟩ := hs
  refine Spins.congr ⟨hpolls, hp, hd⟩ ?_
  rcases h.spin_next hno hpolls with hi | hc | hview
  · rw [← Host.Outcome.next.inj ((hpolls.exec_again (by simp [hd])).symm.trans (h.exec_of_runs hi))]
    rfl
  · exact absurd hc hn
  · exact hview

theorem Execution.spinsDone {d : Half} (hs : SpinsDone i d (σ n)) (hn : ¬ Runs σ ε n i) :
    SpinsDone i d (σ (n + 1)) := by
  obtain ⟨hpolls, hp, hd⟩ := hs
  refine SpinsDone.congr ⟨hpolls, hp, hd⟩ ?_
  rcases h.spin_next hno hpolls with hi | hc | hview
  · exact absurd hi hn
  · rw [← Host.Outcome.next.inj ((execEeComplete_idle hp).symm.trans (h.exec_of_runs hc))]
  · exact hview

end

/-- Software that stands in the spin and is scheduled again and again returns the word (R181). -/
theorem Execution.spin_returns {i : Instr} {a : BitVec 8} (h : Execution σ ε) (hfair : FairEeu σ ε)
    (hw : (σ n).cfg.WF) (hs : Spins i a (σ n)) (hsched : ∀ k, n ≤ k → (σ k).Polls i → ∃ m, k ≤ m ∧ Runs σ ε m i)
    (hno : ∀ m v, n ≤ m → ¬ Runs σ ε m (.wrEerd v)) :
    ∃ m, n ≤ m ∧ Runs σ ε m i ∧ ¬ (σ (m + 1)).Polls i ∧
      (σ (m + 1)).results = (σ m).results ++ [⟨.eerdReadWord, .okWord ((σ n).eepromWord a)⟩] := by
  obtain ⟨m, hm, hmade⟩ := hfair n
  obtain ⟨k, hk, hrun, hall⟩ := exists_until (P := fun k => Spins i a (σ k)) (Q := fun k => Runs σ ε k .eeComplete) hm
    hs (fun k hk hspin hn => h.spins (fun v => hno k v hk) hspin hn) fun ⟨_, hp, _⟩ => hmade (by simp [hp])
  obtain ⟨hpolls, hp, -⟩ := hall k hk (Nat.le_refl k)
  have hcfg := h.cfg_eq hk
  obtain ⟨hdone, hdata⟩ := State.completeRead_spec (s := σ k) (hcfg ▸ hw.fields) a
  have hover : SpinsDone i ((σ n).eepromWord a) (σ (k + 1)) := by
    rw [h.completeRead hrun hp]
    exact ⟨hpolls.congr rfl, rfl, hdone, hdata.trans (State.eepromWord_congr hcfg a)⟩
  obtain ⟨m', hm', hrun'⟩ := hsched (k + 1) (by omega) hover.1
  obtain ⟨q, hq, hqrun, hqall⟩ := exists_until (P := fun k => SpinsDone i ((σ n).eepromWord a) (σ k))
    (Q := fun k => Runs σ ε k i) hm' hover (fun j hj hspin hn => h.spinsDone (fun v => hno j v (by omega)) hspin hn)
    fun _ => hrun'
  obtain ⟨hqpolls, -, hqdone, hqdata⟩ := hqall q hq (Nat.le_refl q)
  obtain ⟨hend, hres⟩ := hqpolls.exec_done hqdone (h.exec_of_runs hqrun)
  exact ⟨q, by omega, hqrun, hend, hqdata ▸ hres⟩

end

/-! The run whose poll never ends. -/

/-- The state after `n` polls of EERD. -/
def State.pollTimes (s : State) : Nat → State
  | 0 => s
  | n + 1 => (s.pollTimes n).pollEerd

theorem State.pollTimes_eq (s : State) (n : Nat) : ∃ v k, s.pollTimes n = s.polled v k := by
  induction n with
  | zero => exact ⟨s.busData, s.draws, rfl⟩
  | succ n ih =>
    obtain ⟨v, k, hv⟩ := ih
    rw [State.pollTimes, hv]
    exact ⟨_, _, rfl⟩

theorem State.Polls.decode_encode {s : State} {i : Instr} (h : s.Polls i) (c : Config) :
    decode c (encode c i) = .ok i ∧ i ≠ .eeComplete := by
  obtain ⟨-, ⟨a, rfl, -⟩ | ⟨a, st, rfl, -⟩⟩ := h
  · exact ⟨decode_encode_eerdReadWord c a, by simp⟩
  · exact ⟨decode_encode_attach c a, by simp⟩

/-- Settles O29: a fair execution completes the read and then polls once more; polling for ever is not fair. -/
theorem spinTerminatesUnderFairness : Obligations.SpinTerminatesUnderFairness := by
  refine ⟨fun σ ε n a h hfair hw ha => ⟨h.read_completes hfair hw ha, fun i hi hd hsched hno =>
    h.spin_returns hfair hw ⟨hi, ha, hd⟩ hsched hno⟩, fun s i a hsch hr hi ha hd => ?_⟩
  obtain ⟨hdec, hne⟩ := hi.decode_encode s.cfg
  have hkeeps : ∀ n, (s.pollTimes n).cfg = s.cfg ∧ (s.pollTimes n).schedule = [] ∧ (s.pollTimes n).refused = none ∧
      Spins i a (s.pollTimes n) ∧ (s.pollTimes n).results = s.results := fun n => by
    obtain ⟨v, k, hv⟩ := s.pollTimes_eq n
    rw [hv]
    exact ⟨rfl, hsch, hr, Spins.congr ⟨hi, ha, hd⟩ rfl, rfl⟩
  have hruns : ∀ n, Runs s.pollTimes (fun _ => .op (encode s.cfg i)) n i := fun n =>
    ⟨_, rfl, (hkeeps n).1 ▸ hdec⟩
  refine ⟨s.pollTimes, fun _ => .op (encode s.cfg i), rfl, ⟨fun n => (hkeeps n).2.1, fun n => ?_⟩, fun hfair => ?_,
    fun n => ?_⟩
  · obtain ⟨hc, hsch, hr, ⟨hpolls, -, hd⟩, -⟩ := hkeeps n
    have hdecn : decode (s.pollTimes n).cfg (encode s.cfg i) = .ok i := by rw [hc, hdec]
    rw [step_instr (s := { s.pollTimes n with schedule := [.op (encode s.cfg i)] }) hr rfl hdecn,
      State.withSchedule_nil hsch]
    exact hpolls.exec_again (by simp [hd])
  · obtain ⟨m, -, hmade⟩ := hfair 0
    obtain ⟨hc, -, -, ⟨-, hp, -⟩, -⟩ := hkeeps m
    obtain ⟨r, hr, hdr⟩ := hmade (by simp [hp])
    cases hr
    rw [hc, hdec] at hdr
    exact hne (Except.ok.inj hdr)
  · obtain ⟨-, -, -, ⟨hpolls, hp, -⟩, hres⟩ := hkeeps n
    exact ⟨hruns n, hpolls, hp, hres⟩

end Sys2Proof.Machine

/-! ### TRANSMIT, RECEIVE, TX_FETCH and TX_COMPLETE, call by call (R200 to R205, R211, R230, R301) -/

namespace Sys2Proof.Machine

section
variable {s t : State} {payload : Frame}

theorem exec_transmit_tooLarge (hr : s.SwReady) (hl : s.cfg.maxFrameLen < payload.length) :
    exec (.transmit payload) s = .next (s.returns .transmit (.err .payloadTooLarge)) := by
  simp [exec, execTransmit, hr.transmitOp_eq, hl, Except.map]

theorem exec_transmit_queueFull (hr : s.SwReady) (hl : payload.length ≤ s.cfg.maxFrameLen)
    (ht : s.txTail < s.cfg.nTx) (hf : s.txFlag s.txTail = false) :
    exec (.transmit payload) s = .next (s.returns .transmit (.err .queueFull)) := by
  simp [exec, execTransmit, hr.transmitOp_eq, Nat.not_lt.2 hl, Nat.not_le.2 ht, hf, Except.map]

/-- After a TRANSMIT that armed its slot. -/
def State.transmitted (s : State) (payload : Frame) : State :=
  (s.armSlot payload.length payload).returns .transmit .ok

theorem transmitOp_ok (hr : s.SwReady) (hl : payload.length ≤ s.cfg.maxFrameLen) (ht : s.txTail < s.cfg.nTx)
    (hf : s.txFlag s.txTail = true) : transmitOp payload.length payload s = .ok (none, s.transmitted payload) := by
  simp [hr.transmitOp_eq, Nat.not_lt.2 hl, Nat.not_le.2 ht, hf, State.transmitted]

theorem exec_transmit_ok (hr : s.SwReady) (hl : payload.length ≤ s.cfg.maxFrameLen) (ht : s.txTail < s.cfg.nTx)
    (hf : s.txFlag s.txTail = true) : exec (.transmit payload) s = .next (s.transmitted payload) := by
  rw [exec, execTransmit, transmitOp_ok hr hl ht hf]
  rfl

section
variable (s) (payload)

@[simp] theorem State.transmitted_cfg : (s.transmitted payload).cfg = s.cfg := by simp [State.transmitted]
@[simp] theorem State.transmitted_wireOut : (s.transmitted payload).wireOut = s.wireOut := by simp [State.transmitted]
@[simp] theorem State.transmitted_wireIn : (s.transmitted payload).wireIn = s.wireIn := by simp [State.transmitted]
@[simp] theorem State.transmitted_place : (s.transmitted payload).place = s.place := by
  simp [State.place, State.transmitted]
@[simp] theorem State.transmitted_results :
    (s.transmitted payload).results = s.results ++ [⟨.transmit, .ok⟩] := by simp [State.transmitted]

end

theorem State.reg_transmitted_ne {r : Reg} (hr : r ≠ .tdt) : (s.transmitted payload).reg r = s.reg r := by
  rw [State.transmitted, State.reg_returns, State.reg, State.armSlot_regs, RegFile.get_set_ne _ _ hr]
  rfl

theorem ArmedSlot.returns {i : Nat} (h : ArmedSlot s t i payload) (op : DriverOp) (r : Result) :
    ArmedSlot s (t.returns op r) i payload := ⟨h.length, h.status, h.cmd, h.addr, h.buffer⟩

theorem State.reg_transmitted_tdt :
    (s.transmitted payload).reg .tdt = indexWord (nextIndex s.txTail s.cfg.nTx) := by
  rw [State.transmitted, State.reg_returns, State.reg, State.armSlot_regs, RegFile.get_set_same]

/-- TRANSMIT stores nothing outside its slot's buffer, length, command and status. -/
theorem transmitOp_get_outside {len : Nat} {e : Option ErrKind} (h : transmitOp len payload s = .ok (e, t)) {a : Nat}
    (hbuf : Mem.Outside (s.cfg.txBufBase s.txTail).toNat payload.length a)
    (hlen : Mem.Outside (s.txdBase s.txTail + 8) 2 a) (hcmd : Mem.Outside (s.txdBase s.txTail + 11) 2 a) :
    Mem.get t.mem a = Mem.get s.mem a := by
  rcases (transmitOp_cases h).2 with ⟨-, -, rfl⟩ | ⟨-, -, -, -, rfl⟩ | ⟨-, -, -, -, rfl⟩
  · rfl
  · rfl
  · exact s.armSlot_get_outside len payload a hbuf hlen hcmd

/-- Settles O37: the length, then the flag at the tail, then the stores of an armed slot. -/
theorem transmitEffect : Obligations.TransmitEffect := by
  refine ⟨fun _ => rfl, fun s payload hr => ⟨exec_transmit_tooLarge hr, exec_transmit_queueFull hr,
    fun hl ht hf hw => ?_⟩⟩
  have hslot : ArmedSlot s (s.transmitted payload) s.txTail payload :=
    (State.armSlot_spec hw ht (hl.trans hw.maxFrame_le)).returns _ _
  have htail : (s.transmitted payload).txTail = nextIndex s.txTail s.cfg.nTx := by simp [State.transmitted]
  have hop := transmitOp_ok hr hl ht hf
  obtain ⟨hrest, hreg⟩ := transmitOp_frame hop
  exact ⟨_, exec_transmit_ok hr hl ht hf, hslot.buffer, hslot.length, hslot.status, hslot.cmd, htail,
    State.reg_transmitted_tdt, s.transmitted_results payload, fun _ => transmitOp_get_outside hop, hreg, hrest⟩

/-- RECEIVE stores nothing outside the candidate slot's status. -/
theorem receiveOp_get_outside {out : List Byte} {r : Option (Nat × List Byte)} (h : receiveOp out s = .ok (r, t))
    {a : Nat} (ha : Mem.Outside (s.rxdBase s.rxCandidate + 12) 1 a) : Mem.get t.mem a = Mem.get s.mem a := by
  rcases (receiveOp_cases h).2.2.2 with ⟨-, -, rfl⟩ | ⟨-, -, -, rfl⟩
  · rfl
  · exact s.drainSlot_get_outside _ a ha

/-- Settles O38: a refusal sets the mark alone; the two operations have their frames. -/
theorem driverOperationFrames : Obligations.DriverOperationFrames := by
  refine ⟨fun s t payload h => ?_, fun s t out h => ?_⟩
  · rcases execTransmit_cases h with ⟨e, rfl⟩ | ⟨e, h⟩
    · exact ⟨fun _ _ _ _ => rfl, fun _ _ => rfl, rfl⟩
    · obtain ⟨hrest, hreg⟩ := transmitOp_frame h
      refine ⟨fun _ => transmitOp_get_outside h, hreg, ?_⟩
      rw [hrest]
  · rcases execReceive_cases h with ⟨e, rfl⟩ | h | ⟨n, data, u, hu, rfl⟩
    · exact ⟨fun _ _ => rfl, fun _ _ => rfl, rfl⟩
    · obtain ⟨hrest, hreg⟩ := receiveOp_frame h
      refine ⟨fun _ => receiveOp_get_outside h, hreg, ?_⟩
      rw [hrest]
    · obtain ⟨hrest, hreg⟩ := receiveOp_frame hu
      refine ⟨fun _ => receiveOp_get_outside hu, hreg, ?_⟩
      rw [hrest]

/-- The slot at the transmit head fetched (R204). -/
def State.fetchHead (s : State) : State :=
  { s.setReg .tdh (indexWord (nextIndex s.tdh s.txRingSize)) with txPending := s.txPending + 1 }

@[simp] theorem State.fetchHead_cfg (s : State) : s.fetchHead.cfg = s.cfg := rfl
@[simp] theorem State.fetchHead_wireOut (s : State) : s.fetchHead.wireOut = s.wireOut := rfl
@[simp] theorem State.fetchHead_wireIn (s : State) : s.fetchHead.wireIn = s.wireIn := rfl
@[simp] theorem State.fetchHead_place (s : State) : s.fetchHead.place = s.place := rfl
@[simp] theorem State.fetchHead_results (s : State) : s.fetchHead.results = s.results := rfl

theorem State.reg_fetchHead_ne {r : Reg} (hr : r ≠ .tdh) : s.fetchHead.reg r = s.reg r := RegFile.get_set_ne _ _ hr

theorem exec_txFetch_fetches (hh : s.tdh < s.cfg.nTx) (ht : s.tdt < s.cfg.nTx) (hz : s.txRingSize ≠ 0)
    (he : s.FetchEnabled) (hcmd : s.txCmd s.tdh = cmdReportEop s.cfg.layout) : exec .txFetch s = .next s.fetchHead := by
  have harm := (State.txArmed_iff he.1).2 he
  simp [exec, execTxFetch, he.1, harm, Nat.not_le.2 hh, Nat.not_le.2 ht, hz, hcmd, State.fetchHead]

theorem exec_txFetch_refuses (hh : s.tdh < s.cfg.nTx) (ht : s.tdt < s.cfg.nTx) (hz : s.txRingSize ≠ 0)
    (he : s.FetchEnabled) (hcmd : s.txCmd s.tdh ≠ cmdReportEop s.cfg.layout) : Refuses .txFetch s := by
  have harm := (State.txArmed_iff he.1).2 he
  exact ⟨.txDescriptor, by simp [exec, execTxFetch, he.1, harm, Nat.not_le.2 hh, Nat.not_le.2 ht, hz, hcmd]⟩

/-- Settles O39: the command byte of the slot at the head decides. -/
theorem txFetchEffect : Obligations.TxFetchEffect :=
  ⟨rfl, by decide, fun _ hh ht hz => ⟨exec_txFetch_fetches hh ht hz, exec_txFetch_refuses hh ht hz⟩⟩

/-- The oldest fetched slot sent and its flag set (R205). -/
def State.sendOldest (s : State) : State :=
  { s.setTxd s.txOldest .status (engineStatus s.cfg.layout.txDone (Config.draw8 s.draws)).toNat with
    wireOut := s.wireOut ++ [s.txFrame s.txOldest]
    txPending := s.txPending - 1
    draws := s.draws + 1 }

@[simp] theorem State.sendOldest_cfg (s : State) : s.sendOldest.cfg = s.cfg := rfl
@[simp] theorem State.sendOldest_wireIn (s : State) : s.sendOldest.wireIn = s.wireIn := rfl
@[simp] theorem State.sendOldest_place (s : State) : s.sendOldest.place = s.place := rfl
@[simp] theorem State.sendOldest_results (s : State) : s.sendOldest.results = s.results := rfl
@[simp] theorem State.reg_sendOldest (s : State) (r : Reg) : s.sendOldest.reg r = s.reg r := rfl

theorem exec_txComplete_sends (hp : s.txPending ≠ 0) (hh : s.tdh < s.cfg.nTx) (hz : s.txRingSize ≠ 0) :
    exec .txComplete s = .next s.sendOldest := by
  simp [exec, execTxComplete, hp, Nat.not_le.2 hh, hz, State.sendOldest]

theorem State.txFlag_sendOldest (hl : s.cfg.layout.WF) : s.sendOldest.txFlag s.txOldest = true :=
  (congrArg (flagBit s.cfg.layout.txDone) (State.txStatus_setTxd_same s _ _)).trans
    (flagBit_engineStatus _ hl.txDone)

/-- Settles O40: `d` is the oldest fetched slot, and only its status byte is stored. -/
theorem txCompleteEffect : Obligations.TxCompleteEffect := by
  refine ⟨rfl, fun s d hw hp hh hz hd => ?_⟩
  obtain rfl : s.txOldest = d := congrArg Int.toNat hd.symm
  exact ⟨s.sendOldest, exec_txComplete_sends hp hh hz, rfl, State.txFlag_sendOldest hw.fields, rfl,
    fun a => Mem.get_write_outside _ _ _ _ a, rfl⟩

end

end Sys2Proof.Machine

/-! ### The transmit ring is a queue (R206 to R209) -/

namespace Sys2Proof.Machine

/-- Slots counted from the one after `d`. -/
theorem slot_after (d j n : Nat) : (nextIndex d n + j) % n = (d + (j + 1)) % n := by
  rw [nextIndex, Nat.mod_add_mod, Nat.add_assoc, Nat.add_comm 1 j]

/-- A slot counted round the whole ring is the first again. -/
theorem slot_around (d n : Nat) : (d + n) % n = (d + 0) % n := Nat.add_mod_right d n

section
variable {s t : State} {d m p i : Nat} {payload : Frame}

theorem State.txFlag_congr (hc : t.cfg = s.cfg) (h : t.txd i .status = s.txd i .status) : t.txFlag i = s.txFlag i := by
  rw [State.txFlag, State.txStatus, h, hc]
  rfl

theorem State.txCmd_congr (h : t.txd i .cmd = s.txd i .cmd) : t.txCmd i = s.txCmd i := by
  rw [State.txCmd, h]
  rfl

theorem TxRing.first_eq (h : TxRing s d m p) : (d + 0) % s.cfg.nTx = d := Nat.mod_eq_of_lt h.oldest_lt

/-- Software owns the slot at the tail exactly when the ring is not full (R208). -/
theorem TxRing.txFlag_txTail (h : TxRing s d m p) : s.txFlag s.txTail = decide (m < s.cfg.nTx) := by
  rcases Nat.lt_or_eq_of_le h.inFlight_le with hlt | heq
  · rw [h.tail, h.flags m hlt, decide_eq_true hlt, decide_eq_true (Nat.le_refl m)]
  · have hpos := Nat.zero_lt_of_lt h.oldest_lt
    rw [h.tail, heq, slot_around, h.flags 0 hpos, decide_eq_false (by omega), decide_eq_false (by omega)]

/-- The frame of a slot bound to its buffer lies there. -/
theorem TxRing.txFrame_eq (h : TxRing s d m p) (hi : i < s.cfg.nTx) :
    s.txFrame i = Mem.readBytes s.mem (s.cfg.txBufBase i).toNat (s.txd i .length) := by
  rw [State.txFrame, h.bound i hi]

/-! TRANSMIT arms the slot at the tail. -/

section
variable (h : TxRing s d m p) (hw : s.cfg.WF) (hm : m < s.cfg.nTx) (hl : payload.length ≤ s.cfg.maxFrameLen)
include h hw hl

theorem TxRing.armedSlot : ArmedSlot s (s.armSlot payload.length payload) s.txTail payload :=
  State.armSlot_spec hw h.txTail_lt (hl.trans hw.maxFrame_le)

theorem TxRing.txd_armSlot (hi : i < s.cfg.nTx) (hne : s.txTail ≠ i) (g : TxField) :
    (s.armSlot payload.length payload).txd i g = s.txd i g :=
  State.armSlot_txd_other hw h.txTail_lt (hl.trans hw.maxFrame_le) hi hne g

include hm

theorem TxRing.armSlot : TxRing (s.armSlot payload.length payload) d (m + 1) p := by
  have hslot := h.armedSlot hw hl
  have hother : ∀ i < s.cfg.nTx, s.txTail ≠ i → ∀ g, (s.armSlot payload.length payload).txd i g = s.txd i g :=
    fun i hi hne => h.txd_armSlot hw hl hi hne
  have htail : ∀ j < s.cfg.nTx, j ≠ m → s.txTail ≠ (d + j) % s.cfg.nTx := fun j hj hne he =>
    hne (slot_inj hm hj (h.tail.symm.trans he)).symm
  have hcmd : (s.armSlot payload.length payload).txCmd s.txTail = cmdReportEop s.cfg.layout :=
    hslot.cmd.trans (armCmd_eq (h.commands _ h.txTail_lt))
  have hnext : nextIndex s.txTail s.cfg.nTx = (d + (m + 1)) % s.cfg.nTx := by rw [h.tail, nextIndex_add]
  have hnTx := hw.nTx_le
  exact {
    oldest_lt := h.oldest_lt
    fetched_le := Nat.le_succ_of_le h.fetched_le
    inFlight_le := hm
    pending := h.pending
    head := h.head
    tail := hnext
    published := indexWord_toNat (hnext ▸ (h.slot_lt (m + 1)).trans (by omega))
    size := h.size
    flags := fun j hj => by
      by_cases hjm : j = m
      · subst hjm
        rw [State.armSlot_cfg, ← h.tail, State.txFlag, hslot.status, State.armSlot_cfg, flagBit_clearFlag,
          decide_eq_false (by omega)]
      · have hiff : m + 1 ≤ j ↔ m ≤ j := by omega
        rw [decide_eq_decide.2 hiff, ← h.flags j hj]
        exact State.txFlag_congr rfl (hother _ (h.slot_lt j) (htail j hj hjm) _)
    armed := fun j hj => by
      by_cases hjm : j = m
      · subst hjm
        rw [State.armSlot_cfg, ← h.tail, hslot.length]
        exact ⟨hcmd, hl⟩
      · have hne := htail j (by omega) hjm
        rw [State.armSlot_cfg, State.txCmd_congr (hother _ (h.slot_lt j) hne _), hother _ (h.slot_lt j) hne]
        exact h.armed j (by omega)
    commands := fun i hi => by
      by_cases hi' : s.txTail = i
      · exact .inr (hi' ▸ hcmd)
      · rw [State.txCmd_congr (hother i hi hi' _)]
        exact h.commands i hi
    bound := fun i hi => by
      by_cases hi' : s.txTail = i
      · exact hi' ▸ hslot.addr.trans (h.bound _ h.txTail_lt)
      · exact (hother i hi hi' _).trans (h.bound i hi) }

/-- The payload joins the frames in flight, at the end. -/
theorem TxRing.txFrames_armSlot :
    txFrames (s.armSlot payload.length payload) d (m + 1) = txFrames s d m ++ [payload] := by
  have hslot := h.armedSlot hw hl
  have hu := h.armSlot hw hm hl
  rw [txFrames, List.range_succ, List.map_append, List.map_singleton]
  congr 1
  · refine List.map_congr_left fun j hj => ?_
    have hj := List.mem_range.1 hj
    have hne : s.txTail ≠ (d + j) % s.cfg.nTx := fun he =>
      absurd (slot_inj hm (hj.trans hm) (h.tail.symm.trans he)) (by omega)
    rw [State.armSlot_cfg, hu.txFrame_eq (h.slot_lt j), h.txFrame_eq (h.slot_lt j), State.armSlot_cfg,
      h.txd_armSlot hw hl (h.slot_lt j) hne]
    exact State.armSlot_txBuf_other hw h.txTail_lt (hl.trans hw.maxFrame_le) (h.slot_lt j) hne
      ((h.armed j hj).2.trans hw.maxFrame_le)
  · rw [State.armSlot_cfg, ← h.tail, hu.txFrame_eq h.txTail_lt, hslot.length, State.armSlot_cfg, hslot.buffer]

end

theorem TxRing.returns (h : TxRing s d m p) (op : DriverOp) (r : Result) : TxRing (s.returns op r) d m p :=
  h.transport rfl rfl rfl rfl rfl rfl fun _ _ _ => rfl

theorem txFrames_returns (s : State) (op : DriverOp) (r : Result) (d m : Nat) :
    txFrames (s.returns op r) d m = txFrames s d m := rfl

/-- TRANSMIT of an admitted payload on a ring that is not full. -/
theorem TxRing.exec_transmit (h : TxRing s d m p) (hr : s.SwReady) (hm : m < s.cfg.nTx)
    (hl : payload.length ≤ s.cfg.maxFrameLen) : exec (.transmit payload) s = .next (s.transmitted payload) :=
  exec_transmit_ok hr hl h.txTail_lt (h.txFlag_txTail.trans (decide_eq_true hm))

theorem TxRing.exec_transmit_full (h : TxRing s d s.cfg.nTx p) (hr : s.SwReady)
    (hl : payload.length ≤ s.cfg.maxFrameLen) :
    exec (.transmit payload) s = .next (s.returns .transmit (.err .queueFull)) :=
  exec_transmit_queueFull hr hl h.txTail_lt (h.txFlag_txTail.trans (decide_eq_false (Nat.lt_irrefl _)))

theorem TxRing.transmitted (h : TxRing s d m p) (hw : s.cfg.WF) (hm : m < s.cfg.nTx)
    (hl : payload.length ≤ s.cfg.maxFrameLen) : TxRing (s.transmitted payload) d (m + 1) p :=
  (h.armSlot hw hm hl).returns _ _

theorem TxRing.txFrames_transmitted (h : TxRing s d m p) (hw : s.cfg.WF) (hm : m < s.cfg.nTx)
    (hl : payload.length ≤ s.cfg.maxFrameLen) :
    txFrames (s.transmitted payload) d (m + 1) = txFrames s d m ++ [payload] :=
  (txFrames_returns _ _ _ d (m + 1)).trans (h.txFrames_armSlot hw hm hl)

/-! TX_FETCH passes the oldest slot that is armed and not yet fetched. -/

/-- Head and tail differ unless all slots in flight are fetched or all slots are in flight and none is. -/
theorem TxRing.tdh_ne_tdt (h : TxRing s d m p) : s.reg .tdh ≠ s.reg .tdt ↔ 0 < m - p ∧ m - p < s.cfg.nTx := by
  have hpm := h.fetched_le
  have hmn := h.inFlight_le
  have heq : s.reg .tdh = s.reg .tdt ↔ (d + p) % s.cfg.nTx = (d + m) % s.cfg.nTx := by
    rw [← h.head, ← h.tail, ← h.published]
    exact BitVec.toNat_inj.symm
  rw [Ne, heq]
  rcases Nat.lt_or_eq_of_le hmn with hlt | hfull
  · have hinj : (d + p) % s.cfg.nTx = (d + m) % s.cfg.nTx ↔ p = m :=
      ⟨slot_inj (by omega) hlt, fun he => he ▸ rfl⟩
    rw [hinj]
    omega
  · rw [hfull, slot_around]
    rcases Nat.lt_or_eq_of_le (hfull ▸ hpm) with hp | hp
    · have hinj : (d + p) % s.cfg.nTx = (d + 0) % s.cfg.nTx ↔ p = 0 :=
        ⟨slot_inj hp (by omega), fun he => he ▸ rfl⟩
      rw [hinj]
      omega
    · rw [hp, slot_around]
      simp

/-- The slot at the head may be fetched under `flag_gated` exactly when one in flight is not yet (R207). -/
theorem TxRing.txFlag_tdh (h : TxRing s d m p) :
    s.txFlag s.tdh = false ∧ s.txPending < s.cfg.nTx ↔ 0 < m - p := by
  have hpm := h.fetched_le
  have hmn := h.inFlight_le
  rw [h.pending]
  by_cases hp : p < s.cfg.nTx
  · rw [h.head, h.flags p hp, decide_eq_false_iff_not]
    omega
  · omega

theorem TxRing.fetchEnabled_iff (h : TxRing s d m p) (hen : s.txEnabled = true) : s.FetchEnabled ↔
    (s.cfg.txArmRule = .tailGated ∧ 0 < m - p ∧ m - p < s.cfg.nTx) ∨ (s.cfg.txArmRule = .flagGated ∧ 0 < m - p) := by
  rw [State.FetchEnabled, h.tdh_ne_tdt, h.txFlag_tdh]
  simp [hen]

theorem TxRing.exec_txFetch (h : TxRing s d m p) (hw : s.cfg.WF) (he : s.FetchEnabled) :
    exec .txFetch s = .next s.fetchHead :=
  exec_txFetch_fetches h.tdh_lt h.tdt_lt (h.txRingSize_ne hw) he (h.txCmd_of_enabled he)

theorem TxRing.fetchHead (h : TxRing s d m p) (hw : s.cfg.WF) (hp : p < m) : TxRing s.fetchHead d m (p + 1) where
  oldest_lt := h.oldest_lt
  fetched_le := hp
  inFlight_le := h.inFlight_le
  pending := congrArg (· + 1) h.pending
  head := by
    have hle := hw.nTx_le
    have hlt := h.slot_lt (p + 1)
    have hnext : nextIndex s.tdh s.txRingSize = (d + (p + 1)) % s.cfg.nTx := by
      rw [h.head, State.txRingSize_eq h.size hw, nextIndex_add]
    exact (indexWord_toNat (by omega)).trans hnext
  tail := h.tail
  published := h.published
  size := h.size
  flags := h.flags
  armed := h.armed
  commands := h.commands
  bound := h.bound

theorem txFrames_fetchHead (s : State) (d m : Nat) : txFrames s.fetchHead d m = txFrames s d m := rfl

/-! TX_COMPLETE gives the oldest slot back. -/

theorem TxRing.txOldest_eq (h : TxRing s d m p) (hw : s.cfg.WF) : s.txOldest = d :=
  State.txOldest_eq (State.txRingSize_eq h.size hw) h.oldest_lt h.head h.pending

theorem TxRing.wireOut_sendOldest (h : TxRing s d m p) (hw : s.cfg.WF) :
    s.sendOldest.wireOut = s.wireOut ++ [s.txFrame d] :=
  congrArg (fun i => s.wireOut ++ [s.txFrame i]) (h.txOldest_eq hw)

theorem TxRing.exec_txComplete (h : TxRing s d m p) (hw : s.cfg.WF) (hp : 0 < p) :
    exec .txComplete s = .next s.sendOldest :=
  exec_txComplete_sends (by have := h.pending; omega) h.tdh_lt (h.txRingSize_ne hw)

/-- Of a descriptor only the oldest slot's status changes. -/
theorem TxRing.txd_sendOldest (h : TxRing s d m p) (hw : s.cfg.WF) (hi : i < s.cfg.nTx) {g : TxField}
    (hne : d ≠ i ∨ TxField.status ≠ g) : s.sendOldest.txd i g = s.txd i g := by
  have hd := h.txOldest_eq hw
  exact State.txd_setTxd_other _ (hd ▸ hne) hw.descSize_le (State.txdBase_end hw (hd ▸ h.oldest_lt))
    (State.txdBase_end hw hi)

theorem TxRing.sendOldest (h : TxRing s d m p) (hw : s.cfg.WF) (hp : 0 < p) :
    TxRing s.sendOldest (nextIndex d s.cfg.nTx) (m - 1) (p - 1) := by
  have hpm := h.fetched_le
  have hmn := h.inFlight_le
  have hpos := hw.nTx_pos
  have hslot : ∀ j, (nextIndex d s.cfg.nTx + j) % s.cfg.nTx = (d + (j + 1)) % s.cfg.nTx := fun j => slot_after d j _
  have hother : ∀ i < s.cfg.nTx, ∀ {g}, TxField.status ≠ g → s.sendOldest.txd i g = s.txd i g :=
    fun i hi _ hg => h.txd_sendOldest hw hi (.inr hg)
  exact {
    oldest_lt := nextIndex_lt hpos
    fetched_le := by omega
    inFlight_le := (Nat.sub_le m 1).trans hmn
    pending := congrArg (· - 1) h.pending
    head := h.head.trans (by rw [State.sendOldest_cfg, hslot, Nat.sub_add_cancel hp])
    tail := h.tail.trans (by rw [State.sendOldest_cfg, hslot, Nat.sub_add_cancel (by omega)])
    published := h.published
    size := h.size
    flags := fun j hj => by
      have hj : j < s.cfg.nTx := hj
      rw [State.sendOldest_cfg, hslot]
      by_cases hlast : j + 1 = s.cfg.nTx
      · rw [hlast, slot_around, h.first_eq, ← h.txOldest_eq hw, State.txFlag_sendOldest hw.fields,
          decide_eq_true (by omega)]
      · have hne : d ≠ (d + (j + 1)) % s.cfg.nTx := fun he =>
          absurd (slot_inj hpos (by omega) (h.first_eq.trans he)) (by omega)
        have hiff : m - 1 ≤ j ↔ m ≤ j + 1 := by omega
        rw [decide_eq_decide.2 hiff, ← h.flags (j + 1) (by omega)]
        exact State.txFlag_congr rfl (h.txd_sendOldest hw (h.slot_lt _) (.inl hne))
    armed := fun j hj => by
      rw [State.sendOldest_cfg, hslot, State.txCmd_congr (hother _ (h.slot_lt _) (by decide)),
        hother _ (h.slot_lt _) (by decide)]
      exact h.armed (j + 1) (by omega)
    commands := fun i hi => by
      rw [State.txCmd_congr (hother i hi (by decide))]
      exact h.commands i hi
    bound := fun i hi => (hother i hi (by decide)).trans (h.bound i hi) }

theorem TxRing.txFrame_sendOldest (h : TxRing s d m p) (hw : s.cfg.WF) (hi : i < s.cfg.nTx)
    (hlen : s.txd i .length ≤ s.cfg.maxFrameLen) : s.sendOldest.txFrame i = s.txFrame i := by
  rw [State.txFrame, h.txd_sendOldest hw hi (.inr (by decide)), h.txd_sendOldest hw hi (.inr (by decide)), h.bound i hi,
    h.txFrame_eq hi]
  exact State.setTxd_txBuf hw (h.txOldest_eq hw ▸ h.oldest_lt) hi (hlen.trans hw.maxFrame_le) _ _

/-- The frames in flight are the oldest, which is sent, and those left after it. -/
theorem TxRing.txFrames_sendOldest (h : TxRing s d m p) (hw : s.cfg.WF) (hp : 0 < p) :
    txFrames s d m = s.txFrame d :: txFrames s.sendOldest (nextIndex d s.cfg.nTx) (m - 1) := by
  have hpm := h.fetched_le
  obtain ⟨m, rfl⟩ : ∃ k, m = k + 1 := ⟨m - 1, by omega⟩
  rw [txFrames, List.range_succ_eq_map, List.map_cons, List.map_map, h.first_eq]
  congr 1
  refine List.map_congr_left fun j hj => ?_
  have hj := List.mem_range.1 hj
  have hslot : (nextIndex d s.cfg.nTx + j) % s.sendOldest.cfg.nTx = (d + (j + 1)) % s.cfg.nTx := slot_after d j _
  rw [hslot, h.txFrame_sendOldest hw (h.slot_lt _) (h.armed (j + 1) (by omega)).2]
  rfl

end

/-- Settles O54, operation by operation. -/
theorem transmitRingIsAQueue : Obligations.TransmitRingIsAQueue := by
  refine fun s d m p hw hr h => ⟨fun payload hl hm => ?_, fun payload hl hm => ?_, h.fetchEnabled_iff, fun he => ?_,
    fun hp => ?_⟩
  · exact ⟨_, h.exec_transmit hr hm hl, h.transmitted hw hm hl, h.txFrames_transmitted hw hm hl, rfl⟩
  · subst hm
    exact h.exec_transmit_full hr hl
  · exact ⟨_, h.exec_txFetch hw he, h.fetchHead hw (h.fetched_lt_of_enabled he), txFrames_fetchHead s d m,
      rfl⟩
  · exact ⟨_, _, _, h.exec_txComplete hw hp, h.txFrames_sendOldest hw hp, h.wireOut_sendOldest hw,
      h.sendOldest hw hp, rfl⟩

end Sys2Proof.Machine

/-! ### TRANSMIT fills the ring (R208, R209) -/

namespace Sys2Proof.Machine

/-- From `s` to `t` TRANSMIT took these payloads, one after the other, into a ring of `m` slots in flight. -/
structure TookPayloads (s t : State) (d m p : Nat) (payloads : List Frame) : Prop where
  cfg : t.cfg = s.cfg
  ready : t.SwReady
  ring : TxRing t d (m + payloads.length) p
  frames : txFrames t d (m + payloads.length) = txFrames s d m ++ payloads
  results : t.results = s.results ++ List.replicate payloads.length ⟨.transmit, .ok⟩

theorem TxRing.runOps_transmit {s : State} {d m p : Nat} {payloads : List Frame} (h : TxRing s d m p) (hw : s.cfg.WF)
    (hr : s.SwReady) (hlen : m + payloads.length ≤ s.cfg.nTx)
    (hl : ∀ f ∈ payloads, f.length ≤ s.cfg.maxFrameLen) :
    ∃ t, runOps (payloads.map .transmit) s = some t ∧ TookPayloads s t d m p payloads := by
  induction payloads generalizing s m with
  | nil => exact ⟨s, rfl, rfl, hr, h, by simp, by simp⟩
  | cons f fs ih =>
    obtain ⟨hf, hfs⟩ := List.forall_mem_cons.1 hl
    rw [List.length_cons] at hlen
    have hm : m < s.cfg.nTx := by omega
    have hassoc : m + (fs.length + 1) = m + 1 + fs.length := by omega
    obtain ⟨t, ht, hcfg, hready, hring, hframes, hresults⟩ :=
      ih (h.transmitted hw hm hf) hw hr (hassoc ▸ hlen) hfs
    refine ⟨t, (runOps_cons_next (h.exec_transmit hr hm hf)).trans ht, hcfg, hready, ?_, ?_, ?_⟩
    · rw [List.length_cons, hassoc]
      exact hring
    · rw [List.length_cons, hassoc, hframes, h.txFrames_transmitted hw hm hf, List.append_assoc]
      rfl
    · rw [hresults, State.transmitted, State.returns_results, State.armSlot_results, List.append_assoc]
      rfl

/-- Settles O56: a call for every slot, then a call on the full ring. -/
theorem transmitCapacity : Obligations.TransmitCapacity := by
  intro s d payloads last hw hr h hlen hl hlast
  obtain ⟨t, hrun, hcfg, hready, hring, hframes, hresults⟩ :=
    h.runOps_transmit hw hr (by omega) hl
  rw [Nat.zero_add, hlen] at hring hframes
  rw [hlen] at hresults
  refine ⟨t, hrun, hring, hframes.trans rfl, hresults, ?_⟩
  exact (hcfg ▸ hring : TxRing t d t.cfg.nTx 0).exec_transmit_full hready (hcfg ▸ hlast)

end Sys2Proof.Machine

/-! ### Both ring invariants are kept (R48, R70, R208, R238) -/

namespace Sys2Proof.Machine

section
variable {s t : State} {k i : Nat} {f : Frame}

theorem State.rxFlag_congr (hc : t.cfg = s.cfg) (h : t.rxd i .status = s.rxd i .status) : t.rxFlag i = s.rxFlag i := by
  rw [State.rxFlag, State.rxStatus, h, hc]
  rfl

theorem RxRing.rxCandidate_lt (h : RxRing s k) : s.rxCandidate < s.cfg.nRx :=
  nextIndex_lt (Nat.zero_lt_of_lt h.tail_lt)

theorem RxRing.first_eq (h : RxRing s k) : (s.rxCandidate + 0) % s.cfg.nRx = s.rxCandidate :=
  Nat.mod_eq_of_lt h.rxCandidate_lt

/-- The candidate slot holds a frame exactly when one is deposited and not drained (R238). -/
theorem RxRing.rxFlag_rxCandidate (h : RxRing s k) : s.rxFlag s.rxCandidate = decide (0 < k) :=
  h.first_eq ▸ h.flags 0 (Nat.zero_lt_of_lt h.tail_lt)

/-- A slot at the head without its flag is one that holds no frame (R238, R239). -/
theorem RxRing.undrained_lt_of_flag (h : RxRing s k) (hf : s.rxFlag s.rdh = false) : k < s.cfg.nRx := by
  refine Nat.lt_of_le_of_ne h.undrained_le fun hk => ?_
  have hpos : 0 < s.cfg.nRx := Nat.zero_lt_of_lt h.tail_lt
  have hhead := h.head
  rw [hk, slot_around] at hhead
  have hfull := h.flags 0 hpos
  rw [← hhead, hf, hk, decide_eq_true hpos] at hfull
  cases hfull

/-! RX_DEPOSIT fills the slot at the head. -/

/-- The frame put into the slot at the receive head and the head moved on (R234). -/
def State.depositAtHead (s : State) (f : Frame) : State :=
  (s.depositInto s.rdh f).setReg .rdh (indexWord (nextIndex s.rdh s.rxRingSize))

section
variable (s) (f)

@[simp] theorem State.depositAtHead_cfg : (s.depositAtHead f).cfg = s.cfg := by simp [State.depositAtHead]
@[simp] theorem State.depositAtHead_txTail : (s.depositAtHead f).txTail = s.txTail := by simp [State.depositAtHead]
@[simp] theorem State.depositAtHead_rxTail : (s.depositAtHead f).rxTail = s.rxTail := by simp [State.depositAtHead]
@[simp] theorem State.depositAtHead_txPending : (s.depositAtHead f).txPending = s.txPending := by
  simp [State.depositAtHead]
@[simp] theorem State.depositAtHead_attached : (s.depositAtHead f).attached = s.attached := by
  simp [State.depositAtHead]
@[simp] theorem State.depositAtHead_place : (s.depositAtHead f).place = s.place := by
  simp [State.place, State.depositAtHead]
@[simp] theorem State.depositAtHead_results : (s.depositAtHead f).results = s.results := by simp [State.depositAtHead]
@[simp] theorem State.depositAtHead_mem : (s.depositAtHead f).mem = (s.depositInto s.rdh f).mem := by
  simp [State.depositAtHead]

end

theorem State.reg_depositAtHead_ne {r : Reg} (hr : r ≠ .rdh) : (s.depositAtHead f).reg r = s.reg r := by
  rw [State.depositAtHead, State.reg_setReg_ne _ _ hr, State.reg, State.depositInto_regs, State.reg]

theorem RxRing.deposit (h : RxRing s k) (hw : s.cfg.WF) (hl : f.length ≤ s.cfg.rxBufSize) :
    Deposit s (s.depositAtHead f) s.rdh f := by
  have hb := h.bound _ h.rdh_lt
  exact {
    cfg := s.depositAtHead_cfg f
    rdh := by rw [State.depositAtHead, State.reg_setReg_same, State.rxRingSize_eq h.size hw]
    rdlen := State.reg_depositAtHead_ne (by decide)
    slot := (State.depositInto_spec hw h.rdh_lt hl hb).congr (s.depositAtHead_cfg f) (s.depositAtHead_mem f)
    rxd := fun j hj hne g =>
      (State.rxd_congr (s := s.depositInto s.rdh f) (s.depositAtHead_cfg f) (s.depositAtHead_mem f) j g).trans
        (State.depositInto_rxd_other hw h.rdh_lt hj hne hl hb g)
    rxBuf := fun j hj hne n hn => by
      rw [State.depositAtHead_mem]
      exact State.depositInto_rxBuf_other hw h.rdh_lt hj hne hl hb hn }

/-- A deposit at the head that leaves the tails (R238). -/
theorem RxRing.of_deposit (h : RxRing s k) (hw : s.cfg.WF) (hk : k < s.cfg.nRx) (hl : f.length ≤ s.cfg.rxBufSize)
    (ht : Deposit s t s.rdh f) (htail : t.rxTail = s.rxTail) (hrdt : t.reg .rdt = s.reg .rdt) : RxRing t (k + 1) := by
  have hcand : t.rxCandidate = s.rxCandidate := by rw [State.rxCandidate, htail, ht.cfg]; rfl
  have hhead : ∀ j < s.cfg.nRx, j ≠ k → s.rdh ≠ (s.rxCandidate + j) % s.cfg.nRx := fun j hj hne he =>
    hne (slot_inj hk hj (h.head.symm.trans he)).symm
  have hnext : nextIndex s.rdh s.cfg.nRx = (s.rxCandidate + (k + 1)) % s.cfg.nRx := by rw [h.head, nextIndex_add]
  have hnRx := hw.nRx_le
  exact {
    undrained_le := by rw [ht.cfg]; exact hk
    tail_lt := by rw [ht.cfg, htail]; exact h.tail_lt
    head := by
      rw [State.rdh, ht.rdh, hcand, ht.cfg, hnext, indexWord_toNat ((h.slot_lt _).trans (by omega))]
    published := by rw [State.rdt, hrdt, htail]; exact h.published
    size := by rw [ht.rdlen, ht.cfg]; exact h.size
    flags := fun j hj => by
      rw [ht.cfg] at hj
      rw [hcand, ht.cfg]
      by_cases hjk : j = k
      · rw [hjk, ← h.head, ht.slot.flag, decide_eq_true (Nat.lt_succ_self k)]
      · have hiff : j < k + 1 ↔ j < k := by omega
        rw [decide_eq_decide.2 hiff, ← h.flags j hj]
        exact State.rxFlag_congr ht.cfg (ht.rxd _ (h.slot_lt j) (hhead j hj hjk) _)
    lengths := fun j hj => by
      rw [hcand, ht.cfg]
      by_cases hjk : j = k
      · rw [hjk, ← h.head, ht.slot.length]
        exact hl
      · rw [ht.rxd _ (h.slot_lt j) (hhead j (by omega) hjk)]
        exact h.lengths j (by omega)
    bound := fun i hi => by
      rw [ht.cfg] at hi ⊢
      by_cases hi' : s.rdh = i
      · rw [← hi', ht.slot.addr, h.bound _ h.rdh_lt]
      · rw [ht.rxd i hi hi', h.bound i hi] }

theorem RxRing.depositAtHead (h : RxRing s k) (hw : s.cfg.WF) (hk : k < s.cfg.nRx)
    (hl : f.length ≤ s.cfg.rxBufSize) : RxRing (s.depositAtHead f) (k + 1) :=
  h.of_deposit hw hk hl (h.deposit hw hl) (s.depositAtHead_rxTail f) (State.reg_depositAtHead_ne (by decide))

/-! RECEIVE gives the candidate slot back. -/

theorem RxRing.rxd_drainSlot (h : RxRing s k) (hw : s.cfg.WF) (hi : i < s.cfg.nRx) {g : RxField}
    (hne : s.rxCandidate ≠ i ∨ RxField.status ≠ g) : (s.drainSlot s.rxCandidate).rxd i g = s.rxd i g :=
  State.rxd_setRxd_other _ hne hw.descSize_le (State.rxdBase_end hw h.rxCandidate_lt) (State.rxdBase_end hw hi)

theorem State.rxFlag_drainSlot (s : State) (c : Nat) : (s.drainSlot c).rxFlag c = false :=
  (congrArg (flagBit s.cfg.layout.rxDone) (State.rxStatus_setRxd_same s c _)).trans (flagBit_clearFlag _ _)

theorem RxRing.drainSlot (h : RxRing s k) (hw : s.cfg.WF) (hk : 0 < k) :
    RxRing (s.drainSlot s.rxCandidate) (k - 1) := by
  have hpos := hw.nRx_pos
  have hnRx := hw.nRx_le
  have hkn := h.undrained_le
  have hslot : ∀ j, ((s.drainSlot s.rxCandidate).rxCandidate + j) % (s.drainSlot s.rxCandidate).cfg.nRx =
      (s.rxCandidate + (j + 1)) % s.cfg.nRx := fun j => slot_after _ j _
  exact {
    undrained_le := (Nat.sub_le k 1).trans hkn
    tail_lt := h.rxCandidate_lt
    head := h.head.trans (by rw [hslot, Nat.sub_add_cancel hk])
    published := indexWord_toNat (h.rxCandidate_lt.trans (by omega))
    size := h.size
    flags := fun j hj => by
      have hj : j < s.cfg.nRx := hj
      rw [hslot]
      by_cases hlast : j + 1 = s.cfg.nRx
      · rw [hlast, slot_around, h.first_eq, State.rxFlag_drainSlot, decide_eq_false (by omega)]
      · have hne : s.rxCandidate ≠ (s.rxCandidate + (j + 1)) % s.cfg.nRx := fun he =>
          absurd (slot_inj hpos (by omega) (h.first_eq.trans he)) (by omega)
        have hiff : j < k - 1 ↔ j + 1 < k := by omega
        rw [decide_eq_decide.2 hiff, ← h.flags (j + 1) (by omega)]
        exact State.rxFlag_congr rfl (h.rxd_drainSlot hw (h.slot_lt _) (.inl hne))
    lengths := fun j hj => by
      rw [hslot, h.rxd_drainSlot hw (h.slot_lt _) (.inr (by decide))]
      exact h.lengths (j + 1) (by omega)
    bound := fun i hi => (h.rxd_drainSlot hw hi (.inr (by decide))).trans (h.bound i hi) }

/-! What an operation on one ring leaves of the other. -/

section
variable {d m p : Nat} {payload : Frame} (hw : s.cfg.WF)
include hw

theorem RxRing.transmitted (h : RxRing s k) (ht : s.txTail < s.cfg.nTx) (hl : payload.length ≤ s.cfg.maxFrameLen) :
    RxRing (s.transmitted payload) k :=
  h.transport (s.transmitted_cfg payload) (State.reg_transmitted_ne (by decide)) (State.reg_transmitted_ne (by decide))
    (State.reg_transmitted_ne (by decide)) (by simp [State.transmitted]) fun _ hi =>
    State.armSlot_rxd hw ht (hl.trans hw.maxFrame_le) hi

theorem RxRing.sendOldest (h : RxRing s k) (htx : TxRing s d m p) : RxRing s.sendOldest k :=
  h.transport rfl rfl rfl rfl rfl fun _ hi g =>
    State.setTxd_rxd hw (htx.txOldest_eq hw ▸ htx.oldest_lt) hi .status g _

theorem TxRing.depositAtHead (h : TxRing s d m p) (hrx : RxRing s k) (hl : f.length ≤ s.cfg.rxBufSize) :
    TxRing (s.depositAtHead f) d m p :=
  h.transport (s.depositAtHead_cfg f) (State.reg_depositAtHead_ne (by decide))
    (State.reg_depositAtHead_ne (by decide)) (State.reg_depositAtHead_ne (by decide)) (s.depositAtHead_txTail f)
    (s.depositAtHead_txPending f) fun i hi g =>
    (State.txd_congr (s := s.depositInto s.rdh f) (s.depositAtHead_cfg f) (s.depositAtHead_mem f) i g).trans
      (State.depositInto_txd hw hrx.rdh_lt hi hl (hrx.bound _ hrx.rdh_lt) g)

theorem TxRing.drainSlot (h : TxRing s d m p) (hrx : RxRing s k) : TxRing (s.drainSlot s.rxCandidate) d m p :=
  h.transport rfl rfl rfl rfl rfl rfl fun _ hi g => State.setRxd_txd hw hrx.rxCandidate_lt hi .status g _

end

theorem RxRing.fetchHead (h : RxRing s k) : RxRing s.fetchHead k :=
  h.transport rfl rfl rfl rfl rfl fun _ _ _ => rfl

/-! Every operation. -/

/-- Both invariants stand where the registers, memory, the tails and the count of fetched slots do. -/
theorem Rings.of_same (h : Rings s) (hc : t.cfg = s.cfg) (ha : t.attached = s.attached) (hr : t.regs = s.regs)
    (h4 : t.txTail = s.txTail) (h5 : t.txPending = s.txPending) (h6 : t.rxTail = s.rxTail) (hm : t.mem = s.mem) :
    Rings t :=
  h.transport hc ha (fun r _ => State.reg_congr hr r) h4 h5 h6 hm

theorem Rings.refuse (h : Rings s) (e : Refuse) : Rings (s.refuse e) := h.of_same rfl rfl rfl rfl rfl rfl rfl

theorem Rings.raise (h : Rings s) (b : Bridge) (f : Fatal) : Rings (s.raise b f) :=
  h.of_same (by simp) (by simp) (by simp) (by simp) (by simp) (by simp) (by simp)

/-- TRANSMIT of as many bytes as it is told, where that is a length it admits. -/
theorem Rings.transmitOp (h : Rings s) (hw : s.cfg.WF) {len : Nat} {payload : Frame} {e : Option ErrKind}
    (hlen : len ≤ s.cfg.maxFrameLen → payload.length = len) (he : transmitOp len payload s = .ok (e, t)) : Rings t := by
  rcases (transmitOp_cases he).2 with ⟨-, -, rfl⟩ | ⟨-, -, -, -, rfl⟩ | ⟨hl, ht, hf, -, rfl⟩
  · exact h.of_same rfl rfl rfl rfl rfl rfl rfl
  · exact h.of_same rfl rfl rfl rfl rfl rfl rfl
  · obtain ⟨ha, ⟨d, m, p, htx⟩, k, hrx⟩ := h
    obtain rfl := hlen hl
    have hm : m < s.cfg.nTx := of_decide_eq_true (htx.txFlag_txTail.symm.trans hf)
    exact ⟨ha, ⟨d, m + 1, p, htx.transmitted hw hm hl⟩, k, hrx.transmitted hw ht hl⟩

theorem Rings.receiveOp (h : Rings s) (hw : s.cfg.WF) {out : List Byte} {r : Option (Nat × List Byte)}
    (he : receiveOp out s = .ok (r, t)) : Rings t := by
  rcases (receiveOp_cases he).2.2.2 with ⟨-, -, rfl⟩ | ⟨hf, -, -, rfl⟩
  · exact h.of_same rfl rfl rfl rfl rfl rfl rfl
  · obtain ⟨ha, ⟨d, m, p, htx⟩, k, hrx⟩ := h
    have hk : 0 < k := of_decide_eq_true (hrx.rxFlag_rxCandidate.symm.trans hf)
    have hdrained : Rings (s.drainSlot s.rxCandidate) :=
      ⟨ha, ⟨d, m, p, htx.drainSlot hw hrx⟩, k - 1, hrx.drainSlot hw hk⟩
    exact hdrained.of_same rfl rfl rfl rfl rfl rfl rfl

/-- The bytes RECEIVE hands over are as many as it says, and fit a receive buffer (R230, R241). -/
theorem receiveOp_some_length {out data : List Byte} {n : Nat} (he : receiveOp out s = .ok (some (n, data), t)) :
    n ≤ s.cfg.rxBufSize ∧ n ≤ data.length := by
  rcases (receiveOp_cases he).2.2.2 with ⟨-, hr, -⟩ | ⟨-, hle, hr, -⟩
  · cases hr
  · cases hr
    simp [hle, State.rxFrame]

theorem Rings.fillMsg (h : Rings s) (hw : s.cfg.WF) (b : Buf) {n : Nat} {data : List Byte}
    (hn : n ≤ s.cfg.rxBufSize) (hd : n ≤ data.length) : Rings (s.fillMsg b n data) := by
  obtain ⟨ha, ⟨d, m, p, htx⟩, k, hrx⟩ := h
  have hpage := filledPage_length (s.msgPage_length b) ((Nat.add_le_add_left hn _).trans hw.page_le) hd
  refine ⟨(s.fillMsg_attached b n data).trans ha, ⟨d, m, p, ?_⟩, k, ?_⟩
  · exact htx.transport (by simp) (by simp) (by simp) (by simp) (by simp) (by simp)
      fun _ hi => State.setPage_txd hw hpage hi
  · exact hrx.transport (by simp) (by simp) (by simp) (by simp) (by simp) fun _ hi => State.setPage_rxd hw hpage hi

theorem Rings.readReg (h : Rings s) {r : Reg} (he : exec r.readOp s = .next t) : Rings t := by
  rcases regAccess_cases he (.inr ⟨r, rfl⟩) with ⟨e, rfl⟩ | ⟨v, n, rfl⟩ | ⟨q, v, p, n, st, hq, -⟩
  · exact h.refuse e
  · exact h.of_same rfl rfl rfl rfl rfl rfl rfl
  · cases r <;> cases hq

/-- ATTACH of an attached block is refused (R190). -/
theorem Rings.execAttach (h : Rings s) {a : Addr} (he : execAttach a s = .next t) : Rings t := by
  rcases execAttach_cases he with ⟨e, rfl⟩ | ⟨ha, -⟩
  · exact h.refuse e
  · exact absurd h.1 (by simp [ha])

theorem Rings.execEerdReadWord (h : Rings s) {a : BitVec 8} (he : execEerdReadWord a s = .next t) : Rings t := by
  rcases execEerdReadWord_cases he with ⟨e, rfl⟩ | ⟨-, ⟨-, -, u, hu, rfl⟩ | ⟨-, -, rfl⟩ | ⟨-, -, rfl⟩⟩
  · exact h.refuse e
  · obtain ⟨-, rfl⟩ := writeEerd_iff.1 hu
    exact h.transport rfl rfl (fun _ hr => RegFile.get_set_ne _ _ hr) rfl rfl rfl rfl
  · exact h.of_same rfl rfl rfl rfl rfl rfl rfl
  · exact h.of_same rfl rfl rfl rfl rfl rfl rfl

theorem Rings.execTransmit (h : Rings s) (hw : s.cfg.WF) {payload : Frame}
    (he : execTransmit payload s = .next t) : Rings t := by
  rcases execTransmit_cases he with ⟨e, rfl⟩ | ⟨e, he⟩
  · exact h.refuse e
  · exact h.transmitOp hw (fun _ => rfl) he

theorem Rings.execReceive (h : Rings s) (hw : s.cfg.WF) {out : List Byte} (he : execReceive out s = .next t) :
    Rings t := by
  rcases execReceive_cases he with ⟨e, rfl⟩ | he | ⟨n, data, u, hu, rfl⟩
  · exact h.refuse e
  · exact h.receiveOp hw he
  · exact (h.receiveOp hw hu).of_same rfl rfl rfl rfl rfl rfl rfl

theorem Rings.execTxFetch (h : Rings s) (hw : s.cfg.WF) (he : execTxFetch s = .next t) : Rings t := by
  rcases execTxFetch_cases he with rfl | ⟨e, rfl⟩ | ⟨hen, -, -, harm, -, -, rfl⟩
  · exact h
  · exact h.refuse e
  · obtain ⟨ha, ⟨d, m, p, htx⟩, k, hrx⟩ := h
    have hpm := htx.fetched_lt_of_enabled ((State.txArmed_iff hen).1 harm)
    exact ⟨ha, ⟨d, m, p + 1, htx.fetchHead hw hpm⟩, k, hrx.fetchHead⟩

theorem Rings.execTxComplete (h : Rings s) (hw : s.cfg.WF) (he : execTxComplete s = .next t) : Rings t := by
  rcases execTxComplete_cases he with rfl | ⟨e, rfl⟩ | ⟨hp, -, -, rfl⟩
  · exact h
  · exact h.refuse e
  · obtain ⟨ha, ⟨d, m, p, htx⟩, k, hrx⟩ := h
    have hp : 0 < p := by have := htx.pending; omega
    exact ⟨ha, ⟨_, _, _, htx.sendOldest hw hp⟩, k, hrx.sendOldest hw htx⟩

theorem Rings.execRxDeposit (h : Rings s) (hw : s.cfg.WF) (he : execRxDeposit s = .next t) : Rings t := by
  rcases execRxDeposit_cases he with rfl | ⟨e, rfl⟩ | ⟨f, rest, -, -, -, ho, -, hl, -, rfl⟩
  · exact h
  · exact h.refuse e
  · have htaken : Rings { s with wireIn := rest } := h.of_same rfl rfl rfl rfl rfl rfl rfl
    obtain ⟨ha, ⟨d, m, p, htx⟩, k, hrx⟩ := htaken
    have hk : k < s.cfg.nRx := hrx.undrained_lt_of_flag (State.rxOffered_flag ho)
    exact ⟨ha, ⟨d, m, p, htx.depositAtHead hw hrx hl⟩, k + 1, hrx.depositAtHead hw hk hl⟩

theorem Rings.execEeComplete (h : Rings s) (he : execEeComplete s = .next t) : Rings t := by
  rcases execEeComplete_cases he with ⟨-, rfl⟩ | ⟨a, -, rfl⟩
  · exact h
  · exact h.transport rfl rfl (fun _ hr => RegFile.get_set_ne _ _ hr) rfl rfl rfl rfl

theorem Rings.execInBridgeIter (h : Rings s) (hw : s.cfg.WF) (he : execInBridgeIter s = .next t) : Rings t := by
  rcases execInBridgeIter_cases he with rfl | ⟨e, rfl⟩ | ⟨-, -, -, rfl⟩ | ⟨b, -, -, -, rfl⟩ |
    ⟨b, r, u, -, -, hu, hr⟩
  · exact h
  · exact h.refuse e
  · exact h.raise _ _
  · exact h.of_same rfl rfl rfl rfl rfl rfl rfl
  · have hrings := h.receiveOp hw hu
    have hcfg := (receiveOp_keepsMarks hu).cfg
    rcases hr with ⟨-, rfl⟩ | ⟨n, data, hsome, hr⟩
    · exact hrings
    · obtain ⟨hn, hd⟩ := receiveOp_some_length (hsome ▸ hu)
      have hfilled : Rings (u.fillMsg b n data) := hrings.fillMsg (hcfg ▸ hw) b (hcfg ▸ hn) hd
      rcases hr with rfl | rfl
      · exact hfilled.raise _ _
      · exact hfilled.of_same rfl rfl rfl rfl rfl rfl rfl

/-- A message inside its page has a frame of the length it says (R117). -/
theorem State.msgFrame_length {b : Buf} (h : s.msgLen b ≤ s.cfg.pageSize - s.cfg.msgLenBytes) :
    (s.msgFrame b).length = s.msgLen b := by
  have hpage : (pageData s.cfg (s.msgPage b)).length = s.cfg.pageSize - s.cfg.msgLenBytes := by
    rw [pageData, List.length_drop, State.msgPage_length]
  exact List.length_take_of_le (hpage ▸ h)

/-- The output bridge calls TRANSMIT with a frame as long as its message says, or refuses the message (R269; log 26). -/
theorem Rings.execOutBridgeIter (h : Rings s) (hw : s.cfg.WF) (he : execOutBridgeIter s = .next t) : Rings t := by
  rcases execOutBridgeIter_cases he with rfl | ⟨e, rfl⟩ | ⟨-, rfl⟩ | ⟨msg, rest, -, -, -, ⟨-, rfl⟩ | ⟨-, rfl⟩⟩ |
    ⟨b, e, u, hp, hf, hu, hr⟩
  · exact h
  · exact h.refuse e
  · exact h.raise _ _
  · exact h.of_same rfl rfl rfl rfl rfl rfl rfl
  · exact (h.of_same (t := { s with fromStack := rest }) rfl rfl rfl rfl rfl rfl rfl).raise _ _
  by_cases hbeyond : s.msgLen b ≤ s.cfg.maxFrameLen ∧ s.cfg.pageSize - s.cfg.msgLenBytes < s.msgLen b
  · simp only [Machine.execOutBridgeIter, h.1, hf, hp, hbeyond] at he
    exact Host.Outcome.next.inj he ▸ h.refuse _
  · have hrings := h.transmitOp hw (fun _ => State.msgFrame_length (by omega)) hu
    rcases hr with ⟨-, rfl⟩ | ⟨-, rfl⟩ | ⟨k, -, -, rfl⟩
    · exact hrings.of_same rfl rfl rfl rfl rfl rfl rfl
    · exact hrings
    · exact hrings.raise _ _

end

/-- Settles O52: what an operation stores into one ring keeps that ring's invariant and leaves the other's. -/
theorem ringInvariantsKept : Obligations.RingInvariantsKept := by
  intro i s t hi hw h he
  rcases Instr.kinds i with (hwrite | ⟨r, rfl⟩) | ⟨a, rfl⟩ | ⟨a, rfl⟩ | ⟨p, rfl⟩ | ⟨b, rfl⟩ | rfl | rfl | rfl | rfl |
    rfl | rfl | rfl
  · rw [hi] at hwrite
    cases hwrite
  · exact h.readReg he
  · exact h.execAttach he
  · exact h.execEerdReadWord he
  · exact h.execTransmit hw he
  · exact h.execReceive hw he
  · exact h.execTxFetch hw he
  · exact h.execTxComplete hw he
  · exact h.execRxDeposit hw he
  · exact Host.Outcome.next.inj he ▸ h.of_same rfl rfl rfl rfl rfl rfl rfl
  · exact h.execEeComplete he
  · exact h.execInBridgeIter hw he
  · exact h.execOutBridgeIter hw he

end Sys2Proof.Machine

/-! ### A payload looped back (R213) -/

namespace Sys2Proof.Machine

section
variable {s t : State} {d m p k : Nat} {payload f : Frame} {out : List Byte}

/-! The payload goes out. -/

/-- After TRANSMIT of a payload, its fetch and its completion. -/
def State.sent (s : State) (payload : Frame) : State := (s.transmitted payload).fetchHead.sendOldest

@[simp] theorem State.sent_cfg (s : State) (payload : Frame) : (s.sent payload).cfg = s.cfg := by simp [State.sent]
@[simp] theorem State.sent_wireIn (s : State) (payload : Frame) : (s.sent payload).wireIn = s.wireIn := by
  simp [State.sent]
@[simp] theorem State.sent_place (s : State) (payload : Frame) : (s.sent payload).place = s.place := by
  simp [State.sent]
@[simp] theorem State.sent_results (s : State) (payload : Frame) :
    (s.sent payload).results = s.results ++ [⟨.transmit, .ok⟩] := by simp [State.sent]

theorem State.rxEnabled_sent (s : State) (payload : Frame) : (s.sent payload).rxEnabled = s.rxEnabled := by
  rw [State.rxEnabled, State.sent_cfg, State.sent, State.reg_sendOldest, State.reg_fetchHead_ne (by decide),
    State.reg_transmitted_ne (by decide)]
  rfl

/-- Whether software may enter is told by where it stands. -/
theorem State.SwReady.of_place (h : s.SwReady) (ht : t.place = s.place) : t.SwReady := by
  simp only [State.place, Prod.mk.injEq] at ht
  obtain ⟨hsw, ha, hf⟩ := ht
  exact ⟨ha.trans h.1, hsw.trans h.2.1, hf.trans h.2.2⟩

/-- On an empty ring the three operations send the payload; a ring of one slot is not fetched from under `tail_gated`
(R328). -/
theorem TxRing.runOps_send (h : TxRing s d 0 0) (hw : s.cfg.WF) (hr : s.SwReady) (hen : s.txEnabled = true)
    (hl : payload.length ≤ s.cfg.maxFrameLen) (hrule : s.cfg.txArmRule = .flagGated ∨ 2 ≤ s.cfg.nTx) :
    runOps [.transmit payload, .txFetch, .txComplete] s = some (s.sent payload) ∧
      (s.sent payload).wireOut = s.wireOut ++ [payload] := by
  have harmed : TxRing (s.transmitted payload) d 1 0 := h.transmitted hw hw.nTx_pos hl
  have henabled : (s.transmitted payload).FetchEnabled := (harmed.fetchEnabled_iff hen).2 <| by
    have hcfg : (s.transmitted payload).cfg = s.cfg := rfl
    rw [hcfg]
    cases hrule' : s.cfg.txArmRule with
    | tailGated => exact .inl ⟨rfl, Nat.one_pos, hrule.resolve_left (by simp [hrule'])⟩
    | flagGated => exact .inr ⟨rfl, Nat.one_pos⟩
  have hfetched : TxRing (s.transmitted payload).fetchHead d 1 1 := harmed.fetchHead hw Nat.one_pos
  have hframes : txFrames (s.transmitted payload).fetchHead d 1 = [payload] :=
    (txFrames_fetchHead _ d 1).trans (h.txFrames_transmitted hw hw.nTx_pos hl)
  rw [hfetched.txFrames_sendOldest hw Nat.one_pos] at hframes
  have hframe : (s.transmitted payload).fetchHead.txFrame d = payload := (List.cons.inj hframes).1
  refine ⟨?_, ?_⟩
  · rw [runOps_cons_next (h.exec_transmit hr hw.nTx_pos hl), runOps_cons_next (harmed.exec_txFetch hw henabled),
      runOps_cons_next (hfetched.exec_txComplete hw Nat.one_pos)]
    rfl
  · rw [State.sent, hfetched.wireOut_sendOldest hw, hframe]
    rfl

/-- None of the three touches the receive ring. -/
theorem RxRing.sent (h : RxRing s k) (htx : TxRing s d 0 0) (hw : s.cfg.WF) (hl : payload.length ≤ s.cfg.maxFrameLen) :
    RxRing (s.sent payload) k :=
  (h.transmitted hw htx.txTail_lt hl).fetchHead.sendOldest hw
    ((htx.transmitted hw hw.nTx_pos hl).fetchHead hw Nat.one_pos)

/-! The payload comes in. -/

/-- The receive tail is the slot before the candidate, the last one round the ring (R231). -/
theorem RxRing.rxTail_eq (h : RxRing s k) : (s.rxCandidate + (s.cfg.nRx - 1)) % s.cfg.nRx = s.rxTail := by
  have hlt := h.tail_lt
  rw [State.rxCandidate, slot_after, Nat.sub_add_cancel (Nat.zero_lt_of_lt hlt), Nat.add_mod_right, Nat.mod_eq_of_lt hlt]

/-- Unless the next deposit is the last the ring holds, head and tail differ. -/
theorem RxRing.rdh_ne_rdt (h : RxRing s k) (hk : k + 1 < s.cfg.nRx) : s.reg .rdh ≠ s.reg .rdt := fun he => by
  have hslot : (s.rxCandidate + k) % s.cfg.nRx = (s.rxCandidate + (s.cfg.nRx - 1)) % s.cfg.nRx :=
    h.head.symm.trans ((congrArg BitVec.toNat he).trans (h.published.trans h.rxTail_eq.symm))
  have := slot_inj (by omega) (by omega) hslot
  omega

theorem RxRing.rxOffered (h : RxRing s k) (hr : s.SwReady) (hk : k < s.cfg.nRx)
    (hrule : s.cfg.rxOfferRule = .flagGated ∨ k + 1 < s.cfg.nRx) : s.rxOffered = true := by
  have hflag : s.rxFlag s.rdh = false := by rw [h.head, h.flags k hk, decide_eq_false (Nat.lt_irrefl k)]
  unfold State.rxOffered
  cases hrule' : s.cfg.rxOfferRule with
  | flagGated => simp [hflag]
  | tailGated =>
    have hne := h.rdh_ne_rdt (hrule.resolve_left (by simp [hrule']))
    simp [hflag, hr.rxTailPublished, hne]

theorem RxRing.exec_rxDeposit (h : RxRing s k) (hw : s.cfg.WF) (hr : s.SwReady) (hen : s.rxEnabled = true)
    (hk : k < s.cfg.nRx) (hrule : s.cfg.rxOfferRule = .flagGated ∨ k + 1 < s.cfg.nRx) {rest : List Frame}
    (hwire : s.wireIn = f :: rest) (hf : s.cfg.rxMinLen ≤ f.length ∧ f.length ≤ s.cfg.rxBufSize) :
    exec .rxDeposit s = .next ({ s with wireIn := rest }.depositAtHead f) :=
  execRxDeposit_offered hwire hen h.rdh_lt (fun _ _ => h.rdt_lt) (h.rxOffered hr hk hrule) hf (h.rxRingSize_ne hw)

/-- After a RECEIVE that drained the candidate slot. -/
def State.received (s : State) (out : List Byte) : State :=
  { (s.drainSlot s.rxCandidate).returns .receive (.okCount (s.rxd s.rxCandidate .length)) with
    outBuffer := s.rxFrame s.rxCandidate ++ out.drop (s.rxd s.rxCandidate .length) }

theorem exec_receive_ok (hr : s.SwReady) (ht : s.rxTail < s.cfg.nRx) (ho : s.cfg.rxBufSize ≤ out.length)
    (hf : s.rxFlag s.rxCandidate = true) (hl : s.rxd s.rxCandidate .length ≤ s.cfg.rxBufSize) :
    exec (.receive out) s = .next (s.received out) := by
  simp [exec, execReceive, hr.receiveOp_eq ht ho, hf, Nat.not_lt.2 hl, Except.map, State.received]

theorem RxRing.exec_receive (h : RxRing s k) (hr : s.SwReady) (hk : 0 < k) (ho : s.cfg.rxBufSize ≤ out.length) :
    exec (.receive out) s = .next (s.received out) := by
  have hf : s.rxFlag s.rxCandidate = true := h.rxFlag_rxCandidate.trans (decide_eq_true hk)
  exact exec_receive_ok hr h.tail_lt ho hf (h.length_le_of_flag hf)

/-- The frame in a filled slot is the one put there. -/
theorem FilledSlot.rxFrame {i : Nat} (h : FilledSlot s t i f) (hc : t.cfg = s.cfg) : t.rxFrame i = f := by
  rw [State.rxFrame, h.length, hc]
  exact h.buffer

/-- RECEIVE hands over the frame of a filled candidate slot, the rest of the caller's array behind it. -/
theorem FilledSlot.received (h : FilledSlot s t t.rxCandidate f) (hc : t.cfg = s.cfg) :
    (t.received out).outBuffer = f ++ out.drop f.length ∧
      (t.received out).results = t.results ++ [⟨.receive, .okCount f.length⟩] := by
  simp only [State.received, h.length, h.rxFrame hc, State.returns_results, State.drainSlot_results, and_self]

/-- On an empty ring the two operations return the frame from the wire. -/
theorem RxRing.runOps_receive (h : RxRing s 0) (hw : s.cfg.WF) (hr : s.SwReady) (hen : s.rxEnabled = true)
    (hrule : s.cfg.rxOfferRule = .flagGated ∨ 2 ≤ s.cfg.nRx) (hwire : s.wireIn = [f])
    (hf : s.cfg.rxMinLen ≤ f.length ∧ f.length ≤ s.cfg.rxBufSize) (ho : s.cfg.rxBufSize ≤ out.length) :
    ∃ t, runOps [.rxDeposit, .receive out] s = some t ∧ t.outBuffer = f ++ out.drop f.length ∧
      t.results = s.results ++ [⟨.receive, .okCount f.length⟩] := by
  have htaken : RxRing { s with wireIn := [] } 0 := h.transport rfl rfl rfl rfl rfl fun _ _ _ => rfl
  have hone := htaken.depositAtHead hw hw.nRx_pos hf.2
  have hready : ({ s with wireIn := [] }.depositAtHead f).SwReady := hr.of_place (State.depositAtHead_place _ f)
  have hcand : ({ s with wireIn := [] }.depositAtHead f).rxCandidate = s.rdh := by
    rw [State.rxCandidate, State.depositAtHead_rxTail, State.depositAtHead_cfg]
    exact h.first_eq.symm.trans h.head.symm
  have hslot : FilledSlot { s with wireIn := [] } ({ s with wireIn := [] }.depositAtHead f)
      ({ s with wireIn := [] }.depositAtHead f).rxCandidate f := by
    rw [hcand]
    exact (htaken.deposit hw hf.2).slot
  obtain ⟨hbuf, hresults⟩ := hslot.received (out := out) (State.depositAtHead_cfg _ f)
  rw [State.depositAtHead_results] at hresults
  refine ⟨_, ?_, hbuf, hresults⟩
  rw [runOps_cons_next (h.exec_rxDeposit hw hr hen hw.nRx_pos hrule hwire hf),
    runOps_cons_next (hone.exec_receive hready Nat.one_pos ho)]
  rfl

end

/-- Settles O58: the payload out, over ENV, and in. -/
theorem loopbackRoundTrip : Obligations.LoopbackRoundTrip := by
  intro s d payload out hw hr htxen hrxen htx hrx hwire hl hmin hmax ho htxrule hrxrule
  obtain ⟨hsend, hout⟩ := htx.runOps_send hw hr htxen hl htxrule
  have hsent : RxRing (s.sent payload) 0 := hrx.sent htx hw hl
  rw [← s.sent_cfg payload] at hw hrxrule hmin hmax ho
  have hmove : envMove (.offerFrame payload) (s.sent payload) = .next { s.sent payload with wireIn := [payload] } := by
    rw [envMove_offerFrame hmin hmax, State.sent_wireIn, hwire, List.nil_append]
  have hring : RxRing { s.sent payload with wireIn := [payload] } 0 :=
    hsent.transport rfl rfl rfl rfl rfl fun _ _ _ => rfl
  obtain ⟨t, hreceive, hbuf, hresults⟩ := hring.runOps_receive hw (hr.of_place (s.sent_place payload))
    ((s.rxEnabled_sent payload).trans hrxen) hrxrule rfl ⟨hmin, hmax⟩ ho
  refine ⟨s.sent payload, _, t, hsend, hout, hmove, hreceive, ?_, ?_⟩
  · rw [hbuf, List.take_left]
  · rw [hresults, State.sent_results, List.append_assoc]
    rfl

end Sys2Proof.Machine

/-! ### RX_DEPOSIT and RX_DROP, step by step (R234, R235, R239) -/

namespace Sys2Proof.Machine

section
variable {s t : State} {f : Frame} {rest : List Frame}

/-- Settles O43: RX_DROP leaves the tail of the wire. -/
theorem rxDropEffect : Obligations.RxDropEffect := by
  refine ⟨rfl, fun s f rest hwire => ?_⟩
  rw [exec, execRxDrop, hwire, List.tail_cons]

theorem exec_rxDeposit_deposits (he : s.DepositEnabled) (hh : s.rdh < s.cfg.nRx) (ht : s.rdt < s.cfg.nRx)
    (hz : s.rxRingSize ≠ 0) (hwire : s.wireIn = f :: rest)
    (hf : s.cfg.rxMinLen ≤ f.length ∧ f.length ≤ s.cfg.rxBufSize) :
    exec .rxDeposit s = .next ({ s with wireIn := rest }.depositAtHead f) :=
  execRxDeposit_offered hwire he.1 hh (fun _ _ => ht) ((State.rxOffered_iff he.1 he.2.1).2 he) hf hz

theorem State.depositAtHead_slot (hw : s.cfg.WF) (hh : s.rdh < s.cfg.nRx) (hl : f.length ≤ s.cfg.rxBufSize)
    (hb : s.rxd s.rdh .addr = (s.cfg.rxBufBase s.rdh).toNat) : FilledSlot s (s.depositAtHead f) s.rdh f :=
  (State.depositInto_spec hw hh hl hb).congr (s.depositAtHead_cfg f) (s.depositAtHead_mem f)

theorem State.reg_depositAtHead_rdh :
    (s.depositAtHead f).reg .rdh = indexWord (nextIndex s.rdh s.rxRingSize) := by
  rw [State.depositAtHead, State.reg_setReg_same]

/-- A deposit changes registers, memory and the draw counter alone. -/
theorem State.depositAtHead_rest (s : State) (f : Frame) : s.depositAtHead f =
    { s with regs := (s.depositAtHead f).regs, mem := (s.depositAtHead f).mem, draws := (s.depositAtHead f).draws } := by
  rw [State.depositAtHead, State.depositInto_rest]
  rfl

/-- A deposit stores nothing outside the bound buffer and bytes 8 to 15 of the descriptor at the head. -/
theorem State.depositAtHead_get_outside (hb : s.rxd s.rdh .addr = (s.cfg.rxBufBase s.rdh).toNat) {a : Nat}
    (hbuf : Mem.Outside (s.cfg.rxBufBase s.rdh).toNat f.length a) (hdesc : Mem.Outside (s.rxdBase s.rdh + 8) 8 a) :
    Mem.get (s.depositAtHead f).mem a = Mem.get s.mem a := by
  rw [State.depositAtHead_mem]
  exact s.depositInto_get_outside s.rdh f a (hb ▸ hbuf) hdesc

/-- Settles O42: the slot at the head is filled and the head moves on. -/
theorem rxDepositEffect : Obligations.RxDepositEffect := by
  refine ⟨rfl, fun s f rest hw hh ht hz he hwire hmin hmax hb => ?_⟩
  have hslot : FilledSlot { s with wireIn := rest } ({ s with wireIn := rest }.depositAtHead f) s.rdh f :=
    State.depositAtHead_slot (s := { s with wireIn := rest }) hw hh hmax hb
  exact ⟨_, exec_rxDeposit_deposits he hh ht hz hwire ⟨hmin, hmax⟩, rfl, hslot.buffer, hslot.length, hslot.flag,
    hslot.addr, State.reg_depositAtHead_rdh,
    fun _ => State.depositAtHead_get_outside (s := { s with wireIn := rest }) hb,
    fun _ => State.reg_depositAtHead_ne (s := { s with wireIn := rest }),
    State.depositAtHead_rest { s with wireIn := rest } f⟩

/-! A slot whose flag is set. -/

/-- A slot's whole descriptor lies inside its array (R112). -/
theorem State.rxdBase_descSize_inside {i : Nat} (hi : i < s.cfg.nRx) :
    s.rxdBase i + s.cfg.descSize ≤ s.cfg.rxDescBase.toNat + s.cfg.nRx * s.cfg.descSize := by
  have := Config.slot_end (d := s.cfg.descSize) hi
  rw [State.rxdBase_add]
  omega

section
variable (hw : s.cfg.WF) (hh : s.rdh < s.cfg.nRx) (hl : f.length ≤ s.cfg.rxBufSize)
  (hb : s.rxd s.rdh .addr = (s.cfg.rxBufBase s.rdh).toNat)
include hw hh hl hb

/-- A deposit keeps every byte of a range apart from the buffer and the descriptor at the head. -/
theorem State.depositAtHead_get_apart {a n k : Nat} (ha : a + n ≤ addrSpace) (hk : k < n)
    (hbuf : (s.cfg.rxBufBase s.rdh).toNat + s.cfg.rxBufSize ≤ a ∨ a + n ≤ (s.cfg.rxBufBase s.rdh).toNat)
    (hdesc : s.rxdBase s.rdh + 16 ≤ a ∨ a + n ≤ s.rxdBase s.rdh) :
    Mem.get (s.depositAtHead f).mem (a + k) = Mem.get s.mem (a + k) := by
  have hbufEnd := hw.rxBuf_end hh
  have hdescEnd := State.rxdBase_end hw hh
  exact State.depositAtHead_get_outside hb (Mem.outside_range n (by omega) ha hk (by omega))
    (Mem.outside_range n (by omega) ha hk (by omega))

variable {i : Nat} (hi : i < s.cfg.nRx) (hne : s.rdh ≠ i)
include hi hne

theorem State.depositAtHead_get_rxd {k : Nat} (hk : k < s.cfg.descSize) :
    Mem.get (s.depositAtHead f).mem (s.rxdBase i + k) = Mem.get s.mem (s.rxdBase i + k) := by
  have hend := State.rxdBase_descSize_inside hi
  have hsize := hw.descSize_le
  refine State.depositAtHead_get_apart hw hh hl hb (hend.trans hw.rxDesc_end) hk ?_ ?_
  · exact (disjoint_sub (hw.rxDesc_rxBuf hh) ⟨(State.rxdBase_inside hw hi).1, hend⟩ ⟨Nat.le_refl _, Nat.le_refl _⟩).symm
  · rw [State.rxdBase_add, State.rxdBase_add]
    rcases Config.slot_apart (d := s.cfg.descSize) hne with h | h
    · exact .inl (by omega)
    · exact .inr (by omega)

theorem State.depositAtHead_get_rxBuf {k : Nat} (hk : k < s.cfg.rxBufSize) :
    Mem.get (s.depositAtHead f).mem ((s.cfg.rxBufBase i).toNat + k) =
      Mem.get s.mem ((s.cfg.rxBufBase i).toNat + k) :=
  State.depositAtHead_get_apart hw hh hl hb (hw.rxBuf_end hi) hk (hw.rxBuf_rxBuf hh hi hne)
    (State.rxd_rxBuf_apart hw hh hi)

end

/-- Settles O44: a deposit is into the slot at the head, whose flag is clear. -/
theorem depositNeverOverwritesAnUndrainedSlot : Obligations.DepositNeverOverwritesAnUndrainedSlot := by
  intro s t i hw hi hflag hbound he
  rcases execRxDeposit_cases he with rfl | ⟨e, rfl⟩ | ⟨f, rest, -, -, hh, ho, -, hl, -, rfl⟩
  · exact ⟨fun _ _ => rfl, fun _ _ => rfl⟩
  · exact ⟨fun _ _ => rfl, fun _ _ => rfl⟩
  · have hne : s.rdh ≠ i := fun hri => by
      rw [← hri, State.rxOffered_flag ho] at hflag
      cases hflag
    have hb := hbound s.rdh hh
    exact ⟨fun _ => State.depositAtHead_get_rxd (s := { s with wireIn := rest }) hw hh hl hb hi hne,
      fun _ => State.depositAtHead_get_rxBuf (s := { s with wireIn := rest }) hw hh hl hb hi hne⟩

end

end Sys2Proof.Machine

/-! ### RECEIVE, call by call (R230, R240, R241) -/

namespace Sys2Proof.Machine

section
variable {s : State} {out : List Byte}

theorem exec_receive_refuses_small (hr : s.SwReady) (ho : out.length < s.cfg.rxBufSize) :
    Refuses (.receive out) s :=
  ⟨.outBufferTooSmall, by simp [exec, execReceive, receiveOp, hr.swBlocked, ho, Except.map, settle]⟩

theorem exec_receive_queueEmpty (hr : s.SwReady) (ht : s.rxTail < s.cfg.nRx) (ho : s.cfg.rxBufSize ≤ out.length)
    (hf : s.rxFlag s.rxCandidate = false) :
    exec (.receive out) s = .next (s.returns .receive (.err .queueEmpty)) := by
  simp [exec, execReceive, hr.receiveOp_eq ht ho, hf, Except.map]

theorem exec_receive_refuses_length (hr : s.SwReady) (ht : s.rxTail < s.cfg.nRx)
    (hf : s.rxFlag s.rxCandidate = true) (hn : s.cfg.rxBufSize < s.rxd s.rxCandidate .length) :
    Refuses (.receive out) s := by
  rcases Nat.lt_or_ge out.length s.cfg.rxBufSize with ho | ho
  · exact exec_receive_refuses_small hr ho
  · exact ⟨.rxLength, by simp [exec, execReceive, hr.receiveOp_eq ht ho, hf, hn, Except.map, settle]⟩

theorem State.rxStatus_received (s : State) (out : List Byte) :
    (s.received out).rxStatus s.rxCandidate = clearFlag s.cfg.layout.rxDone (s.rxStatus s.rxCandidate) :=
  State.rxStatus_setRxd_same s s.rxCandidate _

theorem State.reg_received_rdt (s : State) (out : List Byte) : (s.received out).reg .rdt = indexWord s.rxCandidate := by
  rw [State.received, State.reg, State.returns_regs, State.drainSlot_regs, RegFile.get_set_same]

theorem State.reg_received_ne {r : Reg} (hr : r ≠ .rdt) : (s.received out).reg r = s.reg r :=
  RegFile.get_set_ne _ _ hr

/-- Settles O41: the array's length, then the flag and the length of the candidate slot, then the drained slot. -/
theorem receiveEffect : Obligations.ReceiveEffect := by
  refine ⟨fun _ => rfl, fun s out c n hr ht hc hn => ?_⟩
  obtain rfl : s.rxCandidate = c := hc.symm
  subst hn
  exact ⟨exec_receive_refuses_small hr, exec_receive_queueEmpty hr ht, exec_receive_refuses_length hr ht,
    fun ho hf hl => ⟨s.received out, exec_receive_ok hr ht ho hf hl, rfl, s.rxStatus_received out, rfl,
      s.reg_received_rdt out, rfl, fun a => s.drainSlot_get_outside _ a, fun _ => State.reg_received_ne, rfl⟩⟩

end

end Sys2Proof.Machine

/-! ### The receive ring is a queue (R236, R238, R242) -/

namespace Sys2Proof.Machine

section
variable {s t : State} {k i : Nat} {f : Frame} {out : List Byte}

@[simp] theorem State.rxFrame_length (s : State) (i : Nat) : (s.rxFrame i).length = s.rxd i .length := by
  simp [State.rxFrame]

/-! RX_DEPOSIT adds a frame. -/

/-- The hardware owns the slot at the head exactly when the ring is not full (R238). -/
theorem RxRing.rxFlag_rdh (h : RxRing s k) : s.rxFlag s.rdh = false ↔ k < s.cfg.nRx :=
  ⟨h.undrained_lt_of_flag, fun hk => by rw [h.head, h.flags k hk, decide_eq_false (Nat.lt_irrefl k)]⟩

/-- On a ring that is not full, head and tail are equal exactly when one slot is left (R231, R237). -/
theorem RxRing.rdh_ne_rdt_iff (h : RxRing s k) (hk : k < s.cfg.nRx) :
    s.reg .rdh ≠ s.reg .rdt ↔ k + 1 < s.cfg.nRx := by
  refine ⟨fun hne => Nat.lt_of_le_of_ne hk fun hlast => hne (BitVec.eq_of_toNat_eq ?_), h.rdh_ne_rdt⟩
  obtain rfl : k = s.cfg.nRx - 1 := by omega
  exact h.head.trans (h.rxTail_eq.trans h.published.symm)

theorem RxRing.depositEnabled_iff (h : RxRing s k) (hr : s.SwReady) (hen : s.rxEnabled = true)
    (hwire : s.wireIn ≠ []) : s.DepositEnabled ↔
      (s.cfg.rxOfferRule = .flagGated ∧ k < s.cfg.nRx) ∨ (s.cfg.rxOfferRule = .tailGated ∧ k + 1 < s.cfg.nRx) := by
  simp only [State.DepositEnabled, hen, hwire, h.rxFlag_rdh, hr.rxTailPublished, ne_eq, not_false_eq_true, true_and]
  cases hrule : s.cfg.rxOfferRule with
  | flagGated => simp
  | tailGated =>
    simp only [reduceCtorEq, false_or, false_and, true_and]
    exact ⟨fun ⟨hk, hne⟩ => (h.rdh_ne_rdt_iff hk).1 hne, fun hk => ⟨by omega, h.rdh_ne_rdt hk⟩⟩

theorem RxRing.undrained_lt_of_enabled (h : RxRing s k) (he : s.DepositEnabled) : k < s.cfg.nRx :=
  h.rxFlag_rdh.1 he.2.2.1

theorem Deposit.rxFrame_other {j : Nat} (ht : Deposit s t i f) (hj : j < s.cfg.nRx) (hne : i ≠ j)
    (hl : s.rxd j .length ≤ s.cfg.rxBufSize) : t.rxFrame j = s.rxFrame j := by
  rw [State.rxFrame, ht.rxd j hj hne, ht.cfg, ht.rxBuf j hj hne _ hl, State.rxFrame]

/-- The frame joins the undrained frames, at the end. -/
theorem RxRing.rxFrames_deposit (h : RxRing s k) (hk : k < s.cfg.nRx) (ht : Deposit s t s.rdh f)
    (htail : t.rxTail = s.rxTail) : rxFrames t (k + 1) = rxFrames s k ++ [f] := by
  have hcand : t.rxCandidate = s.rxCandidate := by rw [State.rxCandidate, htail, ht.cfg, State.rxCandidate]
  rw [rxFrames, List.range_succ, List.map_append, List.map_singleton, hcand, ht.cfg, ← h.head,
    ht.slot.rxFrame ht.cfg]
  congr 1
  refine List.map_congr_left fun j hj => ?_
  have hj := List.mem_range.1 hj
  refine ht.rxFrame_other (h.slot_lt j) (fun he => ?_) (h.lengths j hj)
  exact absurd (slot_inj hk (hj.trans hk) (h.head.symm.trans he)) (by omega)

/-! RECEIVE takes the oldest frame. -/

theorem RxRing.received (h : RxRing s k) (hw : s.cfg.WF) (hk : 0 < k) : RxRing (s.received out) (k - 1) :=
  (h.drainSlot hw hk).transport rfl rfl rfl rfl rfl fun _ _ _ => rfl

theorem RxRing.rxFrame_received (h : RxRing s k) (hw : s.cfg.WF) (hi : i < s.cfg.nRx)
    (hl : s.rxd i .length ≤ s.cfg.rxBufSize) : (s.received out).rxFrame i = s.rxFrame i := by
  have hlen : (s.received out).rxd i .length = s.rxd i .length := h.rxd_drainSlot hw hi (.inr (by decide))
  rw [State.rxFrame, hlen]
  exact State.setRxd_rxBuf hw h.rxCandidate_lt hi hl .status _

/-- The undrained frames are the oldest, which RECEIVE returns, and those left after it. -/
theorem RxRing.rxFrames_received (h : RxRing s k) (hw : s.cfg.WF) (hk : 0 < k) :
    rxFrames s k = s.rxFrame s.rxCandidate :: rxFrames (s.received out) (k - 1) := by
  obtain ⟨k, rfl⟩ : ∃ j, k = j + 1 := ⟨k - 1, by omega⟩
  rw [rxFrames, List.range_succ_eq_map, List.map_cons, List.map_map, h.first_eq]
  congr 1
  refine List.map_congr_left fun j hj => ?_
  have hj := List.mem_range.1 hj
  have hslot : ((s.received out).rxCandidate + j) % (s.received out).cfg.nRx =
      (s.rxCandidate + (j + 1)) % s.cfg.nRx := slot_after _ j _
  rw [hslot, h.rxFrame_received hw (h.slot_lt _) (h.lengths (j + 1) (by omega))]
  rfl

/-- The caller's array begins with the oldest frame, the rest of it as it was. -/
theorem State.received_outBuffer (s : State) (out : List Byte) :
    (s.received out).outBuffer.take (s.rxFrame s.rxCandidate).length = s.rxFrame s.rxCandidate ∧
      (s.received out).outBuffer.drop (s.rxFrame s.rxCandidate).length =
        out.drop (s.rxFrame s.rxCandidate).length := by
  rw [State.received]
  exact ⟨List.take_left, by rw [List.drop_left, State.rxFrame_length]⟩

theorem State.received_results (s : State) (out : List Byte) :
    (s.received out).results = s.results ++ [⟨.receive, .okCount (s.rxFrame s.rxCandidate).length⟩] := by
  simp [State.received]

end

/-- Settles O55, operation by operation. -/
theorem receiveRingIsAQueue : Obligations.ReceiveRingIsAQueue := by
  refine fun s k hw hr h => ⟨h.depositEnabled_iff hr, fun f rest he hwire hmin hmax => ?_, fun out ho hk => ?_,
    fun out ho hk => ?_⟩
  · have htaken : RxRing { s with wireIn := rest } k := h.transport rfl rfl rfl rfl rfl fun _ _ _ => rfl
    have hk := h.undrained_lt_of_enabled he
    exact ⟨_, exec_rxDeposit_deposits he h.rdh_lt h.rdt_lt (h.rxRingSize_ne hw) hwire ⟨hmin, hmax⟩, rfl,
      htaken.depositAtHead hw hk hmax,
      htaken.rxFrames_deposit hk (htaken.deposit hw hmax) (State.depositAtHead_rxTail _ f)⟩
  · obtain ⟨htake, hdrop⟩ := s.received_outBuffer out
    exact ⟨_, _, _, h.exec_receive hr hk ho, h.rxFrames_received hw hk, htake, hdrop, s.received_results out,
      h.received hw hk, rfl⟩
  · subst hk
    exact exec_receive_queueEmpty hr h.tail_lt ho h.rxFlag_rxCandidate

end Sys2Proof.Machine

/-! ### One iteration of the input bridge (R262, R266) -/

namespace Sys2Proof.Machine

/-- A store into a receive descriptor is into no message buffer's page. -/
theorem State.setRxd_msgPage {s : State} (h : s.cfg.WF) {i : Nat} (hi : i < s.cfg.nRx) (f : RxField) (v : Nat)
    (b : Buf) : (s.setRxd i f v).msgPage b = s.msgPage b := by
  by_cases hb : b < s.cfg.poolPages
  · have hfield := f.width_le
    have hdesc := State.rxdBase_inside h hi
    have hapart : pageAt s.cfg b + s.cfg.pageSize ≤ s.rxdBase i ∨ s.rxdBase i + 16 ≤ pageAt s.cfg b :=
      pageAt_region h hb s.cfg.rxDescRegion_mem hdesc
    rw [State.msgPage_near hb, State.msgPage_near (s := s.setRxd i f v) hb, State.setRxd_cfg]
    exact Mem.readBytes_write_disjoint _ _ _ _ _ _ (by have := State.rxdBase_end h hi; omega) (pageAt_end h hb)
      (by omega)
  · simp [State.msgPage, hb]

/-- Filling a page leaves the receive descriptors. -/
theorem State.fillMsg_rxd {s : State} (h : s.cfg.WF) (b : Buf) {n : Nat} (hn : n ≤ s.cfg.rxBufSize) {d : List Byte}
    (hd : n ≤ d.length) {i : Nat} (hi : i < s.cfg.nRx) (g : RxField) : (s.fillMsg b n d).rxd i g = s.rxd i g :=
  State.setPage_rxd h (filledPage_length (s.msgPage_length b) ((Nat.add_le_add_left hn _).trans h.page_le) hd) hi g

section
variable {s t u : State} {buf : Buf}

/-- What the bridge leaves of a page depends on the configuration, host memory and the pages outside it alone. -/
theorem FilledFrom.of_same {c : Nat} (h : FilledFrom s t buf c) (hc : u.cfg = t.cfg) (hm : u.mem = t.mem)
    (hf : u.farPages = t.farPages) : FilledFrom s u buf c where
  len := by rw [State.msgLen, hc, State.msgPage_congr hc hm hf]; exact h.len
  frame := by rw [State.msgFrame, hc, State.msgPage_congr hc hm hf]; exact h.frame
  status := by rw [State.rxStatus, State.rxd_congr hc hm]; exact h.status
  outside a hs hp := by rw [hm]; exact h.outside a hs hp
  page := ⟨fun b hb => (State.msgPage_congr hc hm hf b).trans (h.page.others b hb),
    fun hb => hf.trans (h.page.inMemory hb)⟩

/-- After a RECEIVE that drained the candidate slot, the bytes not yet handed over. -/
def State.drained (s : State) : State :=
  (s.drainSlot s.rxCandidate).returns .receive (.okCount (s.rxd s.rxCandidate .length))

theorem State.drained_msgPage (hw : s.cfg.WF) (hc : s.rxCandidate < s.cfg.nRx) (b : Buf) :
    s.drained.msgPage b = s.msgPage b := s.setRxd_msgPage hw hc .status _ b

theorem State.drained_rxStatus (s : State) :
    s.drained.rxStatus s.rxCandidate = clearFlag s.cfg.layout.rxDone (s.rxStatus s.rxCandidate) :=
  s.rxStatus_setRxd_same s.rxCandidate _

/-- After the input bridge's RECEIVE has drained the candidate slot into the page of `buf`, which is then stamped with
the length (R266). -/
def State.drainedInto (s : State) (buf : Buf) : State :=
  s.drained.fillMsg buf (s.rxd s.rxCandidate .length)
    (s.rxFrame s.rxCandidate ++ (pageData s.cfg (s.msgPage buf)).drop (s.rxd s.rxCandidate .length))

theorem State.drainedInto_eq (s : State) (buf : Buf) : s.drainedInto buf =
    { s.setReg .rdt (indexWord s.rxCandidate) with
      mem := (s.drainedInto buf).mem, farPages := (s.drainedInto buf).farPages, rxTail := s.rxCandidate,
      results := s.results ++ [⟨.receive, .okCount (s.rxd s.rxCandidate .length)⟩] } :=
  State.fillMsg_eq _ _ _ _

@[simp] theorem State.drainedInto_collab (s : State) (buf : Buf) : (s.drainedInto buf).collab = s.collab := by
  rw [s.drainedInto_eq]
  rfl

/-- The page filled, the flag cleared, and nothing else of memory. -/
theorem State.drainedInto_filledFrom (hw : s.cfg.WF) (hc : s.rxCandidate < s.cfg.nRx)
    (hn : s.rxd s.rxCandidate .length ≤ s.cfg.rxBufSize) : FilledFrom s (s.drainedInto buf) buf s.rxCandidate := by
  have hdata : s.rxd s.rxCandidate .length ≤ (s.rxFrame s.rxCandidate ++
      (pageData s.cfg (s.msgPage buf)).drop (s.rxd s.rxCandidate .length)).length := by simp
  have hpage := State.fillMsg_onlyPage (s := s.drained) hw buf hn hdata
  constructor
  case len => exact State.fillMsg_msgLen (s := s.drained) hw buf hn hdata
  case frame =>
    exact (State.fillMsg_msgFrame (s := s.drained) hw buf hn hdata).trans (List.take_left' (s.rxFrame_length _))
  case status =>
    have hbyte := congrArg (BitVec.ofNat 8) (State.fillMsg_rxd (s := s.drained) hw buf hn hdata hc .status)
    exact hbyte.trans s.drained_rxStatus
  case outside =>
    intro a hs hp
    exact (s.drained.fillMsg_get_outside buf hdata a hp).trans (s.drainSlot_get_outside _ a hs)
  case page => exact ⟨fun b hb => (hpage.others b hb).trans (State.drained_msgPage hw hc b), hpage.inMemory⟩

variable (ha : s.attached = true) (hf : s.ibFatal = none)
include ha hf

theorem exec_inBridgeIter_acquires (hp : s.ibPhase = .acquire) (hc : s.collab.acquireFails = false) :
    exec .inBridgeIter s = .next { s with ibPhase := .polling s.freePage } := by
  simp [exec, execInBridgeIter, ha, hf, hp, State.acquire, hc]

variable (hp : s.ibPhase = .polling buf) (hr : s.SwReady) (ht : s.rxTail < s.cfg.nRx) (hw : s.cfg.WF)
include hp hr ht hw

theorem exec_inBridgeIter_queueEmpty (hflag : s.rxFlag s.rxCandidate = false) :
    exec .inBridgeIter s = .next (s.returns .receive (.err .queueEmpty)) := by
  simp [exec, execInBridgeIter, ha, hf, hp, hr.receiveOp_eq ht (rxBufSize_le_pageData hw buf), hflag]

/-- A filled slot is drained; whether the message is then sent is ENV's choice (R263, R300). -/
theorem exec_inBridgeIter_drains (hflag : s.rxFlag s.rxCandidate = true)
    (hn : s.rxd s.rxCandidate .length ≤ s.cfg.rxBufSize) : exec .inBridgeIter s =
      if s.collab.sendFails then .next ((s.drainedInto buf).raise .ib (.fatalIoError .sendFailed))
      else .next { (s.drainedInto buf).sendToStack buf with ibPhase := .acquire } := by
  rw [← s.drainedInto_collab buf]
  simp [exec, execInBridgeIter, ha, hf, hp, hr.receiveOp_eq ht (rxBufSize_le_pageData hw buf), hflag,
    Nat.not_lt.2 hn, State.drainedInto, State.drained]

end

/-- Settles O45: a free page is taken; then RECEIVE into its page, which either finds the ring empty or fills it. -/
theorem inputBridgeIteration : Obligations.InputBridgeIteration := by
  refine fun s ha hf => ⟨fun hp hc => ?_, fun buf c hp hr ht hc hw hn => ?_⟩
  · have hfree := s.freePage_free
    exact ⟨s.freePage, hfree.1, fun ⟨k, hk, hkfree⟩ => hfree.near hk hkfree,
      exec_inBridgeIter_acquires ha hf hp hc⟩
  · obtain rfl : s.rxCandidate = c := hc.symm
    refine ⟨exec_inBridgeIter_queueEmpty ha hf hp hr ht hw, fun hflag hsend => ?_⟩
    have hslot : s.rxCandidate < s.cfg.nRx := nextIndex_lt (Nat.zero_lt_of_lt ht)
    have hexec := exec_inBridgeIter_drains ha hf hp hr ht hw hflag hn
    rw [if_neg (by simp [hsend])] at hexec
    exact ⟨_, hexec, (State.drainedInto_filledFrom hw hslot hn).of_same rfl rfl rfl,
      congrArg (fun u : State => { u.sendToStack buf with ibPhase := .acquire }) (s.drainedInto_eq buf)⟩

end Sys2Proof.Machine

/-! ### One iteration of the output bridge (R269) -/

namespace Sys2Proof.Machine

section
variable {s t : State} {buf : Buf} (ha : s.attached = true) (hf : s.obFatal = none)
include ha hf

section
variable (hp : s.obPhase = .waiting) (hc : s.collab.recvFails = false)
include hp hc

theorem exec_outBridgeIter_blocked (hm : s.fromStack = []) : exec .outBridgeIter s = .next s := by
  simp [exec, execOutBridgeIter, ha, hf, hp, hc, hm]

theorem exec_outBridgeIter_takes {rest : List Message} (hm : s.fromStack = ⟨.outputRequest, buf⟩ :: rest) :
    exec .outBridgeIter s = .next { s with fromStack := rest, obPhase := .sending buf } := by
  simp [exec, execOutBridgeIter, ha, hf, hp, hc, hm]

end

variable (hp : s.obPhase = .sending buf)
include hp

theorem exec_outBridgeIter_refuses_beyond (hl : s.msgLen buf ≤ s.cfg.maxFrameLen)
    (hbeyond : s.cfg.pageSize - s.cfg.msgLenBytes < s.msgLen buf) : Refuses .outBridgeIter s :=
  ⟨.messageBeyondPage, by simp [exec, execOutBridgeIter, ha, hf, hp, hl, hbeyond]⟩

variable (hfits : s.msgLen buf ≤ s.cfg.pageSize - s.cfg.msgLenBytes)
include hfits

theorem exec_outBridgeIter_sends (hop : transmitOp (s.msgLen buf) (s.msgFrame buf) s = .ok (none, t)) :
    exec .outBridgeIter s = .next { t with obPhase := .waiting } := by
  simp [exec, execOutBridgeIter, ha, hf, hp, Nat.not_lt.2 hfits, hop]

theorem exec_outBridgeIter_queueFull
    (hop : transmitOp (s.msgLen buf) (s.msgFrame buf) s = .ok (some .queueFull, t)) :
    exec .outBridgeIter s = .next t := by
  simp [exec, execOutBridgeIter, ha, hf, hp, Nat.not_lt.2 hfits, hop]

end

theorem transmitOp_queueFull {s : State} (hr : s.SwReady) {len : Nat} (hl : len ≤ s.cfg.maxFrameLen)
    (ht : s.txTail < s.cfg.nTx) (hf : s.txFlag s.txTail = false) (payload : Frame) :
    transmitOp len payload s = .ok (some .queueFull, s.returns .transmit (.err .queueFull)) := by
  simp [hr.transmitOp_eq, Nat.not_lt.2 hl, Nat.not_le.2 ht, hf]

/-- Settles O46: a bridge that waits takes the next message; one that sends calls TRANSMIT with the message's frame. -/
theorem outputBridgeIteration : Obligations.OutputBridgeIteration := by
  refine fun s ha hf => ⟨exec_outBridgeIter_blocked ha hf, fun _ _ hp hc => exec_outBridgeIter_takes ha hf hp hc,
    fun buf hw hb => ⟨State.msgLen_eq hw hb, State.msgFrame_eq hb⟩, fun buf len hw hp hlen hl => ?_⟩
  subst hlen
  have hpage := hw.page_le
  refine ⟨fun hr ht hfits => ?_, fun hbeyond => exec_outBridgeIter_refuses_beyond ha hf hp hl (by omega)⟩
  replace hfits : s.msgLen buf ≤ s.cfg.pageSize - s.cfg.msgLenBytes := by omega
  have hframe : (s.msgFrame buf).length = s.msgLen buf := State.msgFrame_length hfits
  refine ⟨fun hflag => ?_, fun hflag =>
    exec_outBridgeIter_queueFull ha hf hp hfits (transmitOp_queueFull hr hl ht hflag _)⟩
  have hop := transmitOp_ok hr (hframe.trans_le hl) ht hflag
  exact ⟨_, exec_transmit_ok hr (hframe.trans_le hl) ht hflag, s.transmitted_results _,
    exec_outBridgeIter_sends ha hf hp hfits (hframe ▸ hop)⟩

end Sys2Proof.Machine

/-! ### The fatal conditions, which end a bridge loop (R295, R296, R298, R300) -/

namespace Sys2Proof.Machine

section
variable {s : State}

theorem State.raise_ib (h : s.ibFatal = none) (f : Fatal) : s.raise .ib f = { s with ibFatal := some f } := by
  simp [State.raise, h]

theorem State.raise_ob (h : s.obFatal = none) (f : Fatal) : s.raise .ob f = { s with obFatal := some f } := by
  simp [State.raise, h]

theorem transmitOp_payloadTooLarge (hr : s.SwReady) {len : Nat} (hl : s.cfg.maxFrameLen < len) (payload : Frame) :
    transmitOp len payload s = .ok (some .payloadTooLarge, s.returns .transmit (.err .payloadTooLarge)) := by
  rw [hr.transmitOp_eq, if_pos hl]

variable (ha : s.attached = true)
include ha

theorem exec_inBridgeIter_acquireFailed (hf : s.ibFatal = none) (hp : s.ibPhase = .acquire)
    (hc : s.collab.acquireFails = true) :
    exec .inBridgeIter s = .next { s with ibFatal := some (.fatalIoError .acquireFailed) } := by
  simp [exec, execInBridgeIter, ha, hf, hp, State.acquire, hc, State.raise_ib]

/-- A failed `send` is met after RECEIVE has drained its slot into the page, and the slot is not rolled back. -/
theorem exec_inBridgeIter_sendFailed {buf : Buf} (hf : s.ibFatal = none) (hp : s.ibPhase = .polling buf)
    (hr : s.SwReady) (ht : s.rxTail < s.cfg.nRx) (hw : s.cfg.WF) (hflag : s.rxFlag s.rxCandidate = true)
    (hn : s.rxd s.rxCandidate .length ≤ s.cfg.rxBufSize) (hsend : s.collab.sendFails = true) :
    exec .inBridgeIter s =
      .next { s.drainedInto buf with ibFatal := some (.fatalIoError .sendFailed) } := by
  have hmark : (s.drainedInto buf).ibFatal = none := by rw [s.drainedInto_eq]; exact hf
  rw [exec_inBridgeIter_drains ha hf hp hr ht hw hflag hn, if_pos hsend, State.raise_ib hmark]

variable (hf : s.obFatal = none)
include hf

theorem exec_outBridgeIter_recvFailed (hp : s.obPhase = .waiting) (hc : s.collab.recvFails = true) :
    exec .outBridgeIter s = .next { s with obFatal := some (.fatalIoError .recvFailed) } := by
  simp [exec, execOutBridgeIter, ha, hf, hp, hc, State.raise_ob]

theorem exec_outBridgeIter_wrongTag {msg : Message} {rest : List Message} (hp : s.obPhase = .waiting)
    (hc : s.collab.recvFails = false) (hm : s.fromStack = msg :: rest) (htag : msg.tag ≠ .outputRequest) :
    exec .outBridgeIter s =
      .next { s with fromStack := rest, obFatal := some (.protocolViolation msg.tag) } := by
  simp [exec, execOutBridgeIter, ha, hf, hp, hc, hm, htag, State.raise_ob]

theorem exec_outBridgeIter_payloadTooLarge {buf : Buf} (hp : s.obPhase = .sending buf) (hr : s.SwReady)
    (hl : s.cfg.maxFrameLen < s.msgLen buf) : exec .outBridgeIter s =
      .next { s.returns .transmit (.err .payloadTooLarge) with
        obFatal := some (.fatalIoError (.transmitError .payloadTooLarge)) } := by
  have hop := transmitOp_payloadTooLarge hr hl (s.msgFrame buf)
  simp [exec, execOutBridgeIter, ha, hf, hp, Nat.not_le.2 hl, hop, State.raise_ob]

end

/-- Settles O47: the four conditions without a change to the rings, then the failed `send` over a drained slot. -/
theorem fatalConditions : Obligations.FatalConditions := by
  refine fun s ha => ⟨exec_inBridgeIter_acquireFailed ha, exec_outBridgeIter_recvFailed ha,
    fun _ _ hf => exec_outBridgeIter_wrongTag ha hf, fun _ hf => exec_outBridgeIter_payloadTooLarge ha hf,
    fun buf c hf hp hr hw ht hc hn hflag hsend => ?_⟩
  obtain rfl : s.rxCandidate = c := hc.symm
  have hslot : s.rxCandidate < s.cfg.nRx := nextIndex_lt (Nat.zero_lt_of_lt ht)
  exact ⟨_, exec_inBridgeIter_sendFailed ha hf hp hr ht hw hflag hn hsend,
    (State.drainedInto_filledFrom hw hslot hn).of_same rfl rfl rfl,
    congrArg (fun u : State => { u with ibFatal := some (.fatalIoError .sendFailed) }) (s.drainedInto_eq buf)⟩

end Sys2Proof.Machine

/-! ### The values of reset, and the full transmit ring (R52, R56, R320, R328) -/

namespace Sys2Proof.Machine

/-- Settles O10: the fields at reset. -/
theorem resetValues : Obligations.ResetValues :=
  ⟨by decide, by decide, by decide, rfl, rfl, rfl, rfl, rfl, rfl, rfl⟩

section
variable {s : State} {d : Nat} (h : TxRing s d s.cfg.nTx 0)
include h

/-- With every slot armed and none fetched the head has come round to the tail (R328). -/
theorem TxRing.tdt_eq_tdh_of_full : s.reg .tdt = s.reg .tdh := by
  by_contra hne
  obtain ⟨-, hlt⟩ := h.tdh_ne_tdt.1 (Ne.symm hne)
  exact absurd hlt (by omega)

/-- So an engine that takes the tail for the end of its work has none (R207, R328). -/
theorem TxRing.not_fetchEnabled_of_full (hrule : s.cfg.txArmRule = .tailGated) : ¬ s.FetchEnabled := by
  rintro ⟨-, ⟨-, hne⟩ | ⟨hflag, -⟩⟩
  · exact hne h.tdt_eq_tdh_of_full.symm
  · rw [hrule] at hflag
    cases hflag

end

/-- Settles O57: head and tail are equal, so the arming rule alone decides whether the engine moves. -/
theorem fullRingHang : Obligations.FullRingHang := by
  intro s d hw hr h
  obtain ⟨-, hfetch, hcomplete, -⟩ := stepsNotEnabledChangeNothing s
  have hpos := hw.nTx_pos
  refine ⟨h.tdt_eq_tdh_of_full, hcomplete h.pending, fun hrule => ?_, fun hrule hen => ?_,
    fun payload hl => h.exec_transmit_full hr hl⟩
  · exact hfetch h.tdh_lt h.tdt_lt (h.not_fetchEnabled_of_full hrule)
  · exact (h.fetchEnabled_iff hen).2 (.inr ⟨hrule, hpos⟩)

end Sys2Proof.Machine

/-! ### What the operations leave of the message pages (R54, R70, R71) -/

namespace Sys2Proof.Machine

section
variable {s t : State} {b : Buf}

/-- A page whose bytes stand in host memory, where it lies there, reads as before. -/
theorem State.msgPage_of_get (hc : t.cfg = s.cfg) (hf : t.farPages = s.farPages)
    (h : b < s.cfg.poolPages → ∀ k < s.cfg.pageSize,
      Mem.get t.mem (pageAt s.cfg b + k) = Mem.get s.mem (pageAt s.cfg b + k)) : t.msgPage b = s.msgPage b := by
  by_cases hb : b < s.cfg.poolPages
  · rw [State.msgPage_near hb, State.msgPage_near (hc ▸ hb), hc]
    exact Mem.readBytes_congr _ _ (h hb)
  · simp [State.msgPage, hc, hf, hb]

theorem State.msgFrame_congr (hc : t.cfg = s.cfg) (h : t.msgPage b = s.msgPage b) : t.msgFrame b = s.msgFrame b := by
  rw [State.msgFrame, hc, h, State.msgFrame]

section
variable (hw : s.cfg.WF) (hb : b < s.cfg.poolPages) {i k : Nat} (hk : k < s.cfg.pageSize)
include hw hb hk

/-- A byte of a page lies outside whatever lies in a region of R71. -/
theorem pageAt_outside {r : Region} (hr : r ∈ s.cfg.regions) {a n : Nat} (ha : r.1 ≤ a ∧ a + n ≤ r.1 + r.2) :
    Mem.Outside a n (pageAt s.cfg b + k) :=
  Mem.outside_range _ (ha.2.trans (hw.bounded r hr)) (pageAt_end hw hb) hk (pageAt_region hw hb hr ha).symm

theorem pageAt_outside_txd (hi : i < s.cfg.nTx) {o n : Nat} (ho : o + n ≤ 16) :
    Mem.Outside (s.txdBase i + o) n (pageAt s.cfg b + k) := by
  obtain ⟨hbase, hend⟩ := State.txdBase_inside hw hi
  refine pageAt_outside hw hb hk s.cfg.txDescRegion_mem ⟨?_, ?_⟩ <;> simp only [Config.txDescRegion] <;> omega

theorem pageAt_outside_rxd (hi : i < s.cfg.nRx) {o n : Nat} (ho : o + n ≤ 16) :
    Mem.Outside (s.rxdBase i + o) n (pageAt s.cfg b + k) := by
  obtain ⟨hbase, hend⟩ := State.rxdBase_inside hw hi
  refine pageAt_outside hw hb hk s.cfg.rxDescRegion_mem ⟨?_, ?_⟩ <;> simp only [Config.rxDescRegion] <;> omega

end

variable (hw : s.cfg.WF)
include hw

theorem State.transmitted_msgPage {payload : Frame} (ht : s.txTail < s.cfg.nTx)
    (hl : payload.length ≤ s.cfg.maxFrameLen) (b : Buf) : (s.transmitted payload).msgPage b = s.msgPage b :=
  State.msgPage_of_get rfl rfl fun hb _ hk => s.armSlot_get_outside payload.length payload _
    (pageAt_outside hw hb hk (s.cfg.txBufRegion_mem ht)
      ⟨Nat.le_refl _, Nat.add_le_add_left (hl.trans hw.maxFrame_le) _⟩)
    (pageAt_outside_txd hw hb hk ht (by decide)) (pageAt_outside_txd hw hb hk ht (by decide))

theorem State.sendOldest_msgPage (hd : s.txOldest < s.cfg.nTx) (b : Buf) : s.sendOldest.msgPage b = s.msgPage b :=
  State.msgPage_of_get rfl rfl fun hb _ hk =>
    Mem.get_write_outside _ _ _ _ _ (pageAt_outside_txd hw hb hk hd (by decide))

theorem RxRing.depositAtHead_msgPage {k : Nat} {f : Frame} (h : RxRing s k) (hl : f.length ≤ s.cfg.rxBufSize) (b : Buf) :
    (s.depositAtHead f).msgPage b = s.msgPage b :=
  State.msgPage_of_get (s.depositAtHead_cfg f) rfl fun hb _ hk =>
    State.depositAtHead_get_outside (h.bound _ h.rdh_lt)
      (pageAt_outside hw hb hk (s.cfg.rxBufRegion_mem h.rdh_lt) ⟨Nat.le_refl _, Nat.add_le_add_left hl _⟩)
      (pageAt_outside_rxd hw hb hk h.rdh_lt (by decide))

end

end Sys2Proof.Machine

/-! ### What leaves a ring as it is (R48, R70, R71) -/

namespace Sys2Proof.Machine

/-- From `s` to `t` nothing of the transmit ring changes, nor of `wire_out`. -/
structure TxKept (s t : State) : Prop where
  cfg : t.cfg = s.cfg
  tdh : t.reg .tdh = s.reg .tdh
  tdt : t.reg .tdt = s.reg .tdt
  tdlen : t.reg .tdlen = s.reg .tdlen
  txTail : t.txTail = s.txTail
  txPending : t.txPending = s.txPending
  wireOut : t.wireOut = s.wireOut
  txd : ∀ i < s.cfg.nTx, ∀ g, t.txd i g = s.txd i g
  txBuf : ∀ i < s.cfg.nTx, ∀ n ≤ s.cfg.txBufSize,
    Mem.readBytes t.mem (s.cfg.txBufBase i).toNat n = Mem.readBytes s.mem (s.cfg.txBufBase i).toNat n

/-- From `s` to `t` nothing of the receive ring changes. -/
structure RxKept (s t : State) : Prop where
  cfg : t.cfg = s.cfg
  rdh : t.reg .rdh = s.reg .rdh
  rdt : t.reg .rdt = s.reg .rdt
  rdlen : t.reg .rdlen = s.reg .rdlen
  rxTail : t.rxTail = s.rxTail
  rxd : ∀ i < s.cfg.nRx, ∀ g, t.rxd i g = s.rxd i g
  rxBuf : ∀ i < s.cfg.nRx, ∀ n ≤ s.cfg.rxBufSize,
    Mem.readBytes t.mem (s.cfg.rxBufBase i).toNat n = Mem.readBytes s.mem (s.cfg.rxBufBase i).toNat n

section
variable {s t u : State} {d m p k : Nat}

/-- Only the registers but EERD, the tail, the count of fetched slots and memory matter to a ring. -/
theorem TxKept.of_same (hc : t.cfg = s.cfg) (hr : ∀ r, r ≠ .eerd → t.reg r = s.reg r) (hm : t.mem = s.mem)
    (ht : t.txTail = s.txTail) (hp : t.txPending = s.txPending) (hwire : t.wireOut = s.wireOut) : TxKept s t :=
  ⟨hc, hr _ (by decide), hr _ (by decide), hr _ (by decide), ht, hp, hwire, fun i _ g => State.txd_congr hc hm i g,
    fun _ _ _ _ => by rw [hm]⟩

theorem RxKept.of_same (hc : t.cfg = s.cfg) (hr : ∀ r, r ≠ .eerd → t.reg r = s.reg r) (hm : t.mem = s.mem)
    (ht : t.rxTail = s.rxTail) : RxKept s t :=
  ⟨hc, hr _ (by decide), hr _ (by decide), hr _ (by decide), ht, fun i _ g => State.rxd_congr hc hm i g,
    fun _ _ _ _ => by rw [hm]⟩

theorem TxKept.trans (h : TxKept s t) (h' : TxKept t u) : TxKept s u where
  cfg := h'.cfg.trans h.cfg
  tdh := h'.tdh.trans h.tdh
  tdt := h'.tdt.trans h.tdt
  tdlen := h'.tdlen.trans h.tdlen
  txTail := h'.txTail.trans h.txTail
  txPending := h'.txPending.trans h.txPending
  wireOut := h'.wireOut.trans h.wireOut
  txd i hi g := (h'.txd i (h.cfg ▸ hi) g).trans (h.txd i hi g)
  txBuf i hi n hn := by
    have h2 := h'.txBuf i (h.cfg ▸ hi) n (h.cfg ▸ hn)
    rw [h.cfg] at h2
    exact h2.trans (h.txBuf i hi n hn)

theorem TxKept.ring (h : TxKept s t) (hr : TxRing s d m p) : TxRing t d m p :=
  hr.transport h.cfg h.tdh h.tdt h.tdlen h.txTail h.txPending h.txd

theorem TxKept.frames (h : TxKept s t) (hr : TxRing s d m p) (hw : s.cfg.WF) : txFrames t d m = txFrames s d m := by
  refine List.map_congr_left fun j hj => ?_
  have hlen := (hr.armed j (List.mem_range.1 hj)).2
  have hi := hr.slot_lt j
  rw [h.cfg, (h.ring hr).txFrame_eq (h.cfg ▸ hi), hr.txFrame_eq hi, h.cfg, h.txd _ hi,
    h.txBuf _ hi _ (hlen.trans hw.maxFrame_le)]

theorem RxKept.trans (h : RxKept s t) (h' : RxKept t u) : RxKept s u where
  cfg := h'.cfg.trans h.cfg
  rdh := h'.rdh.trans h.rdh
  rdt := h'.rdt.trans h.rdt
  rdlen := h'.rdlen.trans h.rdlen
  rxTail := h'.rxTail.trans h.rxTail
  rxd i hi g := (h'.rxd i (h.cfg ▸ hi) g).trans (h.rxd i hi g)
  rxBuf i hi n hn := by
    have h2 := h'.rxBuf i (h.cfg ▸ hi) n (h.cfg ▸ hn)
    rw [h.cfg] at h2
    exact h2.trans (h.rxBuf i hi n hn)

theorem RxKept.ring (h : RxKept s t) (hr : RxRing s k) : RxRing t k :=
  hr.transport h.cfg h.rdh h.rdt h.rdlen h.rxTail h.rxd

theorem RxKept.frames (h : RxKept s t) (hr : RxRing s k) : rxFrames t k = rxFrames s k := by
  have hcand : t.rxCandidate = s.rxCandidate := by rw [State.rxCandidate, h.rxTail, h.cfg, State.rxCandidate]
  refine List.map_congr_left fun j hj => ?_
  have hi := hr.slot_lt j
  rw [hcand, h.cfg, State.rxFrame, h.cfg, h.rxd _ hi, h.rxBuf _ hi _ (hr.lengths j (List.mem_range.1 hj)), State.rxFrame]

/-! A page stored touches neither ring. -/

section
variable (hw : s.cfg.WF) {b : Buf} {page : List Byte} (hp : page.length = s.cfg.pageSize)
include hw hp

theorem State.setPage_txKept : TxKept s (s.setPage b page) where
  cfg := s.setPage_cfg b page
  tdh := State.reg_congr (s.setPage_regs b page) _
  tdt := State.reg_congr (s.setPage_regs b page) _
  tdlen := State.reg_congr (s.setPage_regs b page) _
  txTail := s.setPage_txTail b page
  txPending := s.setPage_txPending b page
  wireOut := s.setPage_wireOut b page
  txd _ hi g := State.setPage_txd hw hp hi g
  txBuf _ hi _ hn := State.setPage_txBuf hw hp hi hn

theorem State.setPage_rxKept : RxKept s (s.setPage b page) where
  cfg := s.setPage_cfg b page
  rdh := State.reg_congr (s.setPage_regs b page) _
  rdt := State.reg_congr (s.setPage_regs b page) _
  rdlen := State.reg_congr (s.setPage_regs b page) _
  rxTail := s.setPage_rxTail b page
  rxd _ hi g := State.setPage_rxd hw hp hi g
  rxBuf _ hi _ hn := State.setPage_rxBuf hw hp hi hn

end

/-! What the operations on one ring leave of the other. -/

variable (hw : s.cfg.WF)
include hw

theorem RxRing.depositAtHead_txKept {f : Frame} (h : RxRing s k) (hl : f.length ≤ s.cfg.rxBufSize) :
    TxKept s (s.depositAtHead f) where
  cfg := s.depositAtHead_cfg f
  tdh := State.reg_depositAtHead_ne (by decide)
  tdt := State.reg_depositAtHead_ne (by decide)
  tdlen := State.reg_depositAtHead_ne (by decide)
  txTail := s.depositAtHead_txTail f
  txPending := s.depositAtHead_txPending f
  wireOut := rfl
  txd i hi g := (State.txd_congr (s := s.depositInto s.rdh f) (s.depositAtHead_cfg f) (s.depositAtHead_mem f) i g).trans
    (State.depositInto_txd hw h.rdh_lt hi hl (h.bound _ h.rdh_lt) g)
  txBuf _ hi _ hn := (s.depositAtHead_mem f).symm ▸
    State.depositInto_txBuf hw h.rdh_lt hi hl (h.bound _ h.rdh_lt) hn

theorem RxRing.drained_txKept (h : RxRing s k) : TxKept s s.drained where
  cfg := rfl
  tdh := rfl
  tdt := rfl
  tdlen := rfl
  txTail := rfl
  txPending := rfl
  wireOut := rfl
  txd _ hi g := State.setRxd_txd hw h.rxCandidate_lt hi .status g _
  txBuf _ hi _ hn := State.setRxd_txBuf hw h.rxCandidate_lt hi hn .status _

theorem RxRing.drained (h : RxRing s k) (hk : 0 < k) : RxRing s.drained (k - 1) :=
  (h.drainSlot hw hk).transport rfl rfl rfl rfl rfl fun _ _ _ => rfl

/-- The page the bridge fills is a whole page again. -/
theorem State.drainedInto_eq_setPage (hl : s.rxd s.rxCandidate .length ≤ s.cfg.rxBufSize) (b : Buf) :
    ∃ page : List Byte, page.length = s.cfg.pageSize ∧ s.drainedInto b = s.drained.setPage b page :=
  ⟨_, filledPage_length (s.drained.msgPage_length b) ((Nat.add_le_add_left hl _).trans hw.page_le) (by simp), rfl⟩

theorem State.transmitted_rxKept {payload : Frame} (ht : s.txTail < s.cfg.nTx)
    (hl : payload.length ≤ s.cfg.maxFrameLen) : RxKept s (s.transmitted payload) where
  cfg := rfl
  rdh := State.reg_transmitted_ne (by decide)
  rdt := State.reg_transmitted_ne (by decide)
  rdlen := State.reg_transmitted_ne (by decide)
  rxTail := rfl
  rxd _ hi g := State.armSlot_rxd hw ht (hl.trans hw.maxFrame_le) hi g
  rxBuf _ hi _ hn := State.armSlot_rxBuf hw ht (hl.trans hw.maxFrame_le) hi hn

theorem State.sendOldest_rxKept (hd : s.txOldest < s.cfg.nTx) : RxKept s s.sendOldest where
  cfg := rfl
  rdh := rfl
  rdt := rfl
  rdlen := rfl
  rxTail := rfl
  rxd _ hi g := State.setTxd_rxd hw hd hi .status g _
  rxBuf _ hi _ hn := State.setTxd_rxBuf hw hd hi hn .status _

omit hw in
theorem State.fetchHead_rxKept (s : State) : RxKept s s.fetchHead :=
  ⟨rfl, rfl, rfl, rfl, rfl, fun _ _ _ => rfl, fun _ _ _ _ => rfl⟩

end

end Sys2Proof.Machine

/-! ### A run whose only software is the two bridges (R8, R274) -/

namespace Sys2Proof.Machine

/-- The operations of the hardware and of the two bridges. -/
def bridgeOps : List Instr :=
  [.txFetch, .txComplete, .rxDeposit, .rxDrop, .eeComplete, .inBridgeIter, .outBridgeIter]

theorem mem_bridgeOps {i : Instr} : i ∈ bridgeOps ↔ i = .txFetch ∨ i = .txComplete ∨ i = .rxDeposit ∨ i = .rxDrop ∨
    i = .eeComplete ∨ i = .inBridgeIter ∨ i = .outBridgeIter := by
  simp only [bridgeOps, List.mem_cons, List.not_mem_nil, or_false]

/-- What holds at every moment of such a run: an attached block with both rings whole, no driver operation in progress
and no message buffer with two owners. -/
structure Running (s : State) : Prop where
  wf : s.cfg.WF
  ready : s.SwReady
  regs : AttachedRegs s
  rings : Rings s
  owned : s.BufsOwnedOnce

section
variable {s t : State} {i : Instr}

theorem Launch.running (h : Launch s) (hr : s.SwReady) (hw : s.cfg.WF) (ho : s.BufsOwnedOnce) : Running s := by
  obtain ⟨htx, hrx, hregs, -⟩ := launchSatisfiesTheInvariants s hw h
  exact ⟨hw, hr, hregs, ⟨h.attached, ⟨0, 0, 0, htx⟩, 0, hrx⟩, ho⟩

theorem Running.of_exec (h : Running s) (hi : i ∈ bridgeOps) (he : exec i s = .next t) : Running t := by
  have hcfg := (exec_keepsMarks he).cfg
  have hplace : t.place = s.place :=
    exec_place he (fun a ha => by simp [ha, bridgeOps] at hi) (fun a ha => by simp [ha, bridgeOps] at hi)
  have hwrite : i.isRegWrite = false := by
    rcases mem_bridgeOps.1 hi with rfl | rfl | rfl | rfl | rfl | rfl | rfl <;> rfl
  exact ⟨hcfg ▸ h.wf, h.ready.of_place hplace, exec_attachedRegs h.wf h.regs he,
    ringInvariantsKept i s t hwrite h.wf h.rings he, exec_bufsOwnedOnce h.owned he⟩

/-- No move of ENV touches a ring. -/
theorem envMove_ringsKept {m : EnvMove} (hw : s.cfg.WF) (he : envMove m s = .next t) : TxKept s t ∧ RxKept s t := by
  rcases envMove_cases he with rfl | ⟨f, -, -, rfl⟩ | ⟨tag, b, page, -, -, hp, -, rfl⟩ | ⟨msg, rest, -, -, rfl⟩ |
    ⟨b, -, -, rfl⟩ | ⟨c, -, rfl⟩
  case inr.inr.inl =>
    exact ⟨(State.setPage_txKept hw hp).trans (.of_same rfl (fun _ _ => rfl) rfl rfl rfl rfl),
      (State.setPage_rxKept hw hp).trans (.of_same rfl (fun _ _ => rfl) rfl rfl)⟩
  all_goals exact ⟨.of_same rfl (fun _ _ => rfl) rfl rfl rfl rfl, .of_same rfl (fun _ _ => rfl) rfl rfl⟩

theorem Running.of_envMove {m : EnvMove} (h : Running s) (he : envMove m s = .next t) : Running t := by
  obtain ⟨htx, hrx⟩ := envMove_ringsKept h.wf he
  obtain ⟨-, hplace, -⟩ := readView_eq_iff.1 (envMove_readView he)
  obtain ⟨ha, ⟨d, m, p, hd⟩, k, hk⟩ := h.rings
  have hready := h.ready.of_place hplace
  exact ⟨htx.cfg ▸ h.wf, hready, envMove_attachedRegs h.regs he,
    ⟨hready.1, ⟨d, m, p, htx.ring hd⟩, k, hrx.ring hk⟩, envMove_bufsOwnedOnce h.owned he⟩

end

section
variable {σ : Nat → State} {ε : Nat → Event} (h : Execution σ ε) (hb : BridgesOnly σ ε)
include h hb

/-- What happens at a moment of such a run. -/
theorem Execution.bridges_next (n : Nat) :
    (∃ m, ε n = .env m ∧ envMove m (σ n) = .next (σ (n + 1))) ∨
    ∃ i ∈ bridgeOps, Runs σ ε n i ∧ exec i (σ n) = .next (σ (n + 1)) := by
  rcases hb n with ⟨m, hm⟩ | ⟨i, hi, hrun⟩
  · have hstep := h.steps n
    rw [hm, step_env (s := { σ n with schedule := [.env m] }) (h.unmarked n) rfl,
      State.withSchedule_nil (h.chosen n)] at hstep
    exact .inl ⟨m, hm, hstep⟩
  · exact .inr ⟨i, hi, hrun, h.exec_of_runs hrun⟩

theorem Execution.running (h0 : Running (σ 0)) (n : Nat) : Running (σ n) := by
  induction n with
  | zero => exact h0
  | succ n ih =>
    rcases h.bridges_next hb n with ⟨m, -, hm⟩ | ⟨i, hi, -, he⟩
    · exact ih.of_envMove hm
    · exact ih.of_exec hi he

end

end Sys2Proof.Machine

/-! ### What an operation of such a run moves (R204, R205, R234, R266, R269) -/

namespace Sys2Proof.Machine

/-- The buffers of the messages the output bridge has still to hand to TRANSMIT, oldest first. -/
def State.unsentBufs (s : State) : List Buf := s.obPhase.bufs ++ channelBufs s.fromStack

/-- What a frame on its way lies in: the rings, the pages and the channel to the stack. -/
def State.flowView (s : State) : Config × RegFile × List Host.Cell × List (Buf × List Byte) × Nat × Nat × Nat ×
    List Frame × List Message × List Frame :=
  (s.cfg, s.regs.set .eerd 0, s.mem, s.farPages, s.txTail, s.rxTail, s.txPending, s.wireOut, s.toStack, s.delivered)

/-- From `s` to `t` operation `i` moves no frame, unless it ends the output loop; and each bridge alone moves its own
phase, and the output bridge alone takes what the stack sends. -/
structure Quiet (i : Instr) (s t : State) : Prop where
  view : t.flowView = s.flowView
  unsent : t.obFatal = none → t.unsentBufs = s.unsentBufs
  wireIn : i = .rxDeposit → t.wireIn = s.wireIn
  input : i ≠ .inBridgeIter → t.ibPhase = s.ibPhase
  output : i ≠ .outBridgeIter → t.obPhase = s.obPhase ∧ t.fromStack = s.fromStack

/-- The candidate slot drained into the page of `b`, and the message sent to the stack (R266). -/
def State.passedOn (s : State) (b : Buf) : State := { (s.drainedInto b).sendToStack b with ibPhase := .acquire }

/-- The ways in which an operation of the hardware or of a bridge moves a frame. -/
inductive FlowMove (s : State) : Instr → State → Prop
  | quiet {i : Instr} {t : State} (h : Quiet i s t) : FlowMove s i t
  | fetches (he : s.FetchEnabled) : FlowMove s .txFetch s.fetchHead
  | completes (hp : s.txPending ≠ 0) : FlowMove s .txComplete s.sendOldest
  | deposits {f : Frame} {rest : List Frame} (hwire : s.wireIn = f :: rest) (hf : s.rxFlag s.rdh = false)
      (hl : f.length ≤ s.cfg.rxBufSize) : FlowMove s .rxDeposit ({ s with wireIn := rest }.depositAtHead f)
  | transmits {b : Buf} (hp : s.obPhase = .sending b) (hl : (s.msgFrame b).length ≤ s.cfg.maxFrameLen)
      (hf : s.txFlag s.txTail = true) :
      FlowMove s .outBridgeIter { s.transmitted (s.msgFrame b) with obPhase := .waiting }
  | drains {b : Buf} (hp : s.ibPhase = .polling b) (hf : s.rxFlag s.rxCandidate = true) :
      FlowMove s .inBridgeIter (s.passedOn b)
  | drainsInVain {b : Buf} (hp : s.ibPhase = .polling b) (hf : s.rxFlag s.rxCandidate = true) :
      FlowMove s .inBridgeIter ((s.drainedInto b).raise .ib (.fatalIoError .sendFailed))

section
variable {s t : State} {i : Instr}

/-! A frame deposited, and one passed on. -/

@[simp] theorem State.depositAtHead_delivered (s : State) (f : Frame) : (s.depositAtHead f).delivered = s.delivered := by
  simp [State.depositAtHead]
@[simp] theorem State.depositAtHead_wireIn (s : State) (f : Frame) : (s.depositAtHead f).wireIn = s.wireIn := by
  simp [State.depositAtHead]
@[simp] theorem State.depositAtHead_toStack (s : State) (f : Frame) : (s.depositAtHead f).toStack = s.toStack := by
  simp [State.depositAtHead]
@[simp] theorem State.depositAtHead_fromStack (s : State) (f : Frame) : (s.depositAtHead f).fromStack = s.fromStack := by
  simp [State.depositAtHead]
@[simp] theorem State.depositAtHead_ibPhase (s : State) (f : Frame) : (s.depositAtHead f).ibPhase = s.ibPhase := by
  simp [State.depositAtHead]
@[simp] theorem State.depositAtHead_obPhase (s : State) (f : Frame) : (s.depositAtHead f).obPhase = s.obPhase := by
  simp [State.depositAtHead]

@[simp] theorem State.drainedInto_cfg (s : State) (b : Buf) : (s.drainedInto b).cfg = s.cfg := by
  rw [s.drainedInto_eq]; rfl
@[simp] theorem State.drainedInto_delivered (s : State) (b : Buf) : (s.drainedInto b).delivered = s.delivered := by
  rw [s.drainedInto_eq]; rfl
@[simp] theorem State.drainedInto_toStack (s : State) (b : Buf) : (s.drainedInto b).toStack = s.toStack := by
  rw [s.drainedInto_eq]; rfl
@[simp] theorem State.drainedInto_obPhase (s : State) (b : Buf) : (s.drainedInto b).obPhase = s.obPhase := by
  rw [s.drainedInto_eq]; rfl
@[simp] theorem State.drainedInto_fromStack (s : State) (b : Buf) : (s.drainedInto b).fromStack = s.fromStack := by
  rw [s.drainedInto_eq]; rfl

@[simp] theorem State.passedOn_delivered (s : State) (b : Buf) : (s.passedOn b).delivered = s.delivered :=
  s.drainedInto_delivered b
@[simp] theorem State.passedOn_toStack (s : State) (b : Buf) :
    (s.passedOn b).toStack = s.toStack ++ [⟨.inputAvailable, b⟩] := by simp [State.passedOn, State.sendToStack]
@[simp] theorem State.passedOn_obPhase (s : State) (b : Buf) : (s.passedOn b).obPhase = s.obPhase :=
  s.drainedInto_obPhase b
@[simp] theorem State.passedOn_fromStack (s : State) (b : Buf) : (s.passedOn b).fromStack = s.fromStack :=
  s.drainedInto_fromStack b

/-! An operation that moves no frame. -/

theorem flowView_eq_iff : t.flowView = s.flowView ↔ t.cfg = s.cfg ∧ t.regs.set .eerd 0 = s.regs.set .eerd 0 ∧
    t.mem = s.mem ∧ t.farPages = s.farPages ∧ t.txTail = s.txTail ∧ t.rxTail = s.rxTail ∧
    t.txPending = s.txPending ∧ t.wireOut = s.wireOut ∧ t.toStack = s.toStack ∧ t.delivered = s.delivered := by
  simp only [State.flowView, Prod.mk.injEq]

theorem Quiet.reg (h : Quiet i s t) {r : Reg} (hr : r ≠ .eerd) : t.reg r = s.reg r := by
  obtain ⟨-, hregs, -⟩ := flowView_eq_iff.1 h.view
  have hget := congrArg (·.get r) hregs
  simpa only [State.reg, RegFile.get_set_ne _ _ hr] using hget

theorem Quiet.txKept (h : Quiet i s t) : TxKept s t := by
  obtain ⟨hc, -, hm, -, htt, -, hp, hwire, -⟩ := flowView_eq_iff.1 h.view
  exact .of_same hc (fun _ => h.reg) hm htt hp hwire

theorem Quiet.rxKept (h : Quiet i s t) : RxKept s t := by
  obtain ⟨hc, -, hm, -, -, hrt, -⟩ := flowView_eq_iff.1 h.view
  exact .of_same hc (fun _ => h.reg) hm hrt

theorem Quiet.msgPage (h : Quiet i s t) (b : Buf) : t.msgPage b = s.msgPage b := by
  obtain ⟨hc, -, hm, hf, -⟩ := flowView_eq_iff.1 h.view
  exact State.msgPage_congr hc hm hf b

theorem Quiet.refl (i : Instr) (s : State) : Quiet i s s :=
  ⟨rfl, fun _ => rfl, fun _ => rfl, fun _ => rfl, fun _ => ⟨rfl, rfl⟩⟩

theorem Quiet.inBridge (hv : t.flowView = s.flowView) (hp : t.obPhase = s.obPhase) (hm : t.fromStack = s.fromStack) :
    Quiet .inBridgeIter s t :=
  ⟨hv, fun _ => by rw [State.unsentBufs, hp, hm, State.unsentBufs], nofun, fun h => absurd rfl h, fun _ => ⟨hp, hm⟩⟩

theorem Quiet.outBridge (hv : t.flowView = s.flowView) (hu : t.obFatal = none → t.unsentBufs = s.unsentBufs)
    (hp : t.ibPhase = s.ibPhase) : Quiet .outBridgeIter s t :=
  ⟨hv, hu, nofun, fun _ => hp, fun h => absurd rfl h⟩

/-! Operation by operation. -/

theorem State.ne_refuse (ht : t.refused = none) (e : Refuse) : t ≠ s.refuse e := fun h =>
  s.refuse_ne_none e (h ▸ ht)

section
variable (h : Running s) (ht : t.refused = none)
include ht

theorem execTxFetch_flowMove (he : execTxFetch s = .next t) : FlowMove s .txFetch t := by
  rcases execTxFetch_cases he with rfl | ⟨e, rfl⟩ | ⟨hen, -, -, harm, -, -, rfl⟩
  · exact .quiet (.refl _ _)
  · exact absurd rfl (State.ne_refuse ht e)
  · exact .fetches ((State.txArmed_iff hen).1 harm)

theorem execTxComplete_flowMove (he : execTxComplete s = .next t) : FlowMove s .txComplete t := by
  rcases execTxComplete_cases he with rfl | ⟨e, rfl⟩ | ⟨hp, -, -, rfl⟩
  · exact .quiet (.refl _ _)
  · exact absurd rfl (State.ne_refuse ht e)
  · exact .completes hp

theorem execRxDeposit_flowMove (he : execRxDeposit s = .next t) : FlowMove s .rxDeposit t := by
  rcases execRxDeposit_cases he with rfl | ⟨e, rfl⟩ | ⟨f, rest, hwire, -, -, ho, -, hl, -, rfl⟩
  · exact .quiet (.refl _ _)
  · exact absurd rfl (State.ne_refuse ht e)
  · exact .deposits hwire (State.rxOffered_flag ho) hl

omit ht in
theorem execEeComplete_flowMove (he : execEeComplete s = .next t) : FlowMove s .eeComplete t := by
  rcases execEeComplete_cases he with ⟨-, rfl⟩ | ⟨a, -, rfl⟩
  · exact .quiet (.refl _ _)
  · exact .quiet ⟨rfl, fun _ => rfl, nofun, fun _ => rfl, fun _ => ⟨rfl, rfl⟩⟩

include h

theorem Running.inBridgeIter_flowMove (he : execInBridgeIter s = .next t) : FlowMove s .inBridgeIter t := by
  rcases execInBridgeIter_cases he with rfl | ⟨e, rfl⟩ | ⟨-, -, -, rfl⟩ | ⟨b, -, -, -, rfl⟩ |
    ⟨b, r, u, hp, hf, hu, -⟩
  · exact .quiet (.refl _ _)
  · exact absurd rfl (State.ne_refuse ht e)
  · exact .quiet (.inBridge rfl rfl rfl)
  · exact .quiet (.inBridge rfl rfl rfl)
  obtain ⟨-, -, htail, hcases⟩ := receiveOp_cases hu
  rcases hcases with ⟨hflag, -⟩ | ⟨hflag, hn, -⟩
  · have hexec := exec_inBridgeIter_queueEmpty h.ready.1 hf hp h.ready htail h.wf hflag
    obtain rfl := Host.Outcome.next.inj (hexec.symm.trans he)
    exact .quiet (.inBridge rfl rfl rfl)
  · have hexec := (exec_inBridgeIter_drains h.ready.1 hf hp h.ready htail h.wf hflag hn).symm.trans he
    split at hexec
    · exact Host.Outcome.next.inj hexec ▸ .drainsInVain hp hflag
    · exact Host.Outcome.next.inj hexec ▸ .drains hp hflag

/-- One iteration of an output bridge that has a message in hand. -/
theorem Running.outBridgeIter_sending {b : Buf} (hf : s.obFatal = none) (hp : s.obPhase = .sending b)
    (he : exec .outBridgeIter s = .next t) :
    (∃ e, t = { s.returns .transmit (.err .payloadTooLarge) with obFatal := some e }) ∨
    (s.txFlag s.txTail = false ∧ t = s.returns .transmit (.err .queueFull)) ∨
    (s.txFlag s.txTail = true ∧ (s.msgFrame b).length ≤ s.cfg.maxFrameLen ∧
      t = { s.transmitted (s.msgFrame b) with obPhase := .waiting }) := by
  have hatt := h.ready.1
  rcases Nat.lt_or_ge s.cfg.maxFrameLen (s.msgLen b) with hlong | hl
  · have hexec := exec_outBridgeIter_payloadTooLarge hatt hf hp h.ready hlong
    exact .inl ⟨_, (Host.Outcome.next.inj (hexec.symm.trans he)).symm⟩
  rcases Nat.lt_or_ge (s.cfg.pageSize - s.cfg.msgLenBytes) (s.msgLen b) with hbeyond | hfits
  · obtain ⟨e, hexec⟩ := exec_outBridgeIter_refuses_beyond hatt hf hp hl hbeyond
    exact absurd (Host.Outcome.next.inj (he.symm.trans hexec)) (State.ne_refuse ht e)
  have hlen := State.msgFrame_length hfits
  cases hflag : s.txFlag s.txTail with
  | false =>
    have hop := transmitOp_queueFull h.ready hl h.regs.txTail_lt hflag (s.msgFrame b)
    have hexec := exec_outBridgeIter_queueFull hatt hf hp hfits hop
    exact .inr (.inl ⟨rfl, (Host.Outcome.next.inj (hexec.symm.trans he)).symm⟩)
  | true =>
    have hop := transmitOp_ok h.ready (hlen.trans_le hl) h.regs.txTail_lt hflag
    have hexec := exec_outBridgeIter_sends hatt hf hp hfits (hlen ▸ hop)
    exact .inr (.inr ⟨rfl, hlen.trans_le hl, (Host.Outcome.next.inj (hexec.symm.trans he)).symm⟩)

theorem Running.outBridgeIter_flowMove (he : execOutBridgeIter s = .next t) : FlowMove s .outBridgeIter t := by
  rcases execOutBridgeIter_cases he with rfl | ⟨e, rfl⟩ | ⟨hf, rfl⟩ |
    ⟨msg, rest, hp, hf, hm, ⟨-, rfl⟩ | ⟨-, rfl⟩⟩ | ⟨b, e, u, hp, hf, -, -⟩
  · exact .quiet (.refl _ _)
  · exact absurd rfl (State.ne_refuse ht e)
  · exact .quiet (.outBridge rfl (fun _ => rfl) rfl)
  · exact .quiet (.outBridge rfl (fun _ => by simp [State.unsentBufs, hp, hm, ObPhase.bufs, channelBufs]) rfl)
  · exact .quiet (.outBridge rfl (fun hnone => by simp [State.raise, hf] at hnone) rfl)
  rcases h.outBridgeIter_sending ht hf hp he with ⟨e, rfl⟩ | ⟨-, rfl⟩ | ⟨hflag, hl, rfl⟩
  · exact .quiet (.outBridge rfl nofun rfl)
  · exact .quiet (.outBridge rfl (fun _ => rfl) rfl)
  · exact .transmits hp hl hflag

theorem Running.flowMove {i : Instr} (hi : i ∈ bridgeOps) (he : exec i s = .next t) : FlowMove s i t := by
  rcases mem_bridgeOps.1 hi with rfl | rfl | rfl | rfl | rfl | rfl | rfl
  · exact execTxFetch_flowMove ht he
  · exact execTxComplete_flowMove ht he
  · exact execRxDeposit_flowMove ht he
  · exact Host.Outcome.next.inj he ▸ .quiet ⟨rfl, fun _ => rfl, nofun, fun _ => rfl, fun _ => ⟨rfl, rfl⟩⟩
  · exact execEeComplete_flowMove he
  · exact h.inBridgeIter_flowMove ht he
  · exact h.outBridgeIter_flowMove ht he

end

end

end Sys2Proof.Machine

/-! ### The buffers of waiting messages (R54, R260, R262) -/

namespace Sys2Proof.Machine

section
variable {s t : State} {b c : Buf}

/-- The page that the input bridge fills, and any that is the stack's or the pool's, holds no message on its way. -/
theorem State.BufsOwnedOnce.apart (ho : s.BufsOwnedOnce) (hb : b ∈ s.unsentBufs ∨ b ∈ channelBufs s.toStack)
    (hc : s.ibPhase = .polling c ∨ c ∈ s.stackHeld ∨ c ∉ s.bufs) : b ≠ c := by
  rintro rfl
  have hcount := List.nodup_iff_count_le_one.1 ho b
  rw [State.count_bufs] at hcount
  have hwaits : 0 < s.obPhase.bufs.count b + (channelBufs s.toStack).count b + (channelBufs s.fromStack).count b := by
    rcases hb with hb | hb
    · rcases List.mem_append.1 hb with hb | hb <;> have := List.count_pos_iff.2 hb <;> omega
    · have := List.count_pos_iff.2 hb
      omega
  rcases hc with hc | hc | hc
  · simp only [hc, IbPhase.bufs, List.count_singleton_self] at hcount
    omega
  · have := List.count_pos_iff.2 hc
    omega
  · have hnone := List.count_eq_zero.2 hc
    rw [State.count_bufs] at hnone
    omega

/-- The page the input bridge fills is the only one a drained slot changes, and holds the slot's frame. -/
theorem Running.drainedInto_filledFrom (h : Running s) (hf : s.rxFlag s.rxCandidate = true) :
    FilledFrom s (s.drainedInto b) b s.rxCandidate := by
  obtain ⟨-, -, k, hrx⟩ := h.rings
  exact State.drainedInto_filledFrom h.wf hrx.rxCandidate_lt (hrx.length_le_of_flag hf)

/-- An operation that moves a frame leaves every page but the one the input bridge fills. -/
theorem FlowMove.msgPage {i : Instr} (h : FlowMove s i t) (hs : Running s) (hb : s.ibPhase ≠ .polling b) :
    t.msgPage b = s.msgPage b := by
  obtain ⟨-, ⟨d, m, p, htx⟩, k, hrx⟩ := hs.rings
  have hfill : ∀ {c}, s.ibPhase = .polling c → s.rxFlag s.rxCandidate = true →
      (s.drainedInto c).msgPage b = s.msgPage b := fun hp hf =>
    (hs.drainedInto_filledFrom hf).page.others b fun hbc => hb (hbc ▸ hp)
  cases h with
  | quiet h => exact h.msgPage b
  | fetches => rfl
  | completes => exact State.sendOldest_msgPage hs.wf (htx.txOldest_eq hs.wf ▸ htx.oldest_lt) b
  | @deposits f rest _ _ hl =>
    have htaken : RxRing { s with wireIn := rest } k := hrx.transport rfl rfl rfl rfl rfl fun _ _ _ => rfl
    exact RxRing.depositAtHead_msgPage (s := { s with wireIn := rest }) hs.wf htaken hl b
  | transmits _ hl => exact State.transmitted_msgPage hs.wf htx.txTail_lt hl b
  | drains hp hf => exact hfill hp hf
  | drainsInVain hp hf => exact hfill hp hf

/-- ENV stores into no page but that of the message the stack sends. -/
theorem envMove_msgPage {m : EnvMove} (hw : s.cfg.WF) (he : envMove m s = .next t)
    (hb : ∀ tag page, m ≠ .stackSend tag b page) : t.msgPage b = s.msgPage b := by
  rcases envMove_cases he with rfl | ⟨f, -, -, rfl⟩ | ⟨tag, c, page, rfl, -, hp, -, rfl⟩ | ⟨msg, rest, -, -, rfl⟩ |
    ⟨c, -, -, rfl⟩ | ⟨c, -, rfl⟩
  case inr.inr.inl =>
    exact (State.setPage_onlyPage hw c hp).others b fun hbc => hb tag page (hbc ▸ rfl)
  all_goals rfl

/-- The frames of some messages depend on the configuration and their pages alone. -/
theorem map_msgFrame_congr {bs : List Buf} (hc : t.cfg = s.cfg) (h : ∀ b ∈ bs, t.msgPage b = s.msgPage b) :
    bs.map t.msgFrame = bs.map s.msgFrame :=
  List.map_congr_left fun b hb => State.msgFrame_congr hc (h b hb)

end

end Sys2Proof.Machine

/-! ### The frames on their way out (R204 to R208, R269) -/

namespace Sys2Proof.Machine

/-- The payloads handed over and not yet taken by TRANSMIT, oldest first. -/
def State.unsent (s : State) : List Frame := s.unsentBufs.map s.msgFrame

/-- The payloads handed over are `fs`: those on the wire, then the `m` in flight on the transmit ring, `p` of them
fetched, then those not yet taken by TRANSMIT. -/
def TxFlow (s : State) (m p : Nat) (fs : List Frame) : Prop :=
  ∃ d, TxRing s d m p ∧ s.wireOut ++ (txFrames s d m ++ s.unsent) = fs

section
variable {s t : State} {m p : Nat} {fs : List Frame} {i : Instr}

theorem TxFlow.wireOut_prefix (h : TxFlow s m p fs) : s.wireOut <+: fs := by
  obtain ⟨d, -, rfl⟩ := h
  exact List.prefix_append _ _

theorem TxFlow.length_eq (h : TxFlow s m p fs) : fs.length = s.wireOut.length + (m + s.unsentBufs.length) := by
  obtain ⟨d, -, rfl⟩ := h
  simp [txFrames, State.unsent]

theorem TxFlow.pending (h : TxFlow s m p fs) : s.txPending = p := by
  obtain ⟨d, hr, -⟩ := h
  exact hr.pending

theorem TxFlow.fetched_le (h : TxFlow s m p fs) : p ≤ m := by
  obtain ⟨d, hr, -⟩ := h
  exact hr.fetched_le

/-- Where the ring and the messages not yet taken stand, so do the payloads. -/
theorem TxFlow.of_kept (h : TxFlow s m p fs) (hw : s.cfg.WF) (hk : TxKept s t) (hu : t.unsent = s.unsent) :
    TxFlow t m p fs := by
  obtain ⟨d, hr, rfl⟩ := h
  exact ⟨d, hk.ring hr, by rw [hk.wireOut, hk.frames hr hw, hu]⟩

/-- An operation moves the payloads on and keeps them in order; TX_COMPLETE alone makes a slot less fetched, and
TX_FETCH alone leaves fewer armed slots unfetched. -/
theorem TxFlow.move (h : TxFlow s m p fs) (hs : Running s) (hmv : FlowMove s i t) (hf : t.obFatal = none) :
    ∃ m' p', TxFlow t m' p' fs ∧ (i ≠ .txComplete → p ≤ p') ∧ (i ≠ .txFetch → m + p' ≤ m' + p) := by
  have hw := hs.wf
  obtain ⟨-, -, k, hrx⟩ := hs.rings
  have hpage : ∀ b ∈ s.unsentBufs, t.msgPage b = s.msgPage b := fun b hb =>
    hmv.msgPage hs fun hp => hs.owned.apart (.inl hb) (.inl hp) rfl
  have hunsent : t.cfg = s.cfg → t.unsentBufs = s.unsentBufs → t.unsent = s.unsent := fun hc hb => by
    rw [State.unsent, hb, map_msgFrame_congr hc hpage, State.unsent]
  have hkept : TxKept s t → t.unsentBufs = s.unsentBufs →
      ∃ m' p', TxFlow t m' p' fs ∧ (i ≠ .txComplete → p ≤ p') ∧ (i ≠ .txFetch → m + p' ≤ m' + p) := fun hk hb =>
    ⟨m, p, h.of_kept hw hk (hunsent hk.cfg hb), fun _ => Nat.le_refl p, fun _ => Nat.le_refl _⟩
  have hdrained : ∀ {b}, s.rxFlag s.rxCandidate = true → TxKept s (s.drainedInto b) := fun {b} hflag => by
    obtain ⟨page, hlen, heq⟩ := State.drainedInto_eq_setPage hw (hrx.length_le_of_flag hflag) b
    exact heq ▸ (hrx.drained_txKept hw).trans (State.setPage_txKept (s := s.drained) hw hlen)
  cases hmv with
  | quiet hq => exact hkept hq.txKept (hq.unsent hf)
  | fetches he =>
    obtain ⟨d, hr, rfl⟩ := h
    have hlt := hr.fetched_lt_of_enabled he
    exact ⟨m, p + 1, ⟨d, hr.fetchHead hw hlt, rfl⟩, fun _ => by omega, fun hne => absurd rfl hne⟩
  | completes hp =>
    obtain ⟨d, hr, rfl⟩ := h
    have hpos : 0 < p := by have := hr.pending; omega
    have hle := hr.fetched_le
    refine ⟨m - 1, p - 1, ⟨_, hr.sendOldest hw hpos, ?_⟩, fun hne => absurd rfl hne, fun _ => by omega⟩
    rw [hunsent rfl rfl, hr.wireOut_sendOldest hw, hr.txFrames_sendOldest hw hpos, List.append_assoc]
    rfl
  | @deposits f rest _ _ hl =>
    have htaken : RxRing { s with wireIn := rest } k := hrx.transport rfl rfl rfl rfl rfl fun _ _ _ => rfl
    exact hkept (.trans (t := { s with wireIn := rest }) (.of_same rfl (fun _ _ => rfl) rfl rfl rfl rfl)
      (RxRing.depositAtHead_txKept (s := { s with wireIn := rest }) hw htaken hl))
      (by simp [State.unsentBufs])
  | @transmits b hp hl hflag =>
    obtain ⟨d, hr, rfl⟩ := h
    have hm : m < s.cfg.nTx := of_decide_eq_true (hr.txFlag_txTail.symm.trans hflag)
    have hsent : TxRing (s.transmitted (s.msgFrame b)) d (m + 1) p := hr.transmitted hw hm hl
    refine ⟨m + 1, p, ⟨d, hsent.transport rfl rfl rfl rfl rfl rfl fun _ _ _ => rfl, ?_⟩, fun _ => Nat.le_refl p,
      fun _ => by omega⟩
    have hrest : s.unsent = s.msgFrame b :: (channelBufs s.fromStack).map s.msgFrame := by
      simp [State.unsent, State.unsentBufs, hp, ObPhase.bufs]
    have hleft : (channelBufs s.fromStack).map (s.transmitted (s.msgFrame b)).msgFrame =
        (channelBufs s.fromStack).map s.msgFrame :=
      map_msgFrame_congr rfl fun c hc => hpage c (List.mem_append_right _ hc)
    have hframes := hr.txFrames_transmitted hw hm hl
    calc s.wireOut ++ (txFrames (s.transmitted (s.msgFrame b)) d (m + 1) ++
          (channelBufs s.fromStack).map (s.transmitted (s.msgFrame b)).msgFrame)
        = s.wireOut ++ (txFrames s d m ++ s.unsent) := by
          rw [hframes, hleft, hrest, List.append_assoc, List.singleton_append]
  | drains _ hflag =>
    exact hkept ((hdrained hflag).trans (.of_same rfl (fun _ _ => rfl) rfl rfl rfl rfl)) (by simp [State.unsentBufs])
  | drainsInVain _ hflag =>
    exact hkept ((hdrained hflag).trans (.of_same rfl (fun _ _ => rfl) rfl rfl rfl rfl)) (by simp [State.unsentBufs])

/-- The stack sends a message in a buffer that it holds or the pool may hand out (R261, R262). -/
theorem envMove_stackSend_cases {tag : Tag} {b : Buf} {page : List Byte}
    (he : envMove (.stackSend tag b page) s = .next t) : page.length = s.cfg.pageSize ∧
      (b ∈ s.stackHeld ∨ b ∉ s.bufs) ∧ t = { s.setPage b page with
        fromStack := s.fromStack ++ [⟨tag, b⟩], stackHeld := s.stackHeld.erase b } := by
  simp only [Machine.envMove] at he
  split at he
  · next hsend =>
    obtain ⟨-, hp, hb⟩ := hsend
    exact ⟨hp, hb.imp_right And.left, (Host.Outcome.next.inj he).symm⟩
  · cases he

theorem envMove_unsentBufs {mv : EnvMove} (he : envMove mv s = .next t)
    (hmv : ∀ tag b page, mv ≠ .stackSend tag b page) : t.unsentBufs = s.unsentBufs := by
  rcases envMove_cases he with rfl | ⟨f, -, -, rfl⟩ | ⟨tag, b, page, hsend, -⟩ | ⟨msg, rest, -, -, rfl⟩ |
    ⟨b, -, -, rfl⟩ | ⟨c, -, rfl⟩
  case inr.inr.inl => exact absurd hsend (hmv tag b page)
  all_goals rfl

/-- A move of ENV hands over the payload of the message it sends, if it sends one. -/
theorem TxFlow.envMove {mv : EnvMove} (h : TxFlow s m p fs) (hs : Running s) (he : envMove mv s = .next t) :
    TxFlow t m p (fs ++ (Event.env mv).payload s.cfg) := by
  have hw := hs.wf
  obtain ⟨hk, -⟩ := envMove_ringsKept hw he
  by_cases hsend : ∃ tag b page, mv = .stackSend tag b page
  · obtain ⟨tag, b, page, rfl⟩ := hsend
    obtain ⟨hp, hb, ht⟩ := envMove_stackSend_cases he
    obtain ⟨d, hr, rfl⟩ := h
    have hpages : t.msgFrame = (s.setPage b page).msgFrame := by rw [ht]; rfl
    have hbufs : t.unsentBufs = s.unsentBufs ++ [b] := by simp [ht, State.unsentBufs, channelBufs]
    have hother : s.unsentBufs.map (s.setPage b page).msgFrame = s.unsent :=
      map_msgFrame_congr (s.setPage_cfg b page) fun c hc =>
        (State.setPage_onlyPage hw b hp).others c (hs.owned.apart (.inl hc) (.inr hb))
    have hnew : (s.setPage b page).msgFrame b = pageFrame s.cfg page := by
      rw [State.msgFrame, State.setPage_cfg, State.setPage_msgPage_same hw b hp]
    have hunsent : t.unsent = s.unsent ++ [pageFrame s.cfg page] := by
      rw [State.unsent, hbufs, hpages, List.map_append, hother, List.map_singleton, hnew]
    exact ⟨d, hk.ring hr, by rw [hk.wireOut, hk.frames hr hw, hunsent]; simp [Event.payload]⟩
  · have hmv : ∀ tag b page, mv ≠ .stackSend tag b page := fun tag b page heq => hsend ⟨tag, b, page, heq⟩
    have hnone : (Event.env mv).payload s.cfg = [] := by
      cases mv with
      | stackSend tag b page => exact absurd rfl (hmv tag b page)
      | offerFrame | stackTake | stackRelease | setCollab => rfl
    rw [hnone, List.append_nil]
    refine h.of_kept hw hk ?_
    rw [State.unsent, envMove_unsentBufs he hmv, State.unsent]
    exact map_msgFrame_congr hk.cfg fun b _ => envMove_msgPage hw he fun tag => hmv tag b

end

end Sys2Proof.Machine

/-! ### Every message handed over is sent (R337) -/

/-- At some moment from `n` on the list is longer than at `n`. -/
def Sys2Proof.GrowsFrom {α : Type} (l : Nat → List α) (n : Nat) : Prop := ∃ m, n ≤ m ∧ (l n).length < (l m).length

theorem Sys2Proof.GrowsFrom.of_later {α : Type} {l : Nat → List α} {n m : Nat} (h : GrowsFrom l m) (hm : n ≤ m)
    (hl : l n <+: l m) : GrowsFrom l n := by
  obtain ⟨k, hk, hlt⟩ := h
  exact ⟨k, hm.trans hk, hl.length_le.trans_lt hlt⟩

/-- Lists that grow whenever they lag behind the lists they are the first of, catch up with each of those. -/
theorem Sys2Proof.exists_prefix_of_grows {α : Type} {out goal : Nat → List α} (hpre : ∀ n, out n <+: goal n)
    (hgoal : ∀ n m, n ≤ m → goal n <+: goal m)
    (hgrow : ∀ n, (out n).length < (goal n).length → GrowsFrom out n) (n : Nat) :
    ∃ m, n ≤ m ∧ goal n <+: out m := by
  have hlong : ∀ L ≤ (goal n).length, ∃ m, n ≤ m ∧ L ≤ (out m).length := by
    intro L
    induction L with
    | zero => exact fun _ => ⟨n, Nat.le_refl n, Nat.zero_le _⟩
    | succ L ih =>
      intro hL
      obtain ⟨m, hm, hlen⟩ := ih (by omega)
      rcases Nat.lt_or_ge L (out m).length with hlt | hge
      · exact ⟨m, hm, hlt⟩
      · have hgoalm := (hgoal n m hm).length_le
        obtain ⟨k, hk, hlt⟩ := hgrow m (by omega)
        exact ⟨k, hm.trans hk, by omega⟩
  obtain ⟨m, hm, hlen⟩ := hlong _ (Nat.le_refl _)
  exact ⟨m, hm, List.prefix_of_prefix_length_le (hgoal n m hm) (hpre m) hlen⟩

/-- Lists each the first of the next are the first of all later ones. -/
theorem Sys2Proof.prefix_of_le {α : Type} {l : Nat → List α} (h : ∀ n, l n <+: l (n + 1)) {n m : Nat} (hm : n ≤ m) :
    l n <+: l m := by
  induction m, hm using Nat.le_induction with
  | base => exact List.prefix_rfl
  | succ m _ ih => exact ih.trans (h m)

namespace Sys2Proof.Machine

/-- From moment `n` on a frame is put on `wire_out`. -/
def SendsFrom (σ : Nat → State) (n : Nat) : Prop := GrowsFrom (fun k => (σ k).wireOut) n

theorem FlowMove.output_same {s t : State} {i : Instr} (h : FlowMove s i t) (hi : i ≠ .outBridgeIter) :
    t.obPhase = s.obPhase ∧ t.fromStack = s.fromStack := by
  cases h with
  | quiet h => exact h.output hi
  | transmits => exact absurd rfl hi
  | fetches | completes => exact ⟨rfl, rfl⟩
  | deposits | drains | drainsInVain => simp

theorem envMove_output {s t : State} {mv : EnvMove} (he : envMove mv s = .next t) :
    t.obPhase = s.obPhase ∧ s.fromStack <+: t.fromStack := by
  rcases envMove_cases he with rfl | ⟨f, -, -, rfl⟩ | ⟨tag, b, page, -, -, -, -, rfl⟩ | ⟨msg, rest, -, -, rfl⟩ |
    ⟨b, -, -, rfl⟩ | ⟨c, -, rfl⟩
  case inr.inr.inl => exact ⟨s.setPage_obPhase b page, List.prefix_append _ _⟩
  all_goals exact ⟨rfl, List.prefix_rfl⟩

/-- At launch no payload is on its way. -/
theorem Launch.txFlow {s : State} (h : Launch s) (hw : s.cfg.WF) : TxFlow s 0 0 [] := by
  obtain ⟨hr, -⟩ := launchSatisfiesTheInvariants s hw h
  refine ⟨0, hr, ?_⟩
  simp [txFrames, State.unsent, State.unsentBufs, h.wireOut, h.obPhase, h.fromStack, ObPhase.bufs, channelBufs]

section
variable {σ : Nat → State} {ε : Nat → Event} {n m p : Nat} {fs : List Frame} (h : Execution σ ε)
include h

theorem Execution.wireOut_prefix (hm : n ≤ m) : (σ n).wireOut <+: (σ m).wireOut :=
  prefix_of_le (fun k => (step_keepsMarks (h.steps k)).wireOut) hm

theorem SendsFrom.mono (hs : SendsFrom σ m) (hm : n ≤ m) : SendsFrom σ n :=
  hs.of_later hm (h.wireOut_prefix hm)

variable (hb : BridgesOnly σ ε) (h0 : Running (σ 0))
include hb h0

/-- At each moment ENV moves, or an operation of the hardware or of a bridge moves at most one frame. -/
theorem Execution.flow_next (n : Nat) : (∃ mv, ε n = .env mv ∧ envMove mv (σ n) = .next (σ (n + 1))) ∨
    ∃ i, Runs σ ε n i ∧ FlowMove (σ n) i (σ (n + 1)) := by
  refine (h.bridges_next hb n).imp_right fun ⟨i, hi, hrun, he⟩ => ⟨i, hrun, ?_⟩
  exact (h.running hb h0 n).flowMove (h.unmarked _) hi he

/-- While the output bridge does not run, its phase stands and no message is taken from it. -/
theorem Execution.output_next (hn : ¬ Runs σ ε n .outBridgeIter) :
    (σ (n + 1)).obPhase = (σ n).obPhase ∧ (σ n).fromStack <+: (σ (n + 1)).fromStack := by
  rcases h.flow_next hb h0 n with ⟨mv, -, he⟩ | ⟨i, hrun, hmove⟩
  · exact envMove_output he
  · obtain ⟨hp, hm⟩ := hmove.output_same fun hi => hn (hi ▸ hrun)
    exact ⟨hp, hm ▸ List.prefix_rfl⟩

variable (hnone : ∀ n, (σ n).obFatal = none)
include hnone

theorem Execution.txFlow_next (hfl : TxFlow (σ n) m p fs) :
    ∃ m' p', TxFlow (σ (n + 1)) m' p' (fs ++ (ε n).payload (σ n).cfg) ∧ (¬ Runs σ ε n .txComplete → p ≤ p') ∧
      (¬ Runs σ ε n .txFetch → m + p' ≤ m' + p) := by
  have hs := h.running hb h0 n
  rcases h.flow_next hb h0 n with ⟨mv, hmv, he⟩ | ⟨i, hrun, hmove⟩
  · exact ⟨m, p, hmv ▸ hfl.envMove hs he, fun _ => Nat.le_refl p, fun _ => Nat.le_refl _⟩
  · obtain ⟨m', p', hfl', hp, hm⟩ := hfl.move hs hmove (hnone _)
    have hpay : (ε n).payload (σ n).cfg = [] := by
      obtain ⟨r, hr, -⟩ := hrun
      rw [hr, Event.payload]
    exact ⟨m', p', by rwa [hpay, List.append_nil], fun hn => hp fun hi => hn (hi ▸ hrun),
      fun hn => hm fun hi => hn (hi ▸ hrun)⟩

/-- At each moment the payloads handed over are those on the wire and those on their way to it. -/
theorem Execution.txFlow (hfl : TxFlow (σ 0) 0 0 []) (n : Nat) :
    ∃ m p, TxFlow (σ n) m p (offeredPayloads (σ 0).cfg ε n) := by
  induction n with
  | zero => exact ⟨0, 0, hfl⟩
  | succ n ih =>
    obtain ⟨m, p, hn⟩ := ih
    obtain ⟨m', p', hn', -⟩ := h.txFlow_next hb h0 hnone hn
    rw [h.cfg_eq (Nat.zero_le n)] at hn'
    exact ⟨m', p', hn'⟩

/-! A fetched slot, an armed slot, a message in hand, a message that waits: each leads to a frame on the wire. -/

variable (hfair : FairTxe σ ε)
include hfair

theorem Execution.sendsFrom_of_fetched (hfl : TxFlow (σ n) m p fs) (hp : 0 < p) : SendsFrom σ n := by
  obtain ⟨k₀, hk₀, hruns⟩ := hfair.2 n
  obtain ⟨k, hk, hrun, hall⟩ := exists_until (P := fun k => ∃ m p fs, TxFlow (σ k) m p fs ∧ 0 < p)
    (Q := fun k => Runs σ ε k .txComplete) hk₀ ⟨m, p, fs, hfl, hp⟩ (fun k _ ⟨m, p, fs, hk, hp⟩ hq => by
      obtain ⟨m', p', hk', hle, -⟩ := h.txFlow_next hb h0 hnone hk
      exact ⟨m', p', _, hk', hp.trans_le (hle hq)⟩)
    fun ⟨m, p, fs, hk, hp⟩ => hruns (by have := hk.pending; omega)
  obtain ⟨m, p, fs, ⟨d, hr, -⟩, hp⟩ := hall k hk (Nat.le_refl k)
  have hw := (h.running hb h0 k).wf
  have hnext := Host.Outcome.next.inj ((h.exec_of_runs hrun).symm.trans (hr.exec_txComplete hw hp))
  have hsent : SendsFrom σ k := ⟨k + 1, Nat.le_succ k, by simp [hnext, hr.wireOut_sendOldest hw]⟩
  exact hsent.mono h hk

variable (hcorner : (σ 0).cfg.txArmRule = .flagGated ∨ ∀ n d m p, TxRing (σ n) d m p → m - p < (σ 0).cfg.nTx)
include hcorner

omit hnone hfair in
/-- The corner of R328 apart, an armed slot is offered to TX_FETCH. -/
theorem Execution.fetchEnabled_of_armed (hfl : TxFlow (σ n) m p fs) (hp : p < m) : (σ n).FetchEnabled := by
  obtain ⟨d, hr, -⟩ := hfl
  rw [← h.cfg_eq (Nat.zero_le n)] at hcorner
  refine (hr.fetchEnabled_iff (h.running hb h0 n).regs.txEnabled).2 ?_
  cases hrule : (σ n).cfg.txArmRule with
  | flagGated => exact .inr ⟨rfl, by omega⟩
  | tailGated =>
    have hroom := (hcorner.resolve_left (by simp [hrule])) n d m p hr
    exact .inl ⟨rfl, by omega, hroom⟩

theorem Execution.sendsFrom_of_armed (hfl : TxFlow (σ n) m p fs) (hm : 0 < m) : SendsFrom σ n := by
  rcases Nat.eq_zero_or_pos p with rfl | hp
  case inr => exact h.sendsFrom_of_fetched hb h0 hnone hfair hfl hp
  obtain ⟨k₀, hk₀, hruns⟩ := hfair.1 n
  obtain ⟨k, hk, hrun, hall⟩ := exists_until (P := fun k => ∃ m p fs, TxFlow (σ k) m p fs ∧ p < m)
    (Q := fun k => Runs σ ε k .txFetch) hk₀ ⟨m, 0, fs, hfl, hm⟩ (fun k _ ⟨m, p, fs, hk, hp⟩ hq => by
      obtain ⟨m', p', hk', -, hle⟩ := h.txFlow_next hb h0 hnone hk
      have := hle hq
      exact ⟨m', p', _, hk', by omega⟩)
    fun ⟨m, p, fs, hk, hp⟩ => hruns (h.fetchEnabled_of_armed hb h0 hcorner hk hp)
  obtain ⟨m, p, fs, hfl, hp⟩ := hall k hk (Nat.le_refl k)
  have hw := (h.running hb h0 k).wf
  have hen := h.fetchEnabled_of_armed hb h0 hcorner hfl hp
  obtain ⟨d, hr, -⟩ := hfl
  have hnext := Host.Outcome.next.inj ((h.exec_of_runs hrun).symm.trans (hr.exec_txFetch hw hen))
  have hfetched : TxFlow (σ (k + 1)) m (p + 1) _ := ⟨d, hnext ▸ hr.fetchHead hw hp, rfl⟩
  exact (h.sendsFrom_of_fetched hb h0 hnone hfair hfetched p.succ_pos).mono h (hk.trans (Nat.le_succ k))

variable (hout : FairOb σ ε)
include hout

omit hfair hcorner in
/-- While there is something to send, the output bridge runs, and until then nothing is taken from it. -/
theorem Execution.outBridge_runs (hu : (σ n).unsentBufs ≠ []) : ∃ k, n ≤ k ∧ Runs σ ε k .outBridgeIter ∧
    (σ k).obPhase = (σ n).obPhase ∧ (σ n).fromStack <+: (σ k).fromStack := by
  obtain ⟨k₀, hk₀, hruns⟩ := hout n
  obtain ⟨k, hk, hrun, hall⟩ := exists_until
    (P := fun k => (σ k).obPhase = (σ n).obPhase ∧ (σ n).fromStack <+: (σ k).fromStack)
    (Q := fun k => Runs σ ε k .outBridgeIter) hk₀ ⟨rfl, List.prefix_rfl⟩ (fun k _ ⟨hp, hm⟩ hq => by
      obtain ⟨hp', hm'⟩ := h.output_next hb h0 hq
      exact ⟨hp'.trans hp, hm.trans hm'⟩)
    fun ⟨hp, hm⟩ => hruns ⟨(h.running hb h0 k₀).ready.1, hnone k₀, by
      cases hphase : (σ n).obPhase with
      | sending b => exact .inl ⟨b, hp.trans hphase⟩
      | waiting =>
        refine .inr (.inl fun hnil => hu ?_)
        rw [hnil, List.prefix_nil] at hm
        simp [State.unsentBufs, hphase, hm, ObPhase.bufs, channelBufs]⟩
  exact ⟨k, hk, hrun, hall k hk (Nat.le_refl k)⟩

theorem Execution.sendsFrom_of_sending {b : Buf} (hp : (σ n).obPhase = .sending b) : SendsFrom σ n := by
  obtain ⟨k, hk, hrun, hphase, -⟩ := h.outBridge_runs hb h0 hnone hout (n := n) (by
    simp [State.unsentBufs, hp, ObPhase.bufs])
  have hs := h.running hb h0 k
  obtain ⟨-, ⟨d, m, p, hr⟩, -⟩ := hs.rings
  rcases hs.outBridgeIter_sending (h.unmarked _) (hnone k) (hphase.trans hp) (h.exec_of_runs hrun) with
    ⟨e, hnext⟩ | ⟨hflag, -⟩ | ⟨hflag, hl, hnext⟩
  · have hfatal := hnone (k + 1)
    rw [hnext] at hfatal
    cases hfatal
  · have hfull : ¬ m < (σ k).cfg.nTx := of_decide_eq_false (hr.txFlag_txTail.symm.trans hflag)
    have hpos := hs.wf.nTx_pos
    exact (h.sendsFrom_of_armed hb h0 hnone hfair hcorner ⟨d, hr, rfl⟩ (by omega)).mono h hk
  · have hm : m < (σ k).cfg.nTx := of_decide_eq_true (hr.txFlag_txTail.symm.trans hflag)
    have hring : TxRing (σ (k + 1)) d (m + 1) p := hnext ▸
      (hr.transmitted hs.wf hm hl).transport rfl rfl rfl rfl rfl rfl fun _ _ _ => rfl
    exact (h.sendsFrom_of_armed hb h0 hnone hfair hcorner ⟨d, hring, rfl⟩ m.succ_pos).mono h
      (hk.trans (Nat.le_succ k))

theorem Execution.sendsFrom_of_unsent (hu : (σ n).unsentBufs ≠ []) : SendsFrom σ n := by
  cases hp : (σ n).obPhase with
  | sending b => exact h.sendsFrom_of_sending hb h0 hnone hfair hcorner hout hp
  | waiting =>
    obtain ⟨k, hk, hrun, hphase, hpre⟩ := h.outBridge_runs hb h0 hnone hout hu
    have ha := (h.running hb h0 k).ready.1
    have hwaits := hphase.trans hp
    have hexec := h.exec_of_runs hrun
    have hgoes := hnone (k + 1)
    have hmsgs : (σ k).fromStack ≠ [] := fun hnil => hu (by
      rw [hnil, List.prefix_nil] at hpre
      simp [State.unsentBufs, hp, hpre, ObPhase.bufs, channelBufs])
    obtain ⟨⟨tag, b⟩, rest, hm⟩ := List.exists_cons_of_ne_nil hmsgs
    cases hc : (σ k).collab.recvFails with
    | true =>
      rw [exec_outBridgeIter_recvFailed ha (hnone k) hwaits hc, Host.Outcome.next.injEq] at hexec
      rw [← hexec] at hgoes
      cases hgoes
    | false =>
      by_cases htag : tag = .outputRequest
      · subst htag
        rw [exec_outBridgeIter_takes ha (hnone k) hwaits hc hm, Host.Outcome.next.injEq] at hexec
        have hnext : (σ (k + 1)).obPhase = .sending b := by rw [← hexec]
        exact (h.sendsFrom_of_sending hb h0 hnone hfair hcorner hout hnext).mono h (hk.trans (Nat.le_succ k))
      · rw [exec_outBridgeIter_wrongTag ha (hnone k) hwaits hc hm htag, Host.Outcome.next.injEq] at hexec
        rw [← hexec] at hgoes
        cases hgoes

/-- While not all payloads handed over are on the wire, another comes to it. -/
theorem Execution.sendsFrom_of_behind (hfl : TxFlow (σ n) m p fs) (hlt : (σ n).wireOut.length < fs.length) :
    SendsFrom σ n := by
  have hlen := hfl.length_eq
  rcases Nat.eq_zero_or_pos m with hm | hm
  · exact h.sendsFrom_of_unsent hb h0 hnone hfair hcorner hout (List.ne_nil_of_length_pos (by omega))
  · exact h.sendsFrom_of_armed hb h0 hnone hfair hcorner hfl hm

end

/-- Settles O59: the payloads handed over are at every moment those on the wire, then those in the ring, then those the
bridge has still to hand over, and each of these three moves on. -/
theorem transmitProgress : Obligations.TransmitProgress := by
  intro σ ε hl hr hw h hb hfair hout hnone ho hcorner
  have h0 := hl.running hr hw ho
  have hflow := h.txFlow hb h0 hnone (hl.txFlow hw)
  have hprefix (n : Nat) : (σ n).wireOut <+: offeredPayloads (σ 0).cfg ε n := by
    obtain ⟨m, p, hfl⟩ := hflow n
    exact hfl.wireOut_prefix
  refine fun n => ⟨hprefix n, exists_prefix_of_grows hprefix (fun _ _ => prefix_of_le fun _ => List.prefix_append _ _)
    (fun n hlt => ?_) n⟩
  obtain ⟨m, p, hfl⟩ := hflow n
  exact h.sendsFrom_of_behind hb h0 hnone hfair hcorner hout hfl hlt

end Sys2Proof.Machine

/-! ### The frames on their way in (R234, R238, R266) -/

namespace Sys2Proof.Machine

/-- The frames deposited are `fs`: those of the messages sent to the stack, then the `k` undrained on the receive ring. -/
def RxFlow (s : State) (k : Nat) (fs : List Frame) : Prop := RxRing s k ∧ s.deliveredFrames ++ rxFrames s k = fs

/-- The frames that operation `i` takes from the wire into the ring. -/
def takenFrames (s t : State) (i : Instr) : List Frame :=
  if i = .rxDeposit then s.wireIn.take (s.wireIn.length - t.wireIn.length) else []

section
variable {s t : State} {k : Nat} {fs : List Frame} {i : Instr}

theorem depositedBy_of_decode {r : Record} (hd : decode s.cfg r = .ok i) :
    depositedBy s t (.op r) = takenFrames s t i := by
  simp [depositedBy, takenFrames, fetchRecord_of_decode hd]

theorem takenFrames_of_wireIn_eq (h : i = .rxDeposit → t.wireIn = s.wireIn) : takenFrames s t i = [] := by
  by_cases hi : i = .rxDeposit
  · simp [takenFrames, hi, h hi]
  · simp [takenFrames, hi]

theorem State.deliveredFrames_eq (s : State) :
    s.deliveredFrames = s.delivered ++ (channelBufs s.toStack).map s.msgFrame := by
  simp [State.deliveredFrames, channelBufs]

theorem State.deliveredFrames_length (s : State) :
    s.deliveredFrames.length = s.delivered.length + s.toStack.length := by
  simp [State.deliveredFrames]

/-- What was sent to the stack stands while its pages do. -/
theorem State.deliveredFrames_congr (hc : t.cfg = s.cfg) (hd : t.delivered = s.delivered) (hs : t.toStack = s.toStack)
    (h : ∀ b ∈ channelBufs s.toStack, t.msgPage b = s.msgPage b) : t.deliveredFrames = s.deliveredFrames := by
  rw [t.deliveredFrames_eq, hd, hs, map_msgFrame_congr hc h, s.deliveredFrames_eq]

theorem RxFlow.deliveredFrames_prefix (h : RxFlow s k fs) : s.deliveredFrames <+: fs := h.2 ▸ List.prefix_append _ _

theorem RxFlow.length_eq (h : RxFlow s k fs) : fs.length = s.deliveredFrames.length + k := by
  simp [← h.2, rxFrames]

theorem RxFlow.of_kept (h : RxFlow s k fs) (hk : RxKept s t) (hd : t.deliveredFrames = s.deliveredFrames) :
    RxFlow t k fs :=
  ⟨hk.ring h.1, by rw [hd, hk.frames h.1, h.2]⟩

/-- The frame deposited joins the undrained frames, at the end. -/
theorem RxFlow.depositAtHead {f : Frame} (h : RxFlow s k fs) (hw : s.cfg.WF) (hf : s.rxFlag s.rdh = false)
    (hl : f.length ≤ s.cfg.rxBufSize) (hd : (s.depositAtHead f).deliveredFrames = s.deliveredFrames) :
    RxFlow (s.depositAtHead f) (k + 1) (fs ++ [f]) := by
  obtain ⟨hr, rfl⟩ := h
  have hk := hr.undrained_lt_of_flag hf
  refine ⟨hr.depositAtHead hw hk hl, ?_⟩
  rw [hd, hr.rxFrames_deposit hk (hr.deposit hw hl) (s.depositAtHead_rxTail f), List.append_assoc]

/-- The frame drained goes to the stack as the next one. -/
theorem RxFlow.passedOn {b : Buf} (h : RxFlow s k fs) (hs : Running s) (hp : s.ibPhase = .polling b)
    (hf : s.rxFlag s.rxCandidate = true) :
    RxFlow (s.passedOn b) (k - 1) fs ∧ s.deliveredFrames <+: (s.passedOn b).deliveredFrames := by
  obtain ⟨hr, rfl⟩ := h
  have hw := hs.wf
  have hk : 0 < k := of_decide_eq_true (hr.rxFlag_rxCandidate.symm.trans hf)
  have hring := hr.drained hw hk
  have hkept : RxKept s.drained (s.passedOn b) := by
    obtain ⟨page, hlen, heq⟩ := State.drainedInto_eq_setPage hw (hr.length_le_of_flag hf) b
    rw [State.passedOn, heq]
    exact (State.setPage_rxKept (s := s.drained) hw hlen).trans (.of_same rfl (fun _ _ => rfl) rfl rfl)
  have hsent : (s.passedOn b).deliveredFrames = s.deliveredFrames ++ [s.rxFrame s.rxCandidate] := by
    have hfilled := hs.drainedInto_filledFrom (b := b) hf
    have hold : (channelBufs s.toStack).map (s.drainedInto b).msgFrame = (channelBufs s.toStack).map s.msgFrame :=
      map_msgFrame_congr (s.drainedInto_cfg b) fun c hc =>
        hfilled.page.others c (hs.owned.apart (.inr hc) (.inl hp))
    calc (s.passedOn b).deliveredFrames
        = s.delivered ++ (channelBufs (s.toStack ++ [⟨.inputAvailable, b⟩])).map (s.drainedInto b).msgFrame := by
          rw [State.deliveredFrames_eq, State.passedOn_delivered, State.passedOn_toStack]; rfl
      _ = s.deliveredFrames ++ [(s.drainedInto b).msgFrame b] := by
          rw [s.deliveredFrames_eq, ← hold]; simp [channelBufs]
      _ = s.deliveredFrames ++ [s.rxFrame s.rxCandidate] := by rw [hfilled.frame]; rfl
  refine ⟨⟨hkept.ring hring, ?_⟩, hsent ▸ List.prefix_append _ _⟩
  rw [hsent, hkept.frames hring, List.append_assoc, hr.rxFrames_received (out := []) hw hk]
  rfl

theorem State.raise_ib_ibFatal_ne_none (s : State) (f : Fatal) : (s.raise .ib f).ibFatal ≠ none := by
  cases h : s.ibFatal <;> simp [State.raise, h]

/-- An operation adds to the frames deposited those that it takes from the wire; the input bridge alone makes the ring
hold fewer. -/
theorem RxFlow.move (h : RxFlow s k fs) (hs : Running s) (hmv : FlowMove s i t) (hf : t.ibFatal = none) :
    ∃ k', RxFlow t k' (fs ++ takenFrames s t i) ∧ s.deliveredFrames <+: t.deliveredFrames ∧
      (i ≠ .inBridgeIter → k ≤ k') := by
  have hw := hs.wf
  obtain ⟨-, ⟨d, m, p, htx⟩, -⟩ := hs.rings
  have hstays : t.cfg = s.cfg → t.delivered = s.delivered → t.toStack = s.toStack →
      t.deliveredFrames = s.deliveredFrames := fun hc hd ht =>
    State.deliveredFrames_congr hc hd ht fun b hb =>
      hmv.msgPage hs fun hp => hs.owned.apart (.inr hb) (.inl hp) rfl
  have hkept : RxKept s t → t.deliveredFrames = s.deliveredFrames → (i = .rxDeposit → t.wireIn = s.wireIn) →
      ∃ k', RxFlow t k' (fs ++ takenFrames s t i) ∧ s.deliveredFrames <+: t.deliveredFrames ∧
        (i ≠ .inBridgeIter → k ≤ k') := fun hk hd hwire => by
    rw [takenFrames_of_wireIn_eq hwire, List.append_nil]
    exact ⟨k, h.of_kept hk hd, hd ▸ List.prefix_rfl, fun _ => Nat.le_refl k⟩
  cases hmv with
  | quiet hq =>
    obtain ⟨hc, -, -, -, -, -, -, -, ht, hd⟩ := flowView_eq_iff.1 hq.view
    exact hkept hq.rxKept (hstays hc hd ht) hq.wireIn
  | fetches => exact hkept s.fetchHead_rxKept (hstays rfl rfl rfl) nofun
  | completes =>
    exact hkept (State.sendOldest_rxKept hw (htx.txOldest_eq hw ▸ htx.oldest_lt)) (hstays rfl rfl rfl) nofun
  | transmits _ hl =>
    exact hkept ((State.transmitted_rxKept hw htx.txTail_lt hl).trans (.of_same rfl (fun _ _ => rfl) rfl rfl))
      (hstays rfl rfl rfl) nofun
  | @deposits f rest hwire hflag hl =>
    have htaken : RxFlow { s with wireIn := rest } k fs := h.of_kept (.of_same rfl (fun _ _ => rfl) rfl rfl) rfl
    have hd : ({ s with wireIn := rest }.depositAtHead f).deliveredFrames = s.deliveredFrames :=
      hstays (State.depositAtHead_cfg _ f) (State.depositAtHead_delivered _ f) (State.depositAtHead_toStack _ f)
    have hframes : takenFrames s ({ s with wireIn := rest }.depositAtHead f) .rxDeposit = [f] := by
      simp [takenFrames, hwire]
    rw [hframes]
    exact ⟨k + 1, htaken.depositAtHead (s := { s with wireIn := rest }) hw hflag hl hd, by rw [hd],
      fun _ => Nat.le_succ k⟩
  | drains hp hflag =>
    obtain ⟨hflow, hpre⟩ := h.passedOn hs hp hflag
    rw [takenFrames_of_wireIn_eq (i := .inBridgeIter) nofun, List.append_nil]
    exact ⟨k - 1, hflow, hpre, fun hi => absurd rfl hi⟩
  | drainsInVain => exact absurd hf (State.raise_ib_ibFatal_ne_none _ _)

/-- A move of ENV changes nothing of what was sent to the stack but who holds it. -/
theorem envMove_deliveredFrames {mv : EnvMove} (hs : Running s) (he : envMove mv s = .next t) :
    t.deliveredFrames = s.deliveredFrames := by
  have hpage : ∀ tag b page, mv = .stackSend tag b page → ∀ c ∈ channelBufs s.toStack, t.msgPage c = s.msgPage c := by
    rintro tag b page rfl c hc
    obtain ⟨hp, hb, rfl⟩ := envMove_stackSend_cases he
    exact (State.setPage_onlyPage hs.wf b hp).others c (hs.owned.apart (.inr hc) (.inr hb))
  rcases envMove_cases he with rfl | ⟨f, -, -, rfl⟩ | ⟨tag, b, page, hmv, -, -, -, rfl⟩ | ⟨msg, rest, -, hm, rfl⟩ |
    ⟨b, -, -, rfl⟩ | ⟨c, -, rfl⟩
  case inr.inr.inl =>
    exact State.deliveredFrames_congr (s.setPage_cfg b page) (s.setPage_delivered b page) (s.setPage_toStack b page)
      (hpage tag b page hmv)
  case inr.inr.inr.inl =>
    rw [State.deliveredFrames, State.deliveredFrames, hm, List.map_cons]
    exact (List.append_cons _ _ _).symm
  all_goals rfl

end

end Sys2Proof.Machine

/-! ### Every frame deposited is sent to the stack (R337) -/

namespace Sys2Proof.Machine

/-- From moment `n` on a frame is sent to the stack. -/
def DeliversFrom (σ : Nat → State) (n : Nat) : Prop := GrowsFrom (fun k => (σ k).deliveredFrames) n

theorem FlowMove.input_same {s t : State} {i : Instr} (h : FlowMove s i t) (hi : i ≠ .inBridgeIter) :
    t.ibPhase = s.ibPhase := by
  cases h with
  | quiet h => exact h.input hi
  | drains | drainsInVain => exact absurd rfl hi
  | fetches | completes | transmits => rfl
  | deposits => simp

theorem envMove_ibPhase {s t : State} {mv : EnvMove} (he : envMove mv s = .next t) : t.ibPhase = s.ibPhase := by
  rcases envMove_cases he with rfl | ⟨f, -, -, rfl⟩ | ⟨tag, b, page, -, -, -, -, rfl⟩ | ⟨msg, rest, -, -, rfl⟩ |
    ⟨b, -, -, rfl⟩ | ⟨c, -, rfl⟩
  case inr.inr.inl => exact s.setPage_ibPhase b page
  all_goals rfl

/-- At launch no frame is on its way in. -/
theorem Launch.rxFlow {s : State} (h : Launch s) (hw : s.cfg.WF) (hd : s.delivered = []) : RxFlow s 0 [] := by
  obtain ⟨-, hr, -⟩ := launchSatisfiesTheInvariants s hw h
  exact ⟨hr, by simp [rxFrames, State.deliveredFrames, hd, h.toStack]⟩

section
variable {σ : Nat → State} {ε : Nat → Event} {n m k : Nat} {fs : List Frame} (h : Execution σ ε)
  (hb : BridgesOnly σ ε) (h0 : Running (σ 0))
include h hb h0

/-- While the input bridge does not run, its phase stands. -/
theorem Execution.input_next (hn : ¬ Runs σ ε n .inBridgeIter) : (σ (n + 1)).ibPhase = (σ n).ibPhase := by
  rcases h.flow_next hb h0 n with ⟨mv, -, he⟩ | ⟨i, hrun, hmove⟩
  · exact envMove_ibPhase he
  · exact hmove.input_same fun hi => hn (hi ▸ hrun)

variable (hnone : ∀ n, (σ n).ibFatal = none)
include hnone

theorem Execution.rxFlow_next (hfl : RxFlow (σ n) k fs) :
    ∃ k', RxFlow (σ (n + 1)) k' (fs ++ depositedBy (σ n) (σ (n + 1)) (ε n)) ∧
      (σ n).deliveredFrames <+: (σ (n + 1)).deliveredFrames ∧ (¬ Runs σ ε n .inBridgeIter → k ≤ k') := by
  have hs := h.running hb h0 n
  rcases h.flow_next hb h0 n with ⟨mv, hmv, he⟩ | ⟨i, hrun, hmove⟩
  · have hd := envMove_deliveredFrames hs he
    rw [hmv, depositedBy, List.append_nil]
    exact ⟨k, hfl.of_kept (envMove_ringsKept hs.wf he).2 hd, hd ▸ List.prefix_rfl, fun _ => Nat.le_refl k⟩
  · obtain ⟨k', hfl', hpre, hle⟩ := hfl.move hs hmove (hnone _)
    obtain ⟨r, hr, hd⟩ := hrun
    rw [hr, depositedBy_of_decode hd]
    exact ⟨k', hfl', hpre, fun hn => hle fun hi => hn ⟨r, hr, hi ▸ hd⟩⟩

/-- At each moment the frames deposited are those sent to the stack and those in the ring. -/
theorem Execution.rxFlow (hfl : RxFlow (σ 0) 0 []) (n : Nat) : ∃ k, RxFlow (σ n) k (depositedFrames σ ε n) := by
  induction n with
  | zero => exact ⟨0, hfl⟩
  | succ n ih =>
    obtain ⟨k, hn⟩ := ih
    obtain ⟨k', hn', -⟩ := h.rxFlow_next hb h0 hnone hn
    exact ⟨k', hn'⟩

theorem Execution.deliveredFrames_prefix (hm : n ≤ m) : (σ n).deliveredFrames <+: (σ m).deliveredFrames :=
  prefix_of_le (l := fun j => (σ j).deliveredFrames) (fun j => by
    obtain ⟨-, -, k, hr⟩ := (h.running hb h0 j).rings
    obtain ⟨-, -, hpre, -⟩ := h.rxFlow_next hb h0 hnone ⟨hr, rfl⟩
    exact hpre) hm

theorem DeliversFrom.mono (hs : DeliversFrom σ m) (hm : n ≤ m) : DeliversFrom σ n :=
  hs.of_later hm (h.deliveredFrames_prefix hb h0 hnone hm)

variable (hfair : FairIb σ ε)
include hfair

/-- While a frame is undrained the input bridge runs, and until then its phase stands. -/
theorem Execution.inBridge_runs (hfl : RxFlow (σ n) k fs) (hk : 0 < k) : ∃ q, n ≤ q ∧ Runs σ ε q .inBridgeIter ∧
    (σ q).ibPhase = (σ n).ibPhase ∧ ∃ k, RxRing (σ q) k ∧ 0 < k := by
  obtain ⟨q₀, hq₀, hruns⟩ := hfair n
  obtain ⟨q, hq, hrun, hall⟩ := exists_until
    (P := fun q => (σ q).ibPhase = (σ n).ibPhase ∧ ∃ k, RxRing (σ q) k ∧ 0 < k)
    (Q := fun q => Runs σ ε q .inBridgeIter) hq₀ ⟨rfl, k, hfl.1, hk⟩ (fun q _ ⟨hp, k, hr, hk⟩ hn => by
      obtain ⟨k', ⟨hr', -⟩, -, hle⟩ := h.rxFlow_next hb h0 hnone ⟨hr, rfl⟩
      exact ⟨(h.input_next hb h0 hn).trans hp, k', hr', hk.trans_le (hle hn)⟩)
    fun _ => hruns ⟨(h.running hb h0 q₀).ready.1, hnone q₀⟩
  exact ⟨q, hq, hrun, hall q hq (Nat.le_refl q)⟩

/-! A frame undrained is sent by a bridge that polls; one that has no page takes one first. -/

theorem Execution.deliversFrom_of_polling {b : Buf} (hfl : RxFlow (σ n) k fs) (hk : 0 < k)
    (hp : (σ n).ibPhase = .polling b) : DeliversFrom σ n := by
  obtain ⟨q, hq, hrun, hphase, k, hr, hk⟩ := h.inBridge_runs hb h0 hnone hfair hfl hk
  have hs := h.running hb h0 q
  have hflag : (σ q).rxFlag (σ q).rxCandidate = true := hr.rxFlag_rxCandidate.trans (decide_eq_true hk)
  have hlen := hr.length_le_of_flag hflag
  have hexec := h.exec_of_runs hrun
  have hgoes := hnone (q + 1)
  cases hc : (σ q).collab.sendFails with
  | true =>
    rw [exec_inBridgeIter_sendFailed hs.ready.1 (hnone q) (hphase.trans hp) hs.ready hr.tail_lt hs.wf hflag hlen hc,
      Host.Outcome.next.injEq] at hexec
    rw [← hexec] at hgoes
    cases hgoes
  | false =>
    rw [exec_inBridgeIter_drains hs.ready.1 (hnone q) (hphase.trans hp) hs.ready hr.tail_lt hs.wf hflag hlen, hc,
      if_neg Bool.false_ne_true, Host.Outcome.next.injEq] at hexec
    have hpassed : σ (q + 1) = (σ q).passedOn b := hexec.symm
    have hsent : DeliversFrom σ q := ⟨q + 1, Nat.le_succ q, by
      simp [hpassed, State.deliveredFrames_length, ← Nat.add_assoc]⟩
    exact hsent.mono h hb h0 hnone hq

theorem Execution.deliversFrom_of_undrained (hfl : RxFlow (σ n) k fs) (hk : 0 < k) : DeliversFrom σ n := by
  cases hp : (σ n).ibPhase with
  | polling b => exact h.deliversFrom_of_polling hb h0 hnone hfair hfl hk hp
  | acquire =>
    obtain ⟨q, hq, hrun, hphase, k, hr, hk⟩ := h.inBridge_runs hb h0 hnone hfair hfl hk
    have ha := (h.running hb h0 q).ready.1
    have hgoes := hnone (q + 1)
    have hexec := h.exec_of_runs hrun
    cases hc : (σ q).collab.acquireFails with
    | true =>
      rw [exec_inBridgeIter_acquireFailed ha (hnone q) (hphase.trans hp) hc, Host.Outcome.next.injEq] at hexec
      rw [← hexec] at hgoes
      cases hgoes
    | false =>
      rw [exec_inBridgeIter_acquires ha (hnone q) (hphase.trans hp) hc, Host.Outcome.next.injEq] at hexec
      have hpolls : (σ (q + 1)).ibPhase = .polling (σ q).freePage := by rw [← hexec]
      have hring : RxRing (σ (q + 1)) k := hexec ▸ hr.transport rfl rfl rfl rfl rfl fun _ _ _ => rfl
      exact (h.deliversFrom_of_polling hb h0 hnone hfair ⟨hring, rfl⟩ hk hpolls).mono h hb h0 hnone
        (hq.trans (Nat.le_succ q))

end

/-- Settles O60: the frames deposited are at every moment those sent to the stack, then those undrained, and while one
is undrained the next is sent. -/
theorem receiveProgress : Obligations.ReceiveProgress := by
  intro σ ε hl hr hw h hb hfair hnone ho hd
  have h0 := hl.running hr hw ho
  have hflow := h.rxFlow hb h0 hnone (hl.rxFlow hw hd)
  have hprefix (n : Nat) : (σ n).deliveredFrames <+: depositedFrames σ ε n := by
    obtain ⟨k, hfl⟩ := hflow n
    exact hfl.deliveredFrames_prefix
  refine fun n => ⟨hprefix n, exists_prefix_of_grows hprefix (fun _ _ => prefix_of_le fun _ => List.prefix_append _ _)
    (fun n hlt => ?_) n⟩
  obtain ⟨k, hfl⟩ := hflow n
  have hlen := hfl.length_eq
  exact h.deliversFrom_of_undrained hb h0 hnone hfair hfl (by omega)

end Sys2Proof.Machine
